-- ==== Sys2Proof/Word.lean ====
section
/-! DEFINITION. The word types of the core (spec/00_scope.md R13): `u8` and `u32`. Everything else the spec
counts (lengths, cursors, widths, frequencies) is an unbounded natural number, as R13 says. -/

namespace Sys2Proof

/-- `u8` (R13): one byte of host memory or of a stream. -/
abbrev Byte := BitVec 8

/-- `u32` (R13, D3): one host-visible register. -/
abbrev Word := BitVec 32

end Sys2Proof
end

