-- ==== Sys2Proof/Config.lean ====
section
/-! DEFINITION. What this core fixes (spec/00_scope.md R11) and the values the spec leaves open as "any value"
(spec/93_implementation_defined.md). The open parameters `BASE`, `busOk` and `codeLengths` (R12) are plain data in
`Machine.Platform`, a field of the state that no step changes: every statement about all states holds for every
choice of them. -/

namespace Sys2Proof.Config

/-- `ID` (R62): "NA", revision 7. -/
def idValue : Word := 0x4E410007#32

/-- The size of host memory in bytes (R105). -/
def memorySize : Nat := 4294967296

/-- `MAX_WINDOW` (R11, R65). -/
def maxWindow : Nat := 32768

/-- `HUFF_BLOCK_SIZE` (R11, R350): the chunk of a static or dynamic block. -/
def huffBlockSize : Nat := 1048576

/-- `RAW_BLOCK_SIZE` (R11, R350, conflict C2): the chunk of a stored block. -/
def rawBlockSize : Nat := 65535

/-- `ADLER_MOD` (R11, R652). -/
def adlerMod : Nat := 65521

/-- `MAX_BIT_WIDTH` (R11, R255). -/
def maxBitWidth : Nat := 15

/-- `MAX_CL_WIDTH` (R11, R255). -/
def maxClWidth : Nat := 7

/-- `LITLEN_FREQ_SIZE` (R11, R370). -/
def litLenFreqSize : Nat := 286

/-- `DIST_FREQ_SIZE` (R11, R370). -/
def distFreqSize : Nat := 30

/-- `CL_ALPHABET_SIZE` (R11). -/
def clAlphabetSize : Nat := 19

/-- Free value: the byte at an address whose contents the spec leaves as "any value" (host memory nothing has
written; `OUT` after a failed or abandoned command, R682, R751, R780). The first argument is the epoch of that
loss, the second the address. No body: nothing can be proved of it. Log entry 2. -/
opaque anyByte : Nat → Nat → Byte

/-- Free value: what a host read returns where the spec says "any value" (`OUT_LEN` and `CHECKSUM` while busy, R795;
a byte of `OUT` while busy, R790). Applied to the state's counter. Log entry 3. -/
opaque anyWord : Nat → Word

end Sys2Proof.Config
end

