-- ==== Sys2Proof/Syntax.lean ====
section
/-! DEFINITION. The instructions of the core: one constructor per row of spec/opcode_table.json (R171). A command is
a `CMD` word (R64, R151); a stream instruction is a block type, a symbol of one of the three alphabets, or a container
record. A constructor's fields are the bits the row leaves free. -/

namespace Sys2Proof

/-- The fields of a `CMD` word beside `OP` (R64): `MODE` [5:4], `WIN_EN` [6], `GZ_STRICT` [7], `CHAIN` [8]. -/
structure CmdFields where
  mode : BitVec 2
  winEn : Bool
  gzStrict : Bool
  chain : Bool
  deriving DecidableEq, Repr

/-- One constructor per row of the opcode table, in the table's order. -/
inductive Instr where
  /-- `DEFLATE`, `OP = 0` (R685). -/
  | deflate (f : CmdFields)
  /-- `DEFLATE_ZLIB`, `OP = 1` (R686). -/
  | deflateZlib (f : CmdFields)
  /-- `INFLATE`, `OP = 2` (R687). -/
  | inflate (f : CmdFields)
  /-- `INFLATE_ZLIB`, `OP = 3` (R688). -/
  | inflateZlib (f : CmdFields)
  /-- `INFLATE_GZIP`, `OP = 4` (R689). -/
  | inflateGzip (f : CmdFields)
  /-- `CRC32`, `OP = 5` (R691). -/
  | crc32 (f : CmdFields)
  /-- `ADLER32`, `OP = 6` (R692). -/
  | adler32 (f : CmdFields)
  /-- `INVALID_OP_7`, `OP = 7` (R684). -/
  | invalidOp7 (f : CmdFields)
  /-- `INVALID_OP_8_15`, `OP = 8 + op` (R684). -/
  | invalidOp8To15 (op : BitVec 3) (f : CmdFields)
  /-- `INVALID_MODE_3`, `MODE = 3` with `OP` 0 or 1 (`zlib`) (R684). -/
  | invalidMode3 (zlib : Bool) (f : CmdFields)
  /-- `BTYPE=0`, a stored block (R451, R355). -/
  | btype0
  /-- `BTYPE=1`, a static block (R452, R356). -/
  | btype1
  /-- `BTYPE=2`, a dynamic block (R453, R357). -/
  | btype2
  /-- `BTYPE=3`, invalid (R454). -/
  | btype3
  /-- `LIT 0-127` (R500). -/
  | lit0To127 (k : BitVec 7)
  /-- `LIT 128-143`, literal `128 + k` (R500). -/
  | lit128To143 (k : BitVec 4)
  /-- `LIT 144-159`, literal `144 + k` (R500). -/
  | lit144To159 (k : BitVec 4)
  /-- `LIT 160-191`, literal `160 + k` (R500). -/
  | lit160To191 (k : BitVec 5)
  /-- `LIT 192-255`, literal `192 + k` (R500). -/
  | lit192To255 (k : BitVec 6)
  /-- `EOB`, symbol 256 (R501). -/
  | eob
  /-- `LENSYM 257` (R520). -/
  | lensym257
  /-- `LENSYM 258` (R521). -/
  | lensym258
  /-- `LENSYM 259` (R522). -/
  | lensym259
  /-- `LENSYM 260` (R523). -/
  | lensym260
  /-- `LENSYM 261` (R524). -/
  | lensym261
  /-- `LENSYM 262` (R525). -/
  | lensym262
  /-- `LENSYM 263` (R526). -/
  | lensym263
  /-- `LENSYM 264` (R527). -/
  | lensym264
  /-- `LENSYM 265` (R528). -/
  | lensym265
  /-- `LENSYM 266` (R529). -/
  | lensym266
  /-- `LENSYM 267` (R530). -/
  | lensym267
  /-- `LENSYM 268` (R531). -/
  | lensym268
  /-- `LENSYM 269` (R532). -/
  | lensym269
  /-- `LENSYM 270` (R533). -/
  | lensym270
  /-- `LENSYM 271` (R534). -/
  | lensym271
  /-- `LENSYM 272` (R535). -/
  | lensym272
  /-- `LENSYM 273` (R536). -/
  | lensym273
  /-- `LENSYM 274` (R537). -/
  | lensym274
  /-- `LENSYM 275` (R538). -/
  | lensym275
  /-- `LENSYM 276` (R539). -/
  | lensym276
  /-- `LENSYM 277` (R540). -/
  | lensym277
  /-- `LENSYM 278` (R541). -/
  | lensym278
  /-- `LENSYM 279` (R542). -/
  | lensym279
  /-- `LENSYM 280` (R543). -/
  | lensym280
  /-- `LENSYM 281` (R544). -/
  | lensym281
  /-- `LENSYM 282` (R545). -/
  | lensym282
  /-- `LENSYM 283` (R546). -/
  | lensym283
  /-- `LENSYM 284` (R547). -/
  | lensym284
  /-- `LENSYM 285` (R548). -/
  | lensym285
  /-- `LENSYM 286-287`, symbol `286 + k` (R549). -/
  | lensym286To287 (k : BitVec 1)
  /-- `DSYM 0` (R551). -/
  | dsym0
  /-- `DSYM 1` (R552). -/
  | dsym1
  /-- `DSYM 2` (R553). -/
  | dsym2
  /-- `DSYM 3` (R554). -/
  | dsym3
  /-- `DSYM 4` (R555). -/
  | dsym4
  /-- `DSYM 5` (R556). -/
  | dsym5
  /-- `DSYM 6` (R557). -/
  | dsym6
  /-- `DSYM 7` (R558). -/
  | dsym7
  /-- `DSYM 8` (R559). -/
  | dsym8
  /-- `DSYM 9` (R560). -/
  | dsym9
  /-- `DSYM 10` (R561). -/
  | dsym10
  /-- `DSYM 11` (R562). -/
  | dsym11
  /-- `DSYM 12` (R563). -/
  | dsym12
  /-- `DSYM 13` (R564). -/
  | dsym13
  /-- `DSYM 14` (R565). -/
  | dsym14
  /-- `DSYM 15` (R566). -/
  | dsym15
  /-- `DSYM 16` (R567). -/
  | dsym16
  /-- `DSYM 17` (R568). -/
  | dsym17
  /-- `DSYM 18` (R569). -/
  | dsym18
  /-- `DSYM 19` (R570). -/
  | dsym19
  /-- `DSYM 20` (R571). -/
  | dsym20
  /-- `DSYM 21` (R572). -/
  | dsym21
  /-- `DSYM 22` (R573). -/
  | dsym22
  /-- `DSYM 23` (R574). -/
  | dsym23
  /-- `DSYM 24` (R575). -/
  | dsym24
  /-- `DSYM 25` (R576). -/
  | dsym25
  /-- `DSYM 26` (R577). -/
  | dsym26
  /-- `DSYM 27` (R578). -/
  | dsym27
  /-- `DSYM 28` (R579). -/
  | dsym28
  /-- `DSYM 29` (R580). -/
  | dsym29
  /-- `DSYM 30-31`, symbol `30 + k` (R581). -/
  | dsym30To31 (k : BitVec 1)
  /-- `CL 0` (R465). -/
  | cl0
  /-- `CL 1` (R465). -/
  | cl1
  /-- `CL 2` (R465). -/
  | cl2
  /-- `CL 3` (R465). -/
  | cl3
  /-- `CL 4` (R465). -/
  | cl4
  /-- `CL 5` (R465). -/
  | cl5
  /-- `CL 6` (R465). -/
  | cl6
  /-- `CL 7` (R465). -/
  | cl7
  /-- `CL 8` (R465). -/
  | cl8
  /-- `CL 9` (R465). -/
  | cl9
  /-- `CL 10` (R465). -/
  | cl10
  /-- `CL 11` (R465). -/
  | cl11
  /-- `CL 12` (R465). -/
  | cl12
  /-- `CL 13` (R465). -/
  | cl13
  /-- `CL 14` (R465). -/
  | cl14
  /-- `CL 15` (R465). -/
  | cl15
  /-- `CL 16` (R466). -/
  | cl16
  /-- `CL 17` (R467). -/
  | cl17
  /-- `CL 18` (R468). -/
  | cl18
  /-- `ZLIB_HEADER_WRITE` (R600). -/
  | zlibHeaderWrite
  /-- `ZLIB_TRAILER_WRITE` (R601). -/
  | zlibTrailerWrite
  /-- `ZLIB_HEADER_READ` (R620, R621): the two header bytes. -/
  | zlibHeaderRead (cmf flg : Byte)
  /-- `ZLIB_TRAILER_READ` (R623): the four trailer bytes as one big-endian value. -/
  | zlibTrailerRead (adler : Word)
  /-- `GZIP_HEADER` (R630): the ten fixed bytes (`mtime` little-endian, R115). -/
  | gzipHeader (id1 id2 cm flg : Byte) (mtime : Word) (xfl os : Byte)
  /-- `GZIP_FEXTRA` (R632). -/
  | gzipFextra
  /-- `GZIP_FNAME` (R633). -/
  | gzipFname
  /-- `GZIP_FCOMMENT` (R634). -/
  | gzipFcomment
  /-- `GZIP_FHCRC` (R635). -/
  | gzipFhcrc
  /-- `GZIP_TRAILER` (R640): the two little-endian trailer values. -/
  | gzipTrailer (crc isize : Word)
  /-- `GZIP_TRAILER_STRICT` (R641): the two little-endian trailer values. -/
  | gzipTrailerStrict (crc isize : Word)
  deriving DecidableEq, Repr

end Sys2Proof
end

