-- ==== Sys2Proof/Machine/State.lean ====
section
/-! DEFINITION. The whole state of the core and of what its step reads (spec/10_state.md): the register block (R61 to
R74), the sequencer (R56), the datapath of a running command (R51 to R55, R75), host memory (R105), the platform's
parameters (R12) and the host's pending moves (R763, R796). Plain data throughout. -/

namespace Sys2Proof.Machine

/-! ## Why a step can stop -/

/-- The machine stops. Both are preconditions of the rules that cannot fail in a run from reset. -/
inductive Fault where
  /-- `EncodeSymbol(T, s)` where `T[s]` does not exist (R263's precondition), raised by the symbol writers. Safe: the
  encoder only codes symbols that have a code. -/
  | encodeSymbolWithoutCode
  /-- An encoding phase with no symbol left to write, raised by the encoder's fetch. Safe: every symbol sequence ends
  with `EndOfBlock` (R356), which leaves the phase. -/
  | encoderQueueEmpty
  /-- A host access to a byte address of 2^32 or more, which host memory does not have (R105), raised by the host's
  moves. Safe. -/
  | outsideAddressSpace
  deriving DecidableEq, Repr

/-- No meaning is given. -/
inductive Refusal where
  /-- An instruction whose arm of `exec` is not written yet. -/
  | notModelled (mnemonic : String)
  /-- `WriteBits(width, bits)` with `width > 16` or `bits >= 2^width` (R201: "a model asserts it"; 93 item 33
  `refuse`), raised by `writeBits`. Safe: no call of a run from reset is outside the domain. -/
  | writeBitsDomain
  /-- A register access that is not 32 bits wide, or whose offset is not a multiple of 4 (R100; 93 item 6 `refuse`),
  raised by the host's register moves. Safe. -/
  | registerAccessForm
  /-- A register access outside `BASE .. BASE + 63` (R61), which is not this core's, raised by the host's register
  moves. Safe. -/
  | notARegisterAddress
  /-- A host store to `IN ∪ OUT` while busy (R790: "a model gives the host no move that writes IN ∪ OUT while busy"; 93
  item 5 `refuse`), raised by the host's store. Safe. -/
  | hostStoreWhileBusy
  /-- A host access to an address the platform does not back (`busOk`, R12); what the platform does is not the core's
  (R109), raised by the host's moves. Safe. -/
  | hostAddressNotBacked
  deriving DecidableEq, Repr

/-! ## Errors of a command (R720) -/

/-- The error kinds a command can end with (R720); `TrailerChecksumMismatch` carries the two checksums (R733). -/
inductive CodecError where
  /-- code 1 (R721) -/
  | invalidHeaderMagic
  /-- code 2 (R722) -/
  | invalidMethod
  /-- code 3 (R723) -/
  | invalidWindowSize
  /-- code 4 (R724) -/
  | presetDictionaryUnsupported
  /-- code 5 (R728) -/
  | headerChecksumMismatch
  /-- code 6 (R729) -/
  | unexpectedEndOfInput
  /-- code 7 (R730) -/
  | invalidBlockType
  /-- code 8 (R731) -/
  | huffmanTableIndexOutOfBounds
  /-- code 9 (R732) -/
  | storedBlockLengthMismatch
  /-- code 10 (R733) -/
  | trailerChecksumMismatch (expected found : Word)
  /-- code 11 (R734) -/
  | distanceTooFarBack
  /-- code 12 (R725) -/
  | outputOverflow
  /-- code 13 (R735) -/
  | invalidCommand
  /-- code 14 (R726) -/
  | invalidBuffer
  /-- code 15 (R727) -/
  | busError
  deriving DecidableEq, Repr

/-! ## The pieces of state -/

/-- The seven operations (R64). -/
inductive Op where
  | deflate
  | deflateZlib
  | inflate
  | inflateZlib
  | inflateGzip
  | crc32
  | adler32
  deriving DecidableEq, Repr

/-- The compressor's block configuration (`CMD.MODE`, R64). -/
inductive Mode where
  | raw
  | fixed
  | dynamic
  deriving DecidableEq, Repr

/-- Where a busy core is in its command (R56: "A command's phases are those of its operation rule"). -/
inductive Phase where
  /-- `START` was written; the `CMD` word is not yet decoded (R680) -/
  | dispatch
  /-- the zlib header is to be written (R600) -/
  | zlibHeaderOut
  /-- the next chunk is to be read (R350) -/
  | loadChunk
  /-- the LZ77 scan of the chunk (R303) -/
  | scanChunk
  /-- the dynamic block's tables are to be built (R357) -/
  | buildTables
  /-- the block header is to be written (R355 to R357) -/
  | writeBlock
  /-- the code-width list of a dynamic header is being written (R375) -/
  | writeCodeLen
  /-- the block's symbols are being written (R358 to R360) -/
  | writeSym
  /-- the distance half of a pointer is to be written (R359) -/
  | writeDist
  /-- the final flush (R377) -/
  | flush
  /-- the zlib trailer is to be written (R601) -/
  | zlibTrailerOut
  /-- the zlib header is to be read (R620) -/
  | zlibHeaderIn
  /-- the ten fixed gzip header bytes are to be read (R630) -/
  | gzipHeader
  /-- an optional gzip header field is to be read (R631) -/
  | gzipOptional
  /-- a block header is to be read (R450) -/
  | readBlock
  /-- the code-width list of a dynamic header is being read (R463) -/
  | readCodeLen
  /-- a literal/length symbol is to be read (R470) -/
  | readSym
  /-- the distance half of a back-reference is to be read (R470) -/
  | readDist
  /-- the zlib trailer is to be read (R623) -/
  | zlibTrailerIn
  /-- the gzip trailer is to be read (R640) -/
  | gzipTrailerIn
  deriving DecidableEq, Repr

/-- The sequencer (R56). `STATUS.BUSY` is 1 exactly when it is not `idle`. The operation of `BUSY(op, phase)` is
`Run.op`. -/
inductive Seq where
  | idle
  | busy (phase : Phase)
  deriving DecidableEq, Repr

/-- An LZ77 symbol (R20, R303). -/
inductive Sym where
  | literal (b : Byte)
  | endOfBlock
  | pointer (length distance : Nat)
  deriving DecidableEq, Repr

/-- `HuffmanCode` (R75, R262): the bit-reversed code and its width. -/
structure HuffCode where
  bits : Nat
  width : Nat
  deriving DecidableEq, Repr

/-- A decode table (R75, R265): `counts[1 .. 15]` and the used symbols sorted by width and symbol. -/
structure DecTable where
  counts : List Nat
  translation : List Nat
  deriving DecidableEq, Repr

/-- The stored fields of the register block (R61 to R74). `ID` and the reserved offsets are constants; `CTRL` and
`STATUS` are assembled from their fields in `Flags.lean`. -/
structure Regs where
  /-- `CTRL.IRQ_EN` (R63) -/
  irqEn : Bool
  /-- `CMD` (R64) -/
  cmd : Word
  /-- `WINDOW` (R65) -/
  window : Word
  /-- `SRC_ADDR` (R66) -/
  srcAddr : Word
  /-- `SRC_LEN` (R67) -/
  srcLen : Word
  /-- `DST_ADDR` (R68) -/
  dstAddr : Word
  /-- `DST_CAP` (R69) -/
  dstCap : Word
  /-- `STATUS.DONE` (R70) -/
  done : Bool
  /-- `STATUS.ERR` (R70) -/
  err : Bool
  /-- `STATUS.ERRCODE` (R70) -/
  errCode : Byte
  /-- `OUT_LEN` (R71) -/
  outLen : Word
  /-- `CHECKSUM` (R72) -/
  checksum : Word
  /-- `ERR_EXPECTED` (R73) -/
  errExpected : Word
  /-- `ERR_FOUND` (R74) -/
  errFound : Word
  deriving DecidableEq, Repr

/-- The operation and configuration of the running command, as its `CMD` word gave them (R56, R680). -/
structure Run where
  op : Op
  /-- `CMD.MODE` of a compression (R685) -/
  mode : Mode
  /-- `windowSize`, absent when LZ77 is disabled (R350, R685) -/
  win : Option Nat
  /-- `CMD.GZ_STRICT` (R641) -/
  strict : Bool
  deriving DecidableEq, Repr

/-- The decoder's datapath. The bit reader is kept as its position alone, which R53 allows ("A model may keep `inBit`
and `outBits` alone"); its registers are in `ReaderRegs.lean`. -/
structure Decoder where
  /-- `inBit` (R53, R56) -/
  inBit : Nat
  /-- `BFINAL` of the current block (R59) -/
  bfinal : Bool
  /-- gzip optional fields still to be read, as `FLG` bits (R631) -/
  gzFlags : Byte
  /-- `HLIT` (R460) -/
  hlit : Nat
  /-- `HDIST` (R460) -/
  hdist : Nat
  /-- the code-width array `v` (R75, R463) -/
  widths : List Nat
  /-- the length of the back-reference whose distance comes next (R470) -/
  length : Nat
  /-- literal/length decode table (R75) -/
  litTable : DecTable
  /-- distance decode table (R75) -/
  distTable : DecTable
  /-- code-length decode table (R75) -/
  clTable : DecTable
  deriving DecidableEq, Repr

/-- The encoder's datapath (R51, R54, R56, R75). -/
structure Encoder where
  /-- `W.tag` (R51) -/
  tag : Word
  /-- `W.bitsWritten` (R51) -/
  bitsWritten : Nat
  /-- the chunk index `c` (R56, R350) -/
  chunkIndex : Nat
  /-- the bytes of the current chunk (R350) -/
  chunk : List Byte
  /-- the LZ77 scan position `i` (R54) -/
  scanPos : Nat
  /-- the `PrefixTable`: 3-byte key to chunk offset, keys strictly rising (R54, R300) -/
  prefixTable : List (Nat × Nat)
  /-- the block's symbols: those the scan has produced, then those still to be written (R303, R356) -/
  syms : List Sym
  /-- literal/length frequency counters (R75, R370) -/
  litFreq : List Nat
  /-- distance frequency counters (R75, R370) -/
  distFreq : List Nat
  /-- code-length frequency counters (R75, R372) -/
  clFreq : List Nat
  /-- literal/length encode table (R75) -/
  litTable : List (Option HuffCode)
  /-- distance encode table (R75) -/
  distTable : List (Option HuffCode)
  /-- code-length encode table (R75) -/
  clTable : List (Option HuffCode)
  /-- `HLIT` (R374) -/
  hlit : Nat
  /-- `HDIST` (R374) -/
  hdist : Nat
  /-- `HCLEN` (R374) -/
  hclen : Nat
  /-- the code-length code's widths `cl` (R373) -/
  clWidths : List Nat
  /-- the code-length symbols still to be written, each with its extra value (R371, R375) -/
  clSeq : List (Nat × Nat)
  deriving DecidableEq, Repr

/-- The checksum registers (R55). -/
structure Sums where
  crc : Word
  s1 : Nat
  s2 : Nat
  deriving DecidableEq, Repr

/-- A stretch of addresses `lo .. hi - 1` whose contents became "any value", and when. -/
structure Lost where
  lo : Nat
  hi : Nat
  epoch : Nat
  deriving DecidableEq, Repr

/-- Host memory (R105): the bytes that have a definite value, addresses strictly rising. An unlisted byte reads as the
free value of the newest lost stretch it lies in, or of epoch 0 (log entry 2). -/
structure Memory where
  cells : List Host.Cell
  lost : List Lost
  deriving DecidableEq, Repr

/-- One choice of the width assignment `codeLengths` (R12, R250): for these frequencies and this limit, these
widths. -/
structure WidthChoice where
  freqs : List Nat
  limit : Nat
  widths : List Nat
  deriving DecidableEq, Repr

/-- The platform's parameters (R12): fixed for a machine, changed by no step. -/
structure Platform where
  /-- `BASE` -/
  base : Nat
  /-- where `busOk` is false: stretches `(lo, hi)` of addresses `lo .. hi - 1` (log entry 5) -/
  unbacked : List (Nat × Nat)
  /-- where `codeLengths` differs from its default R252 to R254 (log entry 6) -/
  widthChoices : List WidthChoice
  deriving DecidableEq, Repr

/-- What the host or the platform does next (R763, R796). -/
inductive HostMove where
  /-- nothing: the command engine takes a step -/
  | engine
  /-- a register write of `width` bytes at a bus address (R100) -/
  | regWrite (addr width : Nat) (v : Word)
  /-- a register read of `width` bytes at a bus address (R100) -/
  | regRead (addr width : Nat)
  /-- a store of bytes to host memory from an address on -/
  | memStore (addr : Nat) (bytes : List Byte)
  /-- a load of one byte of host memory -/
  | memLoad (addr : Nat)
  /-- the reset input (R780) -/
  | reset
  deriving DecidableEq, Repr

/-- The host's side: its pending moves in order, and what its last read returned. -/
structure HostSide where
  moves : List HostMove
  readData : Word
  deriving DecidableEq, Repr

/-- The state of the machine. -/
structure State where
  /-- the register block (R61) -/
  reg : Regs
  /-- the sequencer (R56) -/
  seq : Seq
  /-- the running command (R56, R680) -/
  run : Run
  /-- the decoder's datapath -/
  dec : Decoder
  /-- the encoder's datapath -/
  enc : Encoder
  /-- the checksum registers (R55) -/
  sum : Sums
  /-- `outPos`: bytes written to the destination (R56, R57) -/
  outPos : Nat
  /-- host memory (R105) -/
  mem : Memory
  /-- the platform's parameters (R12) -/
  plat : Platform
  /-- the host's side (R763) -/
  host : HostSide
  /-- the MODEL's own counter: the next free value's number (log entry 3) -/
  free : Nat
  deriving DecidableEq, Repr

/-! ## Reset -/

/-- The register block after reset (R61, R781). -/
def Regs.reset : Regs :=
  { irqEn := false, cmd := 0#32, window := 0x8000#32, srcAddr := 0#32, srcLen := 0#32, dstAddr := 0#32,
    dstCap := 0#32, done := false, err := false, errCode := 0#8, outLen := 0#32, checksum := 0#32,
    errExpected := 0#32, errFound := 0#32 }

/-- The decoder's datapath at the start of a command (R52, R782), and at reset (log entry 1). -/
def Decoder.fresh : Decoder :=
  { inBit := 0, bfinal := false, gzFlags := 0#8, hlit := 0, hdist := 0, widths := [], length := 0,
    litTable := ⟨[], []⟩, distTable := ⟨[], []⟩, clTable := ⟨[], []⟩ }

/-- The encoder's datapath at the start of a command (R51, R54, R782), and at reset (log entry 1). -/
def Encoder.fresh : Encoder :=
  { tag := 0#32, bitsWritten := 0, chunkIndex := 0, chunk := [], scanPos := 0, prefixTable := [], syms := [],
    litFreq := [], distFreq := [], clFreq := [], litTable := [], distTable := [], clTable := [], hlit := 0,
    hdist := 0, hclen := 0, clWidths := [], clSeq := [] }

/-- The checksum registers of a fresh computation (R55), and at reset (log entry 1). -/
def Sums.fresh : Sums := { crc := 0xFFFFFFFF#32, s1 := 1, s2 := 0 }

/-- The machine right after reset (R780, R781): the registers as the spec gives them, the sequencer idle, nothing
listed in memory. The datapath has no reset value in the spec (R780); log entry 1 names these. The platform's
parameters and the empty host queue are log entries 5, 6 and 7. -/
def State.reset : State :=
  { reg := Regs.reset
    seq := .idle
    run := { op := .deflate, mode := .raw, win := none, strict := false }
    dec := Decoder.fresh
    enc := Encoder.fresh
    sum := Sums.fresh
    outPos := 0
    mem := { cells := [], lost := [] }
    plat := { base := 0, unbacked := [], widthChoices := [] }
    host := { moves := [], readData := 0#32 }
    free := 0 }

end Sys2Proof.Machine
end

