-- ==== Sys2Proof/Machine/Checksum.lean ====
section
/-! DEFINITION. CRC-32 and Adler-32 (spec/45_containers_checksums.md R650 to R655). The grouping of CRC bytes and the
Adler reduction schedule are not observable (R650, R653), so both work byte by byte. -/

namespace Sys2Proof.Machine

/-- The nibble table `T` (R651). -/
def crcTable : List Word :=
  [0x00000000#32, 0x1DB71064#32, 0x3B6E20C8#32, 0x26D930AC#32,
   0x76DC4190#32, 0x6B6B51F4#32, 0x4DB26158#32, 0x5005713C#32,
   0xEDB88320#32, 0xF00F9344#32, 0xD6D6A3E8#32, 0xCB61B38C#32,
   0x9B64C2B0#32, 0x86D3D2D4#32, 0xA00AE278#32, 0xBDBDF21C#32]

/-- `T[crc[3:0]]` XORed into the register shifted right by four (R650). -/
def crcNibble (crc : Word) : Word := (crc >>> 4) ^^^ crcTable.getD (crc.toNat % 16) 0#32

/-- One byte through the CRC register, low nibble first (R650). -/
def crcByte (crc : Word) (b : Byte) : Word := crcNibble (crcNibble (crc ^^^ b.setWidth 32))

/-- `CRC32(b)` from the register value `c0` (R650). -/
def crc32From (c0 : Word) (bs : List Byte) : Word := bs.foldl crcByte c0 ^^^ 0xFFFFFFFF#32

/-- `CRC32(b)`, a fresh computation (R650). -/
def crc32Of (bs : List Byte) : Word := crc32From 0xFFFFFFFF#32 bs

/-- One byte through the Adler pair (R652). -/
def adlerByte (p : Nat × Nat) (b : Byte) : Nat × Nat :=
  let s1 := (p.1 + b.toNat) % Config.adlerMod
  (s1, (p.2 + s1) % Config.adlerMod)

/-- `s2 << 16 | s1` (R652). -/
def adlerValue (p : Nat × Nat) : Word := BitVec.ofNat 32 (65536 * p.2 + p.1)

/-- `Adler32(b)` from the pair `p` (R652). -/
def adler32From (p : Nat × Nat) (bs : List Byte) : Word := adlerValue (bs.foldl adlerByte p)

/-- `Adler32(b)`, a fresh computation (R652). -/
def adler32Of (bs : List Byte) : Word := adler32From (1, 0) bs

/-- One byte through every checksum register. -/
def Sums.addByte (u : Sums) (b : Byte) : Sums :=
  let p := adlerByte (u.s1, u.s2) b
  { crc := crcByte u.crc b, s1 := p.1, s2 := p.2 }

/-- Bytes in order through every checksum register. -/
def Sums.addAll (u : Sums) (bs : List Byte) : Sums := bs.foldl Sums.addByte u

/-- The registers a checksum command starts from (R690): fresh, or continued from `v = CHECKSUM`. -/
def Sums.chained (chain : Bool) (v : Word) : Sums :=
  if chain then
    { crc := v ^^^ 0xFFFFFFFF#32
      s1 := (v.toNat % 65536) % Config.adlerMod
      s2 := (v.toNat / 65536) % Config.adlerMod }
  else Sums.fresh

end Sys2Proof.Machine
end

