-- ==== Sys2Proof/Machine/Ops.lean ====
section
/-! DEFINITION. The named operations over memory, the destination and the command's life cycle: sorted lists,
`MemRead`, `MemWrite`, `Emit`, `Back` (spec/20_memory.md R105 to R112), starting a command, ending it, and raising an
error, which is the core's one exception entry (spec/46_host_commands.md R680 to R684, spec/60_exceptions.md R750). -/

namespace Sys2Proof.Machine

/-! ## Lists of key and value pairs, keys strictly rising -/

/-- The value listed for a key. -/
def assocGet {β : Type} : List (Nat × β) → Nat → Option β
  | [], _ => none
  | (k, v) :: rest, a => if a = k then some v else assocGet rest a

/-- List a value for a key, replacing an earlier one, keeping the keys rising. -/
def assocSet {β : Type} : List (Nat × β) → Nat → β → List (Nat × β)
  | [], a, v => [(a, v)]
  | (k, w) :: rest, a, v =>
    if a = k then (a, v) :: rest else if a < k then (a, v) :: (k, w) :: rest else (k, w) :: assocSet rest a v

/-- Drop every key in `lo .. hi - 1`. -/
def assocDrop {β : Type} (l : List (Nat × β)) (lo hi : Nat) : List (Nat × β) :=
  l.filter fun kv => !(decide (lo ≤ kv.1) && decide (kv.1 < hi))

/-- The keys rise strictly. -/
def assocRising {β : Type} : List (Nat × β) → Bool
  | [] => true
  | [_] => true
  | a :: b :: rest => decide (a.1 < b.1) && assocRising (b :: rest)

/-! ## Host memory (R105) -/

/-- The canonical form: addresses strictly rising and inside the address space (R105). No listed byte equals "what an
unlisted byte reads as", since an unlisted byte has no definite value (log entry 2). -/
def Memory.wf (m : Memory) : Bool :=
  assocRising m.cells && m.cells.all fun c => decide (c.1 < Config.memorySize)

/-- The epoch whose free value an unlisted address reads as: that of the newest lost stretch it lies in, else 0. -/
def Memory.epochAt (m : Memory) (a : Nat) : Nat :=
  match m.lost.find? fun r => decide (r.lo ≤ a) && decide (a < r.hi) with
  | some r => r.epoch
  | none => 0

/-- The byte at an address; what an unlisted address reads as is decided here and only here (log entry 2). -/
def Memory.read (m : Memory) (a : Nat) : Byte :=
  match assocGet m.cells a with
  | some b => b
  | none => Config.anyByte (m.epochAt a) a

/-- Store one byte. -/
def Memory.write (m : Memory) (a : Nat) (b : Byte) : Memory := { m with cells := assocSet m.cells a b }

/-- Store bytes from an address on. -/
def Memory.writeAll (m : Memory) (a : Nat) : List Byte → Memory
  | [] => m
  | b :: rest => (m.write a b).writeAll (a + 1) rest

/-- The bytes at `lo .. hi - 1` become "any value". -/
def Memory.lose (m : Memory) (lo hi epoch : Nat) : Memory :=
  { cells := assocDrop m.cells lo hi, lost := { lo := lo, hi := hi, epoch := epoch } :: m.lost }

/-- `busOk(addr)` (R12, R110): an address of the address space that no unbacked stretch holds. -/
def Platform.busOk (p : Platform) (a : Nat) : Bool :=
  decide (a < Config.memorySize) && !(p.unbacked.any fun r => decide (r.1 ≤ a) && decide (a < r.2))

/-! ## How a step of the rules ends -/

/-- The result of a step of the rules: it goes on, raises an error (R18: "A rule's pseudocode that calls a sub-rule
which raises stops at that call"), or stops the model. The state beside an error is the one the rules had reached. -/
inductive Res (α : Type) where
  | ok (a : α) (s : State)
  | raised (e : CodecError) (s : State)
  | fault (f : Fault)
  | refused (r : Refusal)
  deriving Repr

/-- One step of the rules after another. -/
def Res.andThen {α β : Type} (r : Res α) (k : α → State → Res β) : Res β :=
  match r with
  | .ok a s => k a s
  | .raised e s => .raised e s
  | .fault f => .fault f
  | .refused q => .refused q

/-! ## Registers as numbers -/

/-- Where output byte `k` is stored: `DST_ADDR + k` (R106, R696). -/
def State.dstByte (s : State) (k : Nat) : Nat := s.reg.dstAddr.toNat + k

/-- Where input byte `k` lies: `SRC_ADDR + k` (R106, R696). -/
def State.srcByte (s : State) (k : Nat) : Nat := s.reg.srcAddr.toNat + k

/-- `STATUS.BUSY` (R70): the sequencer is not idle (R56). -/
def State.busy (s : State) : Bool := s.seq != .idle

/-- Ops 0 to 4 have an output region (R106). -/
def Op.hasOutput : Op → Bool
  | .deflate | .deflateZlib | .inflate | .inflateZlib | .inflateGzip => true
  | .crc32 | .adler32 => false

/-- Ops 0 and 1 run the encoder. -/
def Op.encodes : Op → Bool
  | .deflate | .deflateZlib => true
  | .inflate | .inflateZlib | .inflateGzip | .crc32 | .adler32 => false

/-- `a` lies in `IN` (R106). -/
def State.inSrc (s : State) (a : Nat) : Bool :=
  decide (s.reg.srcAddr.toNat ≤ a) && decide (a < s.reg.srcAddr.toNat + s.reg.srcLen.toNat)

/-- `a` lies in `[DST_ADDR, DST_ADDR + DST_CAP)` (R106). -/
def State.inDst (s : State) (a : Nat) : Bool :=
  decide (s.reg.dstAddr.toNat ≤ a) && decide (a < s.reg.dstAddr.toNat + s.reg.dstCap.toNat)

/-- The `CMD` register names an operation with an output region, `OP` 0 to 4 (R106). -/
def State.cmdHasOutput (s : State) : Bool := decide (s.reg.cmd.toNat % 16 ≤ 4)

/-! ## Small updates -/

/-- `seq <- BUSY(op, p)` (R56). -/
def State.goto (s : State) (p : Phase) : State := { s with seq := .busy p }

/-- Set `inBit`. -/
def State.setInBit (s : State) (n : Nat) : State := { s with dec := { s.dec with inBit := n } }

/-! ## The exception entry (R750) -/

/-- The error's code (R720). -/
def CodecError.code : CodecError → Byte
  | .invalidHeaderMagic => 1#8
  | .invalidMethod => 2#8
  | .invalidWindowSize => 3#8
  | .presetDictionaryUnsupported => 4#8
  | .headerChecksumMismatch => 5#8
  | .unexpectedEndOfInput => 6#8
  | .invalidBlockType => 7#8
  | .huffmanTableIndexOutOfBounds => 8#8
  | .storedBlockLengthMismatch => 9#8
  | .trailerChecksumMismatch _ _ => 10#8
  | .distanceTooFarBack => 11#8
  | .outputOverflow => 12#8
  | .invalidCommand => 13#8
  | .invalidBuffer => 14#8
  | .busError => 15#8

/-- What goes to `ERR_EXPECTED` (R73, R750): 0 but for `TrailerChecksumMismatch`. -/
def CodecError.expected : CodecError → Word
  | .trailerChecksumMismatch e _ => e
  | _ => 0#32

/-- What goes to `ERR_FOUND` (R74, R750): 0 but for `TrailerChecksumMismatch`. -/
def CodecError.found : CodecError → Word
  | .trailerChecksumMismatch _ f => f
  | _ => 0#32

/-- The error was raised by `Validate`, before any memory access (R683). -/
def CodecError.beforeMemory : CodecError → Bool
  | .invalidCommand | .invalidBuffer => true
  | _ => false

/-- Host memory with `OUT` holding any value from here on (R682, R751, R780; 93 items 1 and 29). -/
def State.lostMem (s : State) : Memory :=
  s.mem.lose s.reg.dstAddr.toNat (s.reg.dstAddr.toNat + s.reg.dstCap.toNat) (s.free + 1)

/-- Whether an error leaves `OUT` holding any value: not one from `Validate`, before any memory access (R683), and not
one of an operation without an `OUT` (R106). -/
def State.losesOut (s : State) (e : CodecError) : Bool := !e.beforeMemory && s.run.op.hasOutput

/-- `raise E(info)` (R750, R682), the one exception entry: the command stops, `OUT_LEN` is 0, `ERRCODE` and for code 10
the two checksums are recorded, `BUSY` falls and `ERR` rises. `CHECKSUM` keeps its value (R751). `OUT` holds any value
(`losesOut`, log entry 2). There is no return: the host clears `ERR` or starts another command (R755). -/
def State.raise (s : State) (e : CodecError) : State :=
  { s with
    reg := { s.reg with
      outLen := 0#32, errCode := e.code, errExpected := e.expected, errFound := e.found, err := true }
    seq := .idle
    mem := if s.losesOut e then s.lostMem else s.mem
    free := if s.losesOut e then s.free + 1 else s.free }

/-- A finished step of the rules as an outcome: an error is a next state, the one `raise` gives. -/
def Res.outcome (r : Res Unit) : Host.Outcome State Fault Refusal :=
  match r with
  | .ok _ s => .next s
  | .raised e s => .next (s.raise e)
  | .fault f => .fault f
  | .refused q => .refused q

/-! ## Memory primitives -/

/-- `MemRead(addr, 1)` (R110). -/
def memRead (a : Nat) (s : State) : Res Byte :=
  if s.plat.busOk a then .ok (s.mem.read a) s else .raised .busError s

/-- `MemRead(addr, n)` (R110): the bytes in increasing address order, up to the first one not backed. -/
def memReadAll (a : Nat) : Nat → State → Res (List Byte)
  | 0, s => .ok [] s
  | n + 1, s =>
    (memRead a s).andThen fun b s =>
    (memReadAll (a + 1) n s).andThen fun bs s => .ok (b :: bs) s

/-- `MemWrite(addr, 1, [b])` (R111). -/
def memWrite (a : Nat) (b : Byte) (s : State) : Res Unit :=
  if s.plat.busOk a then .ok () { s with mem := s.mem.write a b } else .raised .busError s

/-- `Emit(b)` (R112). -/
def emit (b : Byte) (s : State) : Res Unit :=
  if s.outPos = s.reg.dstCap.toNat then .raised .outputOverflow s
  else (memWrite (s.dstByte s.outPos) b s).andThen fun _ s => .ok () { s with outPos := s.outPos + 1 }

/-- `Emit(b)` of a decompressed byte: the checksum registers run over the output in order (R655). -/
def emitOut (b : Byte) (s : State) : Res Unit :=
  (emit b s).andThen fun _ s => .ok () { s with sum := s.sum.addByte b }

/-- `Back(d)` (R112), for `1 <= d <= outPos`, which `Copy` checks first (R471). -/
def back (d : Nat) (s : State) : Res Byte := memRead (s.dstByte (s.outPos - d)) s

/-! ## The life cycle of a command -/

/-- The two half-open regions `[a, a + m)` and `[b, b + n)` share an address. -/
def regionsMeet (a m b n : Nat) : Bool := decide (a < b + n) && decide (b < a + m)

/-- The region check (R107): `IN` alone for ops 5 and 6, `IN` and `OUT` for ops 0 to 4 (R683). -/
def Regs.buffersOk (r : Regs) (op : Op) : Bool :=
  decide (r.srcAddr.toNat + r.srcLen.toNat ≤ Config.memorySize) &&
  (!op.hasOutput ||
    (decide (r.dstAddr.toNat + r.dstCap.toNat ≤ Config.memorySize) &&
     !(decide (0 < r.srcLen.toNat) && decide (0 < r.dstCap.toNat) &&
       regionsMeet r.srcAddr.toNat r.srcLen.toNat r.dstAddr.toNat r.dstCap.toNat)))

/-- The write of 1 to `CTRL.START` while idle (R680, first two lines): the results are cleared and the core is busy;
the configuration is frozen from here on (R103). The next engine step decodes the `CMD` word. -/
def State.start (s : State) : State :=
  { s with
    reg := { s.reg with
      done := false, err := false, errCode := 0#8, outLen := 0#32, errExpected := 0#32, errFound := 0#32 }
    seq := .busy .dispatch }

/-- A fresh datapath (R51 to R55, R680, R782) for a command. -/
def State.freshDatapath (s : State) (run : Run) : State :=
  { s with run := run, dec := Decoder.fresh, enc := Encoder.fresh, sum := Sums.fresh, outPos := 0 }

/-- The rest of `START` for a valid `OP` (R680, R683): the region check, then a fresh datapath and the operation's
first phase. -/
def beginCommand (run : Run) (first : Phase) (s : State) : Res Unit :=
  if s.reg.buffersOk run.op then .ok () ((s.freshDatapath run).goto first)
  else .raised .invalidBuffer { s with run := run }

/-- The value a successful command leaves in `CHECKSUM` (R72). -/
def State.finalChecksum (s : State) : Word :=
  match s.run.op with
  | .deflate | .inflate => s.reg.checksum
  | .inflateGzip | .crc32 => s.sum.crc ^^^ 0xFFFFFFFF#32
  | .deflateZlib | .inflateZlib | .adler32 => adlerValue (s.sum.s1, s.sum.s2)

/-- The successful end of a command (R681). -/
def State.finish (s : State) : State :=
  { s with
    reg := { s.reg with
      outLen := if s.run.op.hasOutput then BitVec.ofNat 32 s.outPos else 0#32
      checksum := s.finalChecksum
      done := true }
    seq := .idle }

end Sys2Proof.Machine
end

