-- ==== Sys2Proof/Machine/BitStream.lean ====
section
/-! DEFINITION. The bit-stream writer and reader (spec/40_bitstream.md). The writer keeps its registers (R202), since
they decide when a byte is emitted; the reader keeps its position `inBit` (R210, R53). -/

namespace Sys2Proof.Machine

/-! ## Writer -/

/-- Set the writer's registers. -/
def State.setWriter (s : State) (tag : Word) (n : Nat) : State :=
  { s with enc := { s.enc with tag := tag, bitsWritten := n } }

/-- `WriteBits(width, bits)` (R201, R202). -/
def writeBits (width bits : Nat) (s : State) : Res Unit :=
  if 16 < width ∨ 2 ^ width ≤ bits then .refused .writeBitsDomain
  else
    let tag := s.enc.tag ||| (BitVec.ofNat 32 bits <<< s.enc.bitsWritten)
    let n := s.enc.bitsWritten + width
    if 16 ≤ n then
      (emit (tag.extractLsb' 0 8) (s.setWriter tag n)).andThen fun _ s =>
      (emit (tag.extractLsb' 8 8) s).andThen fun _ s => .ok () (s.setWriter (tag >>> 16) (n - 16))
    else .ok () (s.setWriter tag n)

/-- `Flush()` (R204), its loop unrolled by a bound on the bytes left. -/
def flushLoop : Nat → State → Res Unit
  | 0, s => .ok () s
  | fuel + 1, s =>
    if 0 < s.enc.bitsWritten then
      (emit (s.enc.tag.extractLsb' 0 8) s).andThen fun _ s =>
      flushLoop fuel (s.setWriter (s.enc.tag >>> 8) (s.enc.bitsWritten - 8))
    else .ok () s

/-- `Flush()` (R204): the bits left as whole bytes, the last one padded with 0, then both registers 0. Each pass takes 8
of the `bitsWritten` bits, so `bitsWritten` passes are enough. -/
def flush (s : State) : Res Unit :=
  (flushLoop s.enc.bitsWritten s).andThen fun _ s => .ok () (s.setWriter 0#32 0)

/-- `AlignOut()` (R206). -/
def alignOut (s : State) : Res Unit := writeBits ((8 - s.enc.bitsWritten % 8) % 8) 0 s

/-- Bytes written as stream elements of 8 bits (R355). -/
def writeBytes : List Byte → State → Res Unit
  | [], s => .ok () s
  | b :: rest, s => (writeBits 8 b.toNat s).andThen fun _ s => writeBytes rest s

/-! ## Reader -/

/-- The next stream bit, whose presence was checked: bit `inBit mod 8` of input byte `inBit div 8` (R113, R210). The
byte's `BusError` is raised here, when a bit of it is first used (R746, R752). -/
def nextBit (s : State) : Res Nat :=
  (memRead (s.srcByte (s.dec.inBit / 8)) s).andThen fun b s =>
  .ok (b.toNat / 2 ^ (s.dec.inBit % 8) % 2) (s.setInBit (s.dec.inBit + 1))

/-- The next `n` bits, the first one least significant (R16, R210). -/
def takeBits : Nat → State → Res Nat
  | 0, s => .ok 0 s
  | n + 1, s =>
    (nextBit s).andThen fun b s =>
    (takeBits n s).andThen fun v s => .ok (b + 2 * v) s

/-- `ReadBits(n)` (R210): `UnexpectedEndOfInput` when the `n` bits are not all present (R212). -/
def readBits (n : Nat) (s : State) : Res Nat :=
  if 8 * s.reg.srcLen.toNat < s.dec.inBit + n then .raised .unexpectedEndOfInput s else takeBits n s

/-- `ReadBitsBase(n, base)` (R213). -/
def readBitsBase (n base : Nat) (s : State) : Res Nat :=
  (readBits n s).andThen fun v s => .ok (base + v) s

/-- `AlignIn()` (R215): to the next multiple of 8; it never fails. -/
def alignIn (s : State) : State := s.setInBit (8 * ((s.dec.inBit + 7) / 8))

/-- `n` stored data bytes: `Emit(ReadBits(8))` each (R451). -/
def copyStored : Nat → State → Res Unit
  | 0, s => .ok () s
  | n + 1, s =>
    (readBits 8 s).andThen fun v s =>
    (emitOut (BitVec.ofNat 8 v) s).andThen fun _ s => copyStored n s

end Sys2Proof.Machine
end

