-- ==== Sys2Proof/Machine/Huffman.lean ====
section
/-! DEFINITION. The canonical Huffman coder (spec/41_huffman.md): the width assignment (R250 to R257), the canonical
codes (R261, R262), the encode and decode tables (R75, R265), and coding one symbol (R263, R266). -/

namespace Sys2Proof.Machine

/-! ## Width assignment: length-limited package-merge -/

/-- An item of package-merge (R253): a weight and the symbols packed in it. -/
structure Package where
  weight : Nat
  syms : List Nat
  deriving DecidableEq, Repr

/-- Insert an item behind every item of no greater weight: a stable sort's step. -/
def insertPackage (p : Package) : List Package → List Package
  | [] => [p]
  | q :: rest => if q.weight ≤ p.weight then q :: insertPackage p rest else p :: q :: rest

/-- `leaves` (R253): the used symbols, stably sorted by weight, equal weights in increasing symbol order (R251). -/
def leaves (f : List Nat) : List Package :=
  (f.zipIdx.filter fun x => decide (0 < x.1)).foldl (fun l x => insertPackage ⟨x.1, [x.2]⟩ l) []

/-- `packages` (R253): adjacent pairs, an odd last item dropped. -/
def packPairs : List Package → List Package
  | p :: q :: rest => ⟨p.weight + q.weight, p.syms ++ q.syms⟩ :: packPairs rest
  | _ => []

/-- `Merge(leaves, packages)` (R254): by weight, each list's order kept, the leaf first on equal weight. The first
argument bounds the recursion by the items left. -/
def mergeItems : Nat → List Package → List Package → List Package
  | 0, _, _ => []
  | _ + 1, [], ps => ps
  | _ + 1, ls, [] => ls
  | fuel + 1, l :: ls, p :: ps =>
    if l.weight ≤ p.weight then l :: mergeItems fuel ls (p :: ps) else p :: mergeItems fuel (l :: ls) ps

/-- The `repeat` of R253. -/
def mergeRounds (ls : List Package) : Nat → List Package
  | 0 => ls
  | n + 1 =>
    let ps := packPairs (mergeRounds ls n)
    mergeItems (ls.length + ps.length) ls ps

/-- The default width assignment (R251, R252, R253). -/
def defaultWidths (f : List Nat) (limit : Nat) : List Nat :=
  let ls := leaves f
  match ls with
  | [] => f.map fun _ => 0
  | [_] => f.map fun x => if 0 < x then 1 else 0
  | _ =>
    let chosen := ((mergeRounds ls (limit - 1)).take (2 * ls.length - 2)).flatMap Package.syms
    (List.range f.length).map fun s => chosen.count s

/-- `sum over used s of 2^(limit - w[s])`: `2^limit` exactly when the widths are complete (R257 (3)). -/
def kraftSum (limit : Nat) (w : List Nat) : Nat :=
  ((w.filter fun x => decide (0 < x)).map fun x => 2 ^ (limit - x)).sum

/-- The contract (1) to (3) that every width assignment obeys (R257). -/
def widthsLegal (f : List Nat) (limit : Nat) (w : List Nat) : Bool :=
  decide (w.length = f.length) &&
  (f.zip w).all (fun x => (decide (x.2 = 0) == decide (x.1 = 0)) && decide (x.2 ≤ limit)) &&
  (match (w.filter fun x => decide (0 < x)) with
   | [] => true
   | [x] => decide (x = 1)
   | _ => decide (kraftSum limit w = 2 ^ limit))

/-- `Widths(f, L)` (R250), the parameter `codeLengths` (R12): the platform's choice where it names a legal one for these
operands, else the default (log entry 6). -/
def Platform.codeLengths (p : Platform) (f : List Nat) (limit : Nat) : List Nat :=
  match p.widthChoices.find? fun c => decide (c.freqs = f) && decide (c.limit = limit) && widthsLegal f limit c.widths with
  | some c => c.widths
  | none => defaultWidths f limit

/-! ## Canonical codes -/

/-- `first[b]` (R261): `first[1] = 0`, `first[b] = (first[b-1] + count[b-1]) << 1`. -/
def firstCode (w : List Nat) : Nat → Nat
  | 0 => 0
  | 1 => 0
  | b + 2 => 2 * (firstCode w (b + 1) + w.count (b + 1))

/-- `C[s]` (R261, second form): the `j`-th symbol of width `b` in increasing order gets `first[b] + j`. -/
def canonicalCode (w : List Nat) (s : Nat) : Nat :=
  let b := w.getD s 0
  firstCode w b + (w.take s).count b

/-- The symbols of one width in increasing order. -/
def symsOfWidth (w : List Nat) (b : Nat) : List Nat :=
  (w.zipIdx.filter fun x => decide (x.1 = b)).map Prod.snd

/-- The used symbols sorted by width and symbol (R261, R265). -/
def canonicalOrder (w : List Nat) : List Nat := (List.range' 1 Config.maxBitWidth).flatMap (symsOfWidth w)

/-- The code assignment of R261 as its loop runs: the symbols in canonical order, each with its code. `prev` is the code
and width before. -/
def assignCodes (w : List Nat) : Option (Nat × Nat) → List Nat → List (Nat × Nat)
  | _, [] => []
  | none, s :: rest => (s, 0) :: assignCodes w (some (0, w.getD s 0)) rest
  | some (code, width), s :: rest =>
    let c := (code + 1) * 2 ^ (w.getD s 0 - width)
    (s, c) :: assignCodes w (some (c, w.getD s 0)) rest

/-- `Canonical(w)` (R261, first form). -/
def canonicalCodes (w : List Nat) : List (Nat × Nat) := assignCodes w none (canonicalOrder w)

/-- `rev_w(v)` (R14): bit `k` of the result is bit `w - 1 - k` of `v`. -/
def revBits : Nat → Nat → Nat
  | 0, _ => 0
  | n + 1, v => v % 2 * 2 ^ n + revBits n (v / 2)

/-- The encode table of a width array (R75, R262): no entry for a symbol of width 0. -/
def encodeTable (w : List Nat) : List (Option HuffCode) :=
  (List.range w.length).map fun s =>
    if w.getD s 0 = 0 then none
    else some { bits := revBits (w.getD s 0) (canonicalCode w s), width := w.getD s 0 }

/-- `EncodeSymbol(T, s)` (R263). -/
def encodeSymbol (table : List (Option HuffCode)) (sym : Nat) (s : State) : Res Unit :=
  match table[sym]? with
  | some (some c) => writeBits c.width c.bits s
  | _ => .fault .encodeSymbolWithoutCode

/-! ## Decode table and descent -/

/-- `DecodeTable(w)` (R265). -/
def decodeTable (w : List Nat) : DecTable :=
  { counts := (List.range' 1 Config.maxBitWidth).map fun b => w.count b
    translation := canonicalOrder w }

/-- The loop of `DecodeSymbol` (R266) from a width on: `cur` and `sum` as before that width's bit. The test
`cur - counts[b] < 0` is written `cur < counts[b]`, and `translation[sum + cur]`, both after the update, is
`translation[sum + cur]` before it. -/
def descend (translation : List Nat) : List Nat → Nat → Nat → State → Res Nat
  | [], _, _, s => .raised .huffmanTableIndexOutOfBounds s
  | c :: counts, cur, sum, s =>
    (readBits 1 s).andThen fun bit s =>
    if 2 * cur + bit < c then
      match translation[sum + (2 * cur + bit)]? with
      | some x => .ok x s
      | none => .raised .huffmanTableIndexOutOfBounds s
    else descend translation counts (2 * cur + bit - c) (sum + c) s

/-- `DecodeSymbol` (R266): at most 15 bits, one per entry of `counts`. -/
def decodeSymbol (t : DecTable) (s : State) : Res Nat := descend t.translation t.counts 0 0 s

/-! ## The fixed codes -/

/-- The 288 fixed literal/length widths (R156). -/
def fixedLitLenWidths : List Nat :=
  List.replicate 144 8 ++ List.replicate 112 9 ++ List.replicate 24 7 ++ List.replicate 8 8

/-- The 32 fixed distance widths (R157). -/
def fixedDistWidths : List Nat := List.replicate 32 5

end Sys2Proof.Machine
end

