-- ==== Sys2Proof/Machine/Operands.lean ====
section
/-! DEFINITION. Operand assembly (spec/30_encoding.md R159, R161, R163, R167; spec/43_deflate_encoder.md R352, R354) and
the run-length code of the dynamic header (R371). -/

namespace Sys2Proof.Machine

/-- `LEN_BASE` of symbols 257..285 (R159). -/
def lenBase : List Nat :=
  [3, 4, 5, 6, 7, 8, 9, 10, 11, 13, 15, 17, 19, 23, 27, 31, 35, 43, 51, 59, 67, 83, 99, 115, 131, 163, 195, 227, 258]

/-- `LEN_EXTRA` of symbols 257..285 (R159). -/
def lenExtra : List Nat :=
  [0, 0, 0, 0, 0, 0, 0, 0, 1, 1, 1, 1, 2, 2, 2, 2, 3, 3, 3, 3, 4, 4, 4, 4, 5, 5, 5, 5, 0]

/-- `DIST_BASE` of symbols 0..29 (R163). -/
def distBase : List Nat :=
  [1, 2, 3, 4, 5, 7, 9, 13, 17, 25, 33, 49, 65, 97, 129, 193, 257, 385, 513, 769, 1025, 1537, 2049, 3073, 4097, 6145,
   8193, 12289, 16385, 24577]

/-- `DIST_EXTRA` of symbols 0..29 (R163). -/
def distExtra : List Nat :=
  [0, 0, 0, 0, 1, 1, 2, 2, 3, 3, 4, 4, 5, 5, 6, 6, 7, 7, 8, 8, 9, 9, 10, 10, 11, 11, 12, 12, 13, 13]

/-- `CL_ORDER` (R161). -/
def clOrder : List Nat := [16, 17, 18, 0, 8, 7, 9, 6, 10, 5, 11, 4, 12, 3, 13, 2, 14, 1, 15]

/-- The index of the greatest base that is at most `v`, in a rising list that starts at or below `v`. -/
def greatestBase (bases : List Nat) (v : Nat) : Nat := (bases.filter fun b => decide (b ≤ v)).length - 1

/-- `LenSym(len)` (R352): the symbol and the extra value. -/
def lenSym (len : Nat) : Nat × Nat :=
  if len = 258 then (285, 0)
  else
    let k := greatestBase (lenBase.take 28) len
    (257 + k, len - lenBase.getD k 0)

/-- `DistSym(d)` (R354): the symbol and the extra value. -/
def distSym (d : Nat) : Nat × Nat :=
  let t := greatestBase distBase d
  (t, d - distBase.getD t 0)

/-! ## Run-length code of the width list (R371) -/

/-- The repeat count taken from a run of `r` with the greatest count `most` (R371): never leaving 1 or 2. -/
def repeatCount (most r : Nat) : Nat :=
  let t := min r most
  if t < r ∧ r < t + 3 then r - 3 else t

/-- The `while r > 0` of a zero run: `CL 17` up to 10, `CL 18` above (R371). -/
def rleZeros : Nat → Nat → List (Nat × Nat)
  | 0, _ => []
  | fuel + 1, r =>
    if r = 0 then []
    else
      let t := repeatCount 138 r
      (if t ≤ 10 then (17, t - 3) else (18, t - 11)) :: rleZeros fuel (r - t)

/-- The `while r > 0` of a nonzero run: `CL 16` (R371). -/
def rleRepeats : Nat → Nat → List (Nat × Nat)
  | 0, _ => []
  | fuel + 1, r =>
    if r = 0 then []
    else
      let t := repeatCount 6 r
      (16, t - 3) :: rleRepeats fuel (r - t)

/-- The symbols of a run of `r` widths `x`, each with its extra value (R371). -/
def rleRun (x r : Nat) : List (Nat × Nat) :=
  if x = 0 then
    if r < 3 then List.replicate r (0, 0) else rleZeros r r
  else
    (x, 0) :: (if r - 1 < 3 then List.replicate (r - 1) (x, 0) else rleRepeats (r - 1) (r - 1))

/-- The runs of equal neighbours of a list: value and length. -/
def runsOf : List Nat → List (Nat × Nat)
  | [] => []
  | x :: rest =>
    match runsOf rest with
    | (y, n) :: more => if x = y then (y, n + 1) :: more else (x, 1) :: (y, n) :: more
    | [] => [(x, 1)]

/-- `RLE(v)` (R371): the code-length symbols, each with its extra value. -/
def rle (v : List Nat) : List (Nat × Nat) := (runsOf v).flatMap fun run => rleRun run.1 run.2

/-! ## Frequencies and header counts (R370, R372, R374) -/

/-- Count one more occurrence of an index. -/
def bump (f : List Nat) (i : Nat) : List Nat := f.set i (f.getD i 0 + 1)

/-- One symbol's part of `Freqs` (R370). -/
def countSym (f : List Nat × List Nat) : Sym → List Nat × List Nat
  | .literal b => (bump f.1 b.toNat, f.2)
  | .endOfBlock => (bump f.1 256, f.2)
  | .pointer len d => (bump f.1 (lenSym len).1, bump f.2 (distSym d).1)

/-- `Freqs(syms)` (R370). -/
def freqs (syms : List Sym) : List Nat × List Nat :=
  syms.foldl countSym (List.replicate Config.litLenFreqSize 0, List.replicate Config.distFreqSize 0)

/-- `CLFreqs(seq)` (R372). -/
def clFreqs (seq : List (Nat × Nat)) : List Nat :=
  seq.foldl (fun f c => bump f c.1) (List.replicate Config.clAlphabetSize 0)

/-- One more than the greatest index of a nonzero entry, 0 if there is none. -/
def usedPrefix : List Nat → Nat
  | [] => 0
  | x :: rest => if usedPrefix rest = 0 then (if x = 0 then 0 else 1) else usedPrefix rest + 1

end Sys2Proof.Machine
end

