-- ==== Sys2Proof/Machine/Lz77.lean ====
section
/-! DEFINITION. The LZ77 match finder (spec/42_lz77.md R300 to R309): the prefix table, one scanned position, and the
scan of a chunk. The machine scans one position a step (R694's scan loop). -/

namespace Sys2Proof.Machine

/-- `Key(p)` (R301). -/
def keyAt (buf : List Byte) (p : Nat) : Nat :=
  65536 * (buf.getD p 0#8).toNat + 256 * (buf.getD (p + 1) 0#8).toNat + (buf.getD (p + 2) 0#8).toNat

/-- How many bytes of `xs` and `ys` agree from the front, at most `cap` (R306). -/
def agreeing : Nat → List Byte → List Byte → Nat
  | cap + 1, x :: xs, y :: ys => if x = y then agreeing cap xs ys + 1 else 0
  | _, _, _ => 0

/-- The length of the match of position `i` with the earlier position `j` (R306): 3 and the extension, which stops at
255, at the first unequal pair and at the end of the chunk. -/
def matchLength (buf : List Byte) (i j : Nat) : Nat := 3 + agreeing 255 (buf.drop (i + 3)) (buf.drop (j + 3))

/-- `Insert(Key(p), p)` for the `count` positions from `p` on that have a full key (R307). -/
def insertKeys (buf : List Byte) : Nat → Nat → List (Nat × Nat) → List (Nat × Nat)
  | 0, _, table => table
  | count + 1, p, table =>
    insertKeys buf count (p + 1) (if p + 3 ≤ buf.length then assocSet table (keyAt buf p) p else table)

/-- The scan position, the prefix table and the symbols produced so far (R54, R303). -/
structure Scan where
  pos : Nat
  table : List (Nat × Nat)
  out : List Sym
  deriving DecidableEq, Repr

/-- The body of R303's loop: one scanned position, or the tail (R304). -/
def lzStep (window : Nat) (buf : List Byte) (c : Scan) : Scan :=
  if buf.length < c.pos + 3 then
    { c with pos := buf.length, out := c.out ++ (buf.drop c.pos).map Sym.literal }
  else
    let key := keyAt buf c.pos
    let table := assocSet c.table key c.pos
    let miss : Scan := { pos := c.pos + 1, table := table, out := c.out ++ [.literal (buf.getD c.pos 0#8)] }
    match assocGet c.table key with
    | none => miss
    | some j =>
      if window < c.pos - j then miss
      else
        let len := matchLength buf c.pos j
        { pos := c.pos + len
          table := insertKeys buf (len - 1) (c.pos + 1) table
          out := c.out ++ [.pointer len (c.pos - j)] }

/-- The scan of a chunk from a scan state on; every pass moves on, so the bytes left bound the passes. -/
def lzLoop (window : Nat) (buf : List Byte) : Nat → Scan → Scan
  | 0, c => c
  | fuel + 1, c => if c.pos < buf.length then lzLoop window buf fuel (lzStep window buf c) else c

/-- `LZ77(windowSize, buf)` (R303) as one function. The machine runs `lzStep` instead; this is what its passes add up
to. -/
def lz77 (window : Nat) (buf : List Byte) : List Sym := (lzLoop window buf buf.length ⟨0, [], []⟩).out

/-- What a symbol sequence expands to (R308): literals as they are, a pointer by copying from what is already there. -/
def copyBack : Nat → Nat → List Byte → List Byte
  | 0, _, out => out
  | len + 1, d, out => copyBack len d (out ++ [out.getD (out.length - d) 0#8])

/-- Expand one symbol onto the bytes before it (R308). -/
def expandSym (out : List Byte) : Sym → List Byte
  | .literal b => out ++ [b]
  | .endOfBlock => out
  | .pointer len d => copyBack len d out

/-- Expand a symbol sequence (R308). -/
def expand (syms : List Sym) : List Byte := syms.foldl expandSym []

end Sys2Proof.Machine
end

