-- ==== Sys2Proof/Machine/Encoder.lean ====
section
/-! DEFINITION. The encoder's own work between the symbols it writes (spec/43_deflate_encoder.md): the chunk loop (R350,
R351, R376), the LZ77 scan (R356), the dynamic block's tables (R357, R370 to R374) and the final flush (R377). -/

namespace Sys2Proof.Machine

/-! ## The chunk loop (R350) -/

/-- `S` (R350). -/
def Mode.blockSize : Mode → Nat
  | .raw => Config.rawBlockSize
  | .fixed | .dynamic => Config.huffBlockSize

/-- `nch = max(1, ceil(n / S))` (R350, R376). -/
def State.numChunks (s : State) : Nat :=
  max 1 ((s.reg.srcLen.toNat + (s.run.mode.blockSize - 1)) / s.run.mode.blockSize)

/-- The offset `c * S` of the current chunk in the input (R350). -/
def State.chunkStart (s : State) : Nat := s.enc.chunkIndex * s.run.mode.blockSize

/-- `len = min(S, n - c * S)` (R350). -/
def State.chunkLen (s : State) : Nat := min s.run.mode.blockSize (s.reg.srcLen.toNat - s.chunkStart)

/-- `final`: the chunk is the last one (R351). -/
def State.finalChunk (s : State) : Bool := s.enc.chunkIndex + 1 == s.numChunks

/-- Where a chunk's block starts once its symbols are there (R350, R357). -/
def Mode.afterSyms : Mode → Phase
  | .raw | .fixed => .writeBlock
  | .dynamic => .buildTables

/-- `Syms(absent, chunk)` (R356): every byte a literal, then `EndOfBlock`. -/
def literalSyms (chunk : List Byte) : List Sym := chunk.map Sym.literal ++ [.endOfBlock]

/-- A chunk that has been read (R350, R54): the checksum registers run over it (R655), and the scan starts afresh if a
window size is configured and the mode uses it (R356). -/
def State.takeChunk (s : State) (chunk : List Byte) : State :=
  let scan := s.run.mode != .raw && s.run.win.isSome
  { s with
    sum := s.sum.addAll chunk
    enc := { s.enc with
      chunk := chunk, scanPos := 0, prefixTable := [],
      syms := if s.run.mode = .raw ∨ scan then [] else literalSyms chunk }
    seq := .busy (if scan then .scanChunk else s.run.mode.afterSyms) }

/-- Read the current chunk whole, in increasing address order, before any bit of its block is written (R350). -/
def loadChunk (s : State) : Res Unit :=
  (memReadAll (s.srcByte s.chunkStart) s.chunkLen s).andThen fun chunk s => .ok () (s.takeChunk chunk)

/-- The window of the running command; `WINDOW` is absent only where no scan runs (R685). -/
def Run.window (r : Run) : Nat := r.win.getD 0

/-- One pass of R303's loop, or its end: `Syms(win, chunk) = LZ77(win, chunk) ++ [EndOfBlock]` (R356). -/
def scanChunk (s : State) : State :=
  if s.enc.scanPos < s.enc.chunk.length then
    let c := lzStep s.run.window s.enc.chunk ⟨s.enc.scanPos, s.enc.prefixTable, s.enc.syms⟩
    { s with enc := { s.enc with scanPos := c.pos, prefixTable := c.table, syms := c.out } }
  else
    { s with
      enc := { s.enc with syms := s.enc.syms ++ [.endOfBlock] }
      seq := .busy s.run.mode.afterSyms }

/-! ## The dynamic block's tables (R357) -/

/-- `HLIT = max(257, 1 + the greatest s with ll[s] > 0)` (R374). -/
def hlitOf (ll : List Nat) : Nat := max 257 (usedPrefix ll)

/-- `HDIST = max(1, 1 + the greatest t with dl[t] > 0)` (R374). -/
def hdistOf (dl : List Nat) : Nat := max 1 (usedPrefix dl)

/-- The code-length code's widths in header order (R161, R375). -/
def headerWidths (cl : List Nat) : List Nat := clOrder.map fun c => cl.getD c 0

/-- `HCLEN = max(4, 1 + the greatest k with cl[CL_ORDER[k]] > 0)` (R374). -/
def hclenOf (cl : List Nat) : Nat := max 4 (usedPrefix (headerWidths cl))

/-- Everything R357 computes before it writes the header: the frequencies, the three width assignments, the counts and
the code-length symbols. -/
def buildTables (s : State) : State :=
  let f := freqs s.enc.syms
  let ll := s.plat.codeLengths f.1 Config.maxBitWidth
  let dl := s.plat.codeLengths f.2 Config.maxBitWidth
  let hlit := hlitOf ll
  let hdist := hdistOf dl
  let seq := rle (ll.take hlit ++ dl.take hdist)
  let cf := clFreqs seq
  let cl := s.plat.codeLengths cf Config.maxClWidth
  { s with
    enc := { s.enc with
      litFreq := f.1, distFreq := f.2, clFreq := cf,
      litTable := encodeTable ll, distTable := encodeTable dl, clTable := encodeTable cl,
      hlit := hlit, hdist := hdist, hclen := hclenOf cl, clWidths := cl, clSeq := seq }
    seq := .busy .writeBlock }

/-! ## Between blocks and at the end -/

/-- The block of the current chunk is written: the next chunk, or the final flush (R350). -/
def State.endBlockWritten (s : State) : State :=
  if s.finalChunk then s.goto .flush
  else { s with enc := { s.enc with chunkIndex := s.enc.chunkIndex + 1 }, seq := .busy .loadChunk }

/-- `Flush()` after the final block (R377), then the zlib trailer (R601) or the end of the command (R681). -/
def flushStream (s : State) : Res Unit :=
  (flush s).andThen fun _ s =>
  match s.run.op with
  | .deflateZlib => .ok () (s.goto .zlibTrailerOut)
  | _ => .ok () s.finish

/-- The symbol at the head of the block's symbols is written. -/
def State.popSym (s : State) : State := { s with enc := { s.enc with syms := s.enc.syms.tail } }

/-- Length and distance of the pointer being written (R359), 0 where the head is no pointer. -/
def State.pointerWritten (s : State) : Nat × Nat :=
  match s.enc.syms.head? with
  | some (.pointer len d) => (len, d)
  | _ => (0, 0)

end Sys2Proof.Machine
end

