-- ==== Sys2Proof/Machine/Blocks.lean ====
section
/-! DEFINITION. The four block types (spec/44_inflate_decoder.md R450 to R455, R460 to R462; spec/43_deflate_encoder.md
R355 to R357, R375). A stream instruction is read when the command decompresses and written when it compresses. -/

namespace Sys2Proof.Machine

/-! ## Where a block ends (R450, R501) -/

/-- After the stream's last block: `AlignIn`, then the container's trailer or the end of the command (R450, R473,
R620, R630). -/
def State.endStream (s : State) : State :=
  match s.run.op with
  | .inflateZlib => (alignIn s).goto .zlibTrailerIn
  | .inflateGzip => (alignIn s).goto .gzipTrailerIn
  | _ => (alignIn s).finish

/-- A block was read to its end: the next header, or the stream's end if its `BFINAL` was 1 (R450, R59). -/
def State.endBlockRead (s : State) : State := if s.dec.bfinal then s.endStream else s.goto .readBlock

/-! ## Stored blocks -/

/-- `StoredBody()` (R451) and the end of the block. -/
def readStored (s : State) : Res Unit :=
  (readBits 16 (alignIn s)).andThen fun len s =>
  (readBits 16 s).andThen fun nlen s =>
  if nlen ≠ len ^^^ 0xFFFF then .raised .storedBlockLengthMismatch s
  else (copyStored len s).andThen fun _ s => .ok () s.endBlockRead

/-- The three header bits of a block that is written: `WriteBits(1, final)`, `WriteBits(2, type)` (R355, R356, R375). -/
def writeBlockHeader (type : Nat) (s : State) : Res Unit :=
  (writeBits 1 s.finalChunk.toNat s).andThen fun _ s => writeBits 2 type s

/-- `StoredBlock(final, chunk)` (R355) and the end of the block. -/
def writeStored (s : State) : Res Unit :=
  (writeBlockHeader 0 s).andThen fun _ s =>
  (alignOut s).andThen fun _ s =>
  (writeBits 16 s.enc.chunk.length s).andThen fun _ s =>
  (writeBits 16 (s.enc.chunk.length ^^^ 0xFFFF) s).andThen fun _ s =>
  (writeBytes s.enc.chunk s).andThen fun _ s => .ok () s.endBlockWritten

/-- `BTYPE=0` (R451, R355). -/
def execBtype0 (s : State) : Host.Outcome State Fault Refusal :=
  (if s.run.op.encodes then writeStored s else readStored s).outcome

/-! ## Static blocks -/

/-- Install the decode tables of a block (R452, R469) and go to its symbols. -/
def State.withDecodeTables (s : State) (lit dist : DecTable) : State :=
  { s with dec := { s.dec with litTable := lit, distTable := dist }, seq := .busy .readSym }

/-- `StaticBody()` up to its first symbol (R452, R455). -/
def readStatic (s : State) : State :=
  s.withDecodeTables (decodeTable fixedLitLenWidths) (decodeTable fixedDistWidths)

/-- Install the fixed encode tables (R353) and go to the block's symbols. -/
def State.withFixedEncodeTables (s : State) : State :=
  { s with
    enc := { s.enc with litTable := encodeTable fixedLitLenWidths, distTable := encodeTable fixedDistWidths }
    seq := .busy .writeSym }

/-- `StaticBlock(final, syms)` up to its first symbol (R356). -/
def writeStatic (s : State) : Res Unit :=
  (writeBlockHeader 1 s).andThen fun _ s => .ok () s.withFixedEncodeTables

/-- `BTYPE=1` (R452, R356). -/
def execBtype1 (s : State) : Host.Outcome State Fault Refusal :=
  (if s.run.op.encodes then writeStatic s else .ok () (readStatic s)).outcome

/-! ## Dynamic blocks -/

/-- `n` code-length widths of three bits each (R461). -/
def readClWidths : Nat → State → Res (List Nat)
  | 0, s => .ok [] s
  | n + 1, s =>
    (readBits 3 s).andThen fun w s =>
    (readClWidths n s).andThen fun ws s => .ok (w :: ws) s

/-- `clw` (R461): the width of code-length symbol `c` is the one read at its place in `CL_ORDER`, 0 if none was. -/
def clWidthsOf (read : List Nat) : List Nat :=
  (List.range Config.clAlphabetSize).map fun c => read.getD (clOrder.idxOf c) 0

/-- The counts and the code-length table of a dynamic header are read: the code-width list comes next (R463). -/
def State.beginWidths (s : State) (hlit hdist : Nat) (read : List Nat) : State :=
  { s with
    dec := { s.dec with hlit := hlit, hdist := hdist, widths := [], clTable := decodeTable (clWidthsOf read) }
    seq := .busy .readCodeLen }

/-- `DynamicBody()` up to its code-width list (R453, R460, R461). -/
def readDynamic (s : State) : Res Unit :=
  (readBitsBase 5 257 s).andThen fun hlit s =>
  (readBitsBase 5 1 s).andThen fun hdist s =>
  (readBitsBase 4 4 s).andThen fun hclen s =>
  (readClWidths hclen s).andThen fun read s => .ok () (s.beginWidths hlit hdist read)

/-- Code-length widths written, three bits each (R375). -/
def writeClWidths : List Nat → State → Res Unit
  | [], s => .ok () s
  | w :: rest, s => (writeBits 3 w s).andThen fun _ s => writeClWidths rest s

/-- `WriteHeader` up to its code-length symbols (R357, R375). -/
def writeDynamic (s : State) : Res Unit :=
  (writeBlockHeader 2 s).andThen fun _ s =>
  (writeBits 5 (s.enc.hlit - 257) s).andThen fun _ s =>
  (writeBits 5 (s.enc.hdist - 1) s).andThen fun _ s =>
  (writeBits 4 (s.enc.hclen - 4) s).andThen fun _ s =>
  (writeClWidths ((headerWidths s.enc.clWidths).take s.enc.hclen) s).andThen fun _ s =>
  .ok () (s.goto .writeCodeLen)

/-- `BTYPE=2` (R453, R357). -/
def execBtype2 (s : State) : Host.Outcome State Fault Refusal :=
  (if s.run.op.encodes then writeDynamic s else readDynamic s).outcome

/-! ## The invalid type -/

/-- `BTYPE=3` (R454). -/
def execBtype3 (s : State) : Host.Outcome State Fault Refusal := .next (s.raise .invalidBlockType)

end Sys2Proof.Machine
end

