-- ==== Sys2Proof/Machine/LitLen.lean ====
section
/-! DEFINITION. Literals and end of block (spec/44_inflate_decoder.md R500, R501; spec/43_deflate_encoder.md R358,
R360). -/

namespace Sys2Proof.Machine

/-- A literal: read, the byte is emitted (R500); written, its code is (R358). -/
def literal (b : Byte) (s : State) : Res Unit :=
  if s.run.op.encodes then
    (encodeSymbol s.enc.litTable b.toNat s).andThen fun _ s => .ok () s.popSym
  else emitOut b s

/-- `LIT 0-127` (R500, R358). -/
def execLit0To127 (k : BitVec 7) (s : State) : Host.Outcome State Fault Refusal :=
  (literal (k.setWidth 8) s).outcome

/-- `LIT 128-143` (R500, R358). -/
def execLit128To143 (k : BitVec 4) (s : State) : Host.Outcome State Fault Refusal :=
  (literal (128#8 + k.setWidth 8) s).outcome

/-- `LIT 144-159` (R500, R358). -/
def execLit144To159 (k : BitVec 4) (s : State) : Host.Outcome State Fault Refusal :=
  (literal (144#8 + k.setWidth 8) s).outcome

/-- `LIT 160-191` (R500, R358). -/
def execLit160To191 (k : BitVec 5) (s : State) : Host.Outcome State Fault Refusal :=
  (literal (160#8 + k.setWidth 8) s).outcome

/-- `LIT 192-255` (R500, R358). -/
def execLit192To255 (k : BitVec 6) (s : State) : Host.Outcome State Fault Refusal :=
  (literal (192#8 + k.setWidth 8) s).outcome

/-- `EOB`: read, the block ends (R501); written, its code is, and the block ends (R360, R350). -/
def execEob (s : State) : Host.Outcome State Fault Refusal :=
  if s.run.op.encodes then
    ((encodeSymbol s.enc.litTable 256 s).andThen fun _ s => .ok () s.popSym.endBlockWritten).outcome
  else .next s.endBlockRead

end Sys2Proof.Machine
end

