-- ==== Sys2Proof/Machine/Length.lean ====
section
/-! DEFINITION. The length symbols (spec/44_inflate_decoder.md R520 to R549; spec/43_deflate_encoder.md R352, R359). -/

namespace Sys2Proof.Machine

/-- The decoder holds a back-reference's length and goes to its distance (R470). -/
def State.withLength (s : State) (len : Nat) : State :=
  { s with dec := { s.dec with length := len }, seq := .busy .readDist }

/-- A length symbol with its extra bits and base: read, `len <- ReadBitsBase(extra, base)` (R470); written, its code
and the extra value `len - base` of the pointer being written (R352, R359). -/
def lengthSymbol (sym extra base : Nat) (s : State) : Res Unit :=
  if s.run.op.encodes then
    (encodeSymbol s.enc.litTable sym s).andThen fun _ s =>
    (writeBits extra (s.pointerWritten.1 - base) s).andThen fun _ s => .ok () (s.goto .writeDist)
  else (readBitsBase extra base s).andThen fun len s => .ok () (s.withLength len)

/-- `LENSYM 257` (R520). -/
def execLensym257 (s : State) : Host.Outcome State Fault Refusal := (lengthSymbol 257 0 3 s).outcome

/-- `LENSYM 258` (R521). -/
def execLensym258 (s : State) : Host.Outcome State Fault Refusal := (lengthSymbol 258 0 4 s).outcome

/-- `LENSYM 259` (R522). -/
def execLensym259 (s : State) : Host.Outcome State Fault Refusal := (lengthSymbol 259 0 5 s).outcome

/-- `LENSYM 260` (R523). -/
def execLensym260 (s : State) : Host.Outcome State Fault Refusal := (lengthSymbol 260 0 6 s).outcome

/-- `LENSYM 261` (R524). -/
def execLensym261 (s : State) : Host.Outcome State Fault Refusal := (lengthSymbol 261 0 7 s).outcome

/-- `LENSYM 262` (R525). -/
def execLensym262 (s : State) : Host.Outcome State Fault Refusal := (lengthSymbol 262 0 8 s).outcome

/-- `LENSYM 263` (R526). -/
def execLensym263 (s : State) : Host.Outcome State Fault Refusal := (lengthSymbol 263 0 9 s).outcome

/-- `LENSYM 264` (R527). -/
def execLensym264 (s : State) : Host.Outcome State Fault Refusal := (lengthSymbol 264 0 10 s).outcome

/-- `LENSYM 265` (R528). -/
def execLensym265 (s : State) : Host.Outcome State Fault Refusal := (lengthSymbol 265 1 11 s).outcome

/-- `LENSYM 266` (R529). -/
def execLensym266 (s : State) : Host.Outcome State Fault Refusal := (lengthSymbol 266 1 13 s).outcome

/-- `LENSYM 267` (R530). -/
def execLensym267 (s : State) : Host.Outcome State Fault Refusal := (lengthSymbol 267 1 15 s).outcome

/-- `LENSYM 268` (R531). -/
def execLensym268 (s : State) : Host.Outcome State Fault Refusal := (lengthSymbol 268 1 17 s).outcome

/-- `LENSYM 269` (R532). -/
def execLensym269 (s : State) : Host.Outcome State Fault Refusal := (lengthSymbol 269 2 19 s).outcome

/-- `LENSYM 270` (R533). -/
def execLensym270 (s : State) : Host.Outcome State Fault Refusal := (lengthSymbol 270 2 23 s).outcome

/-- `LENSYM 271` (R534). -/
def execLensym271 (s : State) : Host.Outcome State Fault Refusal := (lengthSymbol 271 2 27 s).outcome

/-- `LENSYM 272` (R535). -/
def execLensym272 (s : State) : Host.Outcome State Fault Refusal := (lengthSymbol 272 2 31 s).outcome

/-- `LENSYM 273` (R536). -/
def execLensym273 (s : State) : Host.Outcome State Fault Refusal := (lengthSymbol 273 3 35 s).outcome

/-- `LENSYM 274` (R537). -/
def execLensym274 (s : State) : Host.Outcome State Fault Refusal := (lengthSymbol 274 3 43 s).outcome

/-- `LENSYM 275` (R538). -/
def execLensym275 (s : State) : Host.Outcome State Fault Refusal := (lengthSymbol 275 3 51 s).outcome

/-- `LENSYM 276` (R539). -/
def execLensym276 (s : State) : Host.Outcome State Fault Refusal := (lengthSymbol 276 3 59 s).outcome

/-- `LENSYM 277` (R540). -/
def execLensym277 (s : State) : Host.Outcome State Fault Refusal := (lengthSymbol 277 4 67 s).outcome

/-- `LENSYM 278` (R541). -/
def execLensym278 (s : State) : Host.Outcome State Fault Refusal := (lengthSymbol 278 4 83 s).outcome

/-- `LENSYM 279` (R542). -/
def execLensym279 (s : State) : Host.Outcome State Fault Refusal := (lengthSymbol 279 4 99 s).outcome

/-- `LENSYM 280` (R543). -/
def execLensym280 (s : State) : Host.Outcome State Fault Refusal := (lengthSymbol 280 4 115 s).outcome

/-- `LENSYM 281` (R544). -/
def execLensym281 (s : State) : Host.Outcome State Fault Refusal := (lengthSymbol 281 5 131 s).outcome

/-- `LENSYM 282` (R545). -/
def execLensym282 (s : State) : Host.Outcome State Fault Refusal := (lengthSymbol 282 5 163 s).outcome

/-- `LENSYM 283` (R546). -/
def execLensym283 (s : State) : Host.Outcome State Fault Refusal := (lengthSymbol 283 5 195 s).outcome

/-- `LENSYM 284` (R547). -/
def execLensym284 (s : State) : Host.Outcome State Fault Refusal := (lengthSymbol 284 5 227 s).outcome

/-- `LENSYM 285` (R548). -/
def execLensym285 (s : State) : Host.Outcome State Fault Refusal := (lengthSymbol 285 0 258 s).outcome

/-- `LENSYM 286-287` (R549): never coded by the encoder; decoded, an error at once, before any extra bit. -/
def execLensym286To287 (_k : BitVec 1) (s : State) : Host.Outcome State Fault Refusal :=
  .next (s.raise .huffmanTableIndexOutOfBounds)

end Sys2Proof.Machine
end

