-- ==== Sys2Proof/Machine/Distance.lean ====
section
/-! DEFINITION. The distance symbols (spec/44_inflate_decoder.md R471, R472, R551 to R581; spec/43_deflate_encoder.md
R354, R359). -/

namespace Sys2Proof.Machine

/-- `for k in 0 .. len - 1: Emit(Back(d))` (R472). -/
def copyLoop (d : Nat) : Nat → State → Res Unit
  | 0, s => .ok () s
  | n + 1, s =>
    (back d s).andThen fun b s =>
    (emitOut b s).andThen fun _ s => copyLoop d n s

/-- `Copy(len, d)` (R471, R472). -/
def copy (len d : Nat) (s : State) : Res Unit :=
  if s.outPos < d then .raised .distanceTooFarBack s else copyLoop d len s

/-- A distance symbol with its extra bits and base: read, `d <- ReadBitsBase(extra, base)` and the copy (R470); written,
its code and the extra value `d - base` of the pointer being written (R354, R359). -/
def distanceSymbol (sym extra base : Nat) (s : State) : Res Unit :=
  if s.run.op.encodes then
    (encodeSymbol s.enc.distTable sym s).andThen fun _ s =>
    (writeBits extra (s.pointerWritten.2 - base) s).andThen fun _ s => .ok () (s.popSym.goto .writeSym)
  else
    (readBitsBase extra base s).andThen fun d s =>
    (copy s.dec.length d s).andThen fun _ s => .ok () (s.goto .readSym)

/-- `DSYM 0` (R551). -/
def execDsym0 (s : State) : Host.Outcome State Fault Refusal := (distanceSymbol 0 0 1 s).outcome

/-- `DSYM 1` (R552). -/
def execDsym1 (s : State) : Host.Outcome State Fault Refusal := (distanceSymbol 1 0 2 s).outcome

/-- `DSYM 2` (R553). -/
def execDsym2 (s : State) : Host.Outcome State Fault Refusal := (distanceSymbol 2 0 3 s).outcome

/-- `DSYM 3` (R554). -/
def execDsym3 (s : State) : Host.Outcome State Fault Refusal := (distanceSymbol 3 0 4 s).outcome

/-- `DSYM 4` (R555). -/
def execDsym4 (s : State) : Host.Outcome State Fault Refusal := (distanceSymbol 4 1 5 s).outcome

/-- `DSYM 5` (R556). -/
def execDsym5 (s : State) : Host.Outcome State Fault Refusal := (distanceSymbol 5 1 7 s).outcome

/-- `DSYM 6` (R557). -/
def execDsym6 (s : State) : Host.Outcome State Fault Refusal := (distanceSymbol 6 2 9 s).outcome

/-- `DSYM 7` (R558). -/
def execDsym7 (s : State) : Host.Outcome State Fault Refusal := (distanceSymbol 7 2 13 s).outcome

/-- `DSYM 8` (R559). -/
def execDsym8 (s : State) : Host.Outcome State Fault Refusal := (distanceSymbol 8 3 17 s).outcome

/-- `DSYM 9` (R560). -/
def execDsym9 (s : State) : Host.Outcome State Fault Refusal := (distanceSymbol 9 3 25 s).outcome

/-- `DSYM 10` (R561). -/
def execDsym10 (s : State) : Host.Outcome State Fault Refusal := (distanceSymbol 10 4 33 s).outcome

/-- `DSYM 11` (R562). -/
def execDsym11 (s : State) : Host.Outcome State Fault Refusal := (distanceSymbol 11 4 49 s).outcome

/-- `DSYM 12` (R563). -/
def execDsym12 (s : State) : Host.Outcome State Fault Refusal := (distanceSymbol 12 5 65 s).outcome

/-- `DSYM 13` (R564). -/
def execDsym13 (s : State) : Host.Outcome State Fault Refusal := (distanceSymbol 13 5 97 s).outcome

/-- `DSYM 14` (R565). -/
def execDsym14 (s : State) : Host.Outcome State Fault Refusal := (distanceSymbol 14 6 129 s).outcome

/-- `DSYM 15` (R566). -/
def execDsym15 (s : State) : Host.Outcome State Fault Refusal := (distanceSymbol 15 6 193 s).outcome

/-- `DSYM 16` (R567). -/
def execDsym16 (s : State) : Host.Outcome State Fault Refusal := (distanceSymbol 16 7 257 s).outcome

/-- `DSYM 17` (R568). -/
def execDsym17 (s : State) : Host.Outcome State Fault Refusal := (distanceSymbol 17 7 385 s).outcome

/-- `DSYM 18` (R569). -/
def execDsym18 (s : State) : Host.Outcome State Fault Refusal := (distanceSymbol 18 8 513 s).outcome

/-- `DSYM 19` (R570). -/
def execDsym19 (s : State) : Host.Outcome State Fault Refusal := (distanceSymbol 19 8 769 s).outcome

/-- `DSYM 20` (R571). -/
def execDsym20 (s : State) : Host.Outcome State Fault Refusal := (distanceSymbol 20 9 1025 s).outcome

/-- `DSYM 21` (R572). -/
def execDsym21 (s : State) : Host.Outcome State Fault Refusal := (distanceSymbol 21 9 1537 s).outcome

/-- `DSYM 22` (R573). -/
def execDsym22 (s : State) : Host.Outcome State Fault Refusal := (distanceSymbol 22 10 2049 s).outcome

/-- `DSYM 23` (R574). -/
def execDsym23 (s : State) : Host.Outcome State Fault Refusal := (distanceSymbol 23 10 3073 s).outcome

/-- `DSYM 24` (R575). -/
def execDsym24 (s : State) : Host.Outcome State Fault Refusal := (distanceSymbol 24 11 4097 s).outcome

/-- `DSYM 25` (R576). -/
def execDsym25 (s : State) : Host.Outcome State Fault Refusal := (distanceSymbol 25 11 6145 s).outcome

/-- `DSYM 26` (R577). -/
def execDsym26 (s : State) : Host.Outcome State Fault Refusal := (distanceSymbol 26 12 8193 s).outcome

/-- `DSYM 27` (R578). -/
def execDsym27 (s : State) : Host.Outcome State Fault Refusal := (distanceSymbol 27 12 12289 s).outcome

/-- `DSYM 28` (R579). -/
def execDsym28 (s : State) : Host.Outcome State Fault Refusal := (distanceSymbol 28 13 16385 s).outcome

/-- `DSYM 29` (R580). -/
def execDsym29 (s : State) : Host.Outcome State Fault Refusal := (distanceSymbol 29 13 24577 s).outcome

/-- `DSYM 30-31` (R581): never coded by the encoder; decoded, an error at once, before any extra bit. -/
def execDsym30To31 (_k : BitVec 1) (s : State) : Host.Outcome State Fault Refusal :=
  .next (s.raise .huffmanTableIndexOutOfBounds)

end Sys2Proof.Machine
end

