-- ==== Sys2Proof/Machine/CodeLen.lean ====
section
/-! DEFINITION. The code-length symbols of a dynamic header (spec/44_inflate_decoder.md R463 to R469;
spec/43_deflate_encoder.md R371, R375). -/

namespace Sys2Proof.Machine

/-- The code-width list is complete: both tables are built and the symbols begin (R453, R469). -/
def State.endWidths (s : State) : State :=
  s.withDecodeTables (decodeTable (s.dec.widths.take s.dec.hlit))
    (decodeTable ((s.dec.widths.drop s.dec.hlit).take s.dec.hdist))

/-- Append widths to `v`. -/
def State.pushWidths (s : State) (ws : List Nat) : State :=
  { s with dec := { s.dec with widths := s.dec.widths ++ ws } }

/-- Append widths to `v`, then R463's tests: past `m` is an error (R464 (b)), at `m` the list is complete. -/
def appendWidths (ws : List Nat) (s : State) : Res Unit :=
  let t := s.pushWidths ws
  if t.dec.hlit + t.dec.hdist < t.dec.widths.length then .raised .huffmanTableIndexOutOfBounds t
  else if t.dec.hlit + t.dec.hdist = t.dec.widths.length then .ok () t.endWidths
  else .ok () t

/-- `CLWidth(w)` (R465). -/
def readClWidth (w : Nat) (s : State) : Res Unit := appendWidths [w] s

/-- `CLRepeat()` (R466): with no previous width an error at once, before the extra bits (R464 (a)). -/
def readClRepeat (s : State) : Res Unit :=
  match s.dec.widths.getLast? with
  | none => .raised .huffmanTableIndexOutOfBounds s
  | some w => (readBitsBase 2 3 s).andThen fun r s => appendWidths (List.replicate r w) s

/-- `CLZeros3()` and `CLZeros11()` (R467, R468). -/
def readClZeros (extra base : Nat) (s : State) : Res Unit :=
  (readBitsBase extra base s).andThen fun r s => appendWidths (List.replicate r 0) s

/-- The extra value of the code-length symbol being written (R371). -/
def State.clExtra (s : State) : Nat := (s.enc.clSeq.head?.getD (0, 0)).2

/-- The code-length symbol at the head is written; after the last one come the block's symbols (R357, R375). -/
def State.popCl (s : State) : State :=
  { s with
    enc := { s.enc with clSeq := s.enc.clSeq.tail }
    seq := .busy (if s.enc.clSeq.tail = [] then .writeSym else .writeCodeLen) }

/-- A code-length symbol written: its code and its extra bits (R375). -/
def writeCl (c extra : Nat) (s : State) : Res Unit :=
  (encodeSymbol s.enc.clTable c s).andThen fun _ s =>
  (writeBits extra s.clExtra s).andThen fun _ s => .ok () s.popCl

/-- A code-length symbol that is a width (R465, R375). -/
def widthSymbol (w : Nat) (s : State) : Res Unit :=
  if s.run.op.encodes then
    (encodeSymbol s.enc.clTable w s).andThen fun _ s => .ok () s.popCl
  else readClWidth w s

/-- `CL 0` (R465, R375). -/
def execCl0 (s : State) : Host.Outcome State Fault Refusal := (widthSymbol 0 s).outcome

/-- `CL 1` (R465, R375). -/
def execCl1 (s : State) : Host.Outcome State Fault Refusal := (widthSymbol 1 s).outcome

/-- `CL 2` (R465, R375). -/
def execCl2 (s : State) : Host.Outcome State Fault Refusal := (widthSymbol 2 s).outcome

/-- `CL 3` (R465, R375). -/
def execCl3 (s : State) : Host.Outcome State Fault Refusal := (widthSymbol 3 s).outcome

/-- `CL 4` (R465, R375). -/
def execCl4 (s : State) : Host.Outcome State Fault Refusal := (widthSymbol 4 s).outcome

/-- `CL 5` (R465, R375). -/
def execCl5 (s : State) : Host.Outcome State Fault Refusal := (widthSymbol 5 s).outcome

/-- `CL 6` (R465, R375). -/
def execCl6 (s : State) : Host.Outcome State Fault Refusal := (widthSymbol 6 s).outcome

/-- `CL 7` (R465, R375). -/
def execCl7 (s : State) : Host.Outcome State Fault Refusal := (widthSymbol 7 s).outcome

/-- `CL 8` (R465, R375). -/
def execCl8 (s : State) : Host.Outcome State Fault Refusal := (widthSymbol 8 s).outcome

/-- `CL 9` (R465, R375). -/
def execCl9 (s : State) : Host.Outcome State Fault Refusal := (widthSymbol 9 s).outcome

/-- `CL 10` (R465, R375). -/
def execCl10 (s : State) : Host.Outcome State Fault Refusal := (widthSymbol 10 s).outcome

/-- `CL 11` (R465, R375). -/
def execCl11 (s : State) : Host.Outcome State Fault Refusal := (widthSymbol 11 s).outcome

/-- `CL 12` (R465, R375). -/
def execCl12 (s : State) : Host.Outcome State Fault Refusal := (widthSymbol 12 s).outcome

/-- `CL 13` (R465, R375). -/
def execCl13 (s : State) : Host.Outcome State Fault Refusal := (widthSymbol 13 s).outcome

/-- `CL 14` (R465, R375). -/
def execCl14 (s : State) : Host.Outcome State Fault Refusal := (widthSymbol 14 s).outcome

/-- `CL 15` (R465, R375). -/
def execCl15 (s : State) : Host.Outcome State Fault Refusal := (widthSymbol 15 s).outcome

/-- `CL 16` (R466, R375). -/
def execCl16 (s : State) : Host.Outcome State Fault Refusal :=
  (if s.run.op.encodes then writeCl 16 2 s else readClRepeat s).outcome

/-- `CL 17` (R467, R375). -/
def execCl17 (s : State) : Host.Outcome State Fault Refusal :=
  (if s.run.op.encodes then writeCl 17 3 s else readClZeros 3 3 s).outcome

/-- `CL 18` (R468, R375). -/
def execCl18 (s : State) : Host.Outcome State Fault Refusal :=
  (if s.run.op.encodes then writeCl 18 7 s else readClZeros 7 11 s).outcome

end Sys2Proof.Machine
end

