-- ==== Sys2Proof/Machine/Container.lean ====
section
/-! DEFINITION. The container records (spec/45_containers_checksums.md): the zlib header and trailer in both directions
(R600, R601, R620 to R624), the gzip header with its optional fields and the gzip trailer (R630 to R642). -/

namespace Sys2Proof.Machine

/-! ## Bytes of the input -/

/-- `in[k]` (R106): the byte's `BusError` is raised here, where it is used (R752). -/
def inByte (k : Nat) (s : State) : Res Byte := memRead (s.srcByte k) s

/-- `in[k] | in[k+1] << 8` (R115, R632, R635). -/
def inHalf (k : Nat) (s : State) : Res Nat :=
  (inByte k s).andThen fun b0 s =>
  (inByte (k + 1) s).andThen fun b1 s => .ok (b0.toNat + 256 * b1.toNat) s

/-- Bytes `in[p .. p + n)` exist, else `UnexpectedEndOfInput` (R623, R630, R632, R635, R640). -/
def needBytes (p n : Nat) (s : State) : Res Unit :=
  if s.reg.srcLen.toNat < p + n then .raised .unexpectedEndOfInput s else .ok () s

/-- The byte position of the reader: container fields start at byte boundaries (R118). -/
def State.inPos (s : State) : Nat := s.dec.inBit / 8

/-! ## zlib, written -/

/-- `ZLIB_HEADER_WRITE` (R600). -/
def execZlibHeaderWrite (s : State) : Host.Outcome State Fault Refusal :=
  ((emit 0x78#8 s).andThen fun _ s =>
   (emit 0x01#8 s).andThen fun _ s => .ok () (s.goto .loadChunk)).outcome

/-- Four bytes, most significant first (R601). -/
def emitBE (w : Word) (s : State) : Res Unit :=
  (emit (w.extractLsb' 24 8) s).andThen fun _ s =>
  (emit (w.extractLsb' 16 8) s).andThen fun _ s =>
  (emit (w.extractLsb' 8 8) s).andThen fun _ s => emit (w.extractLsb' 0 8) s

/-- The Adler-32 of the bytes so far (R652). -/
def Sums.adler (u : Sums) : Word := adlerValue (u.s1, u.s2)

/-- The CRC-32 of the bytes so far (R650). -/
def Sums.crcValue (u : Sums) : Word := u.crc ^^^ 0xFFFFFFFF#32

/-- `ZLIB_TRAILER_WRITE` (R601), the end of `DEFLATE_ZLIB` (R686, R681). -/
def execZlibTrailerWrite (s : State) : Host.Outcome State Fault Refusal :=
  ((emitBE s.sum.adler s).andThen fun _ s => .ok () s.finish).outcome

/-! ## zlib, read -/

/-- `ZlibCheck(CMF, FLG)` (R621, R622): the error it raises, if any, in the order of the rule. -/
def zlibCheck (cmf flg : Byte) : Option CodecError :=
  if cmf.extractLsb' 0 4 ≠ 8#4 then some .invalidMethod
  else if 7 < (cmf.extractLsb' 4 4).toNat then some .invalidWindowSize
  else if (cmf.toNat * 256 + flg.toNat) % 31 ≠ 0 then some .headerChecksumMismatch
  else if flg.getLsbD 5 then some .presetDictionaryUnsupported
  else none

/-- `ZLIB_HEADER_READ` (R620, R621, R622): the two bytes are read; after the checks comes the stream. -/
def execZlibHeaderRead (cmf flg : Byte) (s : State) : Host.Outcome State Fault Refusal :=
  match zlibCheck cmf flg with
  | some e => .next (s.raise e)
  | none => .next (s.goto .readBlock)

/-- `ZLIB_TRAILER_READ` (R623): `expected` is the trailer's value, `found` the output's Adler-32. -/
def execZlibTrailerRead (adler : Word) (s : State) : Host.Outcome State Fault Refusal :=
  if adler ≠ s.sum.adler then .next (s.raise (.trailerChecksumMismatch adler s.sum.adler)) else .next s.finish

/-! ## gzip, read -/

/-- `FEXTRA`, `FNAME`, `FCOMMENT` and `FHCRC`, the bits of `FLG` that select a field (R631). -/
def gzFieldBits (flg : Byte) : Byte := flg &&& 0x1E#8

/-- Go on in the gzip header with these fields left (R630): the next one, or the stream (R636). -/
def State.gzNext (s : State) (left : Byte) : State :=
  { s with
    dec := { s.dec with gzFlags := left }
    seq := .busy (if left = 0#8 then .readBlock else .gzipOptional) }

/-- One optional field is read: the header goes on at byte `p`, its flag bit is done (R630). -/
def State.gzFieldDone (s : State) (bit : Byte) (p : Nat) : State :=
  (s.setInBit (8 * p)).gzNext (s.dec.gzFlags &&& ~~~bit)

/-- `GZIP_HEADER` (R630, R631): the ten bytes are read; `MTIME`, `XFL` and `OS` are not checked. -/
def execGzipHeader (id1 id2 cm flg : Byte) (_mtime : Word) (_xfl _os : Byte) (s : State) :
    Host.Outcome State Fault Refusal :=
  if id1 ≠ 0x1F#8 ∨ id2 ≠ 0x8B#8 then .next (s.raise .invalidHeaderMagic)
  else if cm ≠ 8#8 then .next (s.raise .invalidMethod)
  else .next (s.gzNext (gzFieldBits flg))

/-- `Extra(p)` (R632): the data is skipped. -/
def gzipExtra (p : Nat) (s : State) : Res Nat :=
  (needBytes p 2 s).andThen fun _ s =>
  (inHalf p s).andThen fun xlen s =>
  (needBytes (p + 2) xlen s).andThen fun _ s => .ok (p + 2 + xlen) s

/-- The scan of `Zstring(p)` (R633) over the bytes left of the input. -/
def skipString : Nat → Nat → State → Res Nat
  | 0, _, s => .raised .unexpectedEndOfInput s
  | left + 1, p, s =>
    (inByte p s).andThen fun b s => if b = 0#8 then .ok (p + 1) s else skipString left (p + 1) s

/-- `Zstring(p)` (R633, R634). -/
def gzipString (p : Nat) (s : State) : Res Nat := skipString (s.reg.srcLen.toNat - p) p s

/-- `HeaderCrc(p)` (R635). -/
def gzipHeaderCrc (p : Nat) (s : State) : Res Nat :=
  (needBytes p 2 s).andThen fun _ s =>
  (inHalf p s).andThen fun h s =>
  (memReadAll (s.srcByte 0) p s).andThen fun header s =>
  if h ≠ (crc32Of header).toNat % 65536 then .raised .headerChecksumMismatch s else .ok (p + 2) s

/-- A field read from the reader's byte position on, then its flag bit cleared (R630). -/
def gzipField (read : Nat → State → Res Nat) (bit : Byte) (s : State) : Res Unit :=
  (read s.inPos s).andThen fun p s => .ok () (s.gzFieldDone bit p)

/-- `GZIP_FEXTRA` (R632). -/
def execGzipFextra (s : State) : Host.Outcome State Fault Refusal := (gzipField gzipExtra 4#8 s).outcome

/-- `GZIP_FNAME` (R633). -/
def execGzipFname (s : State) : Host.Outcome State Fault Refusal := (gzipField gzipString 8#8 s).outcome

/-- `GZIP_FCOMMENT` (R634). -/
def execGzipFcomment (s : State) : Host.Outcome State Fault Refusal := (gzipField gzipString 16#8 s).outcome

/-- `GZIP_FHCRC` (R635). -/
def execGzipFhcrc (s : State) : Host.Outcome State Fault Refusal := (gzipField gzipHeaderCrc 2#8 s).outcome

/-- `GZIP_TRAILER` (R640): present, but not compared. -/
def execGzipTrailer (_crc _isize : Word) (s : State) : Host.Outcome State Fault Refusal := .next s.finish

/-- `outPos mod 2^32` (R641). -/
def State.outSize (s : State) : Word := BitVec.ofNat 32 s.outPos

/-- `GZIP_TRAILER_STRICT` (R641): the CRC first, then the size. -/
def execGzipTrailerStrict (crc isize : Word) (s : State) : Host.Outcome State Fault Refusal :=
  if crc ≠ s.sum.crcValue then .next (s.raise (.trailerChecksumMismatch crc s.sum.crcValue))
  else if isize ≠ s.outSize then .next (s.raise (.trailerChecksumMismatch isize s.outSize))
  else .next s.finish

end Sys2Proof.Machine
end

