-- ==== Sys2Proof/Machine/Commands.lean ====
section
/-! DEFINITION. The `CMD` words (spec/46_host_commands.md R680 to R693): what the engine does with the word at the start
of a command. The region check and the fresh datapath are `beginCommand`'s. -/

namespace Sys2Proof.Machine

/-- `MODE` of ops 0 and 1 (R64); 3 is `INVALID_MODE_3`'s. -/
def modeOf (f : CmdFields) : Mode :=
  match f.mode.toNat with
  | 0 => .raw
  | 1 => .fixed
  | _ => .dynamic

/-- `win` (R685): `WINDOW.WSIZE` if `WIN_EN = 1` and `MODE` is 1 or 2, else absent. -/
def winOf (f : CmdFields) (window : Word) : Option Nat :=
  if f.winEn ∧ modeOf f ≠ .raw then some (window.toNat % 65536) else none

/-- What a command runs with (R56, R693). -/
def runOf (op : Op) (f : CmdFields) (window : Word) : Run :=
  { op := op, mode := modeOf f, win := winOf f window, strict := f.gzStrict }

/-- `DEFLATE` (R685): the chunk loop of R350. -/
def execDeflate (f : CmdFields) (s : State) : Host.Outcome State Fault Refusal :=
  (beginCommand (runOf .deflate f s.reg.window) .loadChunk s).outcome

/-- `DEFLATE_ZLIB` (R686): the header first. -/
def execDeflateZlib (f : CmdFields) (s : State) : Host.Outcome State Fault Refusal :=
  (beginCommand (runOf .deflateZlib f s.reg.window) .zlibHeaderOut s).outcome

/-- `INFLATE` (R687): the block loop of R450. -/
def execInflate (f : CmdFields) (s : State) : Host.Outcome State Fault Refusal :=
  (beginCommand (runOf .inflate f s.reg.window) .readBlock s).outcome

/-- `INFLATE_ZLIB` (R688): the header first (R620). -/
def execInflateZlib (f : CmdFields) (s : State) : Host.Outcome State Fault Refusal :=
  (beginCommand (runOf .inflateZlib f s.reg.window) .zlibHeaderIn s).outcome

/-- `INFLATE_GZIP` (R689): the header first (R630). -/
def execInflateGzip (f : CmdFields) (s : State) : Host.Outcome State Fault Refusal :=
  (beginCommand (runOf .inflateGzip f s.reg.window) .gzipHeader s).outcome

/-- `IN` in increasing address order (R106, R691). -/
def readInput (s : State) : Res (List Byte) := memReadAll (s.srcByte 0) s.reg.srcLen.toNat s

/-- Run the checksum registers over these bytes, from the start value of R690. -/
def State.sumOver (s : State) (chain : Bool) (bytes : List Byte) : State :=
  { s with sum := (Sums.chained chain s.reg.checksum).addAll bytes }

/-- A checksum command (R690, R691, R692), whole in one step: the region check over `IN`, every byte of `IN`, the
result in `CHECKSUM`. -/
def checksumCommand (op : Op) (f : CmdFields) (s : State) : Res Unit :=
  (beginCommand (runOf op f s.reg.window) .dispatch s).andThen fun _ s =>
  (readInput s).andThen fun bytes s => .ok () (s.sumOver f.chain bytes).finish

/-- `CRC32` (R691). -/
def execCrc32 (f : CmdFields) (s : State) : Host.Outcome State Fault Refusal := (checksumCommand .crc32 f s).outcome

/-- `ADLER32` (R692). -/
def execAdler32 (f : CmdFields) (s : State) : Host.Outcome State Fault Refusal :=
  (checksumCommand .adler32 f s).outcome

/-- `INVALID_OP_7` (R684). -/
def execInvalidOp7 (_f : CmdFields) (s : State) : Host.Outcome State Fault Refusal :=
  .next (s.raise .invalidCommand)

/-- `INVALID_OP_8_15` (R684). -/
def execInvalidOp8To15 (_op : BitVec 3) (_f : CmdFields) (s : State) : Host.Outcome State Fault Refusal :=
  .next (s.raise .invalidCommand)

/-- `INVALID_MODE_3` (R684). -/
def execInvalidMode3 (_zlib : Bool) (_f : CmdFields) (s : State) : Host.Outcome State Fault Refusal :=
  .next (s.raise .invalidCommand)

end Sys2Proof.Machine
end

