-- ==== Sys2Proof/Machine/Dispatch.lean ====
section
/-! DEFINITION. One arm per instruction, each a direct call of its meaning. -/

namespace Sys2Proof.Machine

/-- What an instruction does (R171: each row's rule). -/
def exec (i : Instr) (s : State) : Host.Outcome State Fault Refusal :=
  match i with
  | .deflate f => Sys2Proof.Machine.execDeflate f s
  | .deflateZlib f => Sys2Proof.Machine.execDeflateZlib f s
  | .inflate f => Sys2Proof.Machine.execInflate f s
  | .inflateZlib f => Sys2Proof.Machine.execInflateZlib f s
  | .inflateGzip f => Sys2Proof.Machine.execInflateGzip f s
  | .crc32 f => Sys2Proof.Machine.execCrc32 f s
  | .adler32 f => Sys2Proof.Machine.execAdler32 f s
  | .invalidOp7 f => Sys2Proof.Machine.execInvalidOp7 f s
  | .invalidOp8To15 op f => Sys2Proof.Machine.execInvalidOp8To15 op f s
  | .invalidMode3 zlib f => Sys2Proof.Machine.execInvalidMode3 zlib f s
  | .btype0 => Sys2Proof.Machine.execBtype0 s
  | .btype1 => Sys2Proof.Machine.execBtype1 s
  | .btype2 => Sys2Proof.Machine.execBtype2 s
  | .btype3 => Sys2Proof.Machine.execBtype3 s
  | .lit0To127 k => Sys2Proof.Machine.execLit0To127 k s
  | .lit128To143 k => Sys2Proof.Machine.execLit128To143 k s
  | .lit144To159 k => Sys2Proof.Machine.execLit144To159 k s
  | .lit160To191 k => Sys2Proof.Machine.execLit160To191 k s
  | .lit192To255 k => Sys2Proof.Machine.execLit192To255 k s
  | .eob => Sys2Proof.Machine.execEob s
  | .lensym257 => Sys2Proof.Machine.execLensym257 s
  | .lensym258 => Sys2Proof.Machine.execLensym258 s
  | .lensym259 => Sys2Proof.Machine.execLensym259 s
  | .lensym260 => Sys2Proof.Machine.execLensym260 s
  | .lensym261 => Sys2Proof.Machine.execLensym261 s
  | .lensym262 => Sys2Proof.Machine.execLensym262 s
  | .lensym263 => Sys2Proof.Machine.execLensym263 s
  | .lensym264 => Sys2Proof.Machine.execLensym264 s
  | .lensym265 => Sys2Proof.Machine.execLensym265 s
  | .lensym266 => Sys2Proof.Machine.execLensym266 s
  | .lensym267 => Sys2Proof.Machine.execLensym267 s
  | .lensym268 => Sys2Proof.Machine.execLensym268 s
  | .lensym269 => Sys2Proof.Machine.execLensym269 s
  | .lensym270 => Sys2Proof.Machine.execLensym270 s
  | .lensym271 => Sys2Proof.Machine.execLensym271 s
  | .lensym272 => Sys2Proof.Machine.execLensym272 s
  | .lensym273 => Sys2Proof.Machine.execLensym273 s
  | .lensym274 => Sys2Proof.Machine.execLensym274 s
  | .lensym275 => Sys2Proof.Machine.execLensym275 s
  | .lensym276 => Sys2Proof.Machine.execLensym276 s
  | .lensym277 => Sys2Proof.Machine.execLensym277 s
  | .lensym278 => Sys2Proof.Machine.execLensym278 s
  | .lensym279 => Sys2Proof.Machine.execLensym279 s
  | .lensym280 => Sys2Proof.Machine.execLensym280 s
  | .lensym281 => Sys2Proof.Machine.execLensym281 s
  | .lensym282 => Sys2Proof.Machine.execLensym282 s
  | .lensym283 => Sys2Proof.Machine.execLensym283 s
  | .lensym284 => Sys2Proof.Machine.execLensym284 s
  | .lensym285 => Sys2Proof.Machine.execLensym285 s
  | .lensym286To287 k => Sys2Proof.Machine.execLensym286To287 k s
  | .dsym0 => Sys2Proof.Machine.execDsym0 s
  | .dsym1 => Sys2Proof.Machine.execDsym1 s
  | .dsym2 => Sys2Proof.Machine.execDsym2 s
  | .dsym3 => Sys2Proof.Machine.execDsym3 s
  | .dsym4 => Sys2Proof.Machine.execDsym4 s
  | .dsym5 => Sys2Proof.Machine.execDsym5 s
  | .dsym6 => Sys2Proof.Machine.execDsym6 s
  | .dsym7 => Sys2Proof.Machine.execDsym7 s
  | .dsym8 => Sys2Proof.Machine.execDsym8 s
  | .dsym9 => Sys2Proof.Machine.execDsym9 s
  | .dsym10 => Sys2Proof.Machine.execDsym10 s
  | .dsym11 => Sys2Proof.Machine.execDsym11 s
  | .dsym12 => Sys2Proof.Machine.execDsym12 s
  | .dsym13 => Sys2Proof.Machine.execDsym13 s
  | .dsym14 => Sys2Proof.Machine.execDsym14 s
  | .dsym15 => Sys2Proof.Machine.execDsym15 s
  | .dsym16 => Sys2Proof.Machine.execDsym16 s
  | .dsym17 => Sys2Proof.Machine.execDsym17 s
  | .dsym18 => Sys2Proof.Machine.execDsym18 s
  | .dsym19 => Sys2Proof.Machine.execDsym19 s
  | .dsym20 => Sys2Proof.Machine.execDsym20 s
  | .dsym21 => Sys2Proof.Machine.execDsym21 s
  | .dsym22 => Sys2Proof.Machine.execDsym22 s
  | .dsym23 => Sys2Proof.Machine.execDsym23 s
  | .dsym24 => Sys2Proof.Machine.execDsym24 s
  | .dsym25 => Sys2Proof.Machine.execDsym25 s
  | .dsym26 => Sys2Proof.Machine.execDsym26 s
  | .dsym27 => Sys2Proof.Machine.execDsym27 s
  | .dsym28 => Sys2Proof.Machine.execDsym28 s
  | .dsym29 => Sys2Proof.Machine.execDsym29 s
  | .dsym30To31 k => Sys2Proof.Machine.execDsym30To31 k s
  | .cl0 => Sys2Proof.Machine.execCl0 s
  | .cl1 => Sys2Proof.Machine.execCl1 s
  | .cl2 => Sys2Proof.Machine.execCl2 s
  | .cl3 => Sys2Proof.Machine.execCl3 s
  | .cl4 => Sys2Proof.Machine.execCl4 s
  | .cl5 => Sys2Proof.Machine.execCl5 s
  | .cl6 => Sys2Proof.Machine.execCl6 s
  | .cl7 => Sys2Proof.Machine.execCl7 s
  | .cl8 => Sys2Proof.Machine.execCl8 s
  | .cl9 => Sys2Proof.Machine.execCl9 s
  | .cl10 => Sys2Proof.Machine.execCl10 s
  | .cl11 => Sys2Proof.Machine.execCl11 s
  | .cl12 => Sys2Proof.Machine.execCl12 s
  | .cl13 => Sys2Proof.Machine.execCl13 s
  | .cl14 => Sys2Proof.Machine.execCl14 s
  | .cl15 => Sys2Proof.Machine.execCl15 s
  | .cl16 => Sys2Proof.Machine.execCl16 s
  | .cl17 => Sys2Proof.Machine.execCl17 s
  | .cl18 => Sys2Proof.Machine.execCl18 s
  | .zlibHeaderWrite => Sys2Proof.Machine.execZlibHeaderWrite s
  | .zlibTrailerWrite => Sys2Proof.Machine.execZlibTrailerWrite s
  | .zlibHeaderRead cmf flg => Sys2Proof.Machine.execZlibHeaderRead cmf flg s
  | .zlibTrailerRead adler => Sys2Proof.Machine.execZlibTrailerRead adler s
  | .gzipHeader id1 id2 cm flg mtime xfl os => Sys2Proof.Machine.execGzipHeader id1 id2 cm flg mtime xfl os s
  | .gzipFextra => Sys2Proof.Machine.execGzipFextra s
  | .gzipFname => Sys2Proof.Machine.execGzipFname s
  | .gzipFcomment => Sys2Proof.Machine.execGzipFcomment s
  | .gzipFhcrc => Sys2Proof.Machine.execGzipFhcrc s
  | .gzipTrailer crc isize => Sys2Proof.Machine.execGzipTrailer crc isize s
  | .gzipTrailerStrict crc isize => Sys2Proof.Machine.execGzipTrailerStrict crc isize s

end Sys2Proof.Machine
end

