-- ==== Sys2Proof/WellFormed.lean ====
section
/-! DEFINITION. Which `Instr` terms stand for an encoding. Every field's width is in its type, so the one check left
is R684's: `MODE = 3` with `OP` 0 or 1 is the row `INVALID_MODE_3`, and only there. -/

namespace Sys2Proof

/-- `i` is the reading of some word: `DEFLATE` and `DEFLATE_ZLIB` have a legal `MODE` (R64), `INVALID_MODE_3` has
`MODE = 3` (R684). Every other constructor is well formed whatever its fields. -/
def Instr.wellFormed : Instr → Bool
  | .deflate f => f.mode != 3#2
  | .deflateZlib f => f.mode != 3#2
  | .invalidMode3 _ f => f.mode == 3#2
  | _ => true

/-- `Instr.wellFormed` as a proposition. -/
abbrev Instr.WellFormed (i : Instr) : Prop := i.wellFormed = true

end Sys2Proof
end

