-- ==== Sys2Proof/Decode.lean ====
section
/-! DEFINITION. From bits to `Instr` and back. The core has no one instruction stream: which ALPHABET a word belongs to
is decided by the sequencer's phase (R56, R169), so the decoder takes the alphabet and the word's value, numbered as
the opcode table numbers it (R171: the `CMD` word, the 2-bit `BTYPE`, the decoded symbol's value, the header bytes).
How a symbol's value is read from the stream (the Huffman descent, R266) is `Machine/Fetch.lean`'s. -/

namespace Sys2Proof

/-- The encodings the opcode table numbers (R171), one per place in a command where a word is read or written. -/
inductive Alphabet where
  /-- the 32-bit `CMD` word (R151) -/
  | command
  /-- the 2-bit `BTYPE` value (R153) -/
  | blockType
  /-- literal/length symbols 0..287 (R158) -/
  | litLen
  /-- distance symbols 0..31 (R163) -/
  | dist
  /-- code-length symbols 0..18 (R162) -/
  | codeLen
  /-- the zlib header word the encoder writes, `CMF << 8 | FLG` (R600) -/
  | zlibHeaderOut
  /-- the zlib trailer the encoder writes; its value is computed, so the word has no bits (R601) -/
  | zlibTrailerOut
  /-- a zlib header word read, `CMF << 8 | FLG` (R620) -/
  | zlibHeaderIn
  /-- a zlib trailer read: four bytes, big-endian (R623) -/
  | zlibTrailerIn
  /-- the ten fixed gzip header bytes, the first byte most significant (R630, R171) -/
  | gzipHeader
  /-- one bit of the gzip `FLG` byte (R631) -/
  | gzipFlag
  /-- a gzip trailer read with `GZ_STRICT = 0`: eight bytes, little-endian (R640) -/
  | gzipTrailer
  /-- a gzip trailer read with `GZ_STRICT = 1` (R641) -/
  | gzipTrailerStrict
  deriving DecidableEq, Repr

/-- Why a value stands for no instruction of an alphabet. -/
inductive DecodeError where
  /-- the value needs more bits than the alphabet's word has -/
  | tooWide
  /-- a literal/length value above 287 (R158) -/
  | noLitLenSymbol
  /-- a distance value above 31 (R163) -/
  | noDistSymbol
  /-- a code-length value above 18 (R162) -/
  | noCodeLenSymbol
  /-- a header word other than `0x7801` on the encode side (R600) -/
  | noHeaderWritten
  /-- a `FLG` value with none of the four optional-field bits (R631) -/
  | noGzipField
  deriving DecidableEq, Repr

/-- The bits of an alphabet's word (R150, R151, R165, R166). -/
def Alphabet.width : Alphabet → Nat
  | .command => 32
  | .blockType => 2
  | .litLen => 9
  | .dist | .codeLen => 5
  | .zlibHeaderOut | .zlibHeaderIn => 16
  | .zlibTrailerOut => 0
  | .zlibTrailerIn => 32
  | .gzipHeader => 80
  | .gzipFlag => 8
  | .gzipTrailer | .gzipTrailerStrict => 64

/-- Byte `k` of a number, byte 0 the least significant. -/
def byteOf (w k : Nat) : Byte := BitVec.ofNat 8 (w >>> (8 * k))

/-- A little-endian `u32` of the four bytes `b0 b1 b2 b3` (R115). -/
def wordLE (b0 b1 b2 b3 : Byte) : Word :=
  BitVec.ofNat 32 (b0.toNat + 256 * b1.toNat + 65536 * b2.toNat + 16777216 * b3.toNat)

/-- The fields of a `CMD` word beside `OP` (R64); the reserved bits [31:9] are ignored (R168). -/
def cmdFields (w : Nat) : CmdFields :=
  { mode := BitVec.ofNat 2 (w >>> 4), winEn := w.testBit 6, gzStrict := w.testBit 7, chain := w.testBit 8 }

/-- Decode a `CMD` word by `OP` [3:0] and, for `OP` 0 and 1, `MODE` (R64, R684). -/
def decodeCommand (w : Nat) : Instr :=
  let f := cmdFields w
  match w % 16 with
  | 0 => if f.mode = 3#2 then .invalidMode3 false f else .deflate f
  | 1 => if f.mode = 3#2 then .invalidMode3 true f else .deflateZlib f
  | 2 => .inflate f
  | 3 => .inflateZlib f
  | 4 => .inflateGzip f
  | 5 => .crc32 f
  | 6 => .adler32 f
  | 7 => .invalidOp7 f
  | _ => .invalidOp8To15 (BitVec.ofNat 3 w) f

/-- The length symbols 257..285 in order (R159). -/
def lengthInstrs : List Instr := [
    .lensym257, .lensym258, .lensym259, .lensym260, .lensym261, .lensym262, .lensym263, .lensym264,
    .lensym265, .lensym266, .lensym267, .lensym268, .lensym269, .lensym270, .lensym271, .lensym272,
    .lensym273, .lensym274, .lensym275, .lensym276, .lensym277, .lensym278, .lensym279, .lensym280,
    .lensym281, .lensym282, .lensym283, .lensym284, .lensym285]

/-- The distance symbols 0..29 in order (R163). -/
def distInstrs : List Instr := [
    .dsym0, .dsym1, .dsym2, .dsym3, .dsym4, .dsym5, .dsym6, .dsym7,
    .dsym8, .dsym9, .dsym10, .dsym11, .dsym12, .dsym13, .dsym14, .dsym15,
    .dsym16, .dsym17, .dsym18, .dsym19, .dsym20, .dsym21, .dsym22, .dsym23,
    .dsym24, .dsym25, .dsym26, .dsym27, .dsym28, .dsym29]

/-- The code-length symbols 0..18 in order (R162). -/
def codeLenInstrs : List Instr := [
    .cl0, .cl1, .cl2, .cl3, .cl4, .cl5, .cl6, .cl7, .cl8, .cl9,
    .cl10, .cl11, .cl12, .cl13, .cl14, .cl15, .cl16, .cl17, .cl18]

/-- A literal/length symbol value (R158, R168). -/
def decodeLitLen (w : Nat) : Except DecodeError Instr :=
  if w < 128 then .ok (.lit0To127 (BitVec.ofNat 7 w))
  else if w < 144 then .ok (.lit128To143 (BitVec.ofNat 4 w))
  else if w < 160 then .ok (.lit144To159 (BitVec.ofNat 4 w))
  else if w < 192 then .ok (.lit160To191 (BitVec.ofNat 5 w))
  else if w < 256 then .ok (.lit192To255 (BitVec.ofNat 6 w))
  else if w = 256 then .ok .eob
  else match lengthInstrs[w - 257]? with
    | some i => .ok i
    | none => if w < 288 then .ok (.lensym286To287 (BitVec.ofNat 1 w)) else .error .noLitLenSymbol

/-- A distance symbol value (R163, R168). -/
def decodeDist (w : Nat) : Except DecodeError Instr :=
  match distInstrs[w]? with
  | some i => .ok i
  | none => if w < 32 then .ok (.dsym30To31 (BitVec.ofNat 1 w)) else .error .noDistSymbol

/-- A code-length symbol value (R162). -/
def decodeCodeLen (w : Nat) : Except DecodeError Instr :=
  match codeLenInstrs[w]? with
  | some i => .ok i
  | none => .error .noCodeLenSymbol

/-- The optional gzip field a `FLG` value selects next: extra, name, comment, header CRC, in this order whatever the
order of the bits; `FTEXT` and bits [7:5] select nothing (R631). -/
def decodeGzipFlag (w : Nat) : Except DecodeError Instr :=
  if w.testBit 2 then .ok .gzipFextra
  else if w.testBit 3 then .ok .gzipFname
  else if w.testBit 4 then .ok .gzipFcomment
  else if w.testBit 1 then .ok .gzipFhcrc
  else .error .noGzipField

/-- The decoder: total on every alphabet and every value, rejecting by name. -/
def decode (a : Alphabet) (w : Nat) : Except DecodeError Instr :=
  match a with
  | .command => if w < 4294967296 then .ok (decodeCommand w) else .error .tooWide
  | .blockType =>
    match w with
    | 0 => .ok .btype0
    | 1 => .ok .btype1
    | 2 => .ok .btype2
    | 3 => .ok .btype3
    | _ => .error .tooWide
  | .litLen => decodeLitLen w
  | .dist => decodeDist w
  | .codeLen => decodeCodeLen w
  | .zlibHeaderOut => if w = 0x7801 then .ok .zlibHeaderWrite else .error .noHeaderWritten
  | .zlibTrailerOut => if w = 0 then .ok .zlibTrailerWrite else .error .tooWide
  | .zlibHeaderIn => if w < 65536 then .ok (.zlibHeaderRead (byteOf w 1) (byteOf w 0)) else .error .tooWide
  | .zlibTrailerIn => if w < 4294967296 then .ok (.zlibTrailerRead (BitVec.ofNat 32 w)) else .error .tooWide
  | .gzipHeader =>
    if w < 2 ^ 80 then
      .ok (.gzipHeader (byteOf w 9) (byteOf w 8) (byteOf w 7) (byteOf w 6)
        (wordLE (byteOf w 5) (byteOf w 4) (byteOf w 3) (byteOf w 2)) (byteOf w 1) (byteOf w 0))
    else .error .tooWide
  | .gzipFlag => decodeGzipFlag w
  | .gzipTrailer =>
    if w < 2 ^ 64 then .ok (.gzipTrailer (BitVec.ofNat 32 w) (BitVec.ofNat 32 (w >>> 32))) else .error .tooWide
  | .gzipTrailerStrict =>
    if w < 2 ^ 64 then .ok (.gzipTrailerStrict (BitVec.ofNat 32 w) (BitVec.ofNat 32 (w >>> 32))) else .error .tooWide

/-! The encoder: the alphabet of each instruction and its number there, from the same tables. -/

/-- Which alphabet an instruction's word belongs to. -/
def Instr.alphabet : Instr → Alphabet
  | .deflate _ | .deflateZlib _ | .inflate _ | .inflateZlib _ | .inflateGzip _ | .crc32 _ | .adler32 _
  | .invalidOp7 _ | .invalidOp8To15 _ _ | .invalidMode3 _ _ => .command
  | .btype0 | .btype1 | .btype2 | .btype3 => .blockType
  | .lit0To127 _ | .lit128To143 _ | .lit144To159 _ | .lit160To191 _ | .lit192To255 _ | .eob
  | .lensym257 | .lensym258 | .lensym259 | .lensym260 | .lensym261 | .lensym262 | .lensym263 | .lensym264
  | .lensym265 | .lensym266 | .lensym267 | .lensym268 | .lensym269 | .lensym270 | .lensym271 | .lensym272
  | .lensym273 | .lensym274 | .lensym275 | .lensym276 | .lensym277 | .lensym278 | .lensym279 | .lensym280
  | .lensym281 | .lensym282 | .lensym283 | .lensym284 | .lensym285
  | .lensym286To287 _ => .litLen
  | .dsym0 | .dsym1 | .dsym2 | .dsym3 | .dsym4 | .dsym5 | .dsym6 | .dsym7
  | .dsym8 | .dsym9 | .dsym10 | .dsym11 | .dsym12 | .dsym13 | .dsym14 | .dsym15
  | .dsym16 | .dsym17 | .dsym18 | .dsym19 | .dsym20 | .dsym21 | .dsym22 | .dsym23
  | .dsym24 | .dsym25 | .dsym26 | .dsym27 | .dsym28 | .dsym29
  | .dsym30To31 _ => .dist
  | .cl0 | .cl1 | .cl2 | .cl3 | .cl4 | .cl5 | .cl6 | .cl7 | .cl8 | .cl9
  | .cl10 | .cl11 | .cl12 | .cl13 | .cl14 | .cl15 | .cl16 | .cl17 | .cl18 => .codeLen
  | .zlibHeaderWrite => .zlibHeaderOut
  | .zlibTrailerWrite => .zlibTrailerOut
  | .zlibHeaderRead _ _ => .zlibHeaderIn
  | .zlibTrailerRead _ => .zlibTrailerIn
  | .gzipHeader _ _ _ _ _ _ _ => .gzipHeader
  | .gzipFextra | .gzipFname | .gzipFcomment | .gzipFhcrc => .gzipFlag
  | .gzipTrailer _ _ => .gzipTrailer
  | .gzipTrailerStrict _ _ => .gzipTrailerStrict

/-- A `CMD` word: `OP` and its other fields, the reserved bits 0 (R64). -/
def commandWord (op : Nat) (f : CmdFields) : Nat :=
  op + 16 * f.mode.toNat + 64 * f.winEn.toNat + 128 * f.gzStrict.toNat + 256 * f.chain.toNat

/-- The number of an instruction in its alphabet (the row's `match`, with the row's free bits filled in). -/
def Instr.number : Instr → Nat
  | .deflate f => commandWord 0 f
  | .deflateZlib f => commandWord 1 f
  | .inflate f => commandWord 2 f
  | .inflateZlib f => commandWord 3 f
  | .inflateGzip f => commandWord 4 f
  | .crc32 f => commandWord 5 f
  | .adler32 f => commandWord 6 f
  | .invalidOp7 f => commandWord 7 f
  | .invalidOp8To15 op f => commandWord (8 + op.toNat) f
  | .invalidMode3 zlib f => commandWord zlib.toNat f
  | .btype0 => 0
  | .btype1 => 1
  | .btype2 => 2
  | .btype3 => 3
  | .lit0To127 k => k.toNat
  | .lit128To143 k => 128 + k.toNat
  | .lit144To159 k => 144 + k.toNat
  | .lit160To191 k => 160 + k.toNat
  | .lit192To255 k => 192 + k.toNat
  | .eob => 256
  | .lensym257 => 257
  | .lensym258 => 258
  | .lensym259 => 259
  | .lensym260 => 260
  | .lensym261 => 261
  | .lensym262 => 262
  | .lensym263 => 263
  | .lensym264 => 264
  | .lensym265 => 265
  | .lensym266 => 266
  | .lensym267 => 267
  | .lensym268 => 268
  | .lensym269 => 269
  | .lensym270 => 270
  | .lensym271 => 271
  | .lensym272 => 272
  | .lensym273 => 273
  | .lensym274 => 274
  | .lensym275 => 275
  | .lensym276 => 276
  | .lensym277 => 277
  | .lensym278 => 278
  | .lensym279 => 279
  | .lensym280 => 280
  | .lensym281 => 281
  | .lensym282 => 282
  | .lensym283 => 283
  | .lensym284 => 284
  | .lensym285 => 285
  | .lensym286To287 k => 286 + k.toNat
  | .dsym0 => 0
  | .dsym1 => 1
  | .dsym2 => 2
  | .dsym3 => 3
  | .dsym4 => 4
  | .dsym5 => 5
  | .dsym6 => 6
  | .dsym7 => 7
  | .dsym8 => 8
  | .dsym9 => 9
  | .dsym10 => 10
  | .dsym11 => 11
  | .dsym12 => 12
  | .dsym13 => 13
  | .dsym14 => 14
  | .dsym15 => 15
  | .dsym16 => 16
  | .dsym17 => 17
  | .dsym18 => 18
  | .dsym19 => 19
  | .dsym20 => 20
  | .dsym21 => 21
  | .dsym22 => 22
  | .dsym23 => 23
  | .dsym24 => 24
  | .dsym25 => 25
  | .dsym26 => 26
  | .dsym27 => 27
  | .dsym28 => 28
  | .dsym29 => 29
  | .dsym30To31 k => 30 + k.toNat
  | .cl0 => 0
  | .cl1 => 1
  | .cl2 => 2
  | .cl3 => 3
  | .cl4 => 4
  | .cl5 => 5
  | .cl6 => 6
  | .cl7 => 7
  | .cl8 => 8
  | .cl9 => 9
  | .cl10 => 10
  | .cl11 => 11
  | .cl12 => 12
  | .cl13 => 13
  | .cl14 => 14
  | .cl15 => 15
  | .cl16 => 16
  | .cl17 => 17
  | .cl18 => 18
  | .zlibHeaderWrite => 0x7801
  | .zlibTrailerWrite => 0
  | .zlibHeaderRead cmf flg => 256 * cmf.toNat + flg.toNat
  | .zlibTrailerRead adler => adler.toNat
  | .gzipHeader id1 id2 cm flg mtime xfl os =>
    2 ^ 72 * id1.toNat + 2 ^ 64 * id2.toNat + 2 ^ 56 * cm.toNat + 2 ^ 48 * flg.toNat
      + 2 ^ 40 * (byteOf mtime.toNat 0).toNat + 2 ^ 32 * (byteOf mtime.toNat 1).toNat
      + 2 ^ 24 * (byteOf mtime.toNat 2).toNat + 2 ^ 16 * (byteOf mtime.toNat 3).toNat
      + 2 ^ 8 * xfl.toNat + os.toNat
  | .gzipFextra => 4
  | .gzipFname => 8
  | .gzipFcomment => 16
  | .gzipFhcrc => 2
  | .gzipTrailer crc isize => crc.toNat + 4294967296 * isize.toNat
  | .gzipTrailerStrict crc isize => crc.toNat + 4294967296 * isize.toNat

/-- A word of an alphabet. -/
structure Encoded where
  alphabet : Alphabet
  nbits : Nat
  bits : Nat
  deriving DecidableEq, Repr

/-- The encoder: the alphabet, width and value of an instruction's word. -/
def encode (i : Instr) : Encoded := { alphabet := i.alphabet, nbits := i.alphabet.width, bits := i.number }

/-! The fixed codes, as the opcode table and R156, R157 write them: most significant bit first. -/

/-- Width and value of the fixed code of a literal/length symbol (the table of R156). -/
def fixedLitLenCode (s : Nat) : Nat × Nat :=
  if s < 144 then (8, 0b00110000 + s)
  else if s < 256 then (9, 0b110010000 + (s - 144))
  else if s < 280 then (7, s - 256)
  else (8, 0b11000000 + (s - 280))

/-- Width and value of the fixed code of a distance symbol (R157). -/
def fixedDistCode (s : Nat) : Nat × Nat := (5, s)

/-! The opcode table's own numbering. The table gives a row only its word's value, not its alphabet, and the same value
names a row of several alphabets (8-bit value 1 is `DEFLATE_ZLIB`, `BTYPE=1`, `DSYM 1` and `CL 1`). -/

/-- The alphabet taken for a bare table word of `nbits` bits. DESIGN CHOICE (log entry 4): 8-bit values 9..31 are
distance symbols and every other 8-bit value a `CMD` word; 16-bit values 18..29 are distance symbols (the table gives
those rows 16 bits), other values below 512 literal/length symbols, `0x7801` the zlib header written and the rest a
zlib header read; 24 bits are the gzip header, 32 the `CMD` word in full, 64 a gzip trailer, none the zlib trailer
written. -/
def tableAlphabet (nbits w : Nat) : Alphabet :=
  match nbits with
  | 0 => .zlibTrailerOut
  | 8 => if 9 ≤ w ∧ w < 32 then .dist else .command
  | 16 =>
    if 18 ≤ w ∧ w < 30 then .dist
    else if w < 512 then .litLen
    else if w = 0x7801 then .zlibHeaderOut
    else .zlibHeaderIn
  | 24 => .gzipHeader
  | 64 => .gzipTrailer
  | _ => .command

/-- The value of a bare table word in its alphabet. The gzip header row numbers its first three bytes big-endian; the
seven bytes after them, which the row gives no bits, are 0. -/
def tableValue (nbits w : Nat) : Nat :=
  match tableAlphabet nbits w with
  | .gzipHeader => w % 16777216 * 2 ^ 56
  | _ => w

/-- The instruction the decoder reads from a row's word, numbered as spec/opcode_table.json numbers it. -/
def decodeTableWord (nbits w : Nat) : Option Instr :=
  match decode (tableAlphabet nbits w) (tableValue nbits w) with
  | .ok i => some i
  | .error _ => none

end Sys2Proof
end

