-- ==== Sys2Proof/Machine/Flags.lean ====
section
/-! DEFINITION. The host-visible flags (spec/10_state.md R60, R63, R70; spec/60_exceptions.md R740): the words `CTRL` and
`STATUS` read as, the write-one-to-clear bits, and the level of `irq`. -/

namespace Sys2Proof.Machine

/-- `CTRL` as it reads (R63): `START` reads 0, `IRQ_EN` is bit 1, the rest 0. -/
def Regs.ctrlWord (r : Regs) : Word := BitVec.ofNat 32 (2 * r.irqEn.toNat)

/-- `STATUS` as it reads (R70): `BUSY` bit 0, `DONE` bit 1, `ERR` bit 2, `ERRCODE` bits [15:8], the rest 0. -/
def State.statusWord (s : State) : Word :=
  BitVec.ofNat 32 (s.busy.toNat + 2 * s.reg.done.toNat + 4 * s.reg.err.toNat + 256 * s.reg.errCode.toNat)

/-- A write of `v` to `STATUS` (R70, R103): `DONE` and `ERR` are cleared by writing 1, everything else is read-only;
it takes effect at any time. -/
def Regs.writeStatus (r : Regs) (v : Word) : Regs :=
  { r with done := r.done && !v.getLsbD 1, err := r.err && !v.getLsbD 2 }

/-- The level of the interrupt output (R740): `irq = CTRL.IRQ_EN & (STATUS.DONE | STATUS.ERR)`. -/
def State.irq (s : State) : Bool := s.reg.irqEn && (s.reg.done || s.reg.err)

/-- What a write of `v` to `WINDOW` stores (R65): `min(v[15:0], 32768)`. -/
def windowOf (v : Word) : Word := BitVec.ofNat 32 (min (v.toNat % 65536) Config.maxWindow)

/-- What a write of `v` to `CMD` stores (R64): the reserved bits [31:9] read 0. -/
def cmdOf (v : Word) : Word := v &&& 0x1FF#32

end Sys2Proof.Machine
end

