-- ==== Sys2Proof/Machine/Fetch.lean ====
section
/-! DEFINITION. Where the next instruction comes from. The core has no program counter (R56): the sequencer's phase says
which alphabet comes next and where its word is: the `CMD` register, the input at `inBit`, or, when the command
compresses, the symbols the encoder is about to write. `placeWord` puts a word of the opcode table where the next step
finds it. -/

namespace Sys2Proof.Machine

/-! ## Reading the next word -/

/-- The input bytes `in[p], .., in[p + n - 1]` in order (R106). -/
def inBytes (p n : Nat) (s : State) : Res (List Byte) := memReadAll (s.srcByte p) n s

/-- Bytes as one number, the first byte most significant. -/
def bigEndian : List Byte → Nat := List.foldl (fun acc b => 256 * acc + b.toNat) 0

/-- Bytes as one number, the first byte least significant. -/
def littleEndian : List Byte → Nat
  | [] => 0
  | b :: rest => b.toNat + 256 * littleEndian rest

/-- A record of `n` whole bytes at the reader's byte position: `UnexpectedEndOfInput` unless all are present, then the
bytes, and the position moves past them (R623, R630, R640). -/
def recordBytes (n : Nat) (s : State) : Res (List Byte) :=
  (needBytes s.inPos n s).andThen fun _ s =>
  (inBytes s.inPos n s).andThen fun bytes s => .ok bytes (s.setInBit (8 * (s.inPos + n)))

/-- `BFINAL` is latched for the block it heads (R59). -/
def State.latchFinal (s : State) (bit : Nat) : State := { s with dec := { s.dec with bfinal := bit == 1 } }

/-- A block header (R450): `BFINAL`, then the two bits of `BTYPE`. -/
def readBlockHeader (s : State) : Res Nat :=
  (readBits 1 s).andThen fun final s => readBits 2 (s.latchFinal final)

/-- The two zlib header bytes as one word `CMF << 8 | FLG` (R620). -/
def readZlibHeader (s : State) : Res Nat :=
  (readBits 8 s).andThen fun cmf s =>
  (readBits 8 s).andThen fun flg s => .ok (256 * cmf + flg) s

/-- The symbol at the head of the block's symbols: its literal/length symbol (R358 to R360). -/
def nextSym (s : State) : Res Nat :=
  match s.enc.syms with
  | .literal b :: _ => .ok b.toNat s
  | .endOfBlock :: _ => .ok 256 s
  | .pointer len _ :: _ => .ok (lenSym len).1 s
  | [] => .fault .encoderQueueEmpty

/-- The distance symbol of the pointer being written (R359). -/
def nextDist (s : State) : Res Nat := .ok (distSym s.pointerWritten.2).1 s

/-- The code-length symbol at the head of the code-width list's (R375). -/
def nextCl (s : State) : Res Nat :=
  match s.enc.clSeq with
  | c :: _ => .ok c.1 s
  | [] => .fault .encoderQueueEmpty

/-- `BTYPE` of a block that is written (R350). -/
def Mode.blockType : Mode → Nat
  | .raw => 0
  | .fixed => 1
  | .dynamic => 2

/-- The value of the next word and its alphabet, by phase. The phases that read no word (`loadChunk`, `scanChunk`,
`buildTables`, `flush`) are the engine's own and never come here; they are given the alphabet without bits. -/
def nextWord (p : Phase) (s : State) : Alphabet × Res Nat :=
  match p with
  | .dispatch => (.command, .ok s.reg.cmd.toNat s)
  | .zlibHeaderOut => (.zlibHeaderOut, .ok 0x7801 s)
  | .writeBlock => (.blockType, .ok s.run.mode.blockType s)
  | .writeCodeLen => (.codeLen, nextCl s)
  | .writeSym => (.litLen, nextSym s)
  | .writeDist => (.dist, nextDist s)
  | .zlibTrailerOut | .loadChunk | .scanChunk | .buildTables | .flush => (.zlibTrailerOut, .ok 0 s)
  | .zlibHeaderIn => (.zlibHeaderIn, readZlibHeader s)
  | .gzipHeader => (.gzipHeader, (recordBytes 10 s).andThen fun bytes s => .ok (bigEndian bytes) s)
  | .gzipOptional => (.gzipFlag, .ok s.dec.gzFlags.toNat s)
  | .readBlock => (.blockType, readBlockHeader s)
  | .readCodeLen => (.codeLen, decodeSymbol s.dec.clTable s)
  | .readSym => (.litLen, decodeSymbol s.dec.litTable s)
  | .readDist => (.dist, decodeSymbol s.dec.distTable s)
  | .zlibTrailerIn => (.zlibTrailerIn, (recordBytes 4 s).andThen fun bytes s => .ok (bigEndian bytes) s)
  | .gzipTrailerIn =>
    (if s.run.strict then .gzipTrailerStrict else .gzipTrailer,
      (recordBytes 8 s).andThen fun bytes s => .ok (littleEndian bytes) s)

/-- The next instruction in a phase. A value that stands for no instruction is a symbol outside its alphabet, "an
invalid symbol index" (R731); the tables the rules build hold no such symbol (log entry 12). -/
def fetch (p : Phase) (s : State) : Res Instr :=
  (nextWord p s).2.andThen fun w s =>
  match decode (nextWord p s).1 w with
  | .ok i => .ok i s
  | .error _ => .raised .huffmanTableIndexOutOfBounds s

/-! ## Placing a word where the next step finds it -/

/-- Bits of a code, first bit of the stream first: `n` bits of `v`, most significant first (R156). -/
def codeBits (n v : Nat) : List Nat := (List.range n).map fun k => v / 2 ^ (n - 1 - k) % 2

/-- Stream bits packed into a number, first bit least significant (R16). -/
def packBits : List Nat → Nat
  | [] => 0
  | b :: rest => b + 2 * packBits rest

/-- `n` bytes of a number, least significant first. -/
def bytesLE (n v : Nat) : List Byte := (List.range n).map fun k => byteOf v k

/-- `n` bytes of a number, most significant first. -/
def bytesBE (n v : Nat) : List Byte := (bytesLE n v).reverse

/-- The core in a phase of a command of operation `op`, with these input bytes at `SRC_ADDR`, the reader at their
start and no host move pending. -/
def State.poised (s : State) (op : Op) (p : Phase) (input : List Byte) : State :=
  { s with
    reg := { s.reg with srcLen := BitVec.ofNat 32 input.length }
    seq := .busy p
    run := { s.run with op := op }
    dec := { s.dec with inBit := 0 }
    mem := s.mem.writeAll s.reg.srcAddr.toNat input
    host := { s.host with moves := [] } }

/-- A fixed-code symbol as the input's first bits, with zero bits after it (its extra bits among them). -/
def fixedInput (code : Nat × Nat) : List Byte := bytesLE 8 (packBits (codeBits code.1 code.2))

/-- The core about to read a symbol of the fixed codes from its input (R156, R157). -/
def State.poisedFixed (s : State) (p : Phase) (code : Nat × Nat) : State :=
  let t := s.poised .inflate p (fixedInput code)
  { t with
    dec := { t.dec with
      litTable := decodeTable fixedLitLenWidths, distTable := decodeTable fixedDistWidths, length := 3 } }

/-- The core with a word of an alphabet where its next step finds it. -/
def placeIn (a : Alphabet) (w : Nat) (s : State) : State :=
  match a with
  | .command =>
    { s with
      reg := { s.reg with cmd := cmdOf (BitVec.ofNat 32 w) }
      seq := .busy .dispatch
      host := { s.host with moves := [] } }
  | .blockType => s.poised .inflate .readBlock (bytesLE 8 (2 * w))
  | .litLen => s.poisedFixed .readSym (fixedLitLenCode w)
  | .dist => s.poisedFixed .readDist (fixedDistCode w)
  | .codeLen =>
    let t := s.poised .inflate .readCodeLen (fixedInput (fixedDistCode w))
    { t with
      dec := { t.dec with
        clTable := decodeTable (List.replicate 19 5), hlit := 257, hdist := 1, widths := [0] } }
  | .zlibHeaderOut => s.poised .deflateZlib .zlibHeaderOut []
  | .zlibTrailerOut => s.poised .deflateZlib .zlibTrailerOut []
  | .zlibHeaderIn => s.poised .inflateZlib .zlibHeaderIn (bytesBE 2 w)
  | .zlibTrailerIn => s.poised .inflateZlib .zlibTrailerIn (bytesBE 4 w)
  | .gzipHeader => s.poised .inflateGzip .gzipHeader (bytesBE 10 w)
  | .gzipFlag =>
    let t := s.poised .inflateGzip .gzipOptional (bytesLE 8 0)
    { t with dec := { t.dec with gzFlags := gzFieldBits (BitVec.ofNat 8 w) } }
  | .gzipTrailer =>
    let t := s.poised .inflateGzip .gzipTrailerIn (bytesLE 8 w)
    { t with run := { t.run with strict := false } }
  | .gzipTrailerStrict =>
    let t := s.poised .inflateGzip .gzipTrailerIn (bytesLE 8 w)
    { t with run := { t.run with strict := true } }

/-- The core with a bare opcode-table word where its next step finds it (log entry 4). -/
def placeWord (s : State) (nbits w : Nat) : State := placeIn (tableAlphabet nbits w) (tableValue nbits w) s

end Sys2Proof.Machine
end

