-- ==== Sys2Proof/Machine/HostMoves.lean ====
section
/-! DEFINITION. The host's moves (spec/20_memory.md R100 to R104; spec/70_reset_and_hazards.md R780, R790 to R796): register
reads and writes, loads and stores of host memory, and the reset input. -/

namespace Sys2Proof.Machine

/-! ## Registers -/

/-- What the host read. -/
def State.withReadData (s : State) (v : Word) : State := { s with host := { s.host with readData := v } }

/-- A read that "returns any value" (R790, R795): a fresh free value (log entry 3). -/
def State.readAny (s : State) (value : Word → Word) : State :=
  { s with host := { s.host with readData := value (Config.anyWord s.free) }, free := s.free + 1 }

/-- Read the register at offset `off`, a multiple of 4 in 0x00..0x3C (R61, R101, R102). -/
def readRegister (off : Nat) (s : State) : State :=
  match off with
  | 0x00 => s.withReadData Config.idValue
  | 0x04 => s.withReadData s.reg.ctrlWord
  | 0x08 => s.withReadData s.reg.cmd
  | 0x0C => s.withReadData s.reg.window
  | 0x10 => s.withReadData s.reg.srcAddr
  | 0x14 => s.withReadData s.reg.srcLen
  | 0x18 => s.withReadData s.reg.dstAddr
  | 0x1C => s.withReadData s.reg.dstCap
  | 0x20 => s.withReadData s.statusWord
  | 0x24 => if s.busy then s.readAny id else s.withReadData s.reg.outLen
  | 0x28 => if s.busy then s.readAny id else s.withReadData s.reg.checksum
  | 0x2C => s.withReadData s.reg.errExpected
  | 0x30 => s.withReadData s.reg.errFound
  | _ => s.withReadData 0#32

/-- A configuration write: ignored while busy (R103). -/
def State.configure (s : State) (f : Regs → Regs) : State := if s.busy then s else { s with reg := f s.reg }

/-- A write of `CTRL` (R63): `IRQ_EN` is stored, and 1 in `START` starts a command unless busy (R680, R103). -/
def writeCtrl (v : Word) (s : State) : State :=
  let t := { s with reg := { s.reg with irqEn := v.getLsbD 1 } }
  if v.getLsbD 0 ∧ ¬s.busy then t.start else t

/-- Write the register at offset `off` (R61, R102, R103): read-only registers and reserved offsets ignore it. -/
def writeRegister (off : Nat) (v : Word) (s : State) : State :=
  match off with
  | 0x04 => writeCtrl v s
  | 0x08 => s.configure fun r => { r with cmd := cmdOf v }
  | 0x0C => s.configure fun r => { r with window := windowOf v }
  | 0x10 => s.configure fun r => { r with srcAddr := v }
  | 0x14 => s.configure fun r => { r with srcLen := v }
  | 0x18 => s.configure fun r => { r with dstAddr := v }
  | 0x1C => s.configure fun r => { r with dstCap := v }
  | 0x20 => { s with reg := s.reg.writeStatus v }
  | 0x28 => s.configure fun r => { r with checksum := v }
  | _ => s

/-- A register access of `width` bytes at a bus address: one of the 16 offsets of this core's block, in full (R61,
R100), else refused by name. -/
def registerAccess (addr width : Nat) (k : Nat → State) (s : State) : Host.Outcome State Fault Refusal :=
  if addr < s.plat.base ∨ s.plat.base + 64 ≤ addr then .refused .notARegisterAddress
  else if width ≠ 4 ∨ (addr - s.plat.base) % 4 ≠ 0 then .refused .registerAccessForm
  else .next (k (addr - s.plat.base))

/-! ## Host memory -/

/-- The region a busy command may write: `OUT` of an op 0 to 4 (R106). -/
def State.inOut (s : State) (a : Nat) : Bool := s.cmdHasOutput && s.inDst a

/-- The first reason a host access of an address stops (R105, R109), if any. -/
def hostAddressStop (s : State) (a : Nat) : Option (Host.Outcome State Fault Refusal) :=
  if Config.memorySize ≤ a then some (.fault .outsideAddressSpace)
  else if s.plat.busOk a then none
  else some (.refused .hostAddressNotBacked)

/-- The first reason one of these addresses stops a host store: also `IN ∪ OUT` while busy (R790). -/
def hostStoreStop (s : State) : List Nat → Option (Host.Outcome State Fault Refusal)
  | [] => none
  | a :: rest =>
    match hostAddressStop s a with
    | some stop => some stop
    | none => if s.busy && (s.inSrc a || s.inOut a) then some (.refused .hostStoreWhileBusy) else hostStoreStop s rest

/-- A host store of bytes from an address on. -/
def hostStore (a : Nat) (bytes : List Byte) (s : State) : Host.Outcome State Fault Refusal :=
  match hostStoreStop s (List.range' a bytes.length) with
  | some stop => stop
  | none => .next { s with mem := s.mem.writeAll a bytes }

/-- A host load of one byte: any value in `OUT` while busy (R790). -/
def hostLoad (a : Nat) (s : State) : Host.Outcome State Fault Refusal :=
  match hostAddressStop s a with
  | some stop => stop
  | none =>
    if s.busy && s.inOut a then .next (s.readAny fun v => v &&& 0xFF#32)
    else .next (s.withReadData ((s.mem.read a).setWidth 32))

/-! ## Reset -/

/-- A running command is cut short by reset with its `OUT` holding any value (R780, R106). -/
def State.cutShort (s : State) : Bool := s.busy && s.cmdHasOutput

/-- The reset input (R780): every register at its reset value, the core idle; a running command is abandoned and its
`OUT` holds any value. Nothing else of memory and no platform parameter changes; the datapath has no reset value. -/
def resetInput (s : State) : State :=
  { s with
    reg := Regs.reset
    seq := .idle
    mem := if s.cutShort then s.lostMem else s.mem
    free := if s.cutShort then s.free + 1 else s.free }

end Sys2Proof.Machine
end

