-- ==== Sys2Proof/Machine/Engine.lean ====
section
/-! DEFINITION. The command engine (R56, R216, R694) and the host's moves, one at a time (R763). -/

namespace Sys2Proof.Machine

/-- The phases in which the engine works without reading or writing a stream element: a chunk's read, its LZ77 scan, a
dynamic block's tables and the final flush (R350, R303, R357, R377). -/
def Phase.internal : Phase → Bool
  | .loadChunk | .scanChunk | .buildTables | .flush => true
  | .dispatch | .zlibHeaderOut | .writeBlock | .writeCodeLen | .writeSym | .writeDist | .zlibTrailerOut
  | .zlibHeaderIn | .gzipHeader | .gzipOptional | .readBlock | .readCodeLen | .readSym | .readDist
  | .zlibTrailerIn | .gzipTrailerIn => false

/-- Fetch the next instruction and run it. -/
def runNext (p : Phase) (s : State) : Host.Outcome State Fault Refusal :=
  match fetch p s with
  | .ok i s => exec i s
  | .raised e s => .next (s.raise e)
  | .fault f => .fault f
  | .refused r => .refused r

/-- One step of the command engine: nothing while idle, the engine's own work in an internal phase, else the next
instruction. -/
def engine (s : State) : Host.Outcome State Fault Refusal :=
  match s.seq with
  | .idle => .next s
  | .busy .loadChunk => (loadChunk s).outcome
  | .busy .scanChunk => .next (scanChunk s)
  | .busy .buildTables => .next (buildTables s)
  | .busy .flush => (flushStream s).outcome
  | .busy p => runNext p s

/-- One move of the host's (R763, R796). -/
def hostMove (m : HostMove) (s : State) : Host.Outcome State Fault Refusal :=
  match m with
  | .engine => engine s
  | .regWrite addr width v => registerAccess addr width (fun off => writeRegister off v s) s
  | .regRead addr width => registerAccess addr width (fun off => readRegister off s) s
  | .memStore addr bytes => hostStore addr bytes s
  | .memLoad addr => hostLoad addr s
  | .reset => .next (resetInput s)

/-- The host's moves still to come. -/
def State.withMoves (s : State) (moves : List HostMove) : State := { s with host := { s.host with moves := moves } }

end Sys2Proof.Machine
end

