-- ==== Sys2Proof/Machine/Step.lean ====
section
/-! DEFINITION. One step of the machine: the host's next move if one is pending, else the command engine. -/

namespace Sys2Proof.Machine

/-- One step. The host's moves and the engine's steps interleave in the order the queue gives (log entry 7). -/
def step (s : State) : Host.Outcome State Fault Refusal :=
  match s.host.moves with
  | [] => engine s
  | m :: rest => hostMove m (s.withMoves rest)

/-- `s` with a word of the opcode table where the next step fetches its instruction (log entry 4). -/
def State.withFetchWord (s : State) (nbits w : Nat) : State := placeWord s nbits w

end Sys2Proof.Machine
end

