-- ==== Sys2Proof/Machine/ReaderRegs.lean ====
section
/-! DEFINITION. The bit reader's registers (R52) and `ReadBits` as the registers run it (R211, R215). The machine keeps
the reader as `inBit` alone, as R53 allows; this file is the register form that `inBit` stands for. `R.tag` and
`R.reserve` are numbers, since R211 shifts and joins them as such; `Reader.wf` bounds them to their 32 bits. -/

namespace Sys2Proof.Machine

/-- `BitReaderState` (R52). -/
structure Reader where
  tag : Nat
  bitsAvailable : Nat
  reserve : Nat
  reserveCount : Nat
  remaining : List Byte
  deriving DecidableEq, Repr

/-- The reader at the start of a decoding command (R52). -/
def Reader.start (input : List Byte) : Reader :=
  { tag := 0, bitsAvailable := 0, reserve := 0, reserveCount := 0, remaining := input }

/-- The valid bits are the only ones set, and neither register holds more than 32 (R52). -/
def Reader.wf (r : Reader) : Bool :=
  decide (r.bitsAvailable ≤ 32) && decide (r.reserveCount ≤ 32) &&
  decide (r.tag < 2 ^ r.bitsAvailable) && decide (r.reserve < 2 ^ r.reserveCount)

/-- Bytes as the number of their bits, first bit least significant (R16). -/
def bytesNum : List Byte → Nat
  | [] => 0
  | b :: rest => b.toNat + 256 * bytesNum rest

/-- How many bits the reader has before it (R53). -/
def Reader.pending (r : Reader) : Nat := r.bitsAvailable + r.reserveCount + 8 * r.remaining.length

/-- The bits before the reader as a number, the next one least significant: R53's sequence
`R.tag ++ R.reserve ++ S(R.remaining)`. -/
def Reader.bits (r : Reader) : Nat :=
  r.tag + 2 ^ r.bitsAvailable * (r.reserve + 2 ^ r.reserveCount * bytesNum r.remaining)

/-- The refill of an empty reserve with `min(4, |remaining|)` bytes (R211); nothing where none is left. -/
def Reader.refill (r : Reader) : Option Reader :=
  if r.reserveCount = 0 then
    match r.remaining with
    | [] => none
    | _ =>
      let k := min 4 r.remaining.length
      some { r with
        reserve := bytesNum (r.remaining.take k), reserveCount := 8 * k, remaining := r.remaining.drop k }
  else some r

/-- The shift of reserve bits into the tag (R211). -/
def Reader.shift (r : Reader) : Reader :=
  let m := min (32 - r.bitsAvailable) r.reserveCount
  { r with
    tag := r.tag + 2 ^ r.bitsAvailable * (r.reserve % 2 ^ m)
    reserve := r.reserve / 2 ^ m
    reserveCount := r.reserveCount - m
    bitsAvailable := r.bitsAvailable + m }

/-- R211's `while R.bitsAvailable < n`; every pass adds a bit, so `n` passes are enough. `none` is
`UnexpectedEndOfInput`. -/
def Reader.fill (n : Nat) : Nat → Reader → Option Reader
  | 0, r => some r
  | fuel + 1, r =>
    if r.bitsAvailable < n then
      match r.refill with
      | none => none
      | some r' => Reader.fill n fuel r'.shift
    else some r

/-- `ReadBits(n)` on the registers (R211), for `n` in 0..32. -/
def Reader.readBits (n : Nat) (r : Reader) : Option (Nat × Reader) :=
  match r.fill n n with
  | none => none
  | some r => some (r.tag % 2 ^ n, { r with tag := r.tag / 2 ^ n, bitsAvailable := r.bitsAvailable - n })

/-- `AlignIn()` on the registers (R215): the bits before the next byte boundary are discarded, whole bytes already
loaded are kept. -/
def Reader.alignIn (r : Reader) : Reader :=
  match r.readBits ((r.bitsAvailable + r.reserveCount) % 8) with
  | some (_, r) => r
  | none => r

end Sys2Proof.Machine
end

