-- ==== Sys2Proof/Safety.lean ====
section
/-! DEFINITION. The terms statements are made in: the bits and bytes a state has before and behind it, when they are there
to be read or written, and the invariant every step keeps. -/

namespace Sys2Proof.Machine

/-! ## The input, as the rules see it -/

/-- `S(in)[k]` (R16, R113): bit `k mod 8` of input byte `k div 8`. -/
def State.streamBit (s : State) (k : Nat) : Nat := (s.mem.read (s.srcByte (k / 8))).toNat / 2 ^ (k % 8) % 2

/-- `sum over k < n of S(in)[pos + k] * 2^k` (R210). -/
def State.streamBits (s : State) (pos n : Nat) : Nat :=
  ((List.range n).map fun k => s.streamBit (pos + k) * 2 ^ k).sum

/-- The input bytes `in[p .. p + n)` (R106). -/
def State.inputBytes (s : State) (p n : Nat) : List Byte :=
  (List.range n).map fun k => s.mem.read (s.srcByte (p + k))

/-- The next `n` bits are all present (R210) and the bytes that hold them backed (R110). -/
def State.bitsReady (s : State) (n : Nat) : Prop :=
  s.dec.inBit + n ≤ 8 * s.reg.srcLen.toNat ∧
  ∀ k, k < n → s.plat.busOk (s.srcByte ((s.dec.inBit + k) / 8)) = true

/-- The input bytes `in[p .. p + n)` are present and backed. -/
def State.bytesReady (s : State) (p n : Nat) : Prop :=
  p + n ≤ s.reg.srcLen.toNat ∧ ∀ k, k < n → s.plat.busOk (s.srcByte (p + k)) = true

/-- The reader's registers stand for the machine's position (R53): as many bits are before them as before `inBit`, and
they are the stream's. -/
structure Reader.StandsFor (r : Reader) (s : State) : Prop where
  wf : r.wf = true
  pending : r.pending = 8 * s.reg.srcLen.toNat - s.dec.inBit
  bits : r.bits = s.streamBits s.dec.inBit r.pending

/-! ## The output -/

/-- There is room for `n` more output bytes, at backed addresses (R111, R112). -/
def State.outReady (s : State) (n : Nat) : Prop :=
  s.outPos + n ≤ s.reg.dstCap.toNat ∧ ∀ k, k < n → s.plat.busOk (s.dstByte (s.outPos + k)) = true

/-- One more output byte is written (R112). -/
def State.emitted (s : State) (b : Byte) : State :=
  { s with mem := s.mem.write (s.dstByte s.outPos) b, outPos := s.outPos + 1 }

/-- One more decompressed byte is written, and the checksum registers run over it (R655). -/
def State.emittedOut (s : State) (b : Byte) : State := { s.emitted b with sum := s.sum.addByte b }

/-- Decompressed bytes are written in order. -/
def State.emittedAll (s : State) (bytes : List Byte) : State := bytes.foldl State.emittedOut s

/-- Address `a` holds none of the output bytes `lo .. hi - 1` (R106). -/
def State.outside (s : State) (lo hi a : Nat) : Prop := a < s.dstByte lo ∨ s.dstByte hi ≤ a

/-- The low `n` bits of a number, bit 0 first (R16). -/
def bitList (n v : Nat) : List Bool := (List.range n).map v.testBit

/-- The bits of a byte sequence (R16). -/
def byteBits (bytes : List Byte) : List Bool := bytes.flatMap fun b => bitList 8 b.toNat

/-- The output bytes written so far. -/
def State.output (s : State) : List Byte := (List.range s.outPos).map fun k => s.mem.read (s.dstByte k)

/-- The output as bits (R53, R207): the bytes written, then the valid bits of `W.tag`. -/
def State.outBits (s : State) : List Bool := byteBits s.output ++ bitList s.enc.bitsWritten s.enc.tag.toNat

/-- The bit writer between two calls (R51, R202): fewer than 16 bits, and none set above them. -/
def State.writerOk (s : State) : Prop := s.enc.bitsWritten ≤ 15 ∧ s.enc.tag.toNat < 2 ^ s.enc.bitsWritten

/-- A code `EncodeSymbol` can write (R262): its bits fit its width, its width `WriteBits` (R201). -/
def HuffCode.ok (c : HuffCode) : Prop := c.width ≤ 15 ∧ c.bits < 2 ^ c.width

/-- What writing a stream element may change (R57): the writer and the output it writes. Registers, the running
command, the decoder, the checksums, the platform and the host stay, `outPos` only grows, and every byte of memory
outside the output bytes written reads as before. -/
structure State.WriteFrame (s t : State) : Prop where
  reg : t.reg = s.reg
  run : t.run = s.run
  dec : t.dec = s.dec
  sum : t.sum = s.sum
  plat : t.plat = s.plat
  host : t.host = s.host
  free : t.free = s.free
  outPos : s.outPos ≤ t.outPos
  mem : ∀ a, s.outside s.outPos t.outPos a → t.mem.read a = s.mem.read a

/-! ## The rows of the symbol tables, as the spec's rules give them -/

/-- A length or distance symbol: its instruction, number, extra bits and base. -/
structure SymRow where
  instr : Instr
  sym : Nat
  extra : Nat
  base : Nat
  deriving DecidableEq, Repr

/-- R520 to R548. -/
def lengthRows : List SymRow :=
  [⟨.lensym257, 257, 0, 3⟩, ⟨.lensym258, 258, 0, 4⟩, ⟨.lensym259, 259, 0, 5⟩, ⟨.lensym260, 260, 0, 6⟩,
  ⟨.lensym261, 261, 0, 7⟩, ⟨.lensym262, 262, 0, 8⟩, ⟨.lensym263, 263, 0, 9⟩, ⟨.lensym264, 264, 0, 10⟩,
  ⟨.lensym265, 265, 1, 11⟩, ⟨.lensym266, 266, 1, 13⟩, ⟨.lensym267, 267, 1, 15⟩, ⟨.lensym268, 268, 1, 17⟩,
  ⟨.lensym269, 269, 2, 19⟩, ⟨.lensym270, 270, 2, 23⟩, ⟨.lensym271, 271, 2, 27⟩, ⟨.lensym272, 272, 2, 31⟩,
  ⟨.lensym273, 273, 3, 35⟩, ⟨.lensym274, 274, 3, 43⟩, ⟨.lensym275, 275, 3, 51⟩, ⟨.lensym276, 276, 3, 59⟩,
  ⟨.lensym277, 277, 4, 67⟩, ⟨.lensym278, 278, 4, 83⟩, ⟨.lensym279, 279, 4, 99⟩, ⟨.lensym280, 280, 4, 115⟩,
  ⟨.lensym281, 281, 5, 131⟩, ⟨.lensym282, 282, 5, 163⟩, ⟨.lensym283, 283, 5, 195⟩, ⟨.lensym284, 284, 5, 227⟩,
  ⟨.lensym285, 285, 0, 258⟩]

/-- R551 to R580. -/
def distanceRows : List SymRow :=
  [⟨.dsym0, 0, 0, 1⟩, ⟨.dsym1, 1, 0, 2⟩, ⟨.dsym2, 2, 0, 3⟩, ⟨.dsym3, 3, 0, 4⟩,
  ⟨.dsym4, 4, 1, 5⟩, ⟨.dsym5, 5, 1, 7⟩, ⟨.dsym6, 6, 2, 9⟩, ⟨.dsym7, 7, 2, 13⟩,
  ⟨.dsym8, 8, 3, 17⟩, ⟨.dsym9, 9, 3, 25⟩, ⟨.dsym10, 10, 4, 33⟩, ⟨.dsym11, 11, 4, 49⟩,
  ⟨.dsym12, 12, 5, 65⟩, ⟨.dsym13, 13, 5, 97⟩, ⟨.dsym14, 14, 6, 129⟩, ⟨.dsym15, 15, 6, 193⟩,
  ⟨.dsym16, 16, 7, 257⟩, ⟨.dsym17, 17, 7, 385⟩, ⟨.dsym18, 18, 8, 513⟩, ⟨.dsym19, 19, 8, 769⟩,
  ⟨.dsym20, 20, 9, 1025⟩, ⟨.dsym21, 21, 9, 1537⟩, ⟨.dsym22, 22, 10, 2049⟩, ⟨.dsym23, 23, 10, 3073⟩,
  ⟨.dsym24, 24, 11, 4097⟩, ⟨.dsym25, 25, 11, 6145⟩, ⟨.dsym26, 26, 12, 8193⟩, ⟨.dsym27, 27, 12, 12289⟩,
  ⟨.dsym28, 28, 13, 16385⟩, ⟨.dsym29, 29, 13, 24577⟩]

/-! ## Commands and headers -/

/-- No host move is pending and the engine is in phase `p`: the next step is the engine's. -/
def State.atPhase (s : State) (p : Phase) : Prop := s.host.moves = [] ∧ s.seq = .busy p

/-- A command of R680 past its checks: it runs as `run` says, its datapath fresh (R782), in phase `p`. -/
def State.begun (s : State) (run : Run) (p : Phase) : State :=
  { s with run := run, dec := Decoder.fresh, enc := Encoder.fresh, sum := Sums.fresh, outPos := 0, seq := .busy p }

/-- The registers after an error with this code and these checksums (R750, R682). -/
def Regs.afterError (r : Regs) (code : Byte) (expected found : Word) : Regs :=
  { r with outLen := 0#32, errCode := code, errExpected := expected, errFound := found, err := true }

/-- `BFINAL` of the block the encoder writes (R350, R351): the chunk is the last of `max(1, ceil(n / S))`. -/
def State.lastBlock (s : State) : Bool :=
  let size := if s.run.mode = .raw then 65535 else 1048576
  s.enc.chunkIndex + 1 == max 1 ((s.reg.srcLen.toNat + (size - 1)) / size)

/-- The output bytes that `n` more stream bits make `WriteBits` emit: a 16-bit unit at a time (R202). -/
def State.unitsFor (s : State) (n : Nat) : Nat := 2 * ((s.enc.bitsWritten + n) / 16)

/-- The regions pass the check of R107: inside the address space and, where the operation has an output, disjoint or
one of them empty. -/
def State.regionsOk (s : State) (hasOutput : Bool) : Prop :=
  s.reg.srcAddr.toNat + s.reg.srcLen.toNat ≤ 4294967296 ∧
  (hasOutput = true →
    s.reg.dstAddr.toNat + s.reg.dstCap.toNat ≤ 4294967296 ∧
    (s.reg.srcLen = 0#32 ∨ s.reg.dstCap = 0#32 ∨
      s.reg.srcAddr.toNat + s.reg.srcLen.toNat ≤ s.reg.dstAddr.toNat ∨
      s.reg.dstAddr.toNat + s.reg.dstCap.toNat ≤ s.reg.srcAddr.toNat))

/-- An outcome is what R463 gives after the widths `ws` are appended to `v`: the list goes on, is complete and both
tables are built (R469), or passes `m` and raises (R464 (b)). -/
def State.WidthsAppended (s : State) (ws : List Nat) (o : Host.Outcome State Fault Refusal) : Prop :=
  let v := s.dec.widths ++ ws
  let m := s.dec.hlit + s.dec.hdist
  (v.length < m → o = .next { s with dec := { s.dec with widths := v } }) ∧
  (v.length = m → o = .next { s with
    dec := { s.dec with
      widths := v, litTable := decodeTable (v.take s.dec.hlit), distTable := decodeTable (v.drop s.dec.hlit) }
    seq := .busy .readSym }) ∧
  (m < v.length → o = .next ({ s with dec := { s.dec with widths := v } }.raise .huffmanTableIndexOutOfBounds))

/-- What a code-length symbol with its extra value appends to a width list (R465 to R468). -/
def clExpandOne (v : List Nat) (c : Nat × Nat) : List Nat :=
  if c.1 < 16 then v ++ [c.1]
  else if c.1 = 16 then v ++ List.replicate (3 + c.2) (v.getLast?.getD 0)
  else if c.1 = 17 then v ++ List.replicate (3 + c.2) 0
  else v ++ List.replicate (11 + c.2) 0

/-- How many extra bits a code-length symbol has (R162). -/
def clExtraBits (c : Nat) : Nat := if c < 16 then 0 else if c = 16 then 2 else if c = 17 then 3 else 7

/-! ## The encoder's queues -/

/-- A symbol's literal/length symbol (R358 to R360). -/
def Sym.litLenSym : Sym → Nat
  | .literal b => b.toNat
  | .endOfBlock => 256
  | .pointer len _ => (lenSym len).1

/-- A pointer's distance symbol (R359); a literal and the end of the block have none. -/
def Sym.distanceSym : Sym → Option Nat
  | .literal _ | .endOfBlock => none
  | .pointer _ d => some (distSym d).1

/-- A symbol that stands for bytes: a literal, or a pointer in the ranges of R308 (R359's precondition). -/
def Sym.isData : Sym → Prop
  | .literal _ => True
  | .endOfBlock => False
  | .pointer len d => 3 ≤ len ∧ len ≤ 258 ∧ 1 ≤ d ∧ d ≤ 32768

/-- Data symbols, then the one `EndOfBlock` (R356, R360). -/
def blockSyms (syms : List Sym) : Prop := ∃ data, syms = data ++ [.endOfBlock] ∧ ∀ x ∈ data, x.isData

/-- The encode table has a code for the symbol (R263's precondition), one `WriteBits` can write (R201). -/
def hasCode (table : List (Option HuffCode)) (sym : Nat) : Prop := ∃ c, table[sym]? = some (some c) ∧ c.ok

/-- Every Huffman symbol that `WriteSym` codes for these symbols has a code (R358 to R360). -/
def Encoder.symsCoded (e : Encoder) : Prop :=
  ∀ x ∈ e.syms, hasCode e.litTable x.litLenSym ∧ ∀ t, x.distanceSym = some t → hasCode e.distTable t

/-- The code-length symbols still to be written are symbols of their alphabet, each with an extra value in its range
(R162) and a code; there is one at least. -/
def Encoder.clSeqCoded (e : Encoder) : Prop :=
  e.clSeq ≠ [] ∧ ∀ c ∈ e.clSeq, c.1 ≤ 18 ∧ c.2 < 2 ^ clExtraBits c.1 ∧ hasCode e.clTable c.1

/-- The counts of a dynamic header fit its fields (R375, R160): `HLIT - 257` and `HDIST - 1` 5 bits, `HCLEN - 4` 4 bits
and at most 19 widths, each width 3 bits. -/
def Encoder.headerFits (e : Encoder) : Prop :=
  257 ≤ e.hlit ∧ e.hlit ≤ 288 ∧ 1 ≤ e.hdist ∧ e.hdist ≤ 32 ∧ 4 ≤ e.hclen ∧ e.hclen ≤ 19 ∧ ∀ w ∈ e.clWidths, w ≤ 7

/-- What holds of a compression in phase `p` and keeps it from stopping (log entry 19): the window is legal (R65); a
scan has found data symbols only and its table names earlier positions (R300, R305); a stored chunk's length fits `LEN`
(R355); the block's symbols end in `EndOfBlock` (R356); and, from the header on, everything that is queued has a code
(R263) and fits its field (R201). -/
structure State.EncoderOk (s : State) (p : Phase) : Prop where
  op : s.run.op.encodes = true
  window : ∀ w, s.run.win = some w → w ≤ 32768
  scan : p = .scanChunk → s.run.mode ≠ .raw ∧ (∀ x ∈ s.enc.syms, x.isData) ∧
    ∀ e ∈ s.enc.prefixTable, e.2 < s.enc.scanPos
  stored : p = .writeBlock → s.run.mode = .raw → s.enc.chunk.length ≤ 65535
  tables : p = .buildTables → s.run.mode = .dynamic ∧ blockSyms s.enc.syms
  static : p = .writeBlock → s.run.mode = .fixed → blockSyms s.enc.syms
  dynamic : p = .writeBlock → s.run.mode = .dynamic → blockSyms s.enc.syms ∧ s.enc.symsCoded ∧ s.enc.clSeqCoded ∧
    s.enc.headerFits
  codeLen : p = .writeCodeLen → blockSyms s.enc.syms ∧ s.enc.symsCoded ∧ s.enc.clSeqCoded
  sym : p = .writeSym → blockSyms s.enc.syms ∧ s.enc.symsCoded
  dist : p = .writeDist → blockSyms s.enc.syms ∧ s.enc.symsCoded ∧
    ∃ len d rest, s.enc.syms = .pointer len d :: rest

/-! ## A command that runs -/

/-- The phases of a command that compresses. -/
def Phase.encodes : Phase → Bool
  | .zlibHeaderOut | .loadChunk | .scanChunk | .buildTables | .writeBlock | .writeCodeLen | .writeSym | .writeDist
  | .flush | .zlibTrailerOut => true
  | .dispatch | .zlibHeaderIn | .gzipHeader | .gzipOptional | .readBlock | .readCodeLen | .readSym | .readDist
  | .zlibTrailerIn | .gzipTrailerIn => false

/-- `OP` of an operation (R64). -/
def Op.number : Op → Nat
  | .deflate => 0
  | .deflateZlib => 1
  | .inflate => 2
  | .inflateZlib => 3
  | .inflateGzip => 4
  | .crc32 => 5
  | .adler32 => 6

/-- What holds of a command that runs past its `CMD` word: it is the one its registers name (R103), its regions passed
the check (R107), its phase belongs to its direction, and its cursors are in bounds (R58). -/
structure State.RunOk (s : State) (p : Phase) : Prop where
  op : s.run.op.number = s.reg.cmd.toNat % 16
  config : s.run = runOf s.run.op (cmdFields s.reg.cmd.toNat) s.reg.window
  hasOutput : s.run.op.hasOutput = true
  buffers : s.reg.buffersOk s.run.op = true
  direction : p.encodes = s.run.op.encodes
  outPos : s.outPos ≤ s.reg.dstCap.toNat
  inBit : s.dec.inBit ≤ 8 * s.reg.srcLen.toNat
  writer : s.writerOk
  length : p = .readDist → 3 ≤ s.dec.length ∧ s.dec.length ≤ 258
  widths : p = .readCodeLen → s.dec.widths.length < s.dec.hlit + s.dec.hdist

/-- The invariant every step keeps: memory in canonical form (R105), the legal combinations of `STATUS` (R70), the
registers' reserved bits and limits (R64, R65), `ERR_EXPECTED` and `ERR_FOUND` 0 but after code 10 (R73, R74), the
Adler pair reduced (R55), and what holds of a command that runs. -/
structure State.Inv (s : State) : Prop where
  memory : s.mem.wf = true
  oneOutcome : ¬(s.reg.done = true ∧ s.reg.err = true)
  busyClear : s.busy = true → s.reg.done = false ∧ s.reg.err = false ∧ s.reg.errCode = 0#8
  errCode : s.reg.errCode.toNat ≤ 15
  checksums : s.reg.errCode ≠ 10#8 → s.reg.errExpected = 0#32 ∧ s.reg.errFound = 0#32
  cmd : s.reg.cmd.toNat < 512
  window : s.reg.window.toNat ≤ 32768
  adler : s.sum.s1 < 65521 ∧ s.sum.s2 < 65521
  running : ∀ p, s.seq = .busy p → p ≠ .dispatch → s.RunOk p

end Sys2Proof.Machine
end

