-- ==== Sys2Proof/Certificates/Slice0/Obligations.lean ====
section
/-! DEFINITION. The statements for the provers. Each says what a rule of spec/ says of the machine. -/

open Sys2Proof Sys2Proof.Machine

/-! ## Reset, the invariant and the step -/

/-- R781: every register and field at its reset value, the core idle and waiting there, the interrupt masked. -/
def Obligations.ResetLeavesTheRulesValues : Prop :=
  (∀ r ∈ [(0x00, 0x4E410007#32), (0x04, 0#32), (0x08, 0#32), (0x0C, 0x8000#32), (0x10, 0#32), (0x14, 0#32),
      (0x18, 0#32), (0x1C, 0#32), (0x20, 0#32), (0x24, 0#32), (0x28, 0#32), (0x2C, 0#32), (0x30, 0#32)],
    (readRegister r.1 State.reset).host.readData = r.2) ∧
  State.reset.seq = .idle ∧ State.reset.irq = false ∧ step State.reset = .next State.reset

/-- R780: the reset input at any time. A byte of memory changes only if it lies in `OUT` of a running command, and then
holds any value (log entry 2). -/
def Obligations.ResetInputAnyTime : Prop :=
  ∀ (s : State) (rest : List HostMove), s.host.moves = .reset :: rest →
    ∃ t, step s = .next t ∧ t.host.moves = rest ∧ t.reg = Regs.reset ∧ t.seq = .idle ∧ t.irq = false ∧
      t.plat = s.plat ∧
      ∀ a, s.busy = false ∨ s.inOut a = false → t.mem.read a = s.mem.read a

/-- The invariant holds at reset. -/
def Obligations.ResetMeetsTheInvariant : Prop := State.reset.Inv

/-- The invariant of `State.Inv` is kept by every step, the host's moves among them. -/
def Obligations.StepKeepsTheInvariant : Prop := ∀ s t : State, s.Inv → step s = .next t → t.Inv

/-- A step of the engine runs the instruction that the phase's next word decodes to; an error met while reading the word
ends the command; an idle core waits. -/
def Obligations.StepRunsTheFetchedInstruction : Prop :=
  (∀ (s t : State) (p : Phase) (w : Nat) (i : Instr), s.atPhase p → p.internal = false →
    (nextWord p s).2 = .ok w t → decode (nextWord p s).1 w = .ok i → step s = exec i t) ∧
  (∀ (s t : State) (p : Phase) (e : CodecError), s.atPhase p → p.internal = false →
    (nextWord p s).2 = .raised e t → step s = .next (t.raise e)) ∧
  (∀ s : State, s.host.moves = [] → s.seq = .idle → step s = .next s)

/-- R60, R682: an engine step of a running command leaves every register alone, or ends the command with exactly one of
`DONE` and `ERR`; after an error `OUT_LEN` is 0 and `CHECKSUM` as it was. -/
def Obligations.CommandEndsWithOneOutcome : Prop :=
  ∀ s t : State, s.Inv → s.host.moves = [] → s.busy = true → step s = .next t →
    (t.busy = true ∧ t.reg = s.reg) ∨
    (t.busy = false ∧ t.reg.done = true ∧ t.reg.err = false ∧ t.reg.errCode = 0#8) ∨
    (t.busy = false ∧ t.reg.done = false ∧ t.reg.err = true ∧ t.reg.errCode ≠ 0#8 ∧ t.reg.outLen = 0#32 ∧
      t.reg.checksum = s.reg.checksum)

/-- R696, R103: no instruction changes a configuration register, `IRQ_EN`, the platform or the host's queue. -/
def Obligations.InstructionsLeaveTheConfiguration : Prop :=
  ∀ (i : Instr) (s t : State), exec i s = .next t →
    t.reg.irqEn = s.reg.irqEn ∧ t.reg.cmd = s.reg.cmd ∧ t.reg.window = s.reg.window ∧
    t.reg.srcAddr = s.reg.srcAddr ∧ t.reg.srcLen = s.reg.srcLen ∧ t.reg.dstAddr = s.reg.dstAddr ∧
    t.reg.dstCap = s.reg.dstCap ∧ t.plat = s.plat ∧ t.host = s.host

/-- R108: an engine step never changes a byte outside `OUT`, whatever instruction it runs and however it ends. -/
def Obligations.NothingOutsideOutIsWritten : Prop :=
  ∀ s t : State, s.outPos ≤ s.reg.dstCap.toNat → s.host.moves = [] → step s = .next t →
    ∀ a, s.inDst a = false → t.mem.read a = s.mem.read a

/-- R216, R263: in every phase of a decompression or a checksum command, and at the `CMD` word, the engine's step
answers a next state: it never faults and is never refused. -/
def Obligations.DecoderNeverStops : Prop :=
  ∀ (s : State) (p : Phase), s.atPhase p → p.encodes = false → (p = .dispatch ∨ s.run.op.encodes = false) →
    ∃ t, step s = .next t

/-- R201, R263, R356 (log entry 19): a compression whose queues are in order (`State.EncoderOk`) answers a next state in
every phase and leaves them in order as long as it runs: it never faults and is never refused. `DEFLATE` and
`DEFLATE_ZLIB` begin with them in order. -/
def Obligations.EncoderNeverStops : Prop :=
  (∀ (s : State) (p : Phase), s.atPhase p → p.encodes = true → s.EncoderOk p →
    ∃ t, step s = .next t ∧ ∀ q, t.seq = .busy q → q.encodes = true ∧ t.EncoderOk q) ∧
  (∀ (s : State) (f : CmdFields), s.reg.window.toNat ≤ 32768 →
    (s.begun (runOf .deflate f s.reg.window) .loadChunk).EncoderOk .loadChunk ∧
    (s.begun (runOf .deflateZlib f s.reg.window) .zlibHeaderOut).EncoderOk .zlibHeaderOut)

/-! ## The host's moves -/

/-- R61 to R74, R101, R102: what the host reads at each offset of an idle core; R795: what it reads while busy. Reading
changes nothing but what the host holds; `OUT_LEN` and `CHECKSUM` while busy read the free value of log entry 3. -/
def Obligations.HostReadsRegisters : Prop :=
  (∀ (s : State) (rest : List HostMove), s.busy = false →
    ∀ r ∈ [(0x00, 0x4E410007#32), (0x04, BitVec.ofNat 32 (2 * s.reg.irqEn.toNat)), (0x08, s.reg.cmd),
        (0x0C, s.reg.window), (0x10, s.reg.srcAddr), (0x14, s.reg.srcLen), (0x18, s.reg.dstAddr),
        (0x1C, s.reg.dstCap),
        (0x20, BitVec.ofNat 32 (2 * s.reg.done.toNat + 4 * s.reg.err.toNat + 256 * s.reg.errCode.toNat)),
        (0x24, s.reg.outLen), (0x28, s.reg.checksum), (0x2C, s.reg.errExpected), (0x30, s.reg.errFound),
        (0x34, 0#32), (0x38, 0#32), (0x3C, 0#32)],
      s.host.moves = .regRead (s.plat.base + r.1) 4 :: rest →
        step s = .next { s with host := { moves := rest, readData := r.2 } }) ∧
  (∀ (s : State) (rest : List HostMove), s.Inv → s.busy = true →
    (∀ r ∈ [(0x00, 0x4E410007#32), (0x20, 1#32), (0x2C, 0#32), (0x30, 0#32),
        (0x04, BitVec.ofNat 32 (2 * s.reg.irqEn.toNat)), (0x08, s.reg.cmd), (0x0C, s.reg.window),
        (0x10, s.reg.srcAddr), (0x14, s.reg.srcLen), (0x18, s.reg.dstAddr), (0x1C, s.reg.dstCap),
        (0x34, 0#32), (0x38, 0#32), (0x3C, 0#32)],
      s.host.moves = .regRead (s.plat.base + r.1) 4 :: rest →
        step s = .next { s with host := { moves := rest, readData := r.2 } }) ∧
    (∀ off ∈ [0x24, 0x28], s.host.moves = .regRead (s.plat.base + off) 4 :: rest →
      step s = .next { s with host := { moves := rest, readData := Config.anyWord s.free }, free := s.free + 1 }))

/-- R64 to R69, R72, R102, R103: what a register write stores in an idle core; read-only and reserved offsets ignore it,
and while busy so do the configuration registers and `CTRL.START`; `CTRL.IRQ_EN` and the write-one-to-clear bits of
`STATUS` take effect at any time (R63, R70). -/
def Obligations.HostWritesRegisters : Prop :=
  ∀ (s : State) (rest : List HostMove) (v : Word),
    (∀ r ∈ [(0x08, { s.reg with cmd := v &&& 0x1FF#32 }),
        (0x0C, { s.reg with window := BitVec.ofNat 32 (min (v.toNat % 65536) 32768) }),
        (0x10, { s.reg with srcAddr := v }), (0x14, { s.reg with srcLen := v }),
        (0x18, { s.reg with dstAddr := v }), (0x1C, { s.reg with dstCap := v }),
        (0x28, { s.reg with checksum := v })],
      s.host.moves = .regWrite (s.plat.base + r.1) 4 v :: rest →
        step s = .next
          { s with reg := if s.busy then s.reg else r.2, host := { s.host with moves := rest } }) ∧
    (∀ off ∈ [0x00, 0x24, 0x2C, 0x30, 0x34, 0x38, 0x3C],
      s.host.moves = .regWrite (s.plat.base + off) 4 v :: rest →
        step s = .next { s with host := { s.host with moves := rest } }) ∧
    (s.busy = true → s.host.moves = .regWrite (s.plat.base + 0x04) 4 v :: rest →
      step s = .next
        { s with reg := { s.reg with irqEn := v.getLsbD 1 }, host := { s.host with moves := rest } }) ∧
    (s.host.moves = .regWrite (s.plat.base + 0x20) 4 v :: rest →
      step s = .next
        { s with
          reg := { s.reg with done := s.reg.done && !v.getLsbD 1, err := s.reg.err && !v.getLsbD 2 }
          host := { s.host with moves := rest } })

/-- R680, R63, R60: writing 1 to `START` of an idle core clears the results and makes it busy; writing 0 starts nothing.
That the core is then in phase `dispatch`, with `Validate` and the fresh datapath of R680 left to the engine's next step,
is the model's reading, log entry 20 (DEDUCED). -/
def Obligations.StartWriteBeginsACommand : Prop :=
  ∀ (s : State) (rest : List HostMove) (v : Word), s.busy = false →
    s.host.moves = .regWrite (s.plat.base + 0x04) 4 v :: rest →
    (v.getLsbD 0 = true → step s = .next
      { s with
        reg := { s.reg with
          irqEn := v.getLsbD 1, done := false, err := false, errCode := 0#8, outLen := 0#32,
          errExpected := 0#32, errFound := 0#32 }
        seq := .busy .dispatch
        host := { s.host with moves := rest } }) ∧
    (v.getLsbD 0 = false → step s = .next
      { s with reg := { s.reg with irqEn := v.getLsbD 1 }, host := { s.host with moves := rest } })

/-- R740, R741: the level of `irq` at the end of a command, when `IRQ_EN` rises with an outcome pending, and after the
host clears both bits, clears `IRQ_EN`, or starts a command. -/
def Obligations.IrqLevelFollowsTheOutcome : Prop :=
  ∀ s t : State,
    (s.finish.irq = s.reg.irqEn) ∧ (∀ e, (s.raise e).irq = s.reg.irqEn) ∧
    ∀ (rest : List HostMove) (v : Word), s.busy = false → step s = .next t →
      (s.host.moves = .regWrite (s.plat.base + 0x04) 4 v :: rest →
        t.irq = (!v.getLsbD 0 && v.getLsbD 1 && (s.reg.done || s.reg.err))) ∧
      (s.host.moves = .regWrite (s.plat.base + 0x20) 4 v :: rest → v.getLsbD 1 = true → v.getLsbD 2 = true →
        t.irq = false)

/-- R100: an access of another width or at an offset that is no multiple of 4 is refused. That an address outside the
64 bytes of R61 is refused too, by another name, is the model's choice, log entry 16 (DESIGN CHOICE). -/
def Obligations.RegisterAccessRefused : Prop :=
  ∀ (s : State) (rest : List HostMove) (addr width : Nat) (v : Word),
    s.host.moves = .regWrite addr width v :: rest ∨ s.host.moves = .regRead addr width :: rest →
    (s.plat.base ≤ addr → addr < s.plat.base + 64 → width ≠ 4 ∨ (addr - s.plat.base) % 4 ≠ 0 →
      step s = .refused .registerAccessForm) ∧
    (addr < s.plat.base ∨ s.plat.base + 64 ≤ addr → step s = .refused .notARegisterAddress)

/-- R790, R763: the host's stores and loads of backed memory. A store lands byte for byte and changes no other byte; a
store to `IN ∪ OUT` while busy is refused; a load of `OUT` while busy reads any value (log entry 3). -/
def Obligations.HostMemoryMoves : Prop :=
  ∀ (s : State) (rest : List HostMove) (a : Nat),
    (∀ bytes : List Byte, s.host.moves = .memStore a bytes :: rest →
      (∀ k, k < bytes.length → s.plat.busOk (a + k) = true) →
      ((∀ k, k < bytes.length → s.busy = false ∨ (s.inSrc (a + k) = false ∧ s.inOut (a + k) = false)) →
        ∃ t, step s = .next t ∧ t.reg = s.reg ∧ t.seq = s.seq ∧ t.host.moves = rest ∧
          (∀ k, k < bytes.length → some (t.mem.read (a + k)) = bytes[k]?) ∧
          ∀ x, x < a ∨ a + bytes.length ≤ x → t.mem.read x = s.mem.read x) ∧
      ((∃ k, k < bytes.length ∧ s.busy = true ∧ (s.inSrc (a + k) = true ∨ s.inOut (a + k) = true)) →
        step s = .refused .hostStoreWhileBusy)) ∧
    (s.host.moves = .memLoad a :: rest → s.plat.busOk a = true →
      (s.busy = false ∨ s.inOut a = false →
        step s = .next { s with host := { moves := rest, readData := (s.mem.read a).setWidth 32 } }) ∧
      (s.busy = true → s.inOut a = true →
        step s = .next
          { s with host := { moves := rest, readData := Config.anyWord s.free &&& 0xFF#32 }, free := s.free + 1 }))

/-! ## Errors -/

/-- R750, R720, R73, R74: raising an error. The codes of all fifteen kinds, what is recorded, and that no byte outside
`OUT`, no other register, and nothing of the host or the platform changes. -/
def Obligations.RaiseRecordsTheError : Prop :=
  (∀ p ∈ [(CodecError.invalidHeaderMagic, 1#8), (.invalidMethod, 2#8), (.invalidWindowSize, 3#8),
      (.presetDictionaryUnsupported, 4#8), (.headerChecksumMismatch, 5#8), (.unexpectedEndOfInput, 6#8),
      (.invalidBlockType, 7#8), (.huffmanTableIndexOutOfBounds, 8#8), (.storedBlockLengthMismatch, 9#8),
      (.distanceTooFarBack, 11#8), (.outputOverflow, 12#8), (.invalidCommand, 13#8), (.invalidBuffer, 14#8),
      (.busError, 15#8)],
    ∀ s : State, (s.raise p.1).reg = s.reg.afterError p.2 0#32 0#32) ∧
  (∀ (s : State) (expected found : Word),
    (s.raise (.trailerChecksumMismatch expected found)).reg = s.reg.afterError 10#8 expected found) ∧
  (∀ (s : State) (e : CodecError), (s.raise e).seq = .idle ∧ (s.raise e).plat = s.plat ∧ (s.raise e).host = s.host ∧
    ∀ a, s.inDst a = false → (s.raise e).mem.read a = s.mem.read a)

/-! ## Commands -/

/-- R680, R685 to R689, R782: a compression or decompression command whose regions pass the check begins with a fresh
datapath in its first phase, with the fields its rule uses; registers and memory stay. -/
def Obligations.CommandsBegin : Prop :=
  (∀ (s : State) (f : CmdFields), s.regionsOk true →
    (f.mode ≠ 3#2 → exec (.deflate f) s = .next (s.begun (runOf .deflate f s.reg.window) .loadChunk)) ∧
    (f.mode ≠ 3#2 →
      exec (.deflateZlib f) s = .next (s.begun (runOf .deflateZlib f s.reg.window) .zlibHeaderOut)) ∧
    exec (.inflate f) s = .next (s.begun (runOf .inflate f s.reg.window) .readBlock) ∧
    exec (.inflateZlib f) s = .next (s.begun (runOf .inflateZlib f s.reg.window) .zlibHeaderIn) ∧
    exec (.inflateGzip f) s = .next (s.begun (runOf .inflateGzip f s.reg.window) .gzipHeader)) ∧
  (∀ (op : Op) (f : CmdFields) (w : Word),
    (runOf op f w).op = op ∧ (runOf op f w).strict = f.gzStrict ∧
    (f.mode = 0#2 → (runOf op f w).mode = .raw ∧ (runOf op f w).win = none) ∧
    (f.mode = 1#2 → (runOf op f w).mode = .fixed) ∧ (f.mode = 2#2 → (runOf op f w).mode = .dynamic) ∧
    (f.mode = 1#2 ∨ f.mode = 2#2 →
      (runOf op f w).win = if f.winEn then some (w.toNat % 65536) else none)) ∧
  Decoder.fresh.inBit = 0 ∧ Encoder.fresh.tag = 0#32 ∧ Encoder.fresh.bitsWritten = 0 ∧
  Encoder.fresh.chunkIndex = 0 ∧ Encoder.fresh.scanPos = 0 ∧ Encoder.fresh.prefixTable = [] ∧
  Sums.fresh = ⟨0xFFFFFFFF#32, 1, 0⟩

/-- R683, R684, R107: what `Validate` raises at `START`, before any memory access: `InvalidCommand` for the three
invalid `CMD` rows, whatever the regions are; then `InvalidBuffer` for a region that passes the top of the address space
or an input that meets the output. Ops 5 and 6 check `IN` alone. -/
def Obligations.ValidateRaisesBeforeAnyAccess : Prop :=
  ∀ (s : State) (f : CmdFields),
    (∀ (op : BitVec 3) (zlib : Bool),
      ∀ i ∈ [Instr.invalidOp7 f, .invalidOp8To15 op f, .invalidMode3 zlib f],
      ∃ t, exec i s = .next t ∧ t.reg = s.reg.afterError 13#8 0#32 0#32 ∧ t.seq = .idle ∧ t.mem = s.mem ∧
        t.plat = s.plat ∧ t.host = s.host ∧ t.free = s.free) ∧
    (∀ i ∈ [Instr.deflate f, .deflateZlib f, .inflate f, .inflateZlib f, .inflateGzip f], i.WellFormed →
      ¬s.regionsOk true →
      ∃ t, exec i s = .next t ∧ t.reg = s.reg.afterError 14#8 0#32 0#32 ∧ t.seq = .idle ∧ t.mem = s.mem ∧
        t.plat = s.plat ∧ t.host = s.host ∧ t.free = s.free) ∧
    (∀ i ∈ [Instr.crc32 f, .adler32 f], ¬s.regionsOk false →
      ∃ t, exec i s = .next t ∧ t.reg = s.reg.afterError 14#8 0#32 0#32 ∧ t.seq = .idle ∧ t.mem = s.mem ∧
        t.plat = s.plat ∧ t.host = s.host ∧ t.free = s.free)

/-- R691, R692, R690: `CRC32` and `ADLER32` leave the checksum of `IN` in `CHECKSUM`, continued from it when chained
(the Adler halves reduced mod 65521), and 0 in `OUT_LEN`; no memory and no other register changes. An unbacked byte of
`IN` raises `BusError` and `CHECKSUM` stays. -/
def Obligations.ChecksumCommands : Prop :=
  ∀ (s : State) (f : CmdFields), s.regionsOk false →
    let input := s.inputBytes 0 s.reg.srcLen.toNat
    let v := s.reg.checksum
    (s.bytesReady 0 s.reg.srcLen.toNat →
      (∃ t, exec (.crc32 f) s = .next t ∧ t.seq = .idle ∧ t.mem = s.mem ∧ t.plat = s.plat ∧ t.host = s.host ∧
        t.reg = { s.reg with
          outLen := 0#32
          done := true
          checksum := crc32From (if f.chain then v ^^^ 0xFFFFFFFF#32 else 0xFFFFFFFF#32) input }) ∧
      (∃ t, exec (.adler32 f) s = .next t ∧ t.seq = .idle ∧ t.mem = s.mem ∧ t.plat = s.plat ∧ t.host = s.host ∧
        t.reg = { s.reg with
          outLen := 0#32
          done := true
          checksum := adler32From
            (if f.chain then (v.toNat % 65536 % 65521, v.toNat / 65536 % 65521) else (1, 0)) input })) ∧
    (¬s.bytesReady 0 s.reg.srcLen.toNat →
      ∀ i ∈ [Instr.crc32 f, .adler32 f],
        ∃ t, exec i s = .next t ∧ t.seq = .idle ∧ t.mem = s.mem ∧ t.plat = s.plat ∧ t.host = s.host ∧
          t.reg = s.reg.afterError 15#8 0#32 0#32)

/-- R77, R756: what a command does depends on no datapath state an earlier command left. -/
def Obligations.CommandForgetsThePast : Prop :=
  ∀ (s s' t : State) (i : Instr), i.alphabet = .command →
    s'.reg = s.reg → s'.seq = s.seq → s'.mem = s.mem → s'.plat = s.plat → s'.host = s.host → s'.free = s.free →
    exec i s = .next t →
    ∃ t', exec i s' = .next t' ∧ t'.reg = t.reg ∧ t'.seq = t.seq ∧ t'.mem = t.mem ∧ t'.plat = t.plat ∧
      t'.host = t.host ∧ t'.free = t.free ∧ (t.busy = true → t' = t)

/-! ## Checksums -/

/-- R654: chunk independence of both checksums. -/
def Obligations.ChecksumChunkIndependence : Prop :=
  ∀ a b : List Byte,
    crc32Of (a ++ b) = crc32From (crc32Of a ^^^ 0xFFFFFFFF#32) b ∧
    adler32Of (a ++ b) = adler32From ((adler32Of a).toNat % 65536, (adler32Of a).toNat / 65536) b

/-- R650, R651: two nibble steps are the eight bit steps of the reflected CRC of polynomial `0xEDB88320`. R652, R653:
reducing the Adler sums only at the end, after any number of bytes, gives the same Adler-32 as reducing after every
byte. -/
def Obligations.ChecksumFormsAgree : Prop :=
  (∀ (crc : Word) (b : Byte),
    crcByte crc b =
      Nat.repeat (fun c : Word => (c >>> 1) ^^^ (if c.getLsbD 0 then 0xEDB88320#32 else 0#32)) 8
        (crc ^^^ b.setWidth 32)) ∧
  (∀ bytes : List Byte,
    let p := bytes.foldl (fun (p : Nat × Nat) b => (p.1 + b.toNat, p.2 + (p.1 + b.toNat))) (1, 0)
    (adler32Of bytes).toNat = 65536 * (p.2 % 65521) + p.1 % 65521)

/-! ## Blocks that are read -/

/-- R450, R152, R153, R454: at a block header the engine latches `BFINAL` and runs the block type that the next two bits
name; type 3 raises at once; a missing bit, of `BFINAL` or of `BTYPE`, is `UnexpectedEndOfInput`. -/
def Obligations.BlockHeaderRead : Prop :=
  ∀ s : State, s.atPhase .readBlock →
    (s.bitsReady 3 →
      let u := { s with
        dec := { s.dec with inBit := s.dec.inBit + 3, bfinal := s.streamBits s.dec.inBit 1 == 1 } }
      (s.streamBits (s.dec.inBit + 1) 2 = 0 → step s = exec .btype0 u) ∧
      (s.streamBits (s.dec.inBit + 1) 2 = 1 → step s = exec .btype1 u) ∧
      (s.streamBits (s.dec.inBit + 1) 2 = 2 → step s = exec .btype2 u) ∧
      (s.streamBits (s.dec.inBit + 1) 2 = 3 → step s = .next (u.raise .invalidBlockType))) ∧
    (8 * s.reg.srcLen.toNat < s.dec.inBit + 1 → step s = .next (s.raise .unexpectedEndOfInput)) ∧
    (s.bitsReady 1 → 8 * s.reg.srcLen.toNat < s.dec.inBit + 3 →
      let u := { s with
        dec := { s.dec with inBit := s.dec.inBit + 1, bfinal := s.streamBits s.dec.inBit 1 == 1 } }
      step s = .next (u.raise .unexpectedEndOfInput))

/-- R451: a stored block read. `q` is the byte position after `AlignIn`. Missing length bytes, a wrong complement, data
that ends too early and data that does not fit each raise their error where they are met. -/
def Obligations.StoredBlockRead : Prop :=
  ∀ s : State, s.run.op.encodes = false → s.regionsOk true →
    let q := (s.dec.inBit + 7) / 8
    let len := s.streamBits (8 * q) 16
    let nlen := s.streamBits (8 * q + 16) 16
    (s.reg.srcLen.toNat < q + 2 →
      exec .btype0 s = .next ((s.setInBit (8 * q)).raise .unexpectedEndOfInput)) ∧
    (s.bytesReady q 2 → s.reg.srcLen.toNat < q + 4 →
      exec .btype0 s = .next ((s.setInBit (8 * (q + 2))).raise .unexpectedEndOfInput)) ∧
    (s.bytesReady q 4 → nlen ≠ len ^^^ 0xFFFF →
      exec .btype0 s = .next ((s.setInBit (8 * (q + 4))).raise .storedBlockLengthMismatch)) ∧
    (s.bytesReady q 4 → nlen = len ^^^ 0xFFFF → s.bytesReady (q + 4) len → s.outReady len →
      let t := (s.setInBit (8 * (q + 4 + len))).emittedAll (s.inputBytes (q + 4) len)
      exec .btype0 s = .next t.endBlockRead ∧
      (∀ k, k < len → t.mem.read (s.dstByte (s.outPos + k)) = s.mem.read (s.srcByte (q + 4 + k))) ∧
      (∀ a, s.outside s.outPos (s.outPos + len) a → t.mem.read a = s.mem.read a)) ∧
    (∀ m, m < len → s.bytesReady q 4 → nlen = len ^^^ 0xFFFF → s.bytesReady (q + 4) m → s.outReady m →
      (s.reg.srcLen.toNat = q + 4 + m →
        exec .btype0 s = .next
          (((s.setInBit (8 * (q + 4 + m))).emittedAll (s.inputBytes (q + 4) m)).raise .unexpectedEndOfInput)) ∧
      (s.bytesReady (q + 4) (m + 1) → s.outPos + m = s.reg.dstCap.toNat →
        exec .btype0 s = .next
          (((s.setInBit (8 * (q + 4 + m + 1))).emittedAll (s.inputBytes (q + 4) m)).raise .outputOverflow)))

/-- R452, R455, R156, R157: a static block read installs the decode tables of the fixed widths. -/
def Obligations.StaticBlockRead : Prop :=
  (∀ s : State, s.run.op.encodes = false →
    exec .btype1 s = .next
      { s with
        dec := { s.dec with
          litTable := decodeTable fixedLitLenWidths, distTable := decodeTable fixedDistWidths }
        seq := .busy .readSym }) ∧
  fixedLitLenWidths.length = 288 ∧ fixedDistWidths = List.replicate 32 5 ∧
  ∀ n, n < 288 → fixedLitLenWidths.getD n 0 = if n < 144 then 8 else if n < 256 then 9 else if n < 280 then 7 else 8

/-- R453, R460, R461, R161: a dynamic header read up to its code-width list. `order` is R161's `CL_ORDER`. Bits that are
missing from a count or from a width are `UnexpectedEndOfInput` where they are met. -/
def Obligations.DynamicHeaderRead : Prop :=
  ∀ s : State, s.run.op.encodes = false →
    let order : List Nat := [16, 17, 18, 0, 8, 7, 9, 6, 10, 5, 11, 4, 12, 3, 13, 2, 14, 1, 15]
    let hlit := 257 + s.streamBits s.dec.inBit 5
    let hdist := 1 + s.streamBits (s.dec.inBit + 5) 5
    let hclen := 4 + s.streamBits (s.dec.inBit + 10) 4
    let endsAfter := fun n : Nat => exec .btype2 s = .next ((s.setInBit (s.dec.inBit + n)).raise .unexpectedEndOfInput)
    (s.bitsReady (14 + 3 * hclen) →
      ∃ clw : List Nat, clw.length = 19 ∧
        (∀ k, k < hclen → clw.getD (order.getD k 0) 0 = s.streamBits (s.dec.inBit + 14 + 3 * k) 3) ∧
        (∀ k, hclen ≤ k → k < 19 → clw.getD (order.getD k 0) 0 = 0) ∧
        exec .btype2 s = .next
          { s with
            dec := { s.dec with
              inBit := s.dec.inBit + (14 + 3 * hclen), hlit := hlit, hdist := hdist, widths := [],
              clTable := decodeTable clw }
            seq := .busy .readCodeLen }) ∧
    (8 * s.reg.srcLen.toNat < s.dec.inBit + 5 → endsAfter 0) ∧
    (s.bitsReady 5 → 8 * s.reg.srcLen.toNat < s.dec.inBit + 10 → endsAfter 5) ∧
    (s.bitsReady 10 → 8 * s.reg.srcLen.toNat < s.dec.inBit + 14 → endsAfter 10) ∧
    (∀ k, k < hclen → s.bitsReady (14 + 3 * k) → 8 * s.reg.srcLen.toNat < s.dec.inBit + 14 + 3 * (k + 1) →
      endsAfter (14 + 3 * k))

/-- R463 to R469: what each code-length symbol read appends to the width list, and what becomes of the list. Missing extra
bits are `UnexpectedEndOfInput`. -/
def Obligations.CodeLengthSymbolsRead : Prop :=
  ∀ s : State, s.run.op.encodes = false →
    (∀ i : Instr, i.alphabet = .codeLen → i.number < 16 → s.WidthsAppended [i.number] (exec i s)) ∧
    (s.dec.widths = [] → exec .cl16 s = .next (s.raise .huffmanTableIndexOutOfBounds)) ∧
    (∀ w, s.dec.widths.getLast? = some w → s.bitsReady 2 →
      (s.setInBit (s.dec.inBit + 2)).WidthsAppended (List.replicate (3 + s.streamBits s.dec.inBit 2) w)
        (exec .cl16 s)) ∧
    (s.bitsReady 3 →
      (s.setInBit (s.dec.inBit + 3)).WidthsAppended (List.replicate (3 + s.streamBits s.dec.inBit 3) 0)
        (exec .cl17 s)) ∧
    (s.bitsReady 7 →
      (s.setInBit (s.dec.inBit + 7)).WidthsAppended (List.replicate (11 + s.streamBits s.dec.inBit 7) 0)
        (exec .cl18 s)) ∧
    (s.dec.widths ≠ [] → 8 * s.reg.srcLen.toNat < s.dec.inBit + 2 →
      exec .cl16 s = .next (s.raise .unexpectedEndOfInput)) ∧
    (8 * s.reg.srcLen.toNat < s.dec.inBit + 3 → exec .cl17 s = .next (s.raise .unexpectedEndOfInput)) ∧
    (8 * s.reg.srcLen.toNat < s.dec.inBit + 7 → exec .cl18 s = .next (s.raise .unexpectedEndOfInput))

/-! ## Symbols that are read -/

/-- R500, R112: a literal read is emitted at `DST_ADDR + outPos`, and no other byte changes. -/
def Obligations.LiteralsRead : Prop :=
  ∀ (i : Instr) (s : State), i.alphabet = .litLen → i.number < 256 → s.run.op.encodes = false →
    let b := BitVec.ofNat 8 i.number
    (s.outReady 1 →
      ∃ t, exec i s = .next t ∧ t = s.emittedOut b ∧ t.outPos = s.outPos + 1 ∧
        t.mem.read (s.dstByte s.outPos) = b ∧
        ∀ a, a ≠ s.dstByte s.outPos → t.mem.read a = s.mem.read a) ∧
    (s.outPos = s.reg.dstCap.toNat → exec i s = .next (s.raise .outputOverflow)) ∧
    (s.outPos ≠ s.reg.dstCap.toNat → s.plat.busOk (s.dstByte s.outPos) = false →
      exec i s = .next (s.raise .busError))

/-- R501, R450, R473, R681: an end-of-block symbol read. The next header follows unless `BFINAL` was 1; then the stream
is aligned and the container's trailer or the successful end follows. -/
def Obligations.EndOfBlockRead : Prop :=
  ∀ s : State, s.run.op.encodes = false →
    let u := s.setInBit (8 * ((s.dec.inBit + 7) / 8))
    (s.dec.bfinal = false → exec .eob s = .next { s with seq := .busy .readBlock }) ∧
    (s.dec.bfinal = true → s.run.op = .inflateZlib → exec .eob s = .next { u with seq := .busy .zlibTrailerIn }) ∧
    (s.dec.bfinal = true → s.run.op = .inflateGzip → exec .eob s = .next { u with seq := .busy .gzipTrailerIn }) ∧
    (s.dec.bfinal = true → s.run.op = .inflate →
      exec .eob s = .next
        { u with reg := { s.reg with outLen := BitVec.ofNat 32 s.outPos, done := true }, seq := .idle })

/-- R520 to R548, R470: a length symbol read takes its extra bits and holds `base + extra`; missing bits are
`UnexpectedEndOfInput`. -/
def Obligations.LengthSymbolsRead : Prop :=
  ∀ r ∈ lengthRows, ∀ s : State, s.run.op.encodes = false →
    r.instr.number = r.sym ∧
    (s.bitsReady r.extra →
      exec r.instr s = .next
        { s with
          dec := { s.dec with
            inBit := s.dec.inBit + r.extra, length := r.base + s.streamBits s.dec.inBit r.extra }
          seq := .busy .readDist }) ∧
    (8 * s.reg.srcLen.toNat < s.dec.inBit + r.extra → exec r.instr s = .next (s.raise .unexpectedEndOfInput))

/-- R551 to R580, R471, R472: a distance symbol read takes its extra bits and copies `length` bytes from `distance` back,
each read after the one before it was written; too great a distance is an error before any byte. -/
def Obligations.DistanceSymbolsRead : Prop :=
  ∀ r ∈ distanceRows, ∀ s : State, s.run.op.encodes = false →
    r.instr.number = r.sym ∧
    (8 * s.reg.srcLen.toNat < s.dec.inBit + r.extra → exec r.instr s = .next (s.raise .unexpectedEndOfInput)) ∧
    (s.bitsReady r.extra →
      let d := r.base + s.streamBits s.dec.inBit r.extra
      let u := s.setInBit (s.dec.inBit + r.extra)
      (s.outPos < d → exec r.instr s = .next (u.raise .distanceTooFarBack)) ∧
      (d ≤ s.outPos → s.outReady s.dec.length → (∀ k, k < s.outPos → s.plat.busOk (s.dstByte k) = true) →
        ∃ bytes : List Byte, bytes.length = s.dec.length ∧
          (∀ k, k < s.dec.length → bytes[k]? =
            if k < d then some (s.mem.read (s.dstByte (s.outPos - d + k))) else bytes[k - d]?) ∧
          exec r.instr s = .next { u.emittedAll bytes with seq := .busy .readSym } ∧
          (∀ k, k < s.dec.length → some ((u.emittedAll bytes).mem.read (s.dstByte (s.outPos + k))) = bytes[k]?) ∧
          (∀ a, s.outside s.outPos (s.outPos + s.dec.length) a →
            (u.emittedAll bytes).mem.read a = s.mem.read a)))

/-- R454, R549, R581: the block type and the symbols that no stream may hold raise their error. -/
def Obligations.InvalidSymbolsRaise : Prop :=
  ∀ (s : State) (k : BitVec 1),
    exec .btype3 s = .next (s.raise .invalidBlockType) ∧
    exec (.lensym286To287 k) s = .next (s.raise .huffmanTableIndexOutOfBounds) ∧
    exec (.dsym30To31 k) s = .next (s.raise .huffmanTableIndexOutOfBounds)

/-! ## Huffman codes -/

/-- R267, R262, R266: a decode table decodes every code of the encode table of the same widths back to its symbol, after
exactly its width in bits, for all widths up to 15 that are not over-subscribed. -/
def Obligations.HuffmanSelfConsistency : Prop :=
  ∀ (w : List Nat) (sym : Nat) (c : HuffCode) (s : State),
    (∀ x ∈ w, x ≤ 15) → kraftSum 15 w ≤ 2 ^ 15 → (encodeTable w)[sym]? = some (some c) →
    s.bitsReady c.width → (∀ k, k < c.width → s.streamBit (s.dec.inBit + k) = c.bits / 2 ^ k % 2) →
    decodeSymbol (decodeTable w) s = .ok sym (s.setInBit (s.dec.inBit + c.width))

/-- R261, R262: the loop's codes are the codes of the `first[b]` form; a code of a width array that is not
over-subscribed fits its width. -/
def Obligations.CanonicalCodeForms : Prop :=
  ∀ w : List Nat, (∀ x ∈ w, x ≤ 15) →
    (∀ p ∈ canonicalCodes w, p.2 = canonicalCode w p.1) ∧
    (∀ n, n < w.length → 0 < w.getD n 0 → n ∈ (canonicalCodes w).map Prod.fst) ∧
    (kraftSum 15 w ≤ 2 ^ 15 → ∀ n, 0 < w.getD n 0 → canonicalCode w n < 2 ^ w.getD n 0)

/-- R156, R157, R353: the encode tables of the fixed widths hold the fixed codes of the tables of R156 and R157, bit
reversed. -/
def Obligations.FixedCodesAreTheTables : Prop :=
  (∀ n, n < 288 → (encodeTable fixedLitLenWidths)[n]? =
    some (some ⟨revBits (fixedLitLenCode n).1 (fixedLitLenCode n).2, (fixedLitLenCode n).1⟩)) ∧
  (∀ n, n < 32 → (encodeTable fixedDistWidths)[n]? = some (some ⟨revBits 5 n, 5⟩))

/-- R257 (1) to (3), R250, R252: a width assignment gives a width to the used symbols and to no other, none above the
limit, whatever choice the platform makes; where the limit leaves room for a code of all used symbols, the widths of two
or more are complete, and the width of one is 1. So no assignment of a limit up to 15 is over-subscribed, as R267 asks. -/
def Obligations.WidthAssignmentContract : Prop :=
  ∀ (p : Platform) (f : List Nat) (limit : Nat), 1 ≤ limit →
    let w := p.codeLengths f limit
    let used := f.countP fun x => decide (0 < x)
    (w.length = f.length ∧
      ∀ n, n < f.length → (w.getD n 0 = 0 ↔ f.getD n 0 = 0) ∧ w.getD n 0 ≤ limit) ∧
    (2 ≤ used → used ≤ 2 ^ limit → kraftSum limit w = 2 ^ limit) ∧
    (used = 1 → ∀ n, 0 < f.getD n 0 → w.getD n 0 = 1) ∧
    (used ≤ 2 ^ limit → limit ≤ 15 → kraftSum 15 w ≤ 2 ^ 15)

/-- R211, R215, R53, R52: the reader's registers refine the position `inBit` that the machine keeps. `ReadBits` on the
registers fails exactly when too few bits are left; else it returns the next `n` bits and the registers stand for the
bits after them, and `AlignIn` discards up to the next byte boundary. On registers that stand for a state's position the
machine's `readBits` and `alignIn` give the same, and the registers stand for the position after; at the start of a
command they stand for position 0. -/
def Obligations.ReaderRegistersRefineTheCursor : Prop :=
  (∀ (r : Reader) (n : Nat), r.wf = true → n ≤ 32 →
    (r.readBits n = none ↔ r.pending < n) ∧
    (∀ (v : Nat) (r' : Reader), r.readBits n = some (v, r') →
      r'.wf = true ∧ v = r.bits % 2 ^ n ∧ r'.bits = r.bits / 2 ^ n ∧ r'.pending = r.pending - n) ∧
    r.alignIn.wf = true ∧ r.alignIn.bits = r.bits / 2 ^ (r.pending % 8) ∧
    r.alignIn.pending = 8 * (r.pending / 8)) ∧
  (∀ (s : State) (r : Reader) (n : Nat), r.StandsFor s → s.dec.inBit ≤ 8 * s.reg.srcLen.toNat → n ≤ 32 →
    (8 * s.reg.srcLen.toNat < s.dec.inBit + n →
      r.readBits n = none ∧ readBits n s = .raised .unexpectedEndOfInput s) ∧
    (s.bitsReady n →
      ∃ v r', r.readBits n = some (v, r') ∧ readBits n s = .ok v (s.setInBit (s.dec.inBit + n)) ∧
        r'.StandsFor (s.setInBit (s.dec.inBit + n))) ∧
    r.alignIn.StandsFor (alignIn s)) ∧
  (∀ s : State, (Reader.start (s.inputBytes 0 s.reg.srcLen.toNat)).StandsFor (s.setInBit 0))

/-! ## Containers that are read -/

/-- R620 to R622: the zlib header. The checks run in the order of the rule, each raising at once; a header that passes is
followed by the stream. -/
def Obligations.ZlibHeaderChecks : Prop :=
  (∀ (cmf flg : Byte) (s : State),
    (cmf.toNat % 16 ≠ 8 → exec (.zlibHeaderRead cmf flg) s = .next (s.raise .invalidMethod)) ∧
    (cmf.toNat % 16 = 8 → 7 < cmf.toNat / 16 →
      exec (.zlibHeaderRead cmf flg) s = .next (s.raise .invalidWindowSize)) ∧
    (cmf.toNat % 16 = 8 → cmf.toNat / 16 ≤ 7 → (cmf.toNat * 256 + flg.toNat) % 31 ≠ 0 →
      exec (.zlibHeaderRead cmf flg) s = .next (s.raise .headerChecksumMismatch)) ∧
    (cmf.toNat % 16 = 8 → cmf.toNat / 16 ≤ 7 → (cmf.toNat * 256 + flg.toNat) % 31 = 0 → flg.toNat / 32 % 2 = 1 →
      exec (.zlibHeaderRead cmf flg) s = .next (s.raise .presetDictionaryUnsupported)) ∧
    (cmf.toNat % 16 = 8 → cmf.toNat / 16 ≤ 7 → (cmf.toNat * 256 + flg.toNat) % 31 = 0 → flg.toNat / 32 % 2 = 0 →
      exec (.zlibHeaderRead cmf flg) s = .next { s with seq := .busy .readBlock })) ∧
  (∀ s : State, s.atPhase .zlibHeaderIn → s.dec.inBit = 0 →
    (s.bytesReady 0 2 →
      step s = exec (.zlibHeaderRead (s.mem.read (s.srcByte 0)) (s.mem.read (s.srcByte 1))) (s.setInBit 16)) ∧
    (s.reg.srcLen = 0#32 → step s = .next (s.raise .unexpectedEndOfInput)) ∧
    (s.reg.srcLen = 1#32 → s.bytesReady 0 1 → step s = .next ((s.setInBit 8).raise .unexpectedEndOfInput)))

/-- R623: the zlib trailer: four bytes, big-endian, at the byte position of the reader; compared with the output's
Adler-32, which `CHECKSUM` gets. -/
def Obligations.ZlibTrailerRead : Prop :=
  (∀ (adler : Word) (s : State), s.run.op = .inflateZlib →
    let found := BitVec.ofNat 32 (65536 * s.sum.s2 + s.sum.s1)
    (adler ≠ found →
      exec (.zlibTrailerRead adler) s = .next (s.raise (.trailerChecksumMismatch adler found))) ∧
    (adler = found →
      exec (.zlibTrailerRead adler) s = .next
        { s with
          reg := { s.reg with outLen := BitVec.ofNat 32 s.outPos, checksum := found, done := true }
          seq := .idle })) ∧
  (∀ s : State, s.atPhase .zlibTrailerIn →
    let q := s.dec.inBit / 8
    (s.reg.srcLen.toNat < q + 4 → step s = .next (s.raise .unexpectedEndOfInput)) ∧
    (s.bytesReady q 4 →
      step s = exec
        (.zlibTrailerRead (s.mem.read (s.srcByte q) ++ s.mem.read (s.srcByte (q + 1)) ++
          s.mem.read (s.srcByte (q + 2)) ++ s.mem.read (s.srcByte (q + 3))))
        (s.setInBit (8 * (q + 4)))))

/-- R630, R631: the ten fixed gzip header bytes. All are read before any check; then the magic, the method, and the
optional fields that `FLG` selects. -/
def Obligations.GzipHeaderRead : Prop :=
  (∀ (id1 id2 cm flg xfl os : Byte) (mtime : Word) (s : State),
    let i : Instr := .gzipHeader id1 id2 cm flg mtime xfl os
    (id1 ≠ 0x1F#8 ∨ id2 ≠ 0x8B#8 → exec i s = .next (s.raise .invalidHeaderMagic)) ∧
    (id1 = 0x1F#8 → id2 = 0x8B#8 → cm ≠ 8#8 → exec i s = .next (s.raise .invalidMethod)) ∧
    (id1 = 0x1F#8 → id2 = 0x8B#8 → cm = 8#8 →
      exec i s = .next
        { s with
          dec := { s.dec with gzFlags := flg &&& 0x1E#8 }
          seq := .busy (if flg &&& 0x1E#8 = 0#8 then .readBlock else .gzipOptional) })) ∧
  (∀ s : State, s.atPhase .gzipHeader → s.dec.inBit = 0 →
    (s.reg.srcLen.toNat < 10 → step s = .next (s.raise .unexpectedEndOfInput)) ∧
    (s.bytesReady 0 10 →
      let b := fun k => s.mem.read (s.srcByte k)
      step s = exec (.gzipHeader (b 0) (b 1) (b 2) (b 3) (b 7 ++ b 6 ++ b 5 ++ b 4) (b 8) (b 9)) (s.setInBit 80)))

/-- R630 to R635: the optional gzip fields, in the order extra, name, comment, header CRC. `p` is the reader's byte
position; a field moves it past itself and clears its flag, and the stream follows the last field. That `FEXTRA` asks no
backing of the data it skips, and which bytes `FHCRC` reads, is the model's reading, log entry 14 (DEDUCED). -/
def Obligations.GzipOptionalFieldsRead : Prop :=
  ∀ s : State,
    let p := s.dec.inBit / 8
    let b := fun k => s.mem.read (s.srcByte k)
    let after := fun (bit : Byte) (q : Nat) => { s with
      dec := { s.dec with inBit := 8 * q, gzFlags := s.dec.gzFlags &&& ~~~bit }
      seq := .busy (if s.dec.gzFlags &&& ~~~bit = 0#8 then .readBlock else .gzipOptional) }
    (s.atPhase .gzipOptional →
      (s.dec.gzFlags.getLsbD 2 = true → step s = exec .gzipFextra s) ∧
      (s.dec.gzFlags &&& 0x0C#8 = 8#8 → step s = exec .gzipFname s) ∧
      (s.dec.gzFlags &&& 0x1C#8 = 16#8 → step s = exec .gzipFcomment s) ∧
      (s.dec.gzFlags &&& 0x1E#8 = 2#8 → step s = exec .gzipFhcrc s)) ∧
    (s.reg.srcLen.toNat < p + 2 →
      exec .gzipFextra s = .next (s.raise .unexpectedEndOfInput) ∧
      exec .gzipFhcrc s = .next (s.raise .unexpectedEndOfInput)) ∧
    (s.bytesReady p 2 →
      let xlen := (b p).toNat + 256 * (b (p + 1)).toNat
      (s.reg.srcLen.toNat < p + 2 + xlen → exec .gzipFextra s = .next (s.raise .unexpectedEndOfInput)) ∧
      (p + 2 + xlen ≤ s.reg.srcLen.toNat → exec .gzipFextra s = .next (after 4#8 (p + 2 + xlen)))) ∧
    (∀ n, s.bytesReady p (n + 1) → (∀ k, k < n → b (p + k) ≠ 0#8) → b (p + n) = 0#8 →
      exec .gzipFname s = .next (after 8#8 (p + n + 1)) ∧
      exec .gzipFcomment s = .next (after 16#8 (p + n + 1))) ∧
    (s.bytesReady p (s.reg.srcLen.toNat - p) → (∀ k, p ≤ k → k < s.reg.srcLen.toNat → b k ≠ 0#8) →
      exec .gzipFname s = .next (s.raise .unexpectedEndOfInput) ∧
      exec .gzipFcomment s = .next (s.raise .unexpectedEndOfInput)) ∧
    (s.bytesReady 0 (p + 2) →
      let h := (b p).toNat + 256 * (b (p + 1)).toNat
      let crc := (crc32Of (s.inputBytes 0 p)).toNat % 65536
      (h ≠ crc → exec .gzipFhcrc s = .next (s.raise .headerChecksumMismatch)) ∧
      (h = crc → exec .gzipFhcrc s = .next (after 2#8 (p + 2))))

/-- R640, R641: the gzip trailer. It must be present; its values are compared only in strict mode, the CRC first. -/
def Obligations.GzipTrailersRead : Prop :=
  (∀ (crc isize : Word) (s : State), s.run.op = .inflateGzip →
    let found := s.sum.crc ^^^ 0xFFFFFFFF#32
    let done := { s with
      reg := { s.reg with outLen := BitVec.ofNat 32 s.outPos, checksum := found, done := true }
      seq := .idle }
    exec (.gzipTrailer crc isize) s = .next done ∧
    (crc ≠ found →
      exec (.gzipTrailerStrict crc isize) s = .next (s.raise (.trailerChecksumMismatch crc found))) ∧
    (crc = found → isize.toNat ≠ s.outPos % 4294967296 →
      exec (.gzipTrailerStrict crc isize) s =
        .next (s.raise (.trailerChecksumMismatch isize (BitVec.ofNat 32 s.outPos)))) ∧
    (crc = found → isize.toNat = s.outPos % 4294967296 → exec (.gzipTrailerStrict crc isize) s = .next done)) ∧
  (∀ s : State, s.atPhase .gzipTrailerIn →
    let q := s.dec.inBit / 8
    let b := fun k => s.mem.read (s.srcByte (q + k))
    let crc := b 3 ++ b 2 ++ b 1 ++ b 0
    let isize := b 7 ++ b 6 ++ b 5 ++ b 4
    (s.reg.srcLen.toNat < q + 8 → step s = .next (s.raise .unexpectedEndOfInput)) ∧
    (s.bytesReady q 8 → s.run.strict = false →
      step s = exec (.gzipTrailer crc isize) (s.setInBit (8 * (q + 8)))) ∧
    (s.bytesReady q 8 → s.run.strict = true →
      step s = exec (.gzipTrailerStrict crc isize) (s.setInBit (8 * (q + 8)))))

/-- R655: every instruction of a decompression's stream and header keeps the checksum registers those of the output
written so far, as long as the command runs. -/
def Obligations.ChecksumsFollowTheOutput : Prop :=
  ∀ (i : Instr) (s t : State), i.alphabet ≠ .command → i.alphabet ≠ .zlibHeaderOut →
    s.run.op.encodes = false → s.sum = Sums.fresh.addAll s.output → exec i s = .next t → t.busy = true →
    t.sum = Sums.fresh.addAll t.output

/-! ## What is written -/

/-- R600, R601: the zlib header and trailer that `DEFLATE_ZLIB` writes. -/
def Obligations.ZlibHeaderAndTrailerWritten : Prop :=
  ∀ s : State,
    (s.outReady 2 →
      exec .zlibHeaderWrite s = .next { (s.emitted 0x78#8).emitted 0x01#8 with seq := .busy .loadChunk }) ∧
    (s.outReady 4 → s.run.op = .deflateZlib →
      let a := BitVec.ofNat 32 (65536 * s.sum.s2 + s.sum.s1)
      let u := (((s.emitted (a.extractLsb' 24 8)).emitted (a.extractLsb' 16 8)).emitted
        (a.extractLsb' 8 8)).emitted (a.extractLsb' 0 8)
      exec .zlibTrailerWrite s = .next
        { u with
          reg := { s.reg with outLen := BitVec.ofNat 32 (s.outPos + 4), checksum := a, done := true }
          seq := .idle } ∧
      ∀ x, s.outside s.outPos (s.outPos + 4) x → u.mem.read x = s.mem.read x)

/-- R201, R202, R207: `WriteBits` appends its bits to the output's, emits exactly the whole 16-bit units, and changes
nothing else. -/
def Obligations.WriteBitsAppends : Prop :=
  ∀ (s : State) (width bits : Nat), s.writerOk → width ≤ 16 → bits < 2 ^ width → s.outReady (s.unitsFor width) →
    ∃ t, writeBits width bits s = .ok () t ∧ t.writerOk ∧ t.outBits = s.outBits ++ bitList width bits ∧
      t.outPos = s.outPos + s.unitsFor width ∧ s.WriteFrame t ∧ t.seq = s.seq ∧
      t.enc = { s.enc with tag := t.enc.tag, bitsWritten := t.enc.bitsWritten }

/-- R204, R205: `Flush` pads the bits left with zeros to whole bytes, leaves both registers 0 and nothing else changed,
and a second `Flush` changes nothing. R377, R601, R681: in the final flush's phase the engine's step is that `Flush`, and
the zlib trailer or the successful end of the command follows; without room it ends in `OutputOverflow`. -/
def Obligations.FlushPadsAndIsIdempotent : Prop :=
  (∀ s : State, s.writerOk → s.outReady ((s.enc.bitsWritten + 7) / 8) →
    ∃ t, flush s = .ok () t ∧ t.enc = { s.enc with tag := 0#32, bitsWritten := 0 } ∧ t.seq = s.seq ∧
      t.outPos = s.outPos + (s.enc.bitsWritten + 7) / 8 ∧
      byteBits t.output = s.outBits ++ List.replicate ((8 - s.enc.bitsWritten % 8) % 8) false ∧
      s.WriteFrame t ∧ flush t = .ok () t ∧
      (s.atPhase .flush → s.run.op = .deflateZlib → step s = .next { t with seq := .busy .zlibTrailerOut }) ∧
      (s.atPhase .flush → s.run.op = .deflate →
        step s = .next
          { t with reg := { s.reg with outLen := BitVec.ofNat 32 t.outPos, done := true }, seq := .idle })) ∧
  (∀ s : State, s.atPhase .flush → 0 < s.enc.bitsWritten → s.outPos = s.reg.dstCap.toNat →
    step s = .next (s.raise .outputOverflow))

/-- R355, R350, R351: a stored block written, bit by bit, and what follows it. -/
def Obligations.StoredBlockWritten : Prop :=
  ∀ s : State, s.run.op.encodes = true → s.writerOk → s.enc.chunk.length ≤ 65535 →
    let len := s.enc.chunk.length
    let pad := (8 - (s.enc.bitsWritten + 3) % 8) % 8
    s.outReady (s.unitsFor (3 + pad + 32 + 8 * len)) →
    ∃ t, exec .btype0 s = .next t ∧ t.writerOk ∧ s.WriteFrame t ∧
      t.outBits = s.outBits ++ [s.lastBlock, false, false] ++ List.replicate pad false ++ bitList 16 len ++
        bitList 16 (len ^^^ 0xFFFF) ++ byteBits s.enc.chunk ∧
      (s.lastBlock = true → t.seq = .busy .flush ∧ t.enc.chunkIndex = s.enc.chunkIndex) ∧
      (s.lastBlock = false → t.seq = .busy .loadChunk ∧ t.enc.chunkIndex = s.enc.chunkIndex + 1) ∧
      t.enc = { s.enc with
        tag := t.enc.tag, bitsWritten := t.enc.bitsWritten, chunkIndex := t.enc.chunkIndex }

/-- R356, R353, R375, R374, R161: the headers of a static and of a dynamic block written. A static block installs the
fixed encode tables and its symbols follow; a dynamic block's code-length symbols follow. `order` is R161's
`CL_ORDER`. -/
def Obligations.StaticAndDynamicHeadersWritten : Prop :=
  ∀ s : State, s.run.op.encodes = true → s.writerOk →
    let order : List Nat := [16, 17, 18, 0, 8, 7, 9, 6, 10, 5, 11, 4, 12, 3, 13, 2, 14, 1, 15]
    (s.outReady (s.unitsFor 3) →
      ∃ t, exec .btype1 s = .next t ∧ t.writerOk ∧ s.WriteFrame t ∧ t.seq = .busy .writeSym ∧
        t.outBits = s.outBits ++ [s.lastBlock, true, false] ∧
        t.enc = { s.enc with
          tag := t.enc.tag, bitsWritten := t.enc.bitsWritten,
          litTable := encodeTable fixedLitLenWidths, distTable := encodeTable fixedDistWidths }) ∧
    (257 ≤ s.enc.hlit → s.enc.hlit ≤ 288 → 1 ≤ s.enc.hdist → s.enc.hdist ≤ 32 → 4 ≤ s.enc.hclen →
      s.enc.hclen ≤ 19 → (∀ w ∈ s.enc.clWidths, w ≤ 7) → s.outReady (s.unitsFor (17 + 3 * s.enc.hclen)) →
      ∃ t, exec .btype2 s = .next t ∧ t.writerOk ∧ s.WriteFrame t ∧ t.seq = .busy .writeCodeLen ∧
        t.outBits = s.outBits ++ [s.lastBlock, false, true] ++ bitList 5 (s.enc.hlit - 257) ++
          bitList 5 (s.enc.hdist - 1) ++ bitList 4 (s.enc.hclen - 4) ++
          ((order.take s.enc.hclen).flatMap fun c => bitList 3 (s.enc.clWidths.getD c 0)) ∧
        t.enc = { s.enc with tag := t.enc.tag, bitsWritten := t.enc.bitsWritten })

/-- R358, R360, R351: a literal and the end-of-block symbol written with their codes; the block ends with the second. -/
def Obligations.LiteralsAndEndOfBlockWritten : Prop :=
  (∀ (i : Instr) (c : HuffCode) (s : State), i.alphabet = .litLen → i.number < 256 → s.run.op.encodes = true →
    s.writerOk → s.enc.litTable[i.number]? = some (some c) → c.ok → s.outReady (s.unitsFor c.width) →
    ∃ t, exec i s = .next t ∧ t.writerOk ∧ s.WriteFrame t ∧ t.seq = s.seq ∧
      t.outBits = s.outBits ++ bitList c.width c.bits ∧
      t.enc = { s.enc with
        tag := t.enc.tag, bitsWritten := t.enc.bitsWritten, syms := s.enc.syms.tail }) ∧
  (∀ (c : HuffCode) (s : State), s.run.op.encodes = true → s.writerOk → s.enc.litTable[256]? = some (some c) →
    c.ok → s.outReady (s.unitsFor c.width) →
    ∃ t, exec .eob s = .next t ∧ t.writerOk ∧ s.WriteFrame t ∧
      t.outBits = s.outBits ++ bitList c.width c.bits ∧
      (s.lastBlock = true → t.seq = .busy .flush ∧ t.enc.chunkIndex = s.enc.chunkIndex) ∧
      (s.lastBlock = false → t.seq = .busy .loadChunk ∧ t.enc.chunkIndex = s.enc.chunkIndex + 1) ∧
      t.enc = { s.enc with
        tag := t.enc.tag, bitsWritten := t.enc.bitsWritten, chunkIndex := t.enc.chunkIndex,
        syms := s.enc.syms.tail })

/-- R359, R352, R354, R164: a pointer written: the length symbol's code and extra value, then the distance symbol's. -/
def Obligations.PointersWritten : Prop :=
  (∀ r ∈ lengthRows, ∀ (len d : Nat) (c : HuffCode) (s : State), s.run.op.encodes = true → s.writerOk →
    s.enc.syms.head? = some (.pointer len d) → r.base ≤ len → len - r.base < 2 ^ r.extra →
    s.enc.litTable[r.sym]? = some (some c) → c.ok → s.outReady (s.unitsFor (c.width + r.extra)) →
    ∃ t, exec r.instr s = .next t ∧ t.writerOk ∧ s.WriteFrame t ∧ t.seq = .busy .writeDist ∧
      t.outBits = s.outBits ++ bitList c.width c.bits ++ bitList r.extra (len - r.base) ∧
      t.enc = { s.enc with tag := t.enc.tag, bitsWritten := t.enc.bitsWritten }) ∧
  (∀ r ∈ distanceRows, ∀ (len d : Nat) (c : HuffCode) (s : State), s.run.op.encodes = true → s.writerOk →
    s.enc.syms.head? = some (.pointer len d) → r.base ≤ d → d - r.base < 2 ^ r.extra →
    s.enc.distTable[r.sym]? = some (some c) → c.ok → s.outReady (s.unitsFor (c.width + r.extra)) →
    ∃ t, exec r.instr s = .next t ∧ t.writerOk ∧ s.WriteFrame t ∧ t.seq = .busy .writeSym ∧
      t.outBits = s.outBits ++ bitList c.width c.bits ++ bitList r.extra (d - r.base) ∧
      t.enc = { s.enc with
        tag := t.enc.tag, bitsWritten := t.enc.bitsWritten, syms := s.enc.syms.tail })

/-- R375: a code-length symbol written: its code, and for 16, 17 and 18 its extra value; the block's symbols follow the
last one. -/
def Obligations.CodeLengthSymbolsWritten : Prop :=
  ∀ (i : Instr) (x : Nat) (rest : List (Nat × Nat)) (c : HuffCode) (s : State), i.alphabet = .codeLen →
    s.run.op.encodes = true → s.writerOk → s.enc.clSeq = (i.number, x) :: rest → x < 2 ^ clExtraBits i.number →
    s.enc.clTable[i.number]? = some (some c) → c.ok → s.outReady (s.unitsFor (c.width + clExtraBits i.number)) →
    ∃ t, exec i s = .next t ∧ t.writerOk ∧ s.WriteFrame t ∧
      t.outBits = s.outBits ++ bitList c.width c.bits ++ bitList (clExtraBits i.number) x ∧
      t.seq = .busy (if rest = [] then .writeSym else .writeCodeLen) ∧
      t.enc = { s.enc with tag := t.enc.tag, bitsWritten := t.enc.bitsWritten, clSeq := rest }

/-! ## The encoder's own phases -/

/-- R350, R356, R655: the chunk's read. Chunk `c` is the `min(S, n - c * S)` bytes of `IN` from `c * S` on; the checksum
registers run over it; the scan follows where a window is configured and the mode uses it, else the chunk's symbols are
its literals and `EndOfBlock` (`Raw` has none). Nothing else changes; an unbacked byte raises `BusError` with nothing of
the block written. -/
def Obligations.ChunkRead : Prop :=
  ∀ s : State, s.atPhase .loadChunk →
    let size := if s.run.mode = .raw then 65535 else 1048576
    let start := s.enc.chunkIndex * size
    let len := min size (s.reg.srcLen.toNat - start)
    let chunk := s.inputBytes start len
    let next := fun (syms : List Sym) (p : Phase) => { s with
      sum := s.sum.addAll chunk
      enc := { s.enc with chunk := chunk, scanPos := 0, prefixTable := [], syms := syms }
      seq := .busy p }
    let literals := chunk.map Sym.literal ++ [.endOfBlock]
    ((∀ k, k < len → s.plat.busOk (s.srcByte (start + k)) = true) →
      (s.run.mode = .raw → step s = .next (next [] .writeBlock)) ∧
      (s.run.mode = .fixed → s.run.win = none → step s = .next (next literals .writeBlock)) ∧
      (s.run.mode = .dynamic → s.run.win = none → step s = .next (next literals .buildTables)) ∧
      (s.run.mode ≠ .raw → s.run.win ≠ none → step s = .next (next [] .scanChunk))) ∧
    ((∃ k, k < len ∧ s.plat.busOk (s.srcByte (start + k)) = false) → step s = .next (s.raise .busError))

/-- R357, R370 to R374, R75: the tables of a dynamic block. The counters count the block's symbols, `HLIT`, `HDIST` and
`HCLEN` end at the last used entry (R161's order for `HCLEN`) and not below 257, 1 and 4, the code-length symbols are the
run-length code of both width lists in one, and the table memories hold the codes of the three width assignments.
Nothing else changes. -/
def Obligations.DynamicTablesBuilt : Prop :=
  ∀ s : State, s.atPhase .buildTables →
    ∃ e : Encoder, step s = .next { s with enc := e, seq := .busy .writeBlock } ∧
      let ll := s.plat.codeLengths e.litFreq 15
      let dl := s.plat.codeLengths e.distFreq 15
      let cl := s.plat.codeLengths e.clFreq 7
      let order : List Nat := [16, 17, 18, 0, 8, 7, 9, 6, 10, 5, 11, 4, 12, 3, 13, 2, 14, 1, 15]
      (e.litFreq.length = 286 ∧
        ∀ n, n < 286 → e.litFreq.getD n 0 = s.enc.syms.countP fun x => x.litLenSym == n) ∧
      (e.distFreq.length = 30 ∧
        ∀ n, n < 30 → e.distFreq.getD n 0 = s.enc.syms.countP fun x => x.distanceSym == some n) ∧
      (e.clFreq.length = 19 ∧ ∀ n, n < 19 → e.clFreq.getD n 0 = e.clSeq.countP fun c => c.1 == n) ∧
      (257 ≤ e.hlit ∧ e.hlit ≤ 286 ∧ (∀ n, e.hlit ≤ n → ll.getD n 0 = 0) ∧
        (257 < e.hlit → 0 < ll.getD (e.hlit - 1) 0)) ∧
      (1 ≤ e.hdist ∧ e.hdist ≤ 30 ∧ (∀ n, e.hdist ≤ n → dl.getD n 0 = 0) ∧
        (1 < e.hdist → 0 < dl.getD (e.hdist - 1) 0)) ∧
      (4 ≤ e.hclen ∧ e.hclen ≤ 19 ∧ (∀ k, e.hclen ≤ k → k < 19 → cl.getD (order.getD k 0) 0 = 0) ∧
        (4 < e.hclen → 0 < cl.getD (order.getD (e.hclen - 1) 0) 0)) ∧
      e.clSeq = rle (ll.take e.hlit ++ dl.take e.hdist) ∧ e.clWidths = cl ∧
      e.litTable = encodeTable ll ∧ e.distTable = encodeTable dl ∧ e.clTable = encodeTable cl ∧
      e = { s.enc with
        litFreq := e.litFreq, distFreq := e.distFreq, clFreq := e.clFreq, litTable := e.litTable,
        distTable := e.distTable, clTable := e.clTable, hlit := e.hlit, hdist := e.hdist, hclen := e.hclen,
        clWidths := e.clWidths, clSeq := e.clSeq }

/-! ## The encoder's choices -/

/-- R352, R354: the symbol and extra value of every length and of every distance. 285 is for 258 alone; otherwise, and for
distances, the symbol is the greatest whose base is at most the value; a distance has exactly one pair. -/
def Obligations.LenSymAndDistSym : Prop :=
  (∀ len, 3 ≤ len → len ≤ 258 →
    (∃ r ∈ lengthRows, (lenSym len).1 = r.sym ∧ len = r.base + (lenSym len).2 ∧ (lenSym len).2 < 2 ^ r.extra ∧
      (len = 258 ↔ r.sym = 285)) ∧
    ∀ r ∈ lengthRows, r.base ≤ len → r.sym ≤ (lenSym len).1) ∧
  (∀ d, 1 ≤ d → d ≤ 32768 →
    (∃ r ∈ distanceRows, (distSym d).1 = r.sym ∧ d = r.base + (distSym d).2 ∧ (distSym d).2 < 2 ^ r.extra) ∧
    ∀ r ∈ distanceRows, (r.base ≤ d → r.sym ≤ (distSym d).1) ∧
      ∀ f, d = r.base + f → f < 2 ^ r.extra → distSym d = (r.sym, f))

/-- R371: reading the run-length code back gives the width list, and every extra value is in its symbol's range. -/
def Obligations.RunLengthCodeExpands : Prop :=
  ∀ v : List Nat, (∀ x ∈ v, x ≤ 15) →
    (rle v).foldl clExpandOne [] = v ∧
    ∀ c ∈ rle v, c.1 ≤ 18 ∧ c.2 < 2 ^ clExtraBits c.1

/-- R308: every pointer of a scan is legal where it stands, and the symbols expand to the chunk. -/
def Obligations.Lz77LegalAndFaithful : Prop :=
  ∀ (window : Nat) (buf : List Byte),
    expand (lz77 window buf) = buf ∧
    ∀ (before after : List Sym) (len d : Nat), lz77 window buf = before ++ .pointer len d :: after →
      3 ≤ len ∧ len ≤ 258 ∧ 1 ≤ d ∧ d ≤ window ∧ d ≤ (expand before).length

/-- R356, R303: the machine's scan of a chunk, one position a step, ends with `LZ77(win, chunk) ++ [EndOfBlock]`. -/
def Obligations.ScanStepsAddUpToLz77 : Prop :=
  ∀ (s : State) (window : Nat), s.seq = .busy .scanChunk → s.run.win = some window → s.run.mode ≠ .raw →
    s.enc.scanPos = 0 → s.enc.prefixTable = [] → s.enc.syms = [] →
    ∃ n, (Nat.repeat scanChunk n s).enc.syms = lz77 window s.enc.chunk ++ [.endOfBlock] ∧
      (Nat.repeat scanChunk n s).seq = .busy (if s.run.mode = .dynamic then .buildTables else .writeBlock)

/-! ## Encodings -/

/-- Every well-formed instruction's word decodes to it, whatever its fields, and fits its alphabet's width. -/
def Obligations.DecodeEncodeRoundTrip : Prop :=
  ∀ i : Instr, i.WellFormed →
    decode (encode i).alphabet (encode i).bits = .ok i ∧ (encode i).bits < 2 ^ (encode i).nbits

/-- Words written out from the spec's encodings (R64, R153, R158 to R163, R165, R166) decode to the instructions they
stand for. -/
def Obligations.TableWordsDecode : Prop :=
  decode .command 0b001010001 = .ok (.deflateZlib ⟨1#2, true, false, false⟩) ∧
  decode .command 0b100000110 = .ok (.adler32 ⟨0#2, false, false, true⟩) ∧
  decode .command 0b000110001 = .ok (.invalidMode3 true ⟨3#2, false, false, false⟩) ∧
  decode .blockType 0b10 = .ok .btype2 ∧
  decode .litLen 65 = .ok (.lit0To127 65#7) ∧ decode .litLen 144 = .ok (.lit144To159 0#4) ∧
  decode .litLen 256 = .ok .eob ∧ decode .litLen 263 = .ok .lensym263 ∧
  decode .dist 29 = .ok .dsym29 ∧ decode .dist 31 = .ok (.dsym30To31 1#1) ∧
  decode .codeLen 18 = .ok .cl18 ∧ decode .codeLen 19 = .error .noCodeLenSymbol ∧
  decode .zlibHeaderIn 0x78BB = .ok (.zlibHeaderRead 0x78#8 0xBB#8) ∧
  decode .gzipHeader 0x1F8B080800000000_00FF = .ok (.gzipHeader 0x1F#8 0x8B#8 8#8 8#8 0#32 0#8 0xFF#8) ∧
  decode .gzipTrailer 0x0000000A_478ED0CF = .ok (.gzipTrailer 0x478ED0CF#32 10#32) ∧
  fixedLitLenCode 65 = (8, 0b01110001) ∧ fixedLitLenCode 144 = (9, 0b110010000) ∧
  fixedLitLenCode 256 = (7, 0b0000000) ∧ fixedLitLenCode 287 = (8, 0b11000111)
end

