-- ==== Sys2Proof/Laws/State.lean ====
section
/-! SUPPORT. One lemma per field per named update of the state, so that no proof unfolds a record update. -/

namespace Sys2Proof.Machine

variable (s : State)

/-! ## `State.goto` -/

@[simp] theorem State.goto_reg (p : Phase) : (s.goto p).reg = s.reg := rfl
@[simp] theorem State.goto_seq (p : Phase) : (s.goto p).seq = .busy p := rfl
@[simp] theorem State.goto_run (p : Phase) : (s.goto p).run = s.run := rfl
@[simp] theorem State.goto_dec (p : Phase) : (s.goto p).dec = s.dec := rfl
@[simp] theorem State.goto_enc (p : Phase) : (s.goto p).enc = s.enc := rfl
@[simp] theorem State.goto_sum (p : Phase) : (s.goto p).sum = s.sum := rfl
@[simp] theorem State.goto_outPos (p : Phase) : (s.goto p).outPos = s.outPos := rfl
@[simp] theorem State.goto_mem (p : Phase) : (s.goto p).mem = s.mem := rfl
@[simp] theorem State.goto_plat (p : Phase) : (s.goto p).plat = s.plat := rfl
@[simp] theorem State.goto_host (p : Phase) : (s.goto p).host = s.host := rfl
@[simp] theorem State.goto_free (p : Phase) : (s.goto p).free = s.free := rfl

/-! ## `State.setInBit` -/

@[simp] theorem State.setInBit_reg (n : Nat) : (s.setInBit n).reg = s.reg := rfl
@[simp] theorem State.setInBit_seq (n : Nat) : (s.setInBit n).seq = s.seq := rfl
@[simp] theorem State.setInBit_run (n : Nat) : (s.setInBit n).run = s.run := rfl
@[simp] theorem State.setInBit_dec (n : Nat) : (s.setInBit n).dec = { s.dec with inBit := n } := rfl
@[simp] theorem State.setInBit_enc (n : Nat) : (s.setInBit n).enc = s.enc := rfl
@[simp] theorem State.setInBit_sum (n : Nat) : (s.setInBit n).sum = s.sum := rfl
@[simp] theorem State.setInBit_outPos (n : Nat) : (s.setInBit n).outPos = s.outPos := rfl
@[simp] theorem State.setInBit_mem (n : Nat) : (s.setInBit n).mem = s.mem := rfl
@[simp] theorem State.setInBit_plat (n : Nat) : (s.setInBit n).plat = s.plat := rfl
@[simp] theorem State.setInBit_host (n : Nat) : (s.setInBit n).host = s.host := rfl
@[simp] theorem State.setInBit_free (n : Nat) : (s.setInBit n).free = s.free := rfl

/-! ## `State.latchFinal` -/

@[simp] theorem State.latchFinal_reg (b : Nat) : (s.latchFinal b).reg = s.reg := rfl
@[simp] theorem State.latchFinal_seq (b : Nat) : (s.latchFinal b).seq = s.seq := rfl
@[simp] theorem State.latchFinal_run (b : Nat) : (s.latchFinal b).run = s.run := rfl
@[simp] theorem State.latchFinal_dec (b : Nat) : (s.latchFinal b).dec = { s.dec with bfinal := b == 1 } := rfl
@[simp] theorem State.latchFinal_enc (b : Nat) : (s.latchFinal b).enc = s.enc := rfl
@[simp] theorem State.latchFinal_sum (b : Nat) : (s.latchFinal b).sum = s.sum := rfl
@[simp] theorem State.latchFinal_outPos (b : Nat) : (s.latchFinal b).outPos = s.outPos := rfl
@[simp] theorem State.latchFinal_mem (b : Nat) : (s.latchFinal b).mem = s.mem := rfl
@[simp] theorem State.latchFinal_plat (b : Nat) : (s.latchFinal b).plat = s.plat := rfl
@[simp] theorem State.latchFinal_host (b : Nat) : (s.latchFinal b).host = s.host := rfl
@[simp] theorem State.latchFinal_free (b : Nat) : (s.latchFinal b).free = s.free := rfl

/-! ## `State.withLength` -/

@[simp] theorem State.withLength_reg (len : Nat) : (s.withLength len).reg = s.reg := rfl
@[simp] theorem State.withLength_seq (len : Nat) : (s.withLength len).seq = .busy .readDist := rfl
@[simp] theorem State.withLength_run (len : Nat) : (s.withLength len).run = s.run := rfl
@[simp] theorem State.withLength_dec (len : Nat) : (s.withLength len).dec = { s.dec with length := len } := rfl
@[simp] theorem State.withLength_enc (len : Nat) : (s.withLength len).enc = s.enc := rfl
@[simp] theorem State.withLength_sum (len : Nat) : (s.withLength len).sum = s.sum := rfl
@[simp] theorem State.withLength_outPos (len : Nat) : (s.withLength len).outPos = s.outPos := rfl
@[simp] theorem State.withLength_mem (len : Nat) : (s.withLength len).mem = s.mem := rfl
@[simp] theorem State.withLength_plat (len : Nat) : (s.withLength len).plat = s.plat := rfl
@[simp] theorem State.withLength_host (len : Nat) : (s.withLength len).host = s.host := rfl
@[simp] theorem State.withLength_free (len : Nat) : (s.withLength len).free = s.free := rfl

/-! ## `State.pushWidths` -/

@[simp] theorem State.pushWidths_reg (ws : List Nat) : (s.pushWidths ws).reg = s.reg := rfl
@[simp] theorem State.pushWidths_seq (ws : List Nat) : (s.pushWidths ws).seq = s.seq := rfl
@[simp] theorem State.pushWidths_run (ws : List Nat) : (s.pushWidths ws).run = s.run := rfl
@[simp] theorem State.pushWidths_dec (ws : List Nat) : (s.pushWidths ws).dec = { s.dec with widths := s.dec.widths ++ ws } :=
  rfl
@[simp] theorem State.pushWidths_enc (ws : List Nat) : (s.pushWidths ws).enc = s.enc := rfl
@[simp] theorem State.pushWidths_sum (ws : List Nat) : (s.pushWidths ws).sum = s.sum := rfl
@[simp] theorem State.pushWidths_outPos (ws : List Nat) : (s.pushWidths ws).outPos = s.outPos := rfl
@[simp] theorem State.pushWidths_mem (ws : List Nat) : (s.pushWidths ws).mem = s.mem := rfl
@[simp] theorem State.pushWidths_plat (ws : List Nat) : (s.pushWidths ws).plat = s.plat := rfl
@[simp] theorem State.pushWidths_host (ws : List Nat) : (s.pushWidths ws).host = s.host := rfl
@[simp] theorem State.pushWidths_free (ws : List Nat) : (s.pushWidths ws).free = s.free := rfl

/-! ## `State.withDecodeTables` -/

@[simp] theorem State.withDecodeTables_reg (lit dist : DecTable) : (s.withDecodeTables lit dist).reg = s.reg := rfl
@[simp] theorem State.withDecodeTables_seq (lit dist : DecTable) : (s.withDecodeTables lit dist).seq = .busy .readSym :=
  rfl
@[simp] theorem State.withDecodeTables_run (lit dist : DecTable) : (s.withDecodeTables lit dist).run = s.run := rfl
@[simp] theorem State.withDecodeTables_dec (lit dist : DecTable) : (s.withDecodeTables lit dist).dec = { s.dec with litTable := lit, distTable := dist } :=
  rfl
@[simp] theorem State.withDecodeTables_enc (lit dist : DecTable) : (s.withDecodeTables lit dist).enc = s.enc := rfl
@[simp] theorem State.withDecodeTables_sum (lit dist : DecTable) : (s.withDecodeTables lit dist).sum = s.sum := rfl
@[simp] theorem State.withDecodeTables_outPos (lit dist : DecTable) : (s.withDecodeTables lit dist).outPos = s.outPos :=
  rfl
@[simp] theorem State.withDecodeTables_mem (lit dist : DecTable) : (s.withDecodeTables lit dist).mem = s.mem := rfl
@[simp] theorem State.withDecodeTables_plat (lit dist : DecTable) : (s.withDecodeTables lit dist).plat = s.plat := rfl
@[simp] theorem State.withDecodeTables_host (lit dist : DecTable) : (s.withDecodeTables lit dist).host = s.host := rfl
@[simp] theorem State.withDecodeTables_free (lit dist : DecTable) : (s.withDecodeTables lit dist).free = s.free := rfl

/-! ## `State.beginWidths` -/

@[simp] theorem State.beginWidths_reg (hlit hdist : Nat) (ws : List Nat) : (s.beginWidths hlit hdist ws).reg = s.reg :=
  rfl
@[simp] theorem State.beginWidths_seq (hlit hdist : Nat) (ws : List Nat) : (s.beginWidths hlit hdist ws).seq = .busy .readCodeLen :=
  rfl
@[simp] theorem State.beginWidths_run (hlit hdist : Nat) (ws : List Nat) : (s.beginWidths hlit hdist ws).run = s.run :=
  rfl
@[simp] theorem State.beginWidths_enc (hlit hdist : Nat) (ws : List Nat) : (s.beginWidths hlit hdist ws).enc = s.enc :=
  rfl
@[simp] theorem State.beginWidths_sum (hlit hdist : Nat) (ws : List Nat) : (s.beginWidths hlit hdist ws).sum = s.sum :=
  rfl
@[simp] theorem State.beginWidths_outPos (hlit hdist : Nat) (ws : List Nat) : (s.beginWidths hlit hdist ws).outPos = s.outPos :=
  rfl
@[simp] theorem State.beginWidths_mem (hlit hdist : Nat) (ws : List Nat) : (s.beginWidths hlit hdist ws).mem = s.mem :=
  rfl
@[simp] theorem State.beginWidths_plat (hlit hdist : Nat) (ws : List Nat) : (s.beginWidths hlit hdist ws).plat = s.plat :=
  rfl
@[simp] theorem State.beginWidths_host (hlit hdist : Nat) (ws : List Nat) : (s.beginWidths hlit hdist ws).host = s.host :=
  rfl
@[simp] theorem State.beginWidths_free (hlit hdist : Nat) (ws : List Nat) : (s.beginWidths hlit hdist ws).free = s.free :=
  rfl

/-! ## `State.endWidths` -/

@[simp] theorem State.endWidths_reg : (s.endWidths).reg = s.reg := rfl
@[simp] theorem State.endWidths_seq : (s.endWidths).seq = .busy .readSym := rfl
@[simp] theorem State.endWidths_run : (s.endWidths).run = s.run := rfl
@[simp] theorem State.endWidths_enc : (s.endWidths).enc = s.enc := rfl
@[simp] theorem State.endWidths_sum : (s.endWidths).sum = s.sum := rfl
@[simp] theorem State.endWidths_outPos : (s.endWidths).outPos = s.outPos := rfl
@[simp] theorem State.endWidths_mem : (s.endWidths).mem = s.mem := rfl
@[simp] theorem State.endWidths_plat : (s.endWidths).plat = s.plat := rfl
@[simp] theorem State.endWidths_host : (s.endWidths).host = s.host := rfl
@[simp] theorem State.endWidths_free : (s.endWidths).free = s.free := rfl

/-! ## `State.gzNext` -/

@[simp] theorem State.gzNext_reg (left : Byte) : (s.gzNext left).reg = s.reg := rfl
@[simp] theorem State.gzNext_run (left : Byte) : (s.gzNext left).run = s.run := rfl
@[simp] theorem State.gzNext_dec (left : Byte) : (s.gzNext left).dec = { s.dec with gzFlags := left } := rfl
@[simp] theorem State.gzNext_enc (left : Byte) : (s.gzNext left).enc = s.enc := rfl
@[simp] theorem State.gzNext_sum (left : Byte) : (s.gzNext left).sum = s.sum := rfl
@[simp] theorem State.gzNext_outPos (left : Byte) : (s.gzNext left).outPos = s.outPos := rfl
@[simp] theorem State.gzNext_mem (left : Byte) : (s.gzNext left).mem = s.mem := rfl
@[simp] theorem State.gzNext_plat (left : Byte) : (s.gzNext left).plat = s.plat := rfl
@[simp] theorem State.gzNext_host (left : Byte) : (s.gzNext left).host = s.host := rfl
@[simp] theorem State.gzNext_free (left : Byte) : (s.gzNext left).free = s.free := rfl

/-! ## `State.gzFieldDone` -/

@[simp] theorem State.gzFieldDone_reg (bit : Byte) (p : Nat) : (s.gzFieldDone bit p).reg = s.reg := rfl
@[simp] theorem State.gzFieldDone_run (bit : Byte) (p : Nat) : (s.gzFieldDone bit p).run = s.run := rfl
@[simp] theorem State.gzFieldDone_dec (bit : Byte) (p : Nat) : (s.gzFieldDone bit p).dec = { s.dec with inBit := 8 * p, gzFlags := s.dec.gzFlags &&& ~~~bit } :=
  rfl
@[simp] theorem State.gzFieldDone_enc (bit : Byte) (p : Nat) : (s.gzFieldDone bit p).enc = s.enc := rfl
@[simp] theorem State.gzFieldDone_sum (bit : Byte) (p : Nat) : (s.gzFieldDone bit p).sum = s.sum := rfl
@[simp] theorem State.gzFieldDone_outPos (bit : Byte) (p : Nat) : (s.gzFieldDone bit p).outPos = s.outPos := rfl
@[simp] theorem State.gzFieldDone_mem (bit : Byte) (p : Nat) : (s.gzFieldDone bit p).mem = s.mem := rfl
@[simp] theorem State.gzFieldDone_plat (bit : Byte) (p : Nat) : (s.gzFieldDone bit p).plat = s.plat := rfl
@[simp] theorem State.gzFieldDone_host (bit : Byte) (p : Nat) : (s.gzFieldDone bit p).host = s.host := rfl
@[simp] theorem State.gzFieldDone_free (bit : Byte) (p : Nat) : (s.gzFieldDone bit p).free = s.free := rfl

/-! ## `State.setWriter` -/

@[simp] theorem State.setWriter_reg (tag : Word) (n : Nat) : (s.setWriter tag n).reg = s.reg := rfl
@[simp] theorem State.setWriter_seq (tag : Word) (n : Nat) : (s.setWriter tag n).seq = s.seq := rfl
@[simp] theorem State.setWriter_run (tag : Word) (n : Nat) : (s.setWriter tag n).run = s.run := rfl
@[simp] theorem State.setWriter_dec (tag : Word) (n : Nat) : (s.setWriter tag n).dec = s.dec := rfl
@[simp] theorem State.setWriter_enc (tag : Word) (n : Nat) : (s.setWriter tag n).enc = { s.enc with tag := tag, bitsWritten := n } :=
  rfl
@[simp] theorem State.setWriter_sum (tag : Word) (n : Nat) : (s.setWriter tag n).sum = s.sum := rfl
@[simp] theorem State.setWriter_outPos (tag : Word) (n : Nat) : (s.setWriter tag n).outPos = s.outPos := rfl
@[simp] theorem State.setWriter_mem (tag : Word) (n : Nat) : (s.setWriter tag n).mem = s.mem := rfl
@[simp] theorem State.setWriter_plat (tag : Word) (n : Nat) : (s.setWriter tag n).plat = s.plat := rfl
@[simp] theorem State.setWriter_host (tag : Word) (n : Nat) : (s.setWriter tag n).host = s.host := rfl
@[simp] theorem State.setWriter_free (tag : Word) (n : Nat) : (s.setWriter tag n).free = s.free := rfl

/-! ## `State.popSym` -/

@[simp] theorem State.popSym_reg : (s.popSym).reg = s.reg := rfl
@[simp] theorem State.popSym_seq : (s.popSym).seq = s.seq := rfl
@[simp] theorem State.popSym_run : (s.popSym).run = s.run := rfl
@[simp] theorem State.popSym_dec : (s.popSym).dec = s.dec := rfl
@[simp] theorem State.popSym_enc : (s.popSym).enc = { s.enc with syms := s.enc.syms.tail } := rfl
@[simp] theorem State.popSym_sum : (s.popSym).sum = s.sum := rfl
@[simp] theorem State.popSym_outPos : (s.popSym).outPos = s.outPos := rfl
@[simp] theorem State.popSym_mem : (s.popSym).mem = s.mem := rfl
@[simp] theorem State.popSym_plat : (s.popSym).plat = s.plat := rfl
@[simp] theorem State.popSym_host : (s.popSym).host = s.host := rfl
@[simp] theorem State.popSym_free : (s.popSym).free = s.free := rfl

/-! ## `State.popCl` -/

@[simp] theorem State.popCl_reg : (s.popCl).reg = s.reg := rfl
@[simp] theorem State.popCl_run : (s.popCl).run = s.run := rfl
@[simp] theorem State.popCl_dec : (s.popCl).dec = s.dec := rfl
@[simp] theorem State.popCl_enc : (s.popCl).enc = { s.enc with clSeq := s.enc.clSeq.tail } := rfl
@[simp] theorem State.popCl_sum : (s.popCl).sum = s.sum := rfl
@[simp] theorem State.popCl_outPos : (s.popCl).outPos = s.outPos := rfl
@[simp] theorem State.popCl_mem : (s.popCl).mem = s.mem := rfl
@[simp] theorem State.popCl_plat : (s.popCl).plat = s.plat := rfl
@[simp] theorem State.popCl_host : (s.popCl).host = s.host := rfl
@[simp] theorem State.popCl_free : (s.popCl).free = s.free := rfl

/-! ## `State.withFixedEncodeTables` -/

@[simp] theorem State.withFixedEncodeTables_reg : (s.withFixedEncodeTables).reg = s.reg := rfl
@[simp] theorem State.withFixedEncodeTables_seq : (s.withFixedEncodeTables).seq = .busy .writeSym := rfl
@[simp] theorem State.withFixedEncodeTables_run : (s.withFixedEncodeTables).run = s.run := rfl
@[simp] theorem State.withFixedEncodeTables_dec : (s.withFixedEncodeTables).dec = s.dec := rfl
@[simp] theorem State.withFixedEncodeTables_sum : (s.withFixedEncodeTables).sum = s.sum := rfl
@[simp] theorem State.withFixedEncodeTables_outPos : (s.withFixedEncodeTables).outPos = s.outPos := rfl
@[simp] theorem State.withFixedEncodeTables_mem : (s.withFixedEncodeTables).mem = s.mem := rfl
@[simp] theorem State.withFixedEncodeTables_plat : (s.withFixedEncodeTables).plat = s.plat := rfl
@[simp] theorem State.withFixedEncodeTables_host : (s.withFixedEncodeTables).host = s.host := rfl
@[simp] theorem State.withFixedEncodeTables_free : (s.withFixedEncodeTables).free = s.free := rfl

/-! ## `State.takeChunk` -/

@[simp] theorem State.takeChunk_reg (bs : List Byte) : (s.takeChunk bs).reg = s.reg := rfl
@[simp] theorem State.takeChunk_run (bs : List Byte) : (s.takeChunk bs).run = s.run := rfl
@[simp] theorem State.takeChunk_dec (bs : List Byte) : (s.takeChunk bs).dec = s.dec := rfl
@[simp] theorem State.takeChunk_sum (bs : List Byte) : (s.takeChunk bs).sum = s.sum.addAll bs := rfl
@[simp] theorem State.takeChunk_outPos (bs : List Byte) : (s.takeChunk bs).outPos = s.outPos := rfl
@[simp] theorem State.takeChunk_mem (bs : List Byte) : (s.takeChunk bs).mem = s.mem := rfl
@[simp] theorem State.takeChunk_plat (bs : List Byte) : (s.takeChunk bs).plat = s.plat := rfl
@[simp] theorem State.takeChunk_host (bs : List Byte) : (s.takeChunk bs).host = s.host := rfl
@[simp] theorem State.takeChunk_free (bs : List Byte) : (s.takeChunk bs).free = s.free := rfl

/-! ## `buildTables` -/

@[simp] theorem buildTables_reg : (buildTables s).reg = s.reg := rfl
@[simp] theorem buildTables_seq : (buildTables s).seq = .busy .writeBlock := rfl
@[simp] theorem buildTables_run : (buildTables s).run = s.run := rfl
@[simp] theorem buildTables_dec : (buildTables s).dec = s.dec := rfl
@[simp] theorem buildTables_sum : (buildTables s).sum = s.sum := rfl
@[simp] theorem buildTables_outPos : (buildTables s).outPos = s.outPos := rfl
@[simp] theorem buildTables_mem : (buildTables s).mem = s.mem := rfl
@[simp] theorem buildTables_plat : (buildTables s).plat = s.plat := rfl
@[simp] theorem buildTables_host : (buildTables s).host = s.host := rfl
@[simp] theorem buildTables_free : (buildTables s).free = s.free := rfl

/-! ## `State.sumOver` -/

@[simp] theorem State.sumOver_reg (chain : Bool) (bs : List Byte) : (s.sumOver chain bs).reg = s.reg := rfl
@[simp] theorem State.sumOver_seq (chain : Bool) (bs : List Byte) : (s.sumOver chain bs).seq = s.seq := rfl
@[simp] theorem State.sumOver_run (chain : Bool) (bs : List Byte) : (s.sumOver chain bs).run = s.run := rfl
@[simp] theorem State.sumOver_dec (chain : Bool) (bs : List Byte) : (s.sumOver chain bs).dec = s.dec := rfl
@[simp] theorem State.sumOver_enc (chain : Bool) (bs : List Byte) : (s.sumOver chain bs).enc = s.enc := rfl
@[simp] theorem State.sumOver_sum (chain : Bool) (bs : List Byte) : (s.sumOver chain bs).sum = (Sums.chained chain s.reg.checksum).addAll bs :=
  rfl
@[simp] theorem State.sumOver_outPos (chain : Bool) (bs : List Byte) : (s.sumOver chain bs).outPos = s.outPos := rfl
@[simp] theorem State.sumOver_mem (chain : Bool) (bs : List Byte) : (s.sumOver chain bs).mem = s.mem := rfl
@[simp] theorem State.sumOver_plat (chain : Bool) (bs : List Byte) : (s.sumOver chain bs).plat = s.plat := rfl
@[simp] theorem State.sumOver_host (chain : Bool) (bs : List Byte) : (s.sumOver chain bs).host = s.host := rfl
@[simp] theorem State.sumOver_free (chain : Bool) (bs : List Byte) : (s.sumOver chain bs).free = s.free := rfl

/-! ## `State.start` -/

@[simp] theorem State.start_reg : (s.start).reg = { s.reg with
      done := false, err := false, errCode := 0#8, outLen := 0#32, errExpected := 0#32, errFound := 0#32 } :=
  rfl
@[simp] theorem State.start_seq : (s.start).seq = .busy .dispatch := rfl
@[simp] theorem State.start_run : (s.start).run = s.run := rfl
@[simp] theorem State.start_dec : (s.start).dec = s.dec := rfl
@[simp] theorem State.start_enc : (s.start).enc = s.enc := rfl
@[simp] theorem State.start_sum : (s.start).sum = s.sum := rfl
@[simp] theorem State.start_outPos : (s.start).outPos = s.outPos := rfl
@[simp] theorem State.start_mem : (s.start).mem = s.mem := rfl
@[simp] theorem State.start_plat : (s.start).plat = s.plat := rfl
@[simp] theorem State.start_host : (s.start).host = s.host := rfl
@[simp] theorem State.start_free : (s.start).free = s.free := rfl

/-! ## `State.freshDatapath` -/

@[simp] theorem State.freshDatapath_reg (r : Run) : (s.freshDatapath r).reg = s.reg := rfl
@[simp] theorem State.freshDatapath_seq (r : Run) : (s.freshDatapath r).seq = s.seq := rfl
@[simp] theorem State.freshDatapath_run (r : Run) : (s.freshDatapath r).run = r := rfl
@[simp] theorem State.freshDatapath_dec (r : Run) : (s.freshDatapath r).dec = Decoder.fresh := rfl
@[simp] theorem State.freshDatapath_enc (r : Run) : (s.freshDatapath r).enc = Encoder.fresh := rfl
@[simp] theorem State.freshDatapath_sum (r : Run) : (s.freshDatapath r).sum = Sums.fresh := rfl
@[simp] theorem State.freshDatapath_outPos (r : Run) : (s.freshDatapath r).outPos = 0 := rfl
@[simp] theorem State.freshDatapath_mem (r : Run) : (s.freshDatapath r).mem = s.mem := rfl
@[simp] theorem State.freshDatapath_plat (r : Run) : (s.freshDatapath r).plat = s.plat := rfl
@[simp] theorem State.freshDatapath_host (r : Run) : (s.freshDatapath r).host = s.host := rfl
@[simp] theorem State.freshDatapath_free (r : Run) : (s.freshDatapath r).free = s.free := rfl

/-! ## `State.finish` -/

@[simp] theorem State.finish_seq : (s.finish).seq = .idle := rfl
@[simp] theorem State.finish_run : (s.finish).run = s.run := rfl
@[simp] theorem State.finish_dec : (s.finish).dec = s.dec := rfl
@[simp] theorem State.finish_enc : (s.finish).enc = s.enc := rfl
@[simp] theorem State.finish_sum : (s.finish).sum = s.sum := rfl
@[simp] theorem State.finish_outPos : (s.finish).outPos = s.outPos := rfl
@[simp] theorem State.finish_mem : (s.finish).mem = s.mem := rfl
@[simp] theorem State.finish_plat : (s.finish).plat = s.plat := rfl
@[simp] theorem State.finish_host : (s.finish).host = s.host := rfl
@[simp] theorem State.finish_free : (s.finish).free = s.free := rfl

/-! ## `State.raise` -/

@[simp] theorem State.raise_reg (e : CodecError) : (s.raise e).reg = { s.reg with
      outLen := 0#32, errCode := e.code, errExpected := e.expected, errFound := e.found, err := true } :=
  rfl
@[simp] theorem State.raise_seq (e : CodecError) : (s.raise e).seq = .idle := rfl
@[simp] theorem State.raise_run (e : CodecError) : (s.raise e).run = s.run := rfl
@[simp] theorem State.raise_dec (e : CodecError) : (s.raise e).dec = s.dec := rfl
@[simp] theorem State.raise_enc (e : CodecError) : (s.raise e).enc = s.enc := rfl
@[simp] theorem State.raise_sum (e : CodecError) : (s.raise e).sum = s.sum := rfl
@[simp] theorem State.raise_outPos (e : CodecError) : (s.raise e).outPos = s.outPos := rfl
@[simp] theorem State.raise_mem (e : CodecError) : (s.raise e).mem = if s.losesOut e then s.lostMem else s.mem := rfl
@[simp] theorem State.raise_plat (e : CodecError) : (s.raise e).plat = s.plat := rfl
@[simp] theorem State.raise_host (e : CodecError) : (s.raise e).host = s.host := rfl
@[simp] theorem State.raise_free (e : CodecError) : (s.raise e).free = if s.losesOut e then s.free + 1 else s.free :=
  rfl

/-! ## `resetInput` -/

@[simp] theorem resetInput_reg : (resetInput s).reg = Regs.reset := rfl
@[simp] theorem resetInput_seq : (resetInput s).seq = .idle := rfl
@[simp] theorem resetInput_run : (resetInput s).run = s.run := rfl
@[simp] theorem resetInput_dec : (resetInput s).dec = s.dec := rfl
@[simp] theorem resetInput_enc : (resetInput s).enc = s.enc := rfl
@[simp] theorem resetInput_sum : (resetInput s).sum = s.sum := rfl
@[simp] theorem resetInput_outPos : (resetInput s).outPos = s.outPos := rfl
@[simp] theorem resetInput_mem : (resetInput s).mem = if s.cutShort then s.lostMem else s.mem := rfl
@[simp] theorem resetInput_plat : (resetInput s).plat = s.plat := rfl
@[simp] theorem resetInput_host : (resetInput s).host = s.host := rfl
@[simp] theorem resetInput_free : (resetInput s).free = if s.cutShort then s.free + 1 else s.free := rfl

/-! ## `State.withReadData` -/

@[simp] theorem State.withReadData_reg (v : Word) : (s.withReadData v).reg = s.reg := rfl
@[simp] theorem State.withReadData_seq (v : Word) : (s.withReadData v).seq = s.seq := rfl
@[simp] theorem State.withReadData_run (v : Word) : (s.withReadData v).run = s.run := rfl
@[simp] theorem State.withReadData_dec (v : Word) : (s.withReadData v).dec = s.dec := rfl
@[simp] theorem State.withReadData_enc (v : Word) : (s.withReadData v).enc = s.enc := rfl
@[simp] theorem State.withReadData_sum (v : Word) : (s.withReadData v).sum = s.sum := rfl
@[simp] theorem State.withReadData_outPos (v : Word) : (s.withReadData v).outPos = s.outPos := rfl
@[simp] theorem State.withReadData_mem (v : Word) : (s.withReadData v).mem = s.mem := rfl
@[simp] theorem State.withReadData_plat (v : Word) : (s.withReadData v).plat = s.plat := rfl
@[simp] theorem State.withReadData_host (v : Word) : (s.withReadData v).host = { s.host with readData := v } := rfl
@[simp] theorem State.withReadData_free (v : Word) : (s.withReadData v).free = s.free := rfl

/-! ## `State.readAny` -/

@[simp] theorem State.readAny_reg (f : Word → Word) : (s.readAny f).reg = s.reg := rfl
@[simp] theorem State.readAny_seq (f : Word → Word) : (s.readAny f).seq = s.seq := rfl
@[simp] theorem State.readAny_run (f : Word → Word) : (s.readAny f).run = s.run := rfl
@[simp] theorem State.readAny_dec (f : Word → Word) : (s.readAny f).dec = s.dec := rfl
@[simp] theorem State.readAny_enc (f : Word → Word) : (s.readAny f).enc = s.enc := rfl
@[simp] theorem State.readAny_sum (f : Word → Word) : (s.readAny f).sum = s.sum := rfl
@[simp] theorem State.readAny_outPos (f : Word → Word) : (s.readAny f).outPos = s.outPos := rfl
@[simp] theorem State.readAny_mem (f : Word → Word) : (s.readAny f).mem = s.mem := rfl
@[simp] theorem State.readAny_plat (f : Word → Word) : (s.readAny f).plat = s.plat := rfl
@[simp] theorem State.readAny_host (f : Word → Word) : (s.readAny f).host = { s.host with readData := f (Config.anyWord s.free) } :=
  rfl
@[simp] theorem State.readAny_free (f : Word → Word) : (s.readAny f).free = s.free + 1 := rfl

/-! ## `State.withMoves` -/

@[simp] theorem State.withMoves_reg (ms : List HostMove) : (s.withMoves ms).reg = s.reg := rfl
@[simp] theorem State.withMoves_seq (ms : List HostMove) : (s.withMoves ms).seq = s.seq := rfl
@[simp] theorem State.withMoves_run (ms : List HostMove) : (s.withMoves ms).run = s.run := rfl
@[simp] theorem State.withMoves_dec (ms : List HostMove) : (s.withMoves ms).dec = s.dec := rfl
@[simp] theorem State.withMoves_enc (ms : List HostMove) : (s.withMoves ms).enc = s.enc := rfl
@[simp] theorem State.withMoves_sum (ms : List HostMove) : (s.withMoves ms).sum = s.sum := rfl
@[simp] theorem State.withMoves_outPos (ms : List HostMove) : (s.withMoves ms).outPos = s.outPos := rfl
@[simp] theorem State.withMoves_mem (ms : List HostMove) : (s.withMoves ms).mem = s.mem := rfl
@[simp] theorem State.withMoves_plat (ms : List HostMove) : (s.withMoves ms).plat = s.plat := rfl
@[simp] theorem State.withMoves_host (ms : List HostMove) : (s.withMoves ms).host = { s.host with moves := ms } := rfl
@[simp] theorem State.withMoves_free (ms : List HostMove) : (s.withMoves ms).free = s.free := rfl

/-! ## The results `finish` leaves (R681) -/

@[simp] theorem State.finish_reg_irqEn : s.finish.reg.irqEn = s.reg.irqEn := rfl
@[simp] theorem State.finish_reg_cmd : s.finish.reg.cmd = s.reg.cmd := rfl
@[simp] theorem State.finish_reg_window : s.finish.reg.window = s.reg.window := rfl
@[simp] theorem State.finish_reg_srcAddr : s.finish.reg.srcAddr = s.reg.srcAddr := rfl
@[simp] theorem State.finish_reg_srcLen : s.finish.reg.srcLen = s.reg.srcLen := rfl
@[simp] theorem State.finish_reg_dstAddr : s.finish.reg.dstAddr = s.reg.dstAddr := rfl
@[simp] theorem State.finish_reg_dstCap : s.finish.reg.dstCap = s.reg.dstCap := rfl
@[simp] theorem State.finish_reg_err : s.finish.reg.err = s.reg.err := rfl
@[simp] theorem State.finish_reg_errCode : s.finish.reg.errCode = s.reg.errCode := rfl
@[simp] theorem State.finish_reg_errExpected : s.finish.reg.errExpected = s.reg.errExpected := rfl
@[simp] theorem State.finish_reg_errFound : s.finish.reg.errFound = s.reg.errFound := rfl
@[simp] theorem State.finish_reg_done : s.finish.reg.done = true := rfl
@[simp] theorem State.finish_reg_checksum : s.finish.reg.checksum = s.finalChecksum := rfl
@[simp] theorem State.finish_reg_outLen :
    s.finish.reg.outLen = if s.run.op.hasOutput then BitVec.ofNat 32 s.outPos else 0#32 := rfl

/-! ## The observations of `Ops.lean` and `Safety.lean` under the updates of the bit cursors -/

@[simp] theorem State.setInBit_setInBit (a b : Nat) : (s.setInBit a).setInBit b = s.setInBit b := rfl
@[simp] theorem State.setInBit_self : s.setInBit s.dec.inBit = s := rfl
@[simp] theorem State.setInBit_inBit (n : Nat) : (s.setInBit n).dec.inBit = n := rfl
@[simp] theorem State.setInBit_srcByte (n k : Nat) : (s.setInBit n).srcByte k = s.srcByte k := rfl
@[simp] theorem State.setInBit_streamBit (n k : Nat) : (s.setInBit n).streamBit k = s.streamBit k := rfl
@[simp] theorem State.setInBit_streamBits (n k m : Nat) :
    (s.setInBit n).streamBits k m = s.streamBits k m := rfl
@[simp] theorem State.setWriter_dstByte (t : Word) (n k : Nat) : (s.setWriter t n).dstByte k = s.dstByte k := rfl
@[simp] theorem State.setWriter_setWriter (t t' : Word) (n n' : Nat) :
    (s.setWriter t n).setWriter t' n' = s.setWriter t' n' := rfl
@[simp] theorem State.goto_busy (p : Phase) : (s.goto p).busy = true := rfl
@[simp] theorem State.raise_busy (e : CodecError) : (s.raise e).busy = false := rfl
@[simp] theorem State.finish_busy : s.finish.busy = false := rfl

end Sys2Proof.Machine
end

