-- ==== Sys2Proof/Laws/Memory.lean ====
section
/-! SUPPORT. The laws of sorted lists and of host memory: reading after a write, the canonical form kept, and what losing a
stretch leaves alone. -/

namespace Sys2Proof.Machine

/-! ## Lists of key and value pairs -/

section Assoc
variable {β : Type}

@[simp] theorem assocGet_set_same (l : List (Nat × β)) (a : Nat) (v : β) : assocGet (assocSet l a v) a = some v := by
  induction l with
  | nil => simp [assocSet, assocGet]
  | cons kv rest ih =>
    obtain ⟨k, w⟩ := kv
    unfold assocSet
    split
    · simp [assocGet]
    · split
      · simp [assocGet]
      · rename_i h _
        simp [assocGet, h, ih]

theorem assocGet_set_other (l : List (Nat × β)) {a b : Nat} (v : β) (h : b ≠ a) :
    assocGet (assocSet l a v) b = assocGet l b := by
  induction l with
  | nil => simp [assocSet, assocGet, h]
  | cons kv rest ih =>
    obtain ⟨k, w⟩ := kv
    unfold assocSet
    split
    · subst_vars; simp [assocGet, h]
    · split
      · simp [assocGet, h]
      · simp [assocGet, ih]

/-- A list whose head is `kv` rises when its tail does and every key of the tail is above the head's. -/
theorem assocRising_cons (kv : Nat × β) (l : List (Nat × β)) :
    assocRising (kv :: l) = true ↔ assocRising l = true ∧ ∀ x ∈ l, kv.1 < x.1 := by
  induction l generalizing kv with
  | nil => simp [assocRising]
  | cons y rest ih =>
    simp only [assocRising, Bool.and_eq_true, decide_eq_true_eq]
    constructor
    · rintro ⟨h, hr⟩
      refine ⟨hr, fun x hx => ?_⟩
      rcases List.mem_cons.1 hx with rfl | hx
      · exact h
      · exact Nat.lt_trans h (((ih y).1 hr).2 x hx)
    · rintro ⟨hr, h⟩
      exact ⟨h y (List.mem_cons_self ..), hr⟩

theorem mem_assocSet {l : List (Nat × β)} {a : Nat} {v : β} {x : Nat × β} (h : x ∈ assocSet l a v) :
    x = (a, v) ∨ x ∈ l := by
  induction l with
  | nil => simpa [assocSet] using h
  | cons kv rest ih =>
    obtain ⟨k, w⟩ := kv
    unfold assocSet at h
    split at h
    · rcases List.mem_cons.1 h with h | h
      · exact .inl h
      · exact .inr (List.mem_cons_of_mem _ h)
    · split at h
      · rcases List.mem_cons.1 h with h | h
        · exact .inl h
        · exact .inr h
      · rcases List.mem_cons.1 h with h | h
        · exact .inr (h ▸ List.mem_cons_self ..)
        · exact (ih h).imp_right (List.mem_cons_of_mem _)

theorem assocRising_set {l : List (Nat × β)} (a : Nat) (v : β) (h : assocRising l = true) :
    assocRising (assocSet l a v) = true := by
  induction l with
  | nil => simp [assocSet, assocRising]
  | cons kv rest ih =>
    obtain ⟨k, w⟩ := kv
    have hc := (assocRising_cons (k, w) rest).1 h
    unfold assocSet
    split
    · subst_vars
      exact (assocRising_cons _ _).2 hc
    · split
      · refine (assocRising_cons _ _).2 ⟨h, fun x hx => ?_⟩
        rcases List.mem_cons.1 hx with rfl | hx
        · assumption
        · exact Nat.lt_trans ‹a < k› (hc.2 x hx)
      · refine (assocRising_cons _ _).2 ⟨ih hc.1, fun x hx => ?_⟩
        rcases mem_assocSet hx with rfl | hx
        · show k < a; omega
        · exact hc.2 x hx

theorem assocRising_filter {l : List (Nat × β)} (p : Nat × β → Bool) (h : assocRising l = true) :
    assocRising (l.filter p) = true := by
  induction l with
  | nil => simp [assocRising]
  | cons kv rest ih =>
    have hc := (assocRising_cons kv rest).1 h
    rw [List.filter_cons]
    split
    · exact (assocRising_cons _ _).2 ⟨ih hc.1, fun x hx => hc.2 x (List.mem_filter.1 hx).1⟩
    · exact ih hc.1

theorem assocGet_drop (l : List (Nat × β)) (lo hi a : Nat) :
    assocGet (assocDrop l lo hi) a = if lo ≤ a ∧ a < hi then none else assocGet l a := by
  induction l with
  | nil => simp [assocDrop, assocGet]
  | cons kv rest ih =>
    obtain ⟨k, v⟩ := kv
    unfold assocDrop at ih ⊢
    rw [List.filter_cons]
    by_cases hk : a = k
    · subst hk
      by_cases hr : lo ≤ a ∧ a < hi
      · simp [hr] at ih ⊢; exact ih
      · have : (!(decide (lo ≤ a) && decide (a < hi))) = true := by simp; omega
        simp [this, assocGet, hr]
    · split <;> simp only [assocGet, hk, if_false] <;> exact ih

end Assoc

/-! ## Host memory -/

@[simp] theorem Memory.read_write_same (m : Memory) (a : Nat) (b : Byte) : (m.write a b).read a = b := by
  simp [Memory.read, Memory.write]

theorem Memory.read_write_other (m : Memory) {a x : Nat} (b : Byte) (h : x ≠ a) :
    (m.write a b).read x = m.read x := by
  simp [Memory.read, Memory.write, Memory.epochAt, assocGet_set_other _ _ h]

/-- A store keeps the canonical form (R105). -/
theorem Memory.wf_write {m : Memory} {a : Nat} (b : Byte) (h : m.wf = true) (ha : a < Config.memorySize) :
    (m.write a b).wf = true := by
  simp only [Memory.wf, Bool.and_eq_true, List.all_eq_true, decide_eq_true_eq] at h ⊢
  refine ⟨assocRising_set a b h.1, fun x hx => ?_⟩
  rcases mem_assocSet hx with rfl | hx
  · exact ha
  · exact h.2 x hx

theorem Memory.wf_writeAll {m : Memory} {a : Nat} {bytes : List Byte} (h : m.wf = true)
    (ha : ∀ x ∈ List.range' a bytes.length, x < Config.memorySize) : (m.writeAll a bytes).wf = true := by
  induction bytes generalizing m a with
  | nil => exact h
  | cons b rest ih =>
    have hr : List.range' a (b :: rest).length = a :: List.range' (a + 1) rest.length := by
      simp [List.range'_succ]
    rw [hr] at ha
    exact ih (Memory.wf_write b h (ha a (List.mem_cons_self ..))) fun x hx => ha x (List.mem_cons_of_mem _ hx)

/-- Losing a stretch keeps the canonical form. -/
theorem Memory.wf_lose {m : Memory} (lo hi epoch : Nat) (h : m.wf = true) : (m.lose lo hi epoch).wf = true := by
  simp only [Memory.wf, Bool.and_eq_true, List.all_eq_true, decide_eq_true_eq] at h ⊢
  exact ⟨assocRising_filter _ h.1, fun x hx => h.2 x (List.mem_filter.1 hx).1⟩

/-- Losing a stretch leaves every address outside it as it was. -/
theorem Memory.read_lose_outside (m : Memory) {lo hi : Nat} (epoch : Nat) {a : Nat} (h : ¬(lo ≤ a ∧ a < hi)) :
    (m.lose lo hi epoch).read a = m.read a := by
  have hd : (decide (lo ≤ a) && decide (a < hi)) = false := by simpa using h
  simp [Memory.read, Memory.lose, Memory.epochAt, assocGet_drop, h, hd]

/-- A lost address reads as the free value of its epoch. -/
theorem Memory.read_lose_inside (m : Memory) {lo hi epoch a : Nat} (h : lo ≤ a ∧ a < hi) :
    (m.lose lo hi epoch).read a = Config.anyByte epoch a := by
  simp [Memory.read, Memory.lose, Memory.epochAt, assocGet_drop, h]

theorem Memory.read_writeAll_outside (m : Memory) (a : Nat) (bytes : List Byte) {x : Nat}
    (h : x < a ∨ a + bytes.length ≤ x) : (m.writeAll a bytes).read x = m.read x := by
  induction bytes generalizing m a with
  | nil => rfl
  | cons b rest ih =>
    simp only [List.length_cons] at h
    rw [Memory.writeAll, ih _ _ (by omega), Memory.read_write_other _ _ (by omega)]

theorem Memory.read_writeAll_inside (m : Memory) (a : Nat) (bytes : List Byte) {k : Nat} (h : k < bytes.length) :
    (m.writeAll a bytes).read (a + k) = bytes[k] := by
  induction bytes generalizing m a k with
  | nil => simp at h
  | cons b rest ih =>
    cases k with
    | zero =>
      rw [Memory.writeAll, Memory.read_writeAll_outside _ _ _ (by omega)]
      simp
    | succ k =>
      have := ih (m.write a b) (a + 1) (k := k) (by simpa using h)
      rw [Memory.writeAll, show a + (k + 1) = a + 1 + k by omega, this]
      rfl

/-! ## The two places that lose `OUT` -/

theorem State.lostMem_outside (s : State) {a : Nat} (h : s.inDst a = false) : s.lostMem.read a = s.mem.read a := by
  refine Memory.read_lose_outside _ _ ?_
  simpa [State.inDst] using h

/-- `raise` touches no byte outside `OUT` (R750, R751). -/
theorem State.raise_mem_outside (s : State) (e : CodecError) {a : Nat} (h : s.inDst a = false) :
    (s.raise e).mem.read a = s.mem.read a := by
  simp only [State.raise_mem]
  split
  · exact s.lostMem_outside h
  · rfl

theorem State.raise_mem_wf (s : State) (e : CodecError) (h : s.mem.wf = true) : (s.raise e).mem.wf = true := by
  simp only [State.raise_mem]
  split
  · exact Memory.wf_lose _ _ _ h
  · exact h

/-- Reset touches no byte outside `OUT` (R780). -/
theorem resetInput_mem_outside (s : State) {a : Nat} (h : s.inDst a = false) :
    (resetInput s).mem.read a = s.mem.read a := by
  simp only [resetInput_mem]
  split
  · exact s.lostMem_outside h
  · rfl

end Sys2Proof.Machine
end

