-- ==== Sys2Proof/Laws/Ops.lean ====
section
/-! SUPPORT. What each shared operation can answer: steps of the rules in sequence, memory reads, `Emit`, and the ends of a
command. Callers cite these and do not unfold the operations. -/

namespace Sys2Proof.Machine

/-! ## Steps in sequence -/

section Res
variable {α β : Type} {r : Res α} {k : α → State → Res β} {a : α} {b : β} {s t : State} {e : CodecError}

@[simp] theorem Res.andThen_ok : (Res.ok a s).andThen k = k a s := rfl
@[simp] theorem Res.andThen_raised : (Res.raised e s : Res α).andThen k = .raised e s := rfl
@[simp] theorem Res.andThen_fault (f : Fault) : (Res.fault f : Res α).andThen k = .fault f := rfl
@[simp] theorem Res.andThen_refused (q : Refusal) : (Res.refused q : Res α).andThen k = .refused q := rfl

theorem Res.andThen_eq_ok : r.andThen k = .ok b t ↔ ∃ a s, r = .ok a s ∧ k a s = .ok b t := by
  cases r with
  | ok a s => exact ⟨fun h => ⟨a, s, rfl, h⟩, by rintro ⟨_, _, ⟨⟩, h⟩; exact h⟩
  | _ => simp

theorem Res.andThen_eq_raised :
    r.andThen k = .raised e t ↔ r = .raised e t ∨ ∃ a s, r = .ok a s ∧ k a s = .raised e t := by
  cases r with
  | ok a s => exact ⟨fun h => .inr ⟨a, s, rfl, h⟩, by rintro (⟨⟨⟩⟩ | ⟨_, _, ⟨⟩, h⟩); exact h⟩
  | _ => simp

/-- A finished step answers a next state when the rules went through, or when they raised an error. -/
theorem Res.outcome_eq_next {r : Res Unit} :
    r.outcome = .next t ↔ r = .ok () t ∨ ∃ e s, r = .raised e s ∧ t = s.raise e := by
  cases r with
  | raised e s => exact ⟨fun h => .inr ⟨e, s, rfl, by cases h; rfl⟩, by rintro (⟨⟨⟩⟩ | ⟨_, _, ⟨⟩, rfl⟩); rfl⟩
  | _ => simp [Res.outcome]

@[simp] theorem Res.outcome_ok : (Res.ok () s).outcome = .next s := rfl
@[simp] theorem Res.outcome_raised : (Res.raised e s : Res Unit).outcome = .next (s.raise e) := rfl

/-- Every state in an answer, beside a value or beside an error, has a property. -/
def Res.All (P : State → Prop) : Res α → Prop
  | .ok _ s => P s
  | .raised _ s => P s
  | .fault _ => True
  | .refused _ => True

theorem Res.All.andThen {P Q : State → Prop} (h : r.All P) (hPQ : ∀ s, P s → Q s)
    (hk : ∀ a s, r = .ok a s → P s → (k a s).All Q) : (r.andThen k).All Q := by
  cases r with
  | ok a s => exact hk a s rfl h
  | raised e s => exact hPQ s h
  | fault f => trivial
  | refused q => trivial

theorem Res.All.imp {P Q : State → Prop} (h : r.All P) (hPQ : ∀ s, P s → Q s) : r.All Q := by
  cases r with
  | ok a s => exact hPQ s h
  | raised e s => exact hPQ s h
  | fault f => trivial
  | refused q => trivial

end Res

/-! ## Reading memory (R110) -/

section MemRead
variable {a n : Nat} {s t : State} {b : Byte} {bs : List Byte}

theorem memRead_backed (h : s.plat.busOk a = true) : memRead a s = .ok (s.mem.read a) s := by simp [memRead, h]

theorem memRead_unbacked (h : s.plat.busOk a = false) : memRead a s = .raised .busError s := by simp [memRead, h]

theorem memRead_eq_ok : memRead a s = .ok b t ↔ s.plat.busOk a = true ∧ b = s.mem.read a ∧ t = s := by
  unfold memRead
  split
  · rename_i h
    exact ⟨by rintro ⟨⟩; exact ⟨h, rfl, rfl⟩, by rintro ⟨_, rfl, rfl⟩; rfl⟩
  · simp_all

theorem memReadAll_backed (h : ∀ k, k < n → s.plat.busOk (a + k) = true) :
    memReadAll a n s = .ok ((List.range n).map fun k => s.mem.read (a + k)) s := by
  induction n generalizing a with
  | zero => rfl
  | succ n ih =>
    have h0 := h 0 (by omega)
    have hs := ih (a := a + 1) fun k hk => by
      have := h (k + 1) (by omega)
      rwa [show a + (k + 1) = a + 1 + k by omega] at this
    rw [memReadAll, memRead_backed (by simpa using h0), Res.andThen_ok, hs, Res.andThen_ok]
    simp [List.range_succ_eq_map, Function.comp_def, Nat.add_assoc, Nat.add_comm 1]

theorem memReadAll_eq_ok : memReadAll a n s = .ok bs t ↔
    (∀ k, k < n → s.plat.busOk (a + k) = true) ∧ bs = (List.range n).map (fun k => s.mem.read (a + k)) ∧ t = s := by
  constructor
  · intro h
    suffices hb : ∀ k, k < n → s.plat.busOk (a + k) = true by
      rw [memReadAll_backed hb] at h
      simp only [Res.ok.injEq] at h
      exact ⟨hb, h.1.symm, h.2.symm⟩
    induction n generalizing a bs t with
    | zero => intro k hk; omega
    | succ n ih =>
      rw [memReadAll, Res.andThen_eq_ok] at h
      obtain ⟨b, u, hr, h⟩ := h
      obtain ⟨hb, rfl, rfl⟩ := memRead_eq_ok.1 hr
      rw [Res.andThen_eq_ok] at h
      obtain ⟨bs', u, hr, h⟩ := h
      intro k hk
      cases k with
      | zero => simpa using hb
      | succ k =>
        have := ih hr k (by omega)
        rwa [show a + 1 + k = a + (k + 1) by omega] at this
  · rintro ⟨hb, rfl, rfl⟩
    exact memReadAll_backed hb

/-- Reading memory changes nothing, whatever it answers. -/
theorem memReadAll_all : (memReadAll a n s).All (· = s) := by
  induction n generalizing a with
  | zero => rfl
  | succ n ih =>
    rw [memReadAll]
    unfold memRead
    split
    · rw [Res.andThen_ok]
      exact Res.All.andThen (P := (· = s)) ih (fun _ h => h) fun bs u _ hu => hu
    · exact rfl

end MemRead

/-! ## `Emit` (R112) -/

section Emit
variable {s t : State} {b : Byte}

theorem emit_ready (hc : s.outPos ≠ s.reg.dstCap.toNat) (hb : s.plat.busOk (s.dstByte s.outPos) = true) :
    emit b s = .ok () (s.emitted b) := by
  simp [emit, memWrite, hc, hb, State.emitted]

theorem emit_full (hc : s.outPos = s.reg.dstCap.toNat) : emit b s = .raised .outputOverflow s := by
  simp [emit, hc]

theorem emit_unbacked (hc : s.outPos ≠ s.reg.dstCap.toNat) (hb : s.plat.busOk (s.dstByte s.outPos) = false) :
    emit b s = .raised .busError s := by
  simp [emit, memWrite, hc, hb]

/-- Everything `Emit` can answer. -/
theorem emit_cases (b : Byte) (s : State) :
    (s.outPos ≠ s.reg.dstCap.toNat ∧ s.plat.busOk (s.dstByte s.outPos) = true ∧ emit b s = .ok () (s.emitted b)) ∨
    (s.outPos = s.reg.dstCap.toNat ∧ emit b s = .raised .outputOverflow s) ∨
    (s.outPos ≠ s.reg.dstCap.toNat ∧ s.plat.busOk (s.dstByte s.outPos) = false ∧
      emit b s = .raised .busError s) := by
  by_cases hc : s.outPos = s.reg.dstCap.toNat
  · exact .inr (.inl ⟨hc, emit_full hc⟩)
  · cases hb : s.plat.busOk (s.dstByte s.outPos) with
    | true => exact .inl ⟨hc, rfl, emit_ready hc hb⟩
    | false => exact .inr (.inr ⟨hc, rfl, emit_unbacked hc hb⟩)

theorem emitOut_ready (hc : s.outPos ≠ s.reg.dstCap.toNat) (hb : s.plat.busOk (s.dstByte s.outPos) = true) :
    emitOut b s = .ok () (s.emittedOut b) := by
  rw [emitOut, emit_ready hc hb]
  rfl

theorem busOk_lt {p : Platform} {a : Nat} (h : p.busOk a = true) : a < Config.memorySize := by
  simp [Platform.busOk] at h
  exact h.1

end Emit

end Sys2Proof.Machine
end

