-- ==== Sys2Proof/Laws/BitStream.lean ====
section
/-! SUPPORT. What the bit reader and the bit writer can answer (R202 to R215): the reader moves `inBit` and nothing else; the
writer changes its registers, the output it writes and nothing else. -/

namespace Sys2Proof.Machine

/-! ## Reader -/

section Reader
variable {s t : State} {n v base : Nat} {e : CodecError}

theorem streamBit_lt (s : State) (k : Nat) : s.streamBit k < 2 := Nat.mod_lt _ (by omega)

@[simp] theorem streamBits_zero (s : State) (pos : Nat) : s.streamBits pos 0 = 0 := rfl

theorem streamBits_succ (s : State) (pos n : Nat) :
    s.streamBits pos (n + 1) = s.streamBit pos + 2 * s.streamBits (pos + 1) n := by
  simp only [State.streamBits, List.range_succ_eq_map, List.map_cons, List.map_map, List.sum_cons, Nat.add_zero,
    Nat.pow_zero, Nat.mul_one]
  congr 1
  rw [← List.sum_map_mul_left]
  congr 1
  refine List.map_congr_left fun k _ => ?_
  simp only [Function.comp_apply, Nat.succ_eq_add_one, show pos + (k + 1) = pos + 1 + k by omega, pow_succ]
  ring

theorem streamBits_lt (s : State) (pos n : Nat) : s.streamBits pos n < 2 ^ n := by
  induction n generalizing pos with
  | zero => simp
  | succ n ih =>
    have := ih (pos + 1)
    have := streamBit_lt s pos
    rw [streamBits_succ, pow_succ]
    omega

theorem nextBit_ready (h : s.plat.busOk (s.srcByte (s.dec.inBit / 8)) = true) :
    nextBit s = .ok (s.streamBit s.dec.inBit) (s.setInBit (s.dec.inBit + 1)) := by
  rw [nextBit, memRead_backed h]
  rfl

theorem takeBits_ready (h : ∀ k, k < n → s.plat.busOk (s.srcByte ((s.dec.inBit + k) / 8)) = true) :
    takeBits n s = .ok (s.streamBits s.dec.inBit n) (s.setInBit (s.dec.inBit + n)) := by
  induction n generalizing s with
  | zero => rfl
  | succ n ih =>
    have h0 := h 0 (by omega)
    rw [takeBits, nextBit_ready (by simpa using h0), Res.andThen_ok, ih, Res.andThen_ok, streamBits_succ]
    · simp [Nat.add_assoc, Nat.add_comm 1]
    · intro k hk
      have := h (k + 1) (by omega)
      rwa [show s.dec.inBit + (k + 1) = s.dec.inBit + 1 + k by omega] at this

theorem takeBits_raised (h : takeBits n s = .raised e t) : e = .busError ∧ ∃ m, t = s.setInBit m := by
  induction n generalizing s with
  | zero => simp [takeBits] at h
  | succ n ih =>
    rw [takeBits] at h
    cases hb : s.plat.busOk (s.srcByte (s.dec.inBit / 8)) with
    | true =>
      rw [nextBit_ready hb, Res.andThen_ok, Res.andThen_eq_raised] at h
      rcases h with h | ⟨_, _, _, h⟩
      · obtain ⟨rfl, m, rfl⟩ := ih h
        exact ⟨rfl, m, rfl⟩
      · cases h
    | false =>
      rw [nextBit, memRead_unbacked hb] at h
      cases h
      exact ⟨rfl, _, (State.setInBit_self _).symm⟩

/-- `takeBits` neither faults nor is refused. -/
theorem takeBits_goes (n : Nat) (s : State) :
    (∃ v t, takeBits n s = .ok v t) ∨ ∃ e t, takeBits n s = .raised e t := by
  induction n generalizing s with
  | zero => exact .inl ⟨_, _, rfl⟩
  | succ n ih =>
    rw [takeBits]
    cases hb : s.plat.busOk (s.srcByte (s.dec.inBit / 8)) with
    | true =>
      rw [nextBit_ready hb, Res.andThen_ok]
      rcases ih (s.setInBit (s.dec.inBit + 1)) with ⟨v, t, h⟩ | ⟨e, t, h⟩
      · exact .inl ⟨_, _, by rw [h]; rfl⟩
      · exact .inr ⟨_, _, by rw [h]; rfl⟩
    | false =>
      rw [nextBit, memRead_unbacked hb]
      exact .inr ⟨_, _, rfl⟩

theorem readBits_ready (h : s.bitsReady n) :
    readBits n s = .ok (s.streamBits s.dec.inBit n) (s.setInBit (s.dec.inBit + n)) := by
  rw [readBits, if_neg (by have := h.1; omega), takeBits_ready h.2]

theorem readBits_short (h : 8 * s.reg.srcLen.toNat < s.dec.inBit + n) :
    readBits n s = .raised .unexpectedEndOfInput s := by
  simp [readBits, h]

/-- What `ReadBits` answers when it goes through (R210). -/
theorem readBits_ok (h : readBits n s = .ok v t) :
    s.dec.inBit + n ≤ 8 * s.reg.srcLen.toNat ∧ v < 2 ^ n ∧ t = s.setInBit (s.dec.inBit + n) := by
  unfold readBits at h
  split at h
  · cases h
  · rename_i hs
    refine ⟨by omega, ?_⟩
    clear hs
    induction n generalizing s v t with
    | zero => cases h; exact ⟨by simp, rfl⟩
    | succ n ih =>
      rw [takeBits] at h
      cases hb : s.plat.busOk (s.srcByte (s.dec.inBit / 8)) with
      | true =>
        rw [nextBit_ready hb, Res.andThen_ok, Res.andThen_eq_ok] at h
        obtain ⟨w, u, hw, h⟩ := h
        obtain ⟨hlt, rfl⟩ := ih hw
        cases h
        have := streamBit_lt s s.dec.inBit
        refine ⟨by rw [pow_succ]; omega, ?_⟩
        simp [Nat.add_assoc, Nat.add_comm 1]
      | false =>
        rw [nextBit, memRead_unbacked hb] at h
        cases h

/-- Whatever `ReadBits` answers, at most `inBit` has moved. -/
theorem readBits_all (n : Nat) (s : State) : (readBits n s).All fun t => ∃ m, t = s.setInBit m := by
  unfold readBits
  split
  · exact ⟨_, (State.setInBit_self s).symm⟩
  · rcases takeBits_goes n s with ⟨v, t, h⟩ | ⟨e, t, h⟩
    · have hr : s.dec.inBit + n ≤ 8 * s.reg.srcLen.toNat := by omega
      have hk : readBits n s = .ok v t := by rw [readBits, if_neg (by omega), h]
      rw [h]
      exact ⟨_, (readBits_ok hk).2.2⟩
    · rw [h]
      exact (takeBits_raised h).2

theorem readBitsBase_ready (h : s.bitsReady n) :
    readBitsBase n base s = .ok (base + s.streamBits s.dec.inBit n) (s.setInBit (s.dec.inBit + n)) := by
  rw [readBitsBase, readBits_ready h]
  rfl

theorem readBitsBase_short (h : 8 * s.reg.srcLen.toNat < s.dec.inBit + n) :
    readBitsBase n base s = .raised .unexpectedEndOfInput s := by
  rw [readBitsBase, readBits_short h]
  rfl

theorem readBitsBase_ok (h : readBitsBase n base s = .ok v t) :
    s.dec.inBit + n ≤ 8 * s.reg.srcLen.toNat ∧ base ≤ v ∧ v < base + 2 ^ n ∧ t = s.setInBit (s.dec.inBit + n) := by
  rw [readBitsBase, Res.andThen_eq_ok] at h
  obtain ⟨w, u, hr, h⟩ := h
  obtain ⟨hn, hw, rfl⟩ := readBits_ok hr
  cases h
  exact ⟨hn, by omega, by omega, rfl⟩

end Reader

/-! ## Writer -/

/-- What writing to the output may change: the writer's registers, `outPos`, which only grows and stays in capacity,
and the bytes between its two values. -/
structure Written (s t : State) : Prop where
  reg : t.reg = s.reg
  seq : t.seq = s.seq
  run : t.run = s.run
  dec : t.dec = s.dec
  enc : t.enc = { s.enc with tag := t.enc.tag, bitsWritten := t.enc.bitsWritten }
  sum : t.sum = s.sum
  plat : t.plat = s.plat
  host : t.host = s.host
  free : t.free = s.free
  outPos : s.outPos ≤ t.outPos
  capacity : s.outPos ≤ s.reg.dstCap.toNat → t.outPos ≤ s.reg.dstCap.toNat
  mem : ∀ a, s.outside s.outPos t.outPos a → t.mem.read a = s.mem.read a
  wf : s.mem.wf = true → t.mem.wf = true

theorem Written.refl (s : State) : Written s s :=
  ⟨rfl, rfl, rfl, rfl, rfl, rfl, rfl, rfl, rfl, Nat.le_refl _, id, fun _ _ => rfl, id⟩

theorem Written.trans {s t u : State} (h : Written s t) (k : Written t u) : Written s u where
  reg := k.reg.trans h.reg
  seq := k.seq.trans h.seq
  run := k.run.trans h.run
  dec := k.dec.trans h.dec
  enc := by rw [k.enc, h.enc]
  sum := k.sum.trans h.sum
  plat := k.plat.trans h.plat
  host := k.host.trans h.host
  free := k.free.trans h.free
  outPos := Nat.le_trans h.outPos k.outPos
  capacity hs := by have := k.capacity (by rw [h.reg]; exact h.capacity hs); rwa [h.reg] at this
  mem a ha := by
    have h1 := h.outPos
    have h2 := k.outPos
    have hd : ∀ j, t.dstByte j = s.dstByte j := fun j => by simp [State.dstByte, h.reg]
    rw [k.mem a, h.mem a]
    · simp only [State.outside, State.dstByte] at ha ⊢; omega
    · simp only [State.outside, hd] at ha ⊢
      simp only [State.dstByte] at ha ⊢
      omega
  wf hs := k.wf (h.wf hs)

theorem Written.setWriter (s : State) (tag : Word) (n : Nat) : Written s (s.setWriter tag n) :=
  ⟨rfl, rfl, rfl, rfl, rfl, rfl, rfl, rfl, rfl, Nat.le_refl _, id, fun _ _ => rfl, id⟩

theorem Written.emitted {s : State} (b : Byte) (hc : s.outPos ≠ s.reg.dstCap.toNat)
    (hb : s.plat.busOk (s.dstByte s.outPos) = true) : Written s (s.emitted b) where
  reg := rfl
  seq := rfl
  run := rfl
  dec := rfl
  enc := rfl
  sum := rfl
  plat := rfl
  host := rfl
  free := rfl
  outPos := Nat.le_succ _
  capacity h := by show s.outPos + 1 ≤ _; omega
  mem a ha := by
    refine Memory.read_write_other _ _ ?_
    simp only [State.outside, State.emitted, State.dstByte] at ha ⊢
    omega
  wf h := Memory.wf_write _ h (busOk_lt hb)

theorem emit_written (b : Byte) (s : State) : (emit b s).All (Written s) := by
  rcases emit_cases b s with ⟨hc, hb, h⟩ | ⟨_, h⟩ | ⟨_, _, h⟩
  · rw [h]; exact Written.emitted b hc hb
  · rw [h]; exact Written.refl s
  · rw [h]; exact Written.refl s

/-- One writing step after another. -/
theorem Written.andThen {α β : Type} {s : State} {r : Res α} {k : α → State → Res β} (h : r.All (Written s))
    (hk : ∀ a t, r = .ok a t → (k a t).All (Written t)) : (r.andThen k).All (Written s) :=
  Res.All.andThen h (fun _ ht => ht) fun a t he ht => (hk a t he).imp fun _ hu => ht.trans hu

theorem writeBits_written (w bits : Nat) (s : State) : (writeBits w bits s).All (Written s) := by
  unfold writeBits
  split
  · trivial
  · dsimp only
    split
    · refine Written.andThen ((emit_written _ _).imp fun t ht => (Written.setWriter s _ _).trans ht) fun _ t _ => ?_
      exact Written.andThen (emit_written _ _) fun _ u _ => Written.setWriter u _ _
    · exact Written.setWriter s _ _

theorem flushLoop_written (fuel : Nat) (s : State) : (flushLoop fuel s).All (Written s) := by
  induction fuel generalizing s with
  | zero => exact Written.refl s
  | succ fuel ih =>
    unfold flushLoop
    split
    · exact Written.andThen (emit_written _ _) fun _ t _ => (ih _).imp fun _ hu => (Written.setWriter t _ _).trans hu
    · exact Written.refl s

theorem flush_written (s : State) : (flush s).All (Written s) :=
  Written.andThen (flushLoop_written _ _) fun _ t _ => Written.setWriter t _ _

theorem alignOut_written (s : State) : (alignOut s).All (Written s) := writeBits_written _ _ _

theorem writeBytes_written (bytes : List Byte) (s : State) : (writeBytes bytes s).All (Written s) := by
  induction bytes generalizing s with
  | nil => exact Written.refl s
  | cons b rest ih => exact Written.andThen (writeBits_written _ _ _) fun _ t _ => ih t

/-- After `WriteBits` fewer than 16 bits are left (R202). -/
theorem writeBits_bitsWritten {w bits : Nat} {s t : State} (hs : s.enc.bitsWritten ≤ 15)
    (h : writeBits w bits s = .ok () t) : t.enc.bitsWritten ≤ 15 := by
  unfold writeBits at h
  split at h
  · cases h
  · dsimp only at h
    split at h
    · rw [Res.andThen_eq_ok] at h
      obtain ⟨_, _, _, h⟩ := h
      rw [Res.andThen_eq_ok] at h
      obtain ⟨_, _, _, h⟩ := h
      cases h
      simp only [State.setWriter]
      omega
    · cases h
      simp only [State.setWriter]
      omega

end Sys2Proof.Machine
end

