-- ==== Sys2Proof/Laws/Decoder.lean ====
section
/-! SUPPORT. What the decoder's operations can answer: those that read move `inBit` and nothing else and never stop the
model; those that emit change the output, `outPos`, the checksum registers and `inBit`. -/

namespace Sys2Proof.Machine

/-! ## Reading -/

/-- Only `inBit` has moved. -/
def Moved (s t : State) : Prop := ∃ m, t = s.setInBit m

theorem Moved.refl (s : State) : Moved s s := ⟨_, (State.setInBit_self s).symm⟩

theorem Moved.trans {s t u : State} (h : Moved s t) (k : Moved t u) : Moved s u := by
  obtain ⟨m, rfl⟩ := h
  obtain ⟨n, rfl⟩ := k
  exact ⟨n, rfl⟩

theorem Moved.setInBit (s : State) (m : Nat) : Moved s (s.setInBit m) := ⟨m, rfl⟩

/-- The answer is a value or an error, never a stop. -/
def Res.Goes {α : Type} : Res α → Prop
  | .ok _ _ => True
  | .raised _ _ => True
  | .fault _ => False
  | .refused _ => False

theorem Res.Goes.andThen {α β : Type} {r : Res α} {k : α → State → Res β} (h : r.Goes)
    (hk : ∀ a s, r = .ok a s → (k a s).Goes) : (r.andThen k).Goes := by
  cases r with
  | ok a s => exact hk a s rfl
  | raised e s => trivial
  | fault f => exact h
  | refused q => exact h

theorem Res.Goes.outcome {r : Res Unit} (h : r.Goes) : ∃ t, r.outcome = .next t := by
  cases r with
  | ok a s => exact ⟨s, rfl⟩
  | raised e s => exact ⟨s.raise e, rfl⟩
  | fault f => exact h.elim
  | refused q => exact h.elim

/-- One reading step after another. -/
theorem Moved.andThen {α β : Type} {s : State} {r : Res α} {k : α → State → Res β} (h : r.All (Moved s))
    (hk : ∀ a t, r = .ok a t → (k a t).All (Moved t)) : (r.andThen k).All (Moved s) :=
  Res.All.andThen h (fun _ ht => ht) fun a t he ht => (hk a t he).imp fun _ hu => ht.trans hu

section Reading
variable (s : State) (n : Nat)

theorem memReadAll_moved (a : Nat) : (memReadAll a n s).All (Moved s) :=
  memReadAll_all.imp fun _ h => h ▸ Moved.refl s

theorem memRead_goes (a : Nat) : (memRead a s).Goes := by unfold memRead; split <;> trivial

theorem memRead_moved (a : Nat) : (memRead a s).All (Moved s) := by
  unfold memRead; split <;> exact Moved.refl s

theorem memReadAll_goes (a : Nat) : (memReadAll a n s).Goes := by
  induction n generalizing a with
  | zero => trivial
  | succ n ih =>
    refine Res.Goes.andThen (memRead_goes s a) fun b t h => ?_
    obtain ⟨_, _, rfl⟩ := memRead_eq_ok.1 h
    exact Res.Goes.andThen (ih _) fun _ _ _ => trivial

theorem readBits_goes : (readBits n s).Goes := by
  unfold readBits
  split
  · trivial
  · rcases takeBits_goes n s with ⟨v, t, h⟩ | ⟨e, t, h⟩ <;> rw [h] <;> trivial

theorem readBitsBase_moved (base : Nat) : (readBitsBase n base s).All (Moved s) :=
  Moved.andThen (readBits_all n s) fun _ t _ => Moved.refl t

theorem readBitsBase_goes (base : Nat) : (readBitsBase n base s).Goes :=
  Res.Goes.andThen (readBits_goes s n) fun _ _ _ => trivial

theorem descend_moved (translation counts : List Nat) (cur sum : Nat) :
    (descend translation counts cur sum s).All (Moved s) := by
  induction counts generalizing cur sum s with
  | nil => exact Moved.refl s
  | cons c counts ih =>
    refine Moved.andThen (readBits_all 1 s) fun bit t _ => ?_
    split
    · split <;> exact Moved.refl t
    · exact ih t _ _

theorem descend_goes (translation counts : List Nat) (cur sum : Nat) : (descend translation counts cur sum s).Goes := by
  induction counts generalizing cur sum s with
  | nil => trivial
  | cons c counts ih =>
    refine Res.Goes.andThen (readBits_goes s 1) fun bit t _ => ?_
    split
    · split <;> trivial
    · exact ih t _ _

/-- `DecodeSymbol` moves `inBit` alone (R266). -/
theorem decodeSymbol_moved (table : DecTable) : (decodeSymbol table s).All (Moved s) := descend_moved s _ _ _ _

theorem decodeSymbol_goes (table : DecTable) : (decodeSymbol table s).Goes := descend_goes s _ _ _ _

theorem readClWidths_moved : (readClWidths n s).All (Moved s) := by
  induction n generalizing s with
  | zero => exact Moved.refl s
  | succ n ih =>
    refine Moved.andThen (readBits_all 3 s) fun w t _ => ?_
    exact Moved.andThen (ih t) fun _ u _ => Moved.refl u

theorem readClWidths_goes : (readClWidths n s).Goes := by
  induction n generalizing s with
  | zero => trivial
  | succ n ih =>
    refine Res.Goes.andThen (readBits_goes s 3) fun w t _ => ?_
    exact Res.Goes.andThen (ih t) fun _ _ _ => trivial

theorem needBytes_goes (p : Nat) : (needBytes p n s).Goes := by unfold needBytes; split <;> trivial

theorem needBytes_ok {p : Nat} {u : Unit} {t : State} (h : needBytes p n s = .ok u t) :
    p + n ≤ s.reg.srcLen.toNat ∧ t = s := by
  unfold needBytes at h
  split at h
  · cases h
  · cases h; exact ⟨by omega, rfl⟩

theorem recordBytes_moved : (recordBytes n s).All (Moved s) := by
  refine Moved.andThen ?_ fun _ t _ =>
    Moved.andThen (memReadAll_moved t n _) fun _ u _ => Moved.setInBit u _
  unfold needBytes
  split <;> exact Moved.refl s

theorem recordBytes_goes : (recordBytes n s).Goes :=
  Res.Goes.andThen (needBytes_goes s n _) fun _ t _ =>
    Res.Goes.andThen (memReadAll_goes t n _) fun _ _ _ => trivial

end Reading

/-! ## Emitting decompressed bytes -/

/-- What emitting decompressed bytes may change: the output bytes between the two values of `outPos`, `outPos`, which
only grows and stays in capacity, the checksum registers, and `inBit`. -/
structure Emitted (s t : State) : Prop where
  reg : t.reg = s.reg
  seq : t.seq = s.seq
  run : t.run = s.run
  dec : t.dec = { s.dec with inBit := t.dec.inBit }
  enc : t.enc = s.enc
  plat : t.plat = s.plat
  host : t.host = s.host
  free : t.free = s.free
  outPos : s.outPos ≤ t.outPos
  capacity : s.outPos ≤ s.reg.dstCap.toNat → t.outPos ≤ s.reg.dstCap.toNat
  mem : ∀ a, s.outside s.outPos t.outPos a → t.mem.read a = s.mem.read a
  wf : s.mem.wf = true → t.mem.wf = true

theorem Emitted.refl (s : State) : Emitted s s :=
  ⟨rfl, rfl, rfl, rfl, rfl, rfl, rfl, rfl, Nat.le_refl _, id, fun _ _ => rfl, id⟩

theorem Emitted.trans {s t u : State} (h : Emitted s t) (k : Emitted t u) : Emitted s u where
  reg := k.reg.trans h.reg
  seq := k.seq.trans h.seq
  run := k.run.trans h.run
  dec := by rw [k.dec, h.dec]
  enc := k.enc.trans h.enc
  plat := k.plat.trans h.plat
  host := k.host.trans h.host
  free := k.free.trans h.free
  outPos := Nat.le_trans h.outPos k.outPos
  capacity hs := by have := k.capacity (by rw [h.reg]; exact h.capacity hs); rwa [h.reg] at this
  mem a ha := by
    have h1 := h.outPos
    have h2 := k.outPos
    have hd : ∀ j, t.dstByte j = s.dstByte j := fun j => by simp [State.dstByte, h.reg]
    rw [k.mem a, h.mem a]
    · simp only [State.outside, State.dstByte] at ha ⊢; omega
    · simp only [State.outside, hd] at ha ⊢
      simp only [State.dstByte] at ha ⊢
      omega
  wf hs := k.wf (h.wf hs)

theorem Moved.emitted {s t : State} (h : Moved s t) : Emitted s t := by
  obtain ⟨m, rfl⟩ := h
  exact ⟨rfl, rfl, rfl, rfl, rfl, rfl, rfl, rfl, Nat.le_refl _, id, fun _ _ => rfl, id⟩

theorem Emitted.andThen {α β : Type} {s : State} {r : Res α} {k : α → State → Res β} (h : r.All (Emitted s))
    (hk : ∀ a t, r = .ok a t → (k a t).All (Emitted t)) : (r.andThen k).All (Emitted s) :=
  Res.All.andThen h (fun _ ht => ht) fun a t he ht => (hk a t he).imp fun _ hu => ht.trans hu

/-- `Emit` of a decompressed byte (R112, R655). -/
theorem emitOut_emitted (b : Byte) (s : State) : (emitOut b s).All (Emitted s) := by
  rcases emit_cases b s with ⟨hc, hb, h⟩ | ⟨_, h⟩ | ⟨_, _, h⟩
  · have w := Written.emitted b hc hb
    rw [emitOut, h]
    exact ⟨w.reg, w.seq, w.run, rfl, rfl, w.plat, w.host, w.free, w.outPos, w.capacity, w.mem, w.wf⟩
  · rw [emitOut, h]; exact Emitted.refl s
  · rw [emitOut, h]; exact Emitted.refl s

theorem emitOut_goes (b : Byte) (s : State) : (emitOut b s).Goes := by
  rcases emit_cases b s with ⟨_, _, h⟩ | ⟨_, h⟩ | ⟨_, _, h⟩ <;> rw [emitOut, h] <;> trivial

/-- The data of a stored block (R451). -/
theorem copyStored_emitted (n : Nat) (s : State) : (copyStored n s).All (Emitted s) := by
  induction n generalizing s with
  | zero => exact Emitted.refl s
  | succ n ih =>
    refine Emitted.andThen ((readBits_all 8 s).imp fun _ h => Moved.emitted h) fun v t _ => ?_
    exact Emitted.andThen (emitOut_emitted _ t) fun _ u _ => ih u

theorem copyStored_goes (n : Nat) (s : State) : (copyStored n s).Goes := by
  induction n generalizing s with
  | zero => trivial
  | succ n ih =>
    refine Res.Goes.andThen (readBits_goes s 8) fun v t _ => ?_
    exact Res.Goes.andThen (emitOut_goes _ t) fun _ u _ => ih u

/-- `Copy(len, d)` (R471, R472). -/
theorem copyLoop_emitted (d n : Nat) (s : State) : (copyLoop d n s).All (Emitted s) := by
  induction n generalizing s with
  | zero => exact Emitted.refl s
  | succ n ih =>
    refine Emitted.andThen ((memRead_moved s _).imp fun _ h => Moved.emitted h) fun b t _ => ?_
    exact Emitted.andThen (emitOut_emitted _ t) fun _ u _ => ih u

theorem copyLoop_goes (d n : Nat) (s : State) : (copyLoop d n s).Goes := by
  induction n generalizing s with
  | zero => trivial
  | succ n ih =>
    refine Res.Goes.andThen (memRead_goes s _) fun b t _ => ?_
    exact Res.Goes.andThen (emitOut_goes _ t) fun _ u _ => ih u

theorem copy_emitted (len d : Nat) (s : State) : (copy len d s).All (Emitted s) := by
  unfold copy
  split
  · exact Emitted.refl s
  · exact copyLoop_emitted d len s

theorem copy_goes (len d : Nat) (s : State) : (copy len d s).Goes := by
  unfold copy
  split
  · trivial
  · exact copyLoop_goes d len s

/-- After an emitted byte the checksum registers are those of one more byte, and it stands in the output (R655). -/
theorem emitOut_ok {b : Byte} {s t : State} {u : Unit} (h : emitOut b s = .ok u t) : t = s.emittedOut b := by
  rcases emit_cases b s with ⟨_, _, k⟩ | ⟨_, k⟩ | ⟨_, _, k⟩ <;> rw [emitOut, k] at h <;> cases h
  rfl

/-! ## Writing symbols -/

/-- `EncodeSymbol` writes and changes nothing else (R263). -/
theorem encodeSymbol_written (table : List (Option HuffCode)) (sym : Nat) (s : State) :
    (encodeSymbol table sym s).All (Written s) := by
  unfold encodeSymbol
  split
  · exact writeBits_written _ _ _
  · trivial

theorem encodeSymbol_eq {table : List (Option HuffCode)} {sym : Nat} {c : HuffCode} (s : State)
    (h : table[sym]? = some (some c)) : encodeSymbol table sym s = writeBits c.width c.bits s := by
  simp [encodeSymbol, h]

theorem writeClWidths_written (ws : List Nat) (s : State) : (writeClWidths ws s).All (Written s) := by
  induction ws generalizing s with
  | nil => exact Written.refl s
  | cons w rest ih => exact Written.andThen (writeBits_written _ _ _) fun _ t _ => ih t

/-! ## Commands -/

/-- The region check as arithmetic (R107). -/
theorem buffersOk_iff (s : State) (op : Op) : s.reg.buffersOk op = true ↔ s.regionsOk op.hasOutput := by
  unfold Regs.buffersOk State.regionsOk regionsMeet Config.memorySize
  cases op.hasOutput
  · simp
  · have e : ∀ w : Word, w = 0#32 ↔ w.toNat = 0 := fun w =>
      ⟨fun h => by rw [h]; rfl, fun h => BitVec.eq_of_toNat_eq (by simpa using h)⟩
    simp only [e, Bool.and_eq_true, decide_eq_true_eq, Bool.not_true, Bool.false_or, Bool.not_eq_true',
      Bool.and_eq_false_iff, decide_eq_false_iff_not, true_implies]
    omega

theorem beginCommand_ok {run : Run} {p : Phase} {s : State} (h : s.reg.buffersOk run.op = true) :
    beginCommand run p s = .ok () (s.begun run p) := by
  simp [beginCommand, h]
  rfl

theorem beginCommand_bad {run : Run} {p : Phase} {s : State} (h : s.reg.buffersOk run.op = false) :
    beginCommand run p s = .raised .invalidBuffer { s with run := run } := by
  simp [beginCommand, h]

end Sys2Proof.Machine
end

