-- ==== Sys2Proof/Laws/Encoder.lean ====
section
/-! SUPPORT. Laws of the encoder: the codes of an encode table, the writers inside their domain, the block's symbols, the
scan and the chunk's read. -/

namespace Sys2Proof.Machine

/-! ## Codes -/

theorem revBits_lt (n v : Nat) : revBits n v < 2 ^ n := by
  induction n generalizing v with
  | zero => simp [revBits]
  | succ n ih =>
    have h1 := ih (v / 2)
    have h2 : v % 2 * 2 ^ n ≤ 1 * 2 ^ n := Nat.mul_le_mul_right _ (by omega)
    simp only [revBits, Nat.pow_succ]
    omega

/-- The entry of a used symbol (R75, R262). -/
theorem encodeTable_used {w : List Nat} {n : Nat} (hn : n < w.length) (hw : w.getD n 0 ≠ 0) :
    (encodeTable w)[n]? = some (some ⟨revBits (w.getD n 0) (canonicalCode w n), w.getD n 0⟩) := by
  have hr : (List.range w.length)[n]? = some n := by simp [hn]
  rw [encodeTable, List.getElem?_map, hr, Option.map_some, if_neg hw]

/-- A used symbol of widths up to 15 has a code that `WriteBits` can write (R263). -/
theorem encodeTable_hasCode {w : List Nat} {n : Nat} (hn : n < w.length) (hw : w.getD n 0 ≠ 0)
    (h15 : w.getD n 0 ≤ 15) : hasCode (encodeTable w) n :=
  ⟨_, encodeTable_used hn hw, h15, revBits_lt _ _⟩

/-! ## Writers inside their domain go on or raise an error -/

theorem emit_goes (b : Byte) (s : State) : (emit b s).Goes := by
  rcases emit_cases b s with ⟨_, _, h⟩ | ⟨_, h⟩ | ⟨_, _, h⟩ <;> (rw [h]; trivial)

theorem writeBits_goes {w bits : Nat} (s : State) (hw : w ≤ 16) (hb : bits < 2 ^ w) : (writeBits w bits s).Goes := by
  unfold writeBits
  rw [if_neg (by omega)]
  dsimp only
  split
  · exact (emit_goes _ _).andThen fun _ t _ => (emit_goes _ _).andThen fun _ u _ => trivial
  · trivial

theorem encodeSymbol_goes {table : List (Option HuffCode)} {sym : Nat} (s : State) (h : hasCode table sym) :
    (encodeSymbol table sym s).Goes := by
  obtain ⟨c, hc, hw, hb⟩ := h
  rw [encodeSymbol_eq s hc]
  exact writeBits_goes s (by omega) hb

theorem alignOut_goes (s : State) : (alignOut s).Goes := writeBits_goes s (by omega) (Nat.two_pow_pos _)

theorem writeBytes_goes (bytes : List Byte) (s : State) : (writeBytes bytes s).Goes := by
  induction bytes generalizing s with
  | nil => trivial
  | cons b rest ih => exact (writeBits_goes s (by omega) b.isLt).andThen fun _ t _ => ih t

theorem writeClWidths_goes {ws : List Nat} (h : ∀ w ∈ ws, w ≤ 7) (s : State) : (writeClWidths ws s).Goes := by
  induction ws generalizing s with
  | nil => trivial
  | cons w rest ih =>
    have hw := h w (by simp)
    exact (writeBits_goes s (by omega) (by omega)).andThen fun _ t _ => ih (fun x hx => h x (by simp [hx])) t

theorem flushLoop_goes (fuel : Nat) (s : State) : (flushLoop fuel s).Goes := by
  induction fuel generalizing s with
  | zero => trivial
  | succ fuel ih =>
    unfold flushLoop
    split
    · exact (emit_goes _ _).andThen fun _ t _ => ih _
    · trivial

theorem flush_goes (s : State) : (flush s).Goes := (flushLoop_goes _ s).andThen fun _ _ _ => trivial

/-! ## The block's symbols -/

theorem blockSyms_ne_nil {syms : List Sym} (h : blockSyms syms) : syms ≠ [] := by
  obtain ⟨data, rfl, _⟩ := h
  simp

/-- What is at the head of a block's symbols: data with more behind it, or the end. -/
theorem blockSyms_cons {x : Sym} {rest : List Sym} (h : blockSyms (x :: rest)) :
    (x.isData ∧ blockSyms rest) ∨ (x = .endOfBlock ∧ rest = []) := by
  obtain ⟨data, he, hd⟩ := h
  cases data with
  | nil => simp at he; exact .inr he
  | cons y ys =>
    simp at he
    obtain ⟨rfl, rfl⟩ := he
    exact .inl ⟨hd _ (by simp), ys, rfl, fun z hz => hd z (by simp [hz])⟩

theorem blockSyms_literalSyms (chunk : List Byte) : blockSyms (literalSyms chunk) :=
  ⟨_, rfl, fun x hx => by obtain ⟨b, -, rfl⟩ := List.mem_map.mp hx; trivial⟩

/-! ## The scan -/

theorem assocGet_mem {β : Type} {l : List (Nat × β)} {a : Nat} {v : β} (h : assocGet l a = some v) : (a, v) ∈ l := by
  induction l with
  | nil => simp [assocGet] at h
  | cons kv rest ih =>
    simp only [assocGet] at h
    split at h
    · next hk => cases h; subst hk; simp
    · exact List.mem_cons_of_mem _ (ih h)

theorem assocSet_mem {β : Type} {l : List (Nat × β)} {a : Nat} {v : β} {e : Nat × β} (h : e ∈ assocSet l a v) :
    e = (a, v) ∨ e ∈ l := by
  induction l with
  | nil => simpa [assocSet] using h
  | cons kv rest ih =>
    simp only [assocSet] at h
    split at h
    · rcases List.mem_cons.mp h with h | h
      · exact .inl h
      · exact .inr (by simp [h])
    · split at h
      · rcases List.mem_cons.mp h with h | h
        · exact .inl h
        · exact .inr h
      · rcases List.mem_cons.mp h with h | h
        · exact .inr (by simp [h])
        · rcases ih h with h | h
          · exact .inl h
          · exact .inr (by simp [h])

theorem agreeing_le (cap : Nat) (xs ys : List Byte) : agreeing cap xs ys ≤ cap := by
  induction cap generalizing xs ys with
  | zero => simp [agreeing]
  | succ cap ih =>
    cases xs with
    | nil => simp [agreeing]
    | cons x xs =>
      cases ys with
      | nil => simp [agreeing]
      | cons y ys =>
        simp only [agreeing]
        have := ih xs ys
        split <;> omega

/-- R308: a match is 3 to 258 bytes long. -/
theorem matchLength_bounds (buf : List Byte) (i j : Nat) : 3 ≤ matchLength buf i j ∧ matchLength buf i j ≤ 258 := by
  have := agreeing_le 255 (buf.drop (i + 3)) (buf.drop (j + 3))
  unfold matchLength
  omega

theorem insertKeys_below {buf : List Byte} {bound : Nat} (count p : Nat) (table : List (Nat × Nat))
    (ht : ∀ e ∈ table, e.2 < bound) (hp : p + count ≤ bound) : ∀ e ∈ insertKeys buf count p table, e.2 < bound := by
  induction count generalizing p table with
  | zero => exact ht
  | succ count ih =>
    refine ih (p + 1) _ ?_ (by omega)
    intro e he
    split at he
    · rcases assocSet_mem he with rfl | he
      · show p < bound; omega
      · exact ht e he
    · exact ht e he

/-- What a scan keeps (R305, R308): the symbols so far are data, and the table names earlier positions only. -/
def Scan.Legal (c : Scan) : Prop := (∀ x ∈ c.out, x.isData) ∧ ∀ e ∈ c.table, e.2 < c.pos

/-- A pass of the scan keeps it legal and moves on. -/
theorem lzStep_legal {window : Nat} {buf : List Byte} {c : Scan} (hw : window ≤ 32768) (hc : c.Legal)
    (hp : c.pos < buf.length) : (lzStep window buf c).Legal ∧ c.pos < (lzStep window buf c).pos := by
  obtain ⟨hout, htab⟩ := hc
  have literal : ∀ b : Byte, ∀ x ∈ c.out ++ [Sym.literal b], x.isData := by
    intro b x hx
    rcases List.mem_append.mp hx with hx | hx
    · exact hout x hx
    · rw [List.mem_singleton.mp hx]; trivial
  have insert : ∀ k q, c.pos < q → ∀ e ∈ assocSet c.table k c.pos, e.2 < q := by
    intro k q hq e he
    rcases assocSet_mem he with rfl | he
    · exact hq
    · exact Nat.lt_trans (htab e he) hq
  unfold lzStep
  split
  · refine ⟨⟨fun x hx => ?_, fun e he => Nat.lt_trans (htab e he) hp⟩, hp⟩
    rcases List.mem_append.mp hx with hx | hx
    · exact hout x hx
    · obtain ⟨b, -, rfl⟩ := List.mem_map.mp hx; trivial
  · dsimp only
    split
    · exact ⟨⟨literal _, insert _ _ (Nat.lt_succ_self _)⟩, Nat.lt_succ_self _⟩
    · next j hj =>
      have hlt : j < c.pos := htab _ (assocGet_mem hj)
      split
      · exact ⟨⟨literal _, insert _ _ (Nat.lt_succ_self _)⟩, Nat.lt_succ_self _⟩
      · have hm := matchLength_bounds buf c.pos j
        have hq : c.pos < c.pos + matchLength buf c.pos j := by omega
        refine ⟨⟨fun x hx => ?_, ?_⟩, hq⟩
        · rcases List.mem_append.mp hx with hx | hx
          · exact hout x hx
          · rw [List.mem_singleton.mp hx]
            exact ⟨hm.1, hm.2, by omega, by omega⟩
        · exact insertKeys_below _ _ _ (insert _ _ hq) (by show _ ≤ c.pos + matchLength buf c.pos j; omega)

/-! ## The chunk's read -/

theorem loadChunk_backed {s : State} (h : ∀ k, k < s.chunkLen → s.plat.busOk (s.srcByte s.chunkStart + k) = true) :
    loadChunk s = .ok () (s.takeChunk ((List.range s.chunkLen).map fun k => s.mem.read (s.srcByte s.chunkStart + k))) := by
  rw [loadChunk, memReadAll_backed h]
  rfl

theorem loadChunk_goes (s : State) : (loadChunk s).Goes := (memReadAll_goes _ _ _).andThen fun _ _ _ => trivial

end Sys2Proof.Machine
end

