-- ==== Sys2Proof/Tests/Slice0.lean ====
section
/-! SUPPORT. The model's own tests: the checks of WellFormed, one decoding per constructor, single steps against the
values of spec/95_test_vectors.md and the rules' own examples, and a witness for the hypotheses of every obligation. -/

namespace Sys2Proof.Tests

open Sys2Proof Sys2Proof.Machine

/-! ## Helpers -/

/-- A core in a phase of a command: its input at 0x100, an output of `cap` bytes at 0x200, nothing pending. -/
def mid (op : Op) (mode : Mode) (p : Phase) (input : List Byte) (cap : Nat) : State :=
  { State.reset with
    reg := { Regs.reset with
      srcAddr := 0x100#32, srcLen := BitVec.ofNat 32 input.length, dstAddr := 0x200#32, dstCap := BitVec.ofNat 32 cap }
    seq := .busy p
    run := { op := op, mode := mode, win := none, strict := false }
    mem := State.reset.mem.writeAll 0x100 input }

/-- A core that was started with this `CMD` word. -/
def started (cmd : Word) (input : List Byte) (cap : Nat) : State :=
  let s := mid .deflate .raw .dispatch input cap
  { s with reg := { s.reg with cmd := cmd } }

/-- A core that decompresses, about to read from this input. -/
def reading (p : Phase) (input : List Byte) : State := mid .inflate .raw p input 16

/-- A core that compresses, about to write. -/
def writing (mode : Mode) (p : Phase) : State := mid .deflate mode p [] 64

/-- A part of the next state, if there is one. -/
def after {β : Type} (o : Host.Outcome State Fault Refusal) (f : State → β) : Option β :=
  match o with
  | .next s => some (f s)
  | _ => none

/-- The first `n` output bytes at 0x200. -/
def outBytes (n : Nat) (s : State) : List Byte := (List.range n).map fun k => s.mem.read (0x200 + k)

/-! ## WellFormed: ill-formed terms -/

theorem test_deflate_mode_3_is_ill_formed : (Instr.deflate ⟨3#2, false, false, false⟩).wellFormed = false := by decide
theorem test_deflate_zlib_mode_3_is_ill_formed :
    (Instr.deflateZlib ⟨3#2, true, false, false⟩).wellFormed = false := by decide
theorem test_invalid_mode_3_needs_mode_3 :
    (Instr.invalidMode3 false ⟨2#2, false, false, false⟩).wellFormed = false := by decide
theorem test_legal_modes_are_well_formed :
    (Instr.deflate ⟨2#2, true, true, true⟩).wellFormed = true ∧
    (Instr.invalidMode3 true ⟨3#2, false, false, false⟩).wellFormed = true := by decide

/-! ## Decoding: words written out from the spec's encodings -/

/-- `CMD` words, fields from bit 8 down: `CHAIN GZ_STRICT WIN_EN MODE OP` (R64, R151). -/
theorem test_decode_commands :
    decode .command 0b0_0_1_10_0000 = .ok (.deflate ⟨2#2, true, false, false⟩) ∧
    decode .command 0b0_0_1_01_0001 = .ok (.deflateZlib ⟨1#2, true, false, false⟩) ∧
    decode .command 0b0_0_0_11_0010 = .ok (.inflate ⟨3#2, false, false, false⟩) ∧
    decode .command 0b0_0_0_00_0011 = .ok (.inflateZlib ⟨0#2, false, false, false⟩) ∧
    decode .command 0b0_1_0_00_0100 = .ok (.inflateGzip ⟨0#2, false, true, false⟩) ∧
    decode .command 0b1_0_0_00_0101 = .ok (.crc32 ⟨0#2, false, false, true⟩) ∧
    decode .command 0b0_0_0_00_0110 = .ok (.adler32 ⟨0#2, false, false, false⟩) ∧
    decode .command 0b0_0_0_00_0111 = .ok (.invalidOp7 ⟨0#2, false, false, false⟩) ∧
    decode .command 0b0_0_0_00_1101 = .ok (.invalidOp8To15 5#3 ⟨0#2, false, false, false⟩) ∧
    decode .command 0b0_0_0_11_0000 = .ok (.invalidMode3 false ⟨3#2, false, false, false⟩) ∧
    decode .command 0xFFFFFE31 = .ok (.invalidMode3 true ⟨3#2, false, false, false⟩) :=
  ⟨rfl, rfl, rfl, rfl, rfl, rfl, rfl, rfl, rfl, rfl, rfl⟩

/-- `BTYPE` values (R153). -/
theorem test_decode_block_types :
    decode .blockType 0b00 = .ok .btype0 ∧ decode .blockType 0b01 = .ok .btype1 ∧
    decode .blockType 0b10 = .ok .btype2 ∧ decode .blockType 0b11 = .ok .btype3 ∧
    decode .blockType 0b100 = .error .tooWide := ⟨rfl, rfl, rfl, rfl, rfl⟩

/-- Literals at the ends of the table's ranges, and `EOB` (R158). -/
theorem test_decode_literals :
    decode .litLen 0b0_0000_0000 = .ok (.lit0To127 0#7) ∧ decode .litLen 0b0_0111_1111 = .ok (.lit0To127 127#7) ∧
    decode .litLen 0b0_1000_0000 = .ok (.lit128To143 0#4) ∧ decode .litLen 0b0_1000_1111 = .ok (.lit128To143 15#4) ∧
    decode .litLen 0b0_1001_0000 = .ok (.lit144To159 0#4) ∧ decode .litLen 0b0_1001_1111 = .ok (.lit144To159 15#4) ∧
    decode .litLen 0b0_1010_0000 = .ok (.lit160To191 0#5) ∧ decode .litLen 0b0_1011_1111 = .ok (.lit160To191 31#5) ∧
    decode .litLen 0b0_1100_0000 = .ok (.lit192To255 0#6) ∧ decode .litLen 0b0_1111_1111 = .ok (.lit192To255 63#6) ∧
    decode .litLen 0b1_0000_0000 = .ok .eob :=
  ⟨rfl, rfl, rfl, rfl, rfl, rfl, rfl, rfl, rfl, rfl, rfl⟩

/-- What the decoder reads from a value, if it is an instruction. -/
def readsAs (a : Alphabet) (w : Nat) (i : Instr) : Bool :=
  match decode a w with
  | .ok j => j == i
  | .error _ => false

/-- The length symbols of R159, in its order. -/
theorem test_decode_length_symbols :
    ([(257, .lensym257), (258, .lensym258), (259, .lensym259), (260, .lensym260), (261, .lensym261),
      (262, .lensym262), (263, .lensym263), (264, .lensym264), (265, .lensym265), (266, .lensym266),
      (267, .lensym267), (268, .lensym268), (269, .lensym269), (270, .lensym270), (271, .lensym271),
      (272, .lensym272), (273, .lensym273), (274, .lensym274), (275, .lensym275), (276, .lensym276),
      (277, .lensym277), (278, .lensym278), (279, .lensym279), (280, .lensym280), (281, .lensym281),
      (282, .lensym282), (283, .lensym283), (284, .lensym284), (285, .lensym285), (286, .lensym286To287 0#1),
      (287, .lensym286To287 1#1)] : List (Nat × Instr)).all (fun p => readsAs .litLen p.1 p.2) = true ∧
    decode .litLen 288 = .error .noLitLenSymbol := ⟨by decide, rfl⟩

/-- The distance symbols of R163, in its order. -/
theorem test_decode_distance_symbols :
    ([(0, .dsym0), (1, .dsym1), (2, .dsym2), (3, .dsym3), (4, .dsym4), (5, .dsym5), (6, .dsym6), (7, .dsym7),
      (8, .dsym8), (9, .dsym9), (10, .dsym10), (11, .dsym11), (12, .dsym12), (13, .dsym13), (14, .dsym14),
      (15, .dsym15), (16, .dsym16), (17, .dsym17), (18, .dsym18), (19, .dsym19), (20, .dsym20), (21, .dsym21),
      (22, .dsym22), (23, .dsym23), (24, .dsym24), (25, .dsym25), (26, .dsym26), (27, .dsym27), (28, .dsym28),
      (29, .dsym29), (30, .dsym30To31 0#1), (31, .dsym30To31 1#1)] : List (Nat × Instr)).all
      (fun p => readsAs .dist p.1 p.2) = true ∧
    decode .dist 32 = .error .noDistSymbol := ⟨by decide, rfl⟩

/-- The code-length symbols of R162, in its order. -/
theorem test_decode_code_length_symbols :
    ([(0, .cl0), (1, .cl1), (2, .cl2), (3, .cl3), (4, .cl4), (5, .cl5), (6, .cl6), (7, .cl7), (8, .cl8), (9, .cl9),
      (10, .cl10), (11, .cl11), (12, .cl12), (13, .cl13), (14, .cl14), (15, .cl15), (16, .cl16), (17, .cl17),
      (18, .cl18)] : List (Nat × Instr)).all (fun p => readsAs .codeLen p.1 p.2) = true ∧
    decode .codeLen 19 = .error .noCodeLenSymbol := ⟨by decide, rfl⟩

/-- Container records: the bytes of the vectors K1, K8, K9, G1 and G4, and the `FLG` bits of R166. -/
theorem test_decode_containers :
    decode .zlibHeaderOut 0x7801 = .ok .zlibHeaderWrite ∧ decode .zlibTrailerOut 0 = .ok .zlibTrailerWrite ∧
    decode .zlibHeaderIn 0x78BB = .ok (.zlibHeaderRead 0x78#8 0xBB#8) ∧
    decode .zlibTrailerIn 0x0E01028C = .ok (.zlibTrailerRead 0x0E01028C#32) ∧
    decode .gzipHeader 0x1F8B0808_44332211_00FF =
      .ok (.gzipHeader 0x1F#8 0x8B#8 8#8 8#8 0x11223344#32 0#8 0xFF#8) ∧
    decode .gzipFlag 0b00100 = .ok .gzipFextra ∧ decode .gzipFlag 0b01000 = .ok .gzipFname ∧
    decode .gzipFlag 0b10000 = .ok .gzipFcomment ∧ decode .gzipFlag 0b00010 = .ok .gzipFhcrc ∧
    decode .gzipFlag 0b11110 = .ok .gzipFextra ∧ decode .gzipFlag 0b11100001 = .error .noGzipField ∧
    decode .gzipTrailer 0x0000000A_478ED0CF = .ok (.gzipTrailer 0x478ED0CF#32 10#32) ∧
    decode .gzipTrailerStrict 0x0000000A_478ED0CF = .ok (.gzipTrailerStrict 0x478ED0CF#32 10#32) :=
  ⟨rfl, rfl, rfl, rfl, rfl, rfl, rfl, rfl, rfl, rfl, rfl, rfl, rfl⟩

/-- Words numbered as the opcode table numbers them. -/
theorem test_table_words :
    decodeTableWord 8 0x51 = some (.deflateZlib ⟨1#2, true, false, false⟩) ∧
    decodeTableWord 16 257 = some .lensym257 ∧ decodeTableWord 16 18 = some .dsym18 ∧
    decodeTableWord 16 0x7801 = some .zlibHeaderWrite := by decide

/-! ## Codes in the stream -/

/-- The fixed codes of 'A', 263 and `EOB` (the bits of vector E4), read from the stream `73 84 03 00`. -/
theorem test_fixed_codes_in_the_stream :
    let s := (readStatic (reading .readSym [0x73#8, 0x84#8, 0x03#8, 0x00#8])).setInBit 3
    (match fetch .readSym s with | .ok i t => some (i, t.dec.inBit) | _ => none) = some (.lit0To127 65#7, 11) ∧
    (match fetch .readSym (s.setInBit 11) with | .ok i t => some (i, t.dec.inBit) | _ => none) =
      some (.lensym263, 18) ∧
    (match fetch .readDist (s.setInBit 18) with | .ok i t => some (i, t.dec.inBit) | _ => none) = some (.dsym0, 23) ∧
    (match fetch .readSym (s.setInBit 23) with | .ok i t => some (i, t.dec.inBit) | _ => none) = some (.eob, 30) := by
  decide +kernel

/-- H7, H8: canonical codes, the decode table and the descent. -/
theorem test_canonical_codes :
    (List.range 8).map (canonicalCode [3, 3, 3, 3, 3, 2, 4, 4]) =
      [0b010, 0b011, 0b100, 0b101, 0b110, 0b00, 0b1110, 0b1111] ∧
    decodeTable [3, 3, 3, 3, 3, 2, 4, 4] =
      ⟨[0, 1, 5, 2, 0, 0, 0, 0, 0, 0, 0, 0, 0, 0, 0], [5, 0, 1, 2, 3, 4, 6, 7]⟩ ∧
    (match decodeSymbol (decodeTable [2, 2, 1]) (reading .readSym [0b01#8]) with
      | .ok x s => some (x, s.dec.inBit) | _ => none) = some (0, 2) := by decide

/-- H4, H5, H6: width assignments. -/
theorem test_width_assignment :
    defaultWidths [1, 2, 4, 8, 16] 3 = [3, 3, 3, 3, 1] ∧ defaultWidths [0, 5, 0] 15 = [0, 1, 0] ∧
    defaultWidths [1, 1, 2, 4, 8, 16, 32, 64] 15 = [7, 7, 6, 5, 4, 3, 2, 1] := by decide

/-- E9: the run-length code. -/
theorem test_run_length_code :
    rle (List.replicate 256 0) = [(18, 127), (18, 107)] ∧ rle (List.replicate 8 5) = [(5, 0), (16, 1), (16, 0)] ∧
    rle [0, 0] = [(0, 0), (0, 0)] := by decide +kernel

/-- Z1, Z4, Z5: the match finder. -/
theorem test_match_finder :
    lz77 32768 (List.replicate 10 0x41#8) = [.literal 0x41#8, .pointer 9 1] ∧
    (lz77 3 [97#8, 98#8, 99#8, 88#8, 97#8, 98#8, 99#8]).length = 7 ∧
    lz77 4 [97#8, 98#8, 99#8, 88#8, 97#8, 98#8, 99#8] =
      [.literal 97#8, .literal 98#8, .literal 99#8, .literal 88#8, .pointer 3 4] := by decide +kernel

/-- "Wikipedia", "123456789" and "a" (R650, R652). -/
theorem test_checksums :
    adler32Of [0x57#8, 0x69#8, 0x6B#8, 0x69#8, 0x70#8, 0x65#8, 0x64#8, 0x69#8, 0x61#8] = 0x11E60398#32 ∧
    crc32Of [0x31#8, 0x32#8, 0x33#8, 0x34#8, 0x35#8, 0x36#8, 0x37#8, 0x38#8, 0x39#8] = 0xCBF43926#32 ∧
    crc32Of [0x61#8] = 0xE8B7BE43#32 := by decide

/-! ## Commands: one step from the `CMD` word -/

/-- C6, C7: `OP` 7, `OP` 15 and `MODE = 3` raise code 13. -/
theorem test_invalid_commands :
    after (step (started 0x07#32 [] 16)) State.statusWord = some 0x00000D04#32 ∧
    after (step (started 0x0F#32 [] 16)) State.statusWord = some 0x00000D04#32 ∧
    after (step (started 0x31#32 [] 16)) State.statusWord = some 0x00000D04#32 := by decide

/-- C10: an overlapping buffer; C11: a region that passes the top. -/
theorem test_invalid_buffers :
    after (step (let s := started 0#32 (List.replicate 10 0x41#8) 16;
      { s with reg := { s.reg with dstAddr := 0x105#32 } })) State.statusWord = some 0x00000E04#32 ∧
    after (step (let s := started 0#32 [] 32;
      { s with reg := { s.reg with dstAddr := 0xFFFFFFF0#32 } })) State.statusWord = some 0x00000E04#32 := by decide

theorem test_deflate : after (step (started 0x60#32 [0x41#8] 16)) (fun s => (s.seq, s.run.mode, s.run.win)) =
    some (.busy .loadChunk, .dynamic, some 32768) := by decide
theorem test_deflate_zlib : after (step (started 0x11#32 [0x41#8] 16)) (fun s => (s.seq, s.run.mode, s.run.win)) =
    some (.busy .zlibHeaderOut, .fixed, none) := by decide
/-- C8: `MODE` is ignored. -/
theorem test_inflate : after (step (started 0x32#32 [3#8, 0#8] 16)) (fun s => (s.seq, s.dec.inBit, s.outPos)) =
    some (.busy .readBlock, 0, 0) := by decide
theorem test_inflate_zlib : after (step (started 0x03#32 [0x78#8] 16)) (fun s => s.seq) =
    some (.busy .zlibHeaderIn) := by decide
theorem test_inflate_gzip : after (step (started 0x84#32 [] 16)) (fun s => (s.seq, s.run.strict)) =
    some (.busy .gzipHeader, true) := by decide
/-- The vector "a" of 2.8. -/
theorem test_crc32 : after (step (started 0x05#32 [0x61#8] 0)) (fun s => (s.reg.checksum, s.statusWord)) =
    some (0xE8B7BE43#32, 2#32) := by decide
/-- "bc" chained to "a". -/
theorem test_crc32_chained :
    after (step (let s := started 0x105#32 [0x62#8, 0x63#8] 0;
      { s with reg := { s.reg with checksum := 0xE8B7BE43#32 } })) (fun s => s.reg.checksum) =
    some 0x352441C2#32 := by decide
theorem test_adler32 : after (step (started 0x06#32 [0x61#8] 0)) (fun s => s.reg.checksum) = some 0x00620062#32 := by
  decide
/-- "a" chained to a host-written `0xFFFFFFFF`. -/
theorem test_adler32_chained :
    after (step (let s := started 0x106#32 [0x61#8] 0;
      { s with reg := { s.reg with checksum := 0xFFFFFFFF#32 } })) (fun s => s.reg.checksum) =
    some 0x007D006F#32 := by decide

/-! ## Block types -/

/-- D2: a stored block. -/
theorem test_btype0_read :
    after (step (reading .readBlock [0x01#8, 0x02#8, 0x00#8, 0xFD#8, 0xFF#8, 0x68#8, 0x69#8]))
      (fun s => (s.statusWord, s.reg.outLen, outBytes 2 s)) = some (2#32, 2#32, [0x68#8, 0x69#8]) := by decide
/-- E2: a stored block written, with the header bits before it. -/
theorem test_btype0_write :
    after (exec .btype0 (let s := writing .raw .writeBlock;
      { s with enc := { s.enc with chunk := [0x68#8, 0x69#8] } })) (fun s => (s.seq, outBytes 6 s, s.enc.tag)) =
    some (.busy .flush, [0x01#8, 0x02#8, 0x00#8, 0xFD#8, 0xFF#8, 0x68#8], 0x69#32) := by decide
/-- D7: `03` heads a final static block. -/
theorem test_btype1_read : after (step (reading .readBlock [0x03#8, 0x00#8]))
    (fun s => (s.seq, s.dec.inBit, s.dec.bfinal, s.dec.distTable.counts)) =
    some (.busy .readSym, 3, true, [0, 0, 0, 0, 32, 0, 0, 0, 0, 0, 0, 0, 0, 0, 0]) := by decide +kernel
/-- E4: the bits `1`, `1 0`. -/
theorem test_btype1_write : after (exec .btype1 (writing .fixed .writeBlock))
    (fun s => (s.seq, s.enc.bitsWritten, s.enc.tag)) = some (.busy .writeSym, 3, 0b011#32) := by decide
/-- E5 (D24): `HDR 264, 1, 18` and its code-length widths. -/
theorem test_btype2_read :
    after (step (reading .readBlock [0x3D#8, 0xC0#8, 0x21#8, 0x01#8, 0x00#8, 0x00#8, 0x00#8, 0x80#8, 0xA0#8, 0x6D#8]))
      (fun s => (s.seq, s.dec.inBit, s.dec.hlit, s.dec.hdist, s.dec.clTable)) =
    some (.busy .readCodeLen, 71, 264, 1, ⟨[0, 4, 0, 0, 0, 0, 0, 0, 0, 0, 0, 0, 0, 0, 0], [1, 2, 17, 18]⟩) := by
  decide +kernel
/-- E5: `BLK 1, DYN`, `HDR 264, 1, 18`, `CLW 0, 2, 2, ..., 2, 0, 2` is the bytes `3D C0 21 01 00 00 00 80` and more. -/
theorem test_btype2_write :
    after (exec .btype2 (let s := writing .dynamic .writeBlock;
      { s with enc := { s.enc with
          hlit := 264, hdist := 1, hclen := 18,
          clWidths := [0, 2, 2, 0, 0, 0, 0, 0, 0, 0, 0, 0, 0, 0, 0, 0, 0, 2, 2] } }))
      (fun s => (s.seq, outBytes 8 s, s.enc.bitsWritten, s.enc.tag)) =
    some (.busy .writeCodeLen, [0x3D#8, 0xC0#8, 0x21#8, 0x01#8, 0x00#8, 0x00#8, 0x00#8, 0x80#8], 7, 0x20#32) := by
  decide +kernel
/-- D5: `07`. -/
theorem test_btype3 : after (step (reading .readBlock [0x07#8])) State.statusWord = some 0x00000704#32 := by decide

/-! ## Symbols read and written -/

/-- The ends of each literal row emit their byte (D18 has `00 8F 90 FF`). -/
theorem test_literals_read :
    [.lit0To127 0x41#7, .lit128To143 15#4, .lit144To159 0#4, .lit160To191 31#5, .lit192To255 63#6].map
      (fun i => after (exec i (reading .readSym [])) (fun s => (s.outPos, outBytes 1 s))) =
    [some (1, [0x41#8]), some (1, [0x8F#8]), some (1, [0x90#8]), some (1, [0xBF#8]), some (1, [0xFF#8])] := by decide
/-- R263: static 'A' writes 0, 1, 1, 1, 0, 0, 0, 1; R156: 144 is 110010000, 255 is 111111111. -/
theorem test_literals_written :
    [.lit0To127 65#7, .lit128To143 15#4, .lit144To159 0#4, .lit160To191 0#5, .lit192To255 63#6].map
      (fun i => after (exec i (writing .fixed .writeSym).withFixedEncodeTables)
        (fun s => (s.enc.bitsWritten, s.enc.tag))) =
    [some (8, 0b10001110#32), some (8, 0b11111101#32), some (9, 0b000010011#32), some (9, 0b000001011#32),
      some (9, 0b111111111#32)] := by decide +kernel
/-- R501, R681: an end of block of a final block ends the command. -/
theorem test_eob_read :
    after (exec .eob (let s := reading .readSym [];
      { s with dec := { s.dec with bfinal := true }, outPos := 9 })) (fun s => (s.statusWord, s.reg.outLen)) =
    some (2#32, 9#32) := by decide
/-- R360: static `EOB` writes seven 0 bits. -/
theorem test_eob_written :
    after (exec .eob (writing .fixed .writeSym).withFixedEncodeTables)
      (fun s => (s.seq, s.enc.bitsWritten, s.enc.tag)) = some (.busy .flush, 7, 0#32) := by decide +kernel

/-- The greatest length of every row of R159's table: all extra bits 1. -/
theorem test_length_symbols_read :
    [.lensym257, .lensym258, .lensym259, .lensym260, .lensym261, .lensym262, .lensym263, .lensym264, .lensym265,
      .lensym266, .lensym267, .lensym268, .lensym269, .lensym270, .lensym271, .lensym272, .lensym273, .lensym274,
      .lensym275, .lensym276, .lensym277, .lensym278, .lensym279, .lensym280, .lensym281, .lensym282, .lensym283,
      .lensym284, .lensym285].map (fun i => after (exec i (reading .readSym [0xFF#8])) (fun s => s.dec.length)) =
    [3, 4, 5, 6, 7, 8, 9, 10, 12, 14, 16, 18, 22, 26, 30, 34, 42, 50, 58, 66, 82, 98, 114, 130, 162, 194, 226, 258,
      258].map some := by decide
/-- Vectors of 2.4: the symbols and extra bits of lengths; 12 is `LENSYM 265 +1`, code 0001001 then the bit 1. -/
theorem test_length_symbol_written :
    after (exec .lensym265 (let s := (writing .fixed .writeSym).withFixedEncodeTables;
      { s with enc := { s.enc with syms := [.pointer 12 1] } })) (fun s => (s.seq, s.enc.bitsWritten, s.enc.tag)) =
    some (.busy .writeDist, 8, 0b11001000#32) ∧
    [3, 9, 10, 11, 12, 18, 19, 130, 131, 257, 258].map lenSym =
      [(257, 0), (263, 0), (264, 0), (265, 0), (265, 1), (268, 1), (269, 0), (280, 15), (281, 0), (284, 30),
        (285, 0)] := by decide +kernel
/-- D14, D15. -/
theorem test_length_symbols_286_287 :
    [.lensym286To287 0#1, .lensym286To287 1#1].map (fun i => after (exec i (reading .readSym [])) State.statusWord) =
    [some 0x00000804#32, some 0x00000804#32] := by decide

/-- A core about to read a distance with every extra bit 1, after `n` output bytes, its copy one byte long. -/
def distanceAfter (n : Nat) : State :=
  let s := mid .inflate .raw .readDist [0xFF#8, 0xFF#8] 40000
  { s with outPos := n, dec := { s.dec with length := 1 } }

/-- The greatest distance of every row of R163's table: legal after exactly that many bytes, code 11 after one fewer. -/
theorem test_distance_symbols_read :
    ([(.dsym0, 1), (.dsym1, 2), (.dsym2, 3), (.dsym3, 4), (.dsym4, 6), (.dsym5, 8), (.dsym6, 12), (.dsym7, 16),
      (.dsym8, 24), (.dsym9, 32), (.dsym10, 48), (.dsym11, 64), (.dsym12, 96), (.dsym13, 128), (.dsym14, 192),
      (.dsym15, 256), (.dsym16, 384), (.dsym17, 512), (.dsym18, 768), (.dsym19, 1024), (.dsym20, 1536),
      (.dsym21, 2048), (.dsym22, 3072), (.dsym23, 4096), (.dsym24, 6144), (.dsym25, 8192), (.dsym26, 12288),
      (.dsym27, 16384), (.dsym28, 24576), (.dsym29, 32768)] : List (Instr × Nat)).all (fun p =>
        after (exec p.1 (distanceAfter p.2)) (fun s => (s.seq, s.outPos)) == some (.busy .readSym, p.2 + 1) &&
        after (exec p.1 (distanceAfter (p.2 - 1))) (fun s => s.reg.errCode) == some 11#8) = true := by decide +kernel
/-- D12: `LIT 0x41`, `LIT 0x42`, then 3 bytes from 2 back are `41 42 41`; 32768 is `DSYM 29 +8191`. -/
theorem test_distance_symbol_copies_and_writes :
    after (exec .dsym1 (let s := reading .readDist [];
      { s with outPos := 2, mem := s.mem.writeAll 0x200 [0x41#8, 0x42#8], dec := { s.dec with length := 3 } }))
      (outBytes 5) = some [0x41#8, 0x42#8, 0x41#8, 0x42#8, 0x41#8] ∧
    after (exec .dsym29 (let s := (writing .fixed .writeDist).withFixedEncodeTables;
      { s with enc := { s.enc with syms := [.pointer 3 32768] } }))
      (fun s => (s.seq, outBytes 2 s, s.enc.bitsWritten, s.enc.syms)) =
    some (.busy .writeSym, [0b11110111#8, 0xFF#8], 2, []) ∧
    [1, 4, 5, 6, 7, 24577, 32768].map distSym = [(0, 0), (3, 0), (4, 0), (4, 1), (5, 0), (29, 0), (29, 8191)] := by
  decide +kernel
/-- D16, D17. -/
theorem test_distance_symbols_30_31 :
    [.dsym30To31 0#1, .dsym30To31 1#1].map (fun i => after (exec i (reading .readDist [])) State.statusWord) =
    [some 0x00000804#32, some 0x00000804#32] := by decide

/-! ## Code-length symbols -/

/-- A core about to read a code-length symbol of a 258-entry list that starts with a width 5, every extra bit 1. -/
def readingWidths : State :=
  let s := reading .readCodeLen [0xFF#8]
  { s with dec := { s.dec with hlit := 257, hdist := 1, widths := [5] } }

/-- R465: symbols 0 to 15 append themselves. -/
theorem test_code_length_widths :
    [.cl0, .cl1, .cl2, .cl3, .cl4, .cl5, .cl6, .cl7, .cl8, .cl9, .cl10, .cl11, .cl12, .cl13, .cl14, .cl15].map
      (fun i => after (exec i readingWidths) (fun s => s.dec.widths)) =
    (List.range 16).map (fun w => some [5, w]) := by decide
/-- R466 to R468: the greatest counts, 6, 10 and 138. -/
theorem test_code_length_repeats :
    after (exec .cl16 readingWidths) (fun s => s.dec.widths) = some [5, 5, 5, 5, 5, 5, 5] ∧
    after (exec .cl17 readingWidths) (fun s => s.dec.widths) = some (5 :: List.replicate 10 0) ∧
    after (exec .cl18 readingWidths) (fun s => s.dec.widths) = some (5 :: List.replicate 138 0) := by decide +kernel
/-- D20: `CL 16` first; D21: a repeat past `m`. -/
theorem test_code_length_errors :
    after (exec .cl16 (reading .readCodeLen [0xFF#8])) State.statusWord = some 0x00000804#32 ∧
    after (exec .cl18 (let s := readingWidths;
      { s with dec := { s.dec with widths := List.replicate 138 0 } })) State.statusWord =
      some 0x00000804#32 := by decide +kernel
/-- E5's code-length code (1, 2, 17, 18 as `00`, `01`, `10`, `11`): `CL 18 +54`, `CL 17 +3`, `CL 2` written. -/
theorem test_code_length_written :
    let s := writing .dynamic .writeCodeLen
    let table := encodeTable [0, 2, 2, 0, 0, 0, 0, 0, 0, 0, 0, 0, 0, 0, 0, 0, 0, 2, 2]
    let with' := fun c => { s with enc := { s.enc with clTable := table, clSeq := [c] } }
    after (exec .cl18 (with' (18, 54))) (fun s => (s.seq, s.enc.bitsWritten, s.enc.tag)) =
      some (.busy .writeSym, 9, 0b011011011#32) ∧
    after (exec .cl17 (with' (17, 3))) (fun s => (s.enc.bitsWritten, s.enc.tag)) = some (5, 0b01101#32) ∧
    after (exec .cl2 (with' (2, 0))) (fun s => (s.enc.bitsWritten, s.enc.tag)) = some (2, 0b10#32) := by decide +kernel

/-! ## Containers -/

/-- R600. -/
theorem test_zlib_header_write : after (step (mid .deflateZlib .raw .zlibHeaderOut [] 2))
    (fun s => (s.seq, outBytes 2 s)) = some (.busy .loadChunk, [0x78#8, 0x01#8]) := by decide
/-- K2: the Adler-32 of "hi" is `01 3B 00 D2`. -/
theorem test_zlib_trailer_write :
    after (step (let s := mid .deflateZlib .raw .zlibTrailerOut [] 4;
      { s with sum := Sums.fresh.addAll [0x68#8, 0x69#8] })) (fun s => (s.reg.checksum, s.reg.outLen, outBytes 4 s)) =
    some (0x013B00D2#32, 4#32, [0x01#8, 0x3B#8, 0x00#8, 0xD2#8]) := by decide
/-- K5 to K8, and K1's own header. -/
theorem test_zlib_header_read :
    [(0x79#8, 0x01#8), (0x88#8, 0x01#8), (0x78#8, 0x02#8), (0x78#8, 0x3C#8), (0x78#8, 0xBB#8), (0x78#8, 0x01#8)].map
      (fun p => after (step (mid .inflateZlib .raw .zlibHeaderIn [p.1, p.2] 16)) (fun s => s.reg.errCode)) =
    [2#8, 3#8, 5#8, 5#8, 4#8, 0#8].map some := by decide
/-- K9: the tampered trailer of A10's Adler-32. -/
theorem test_zlib_trailer_read :
    after (step (let s := mid .inflateZlib .raw .zlibTrailerIn [0x0E#8, 0x01#8, 0x02#8, 0x8C#8] 16;
      { s with sum := Sums.fresh.addAll (List.replicate 10 0x41#8), outPos := 10 }))
      (fun s => (s.statusWord, s.reg.errExpected, s.reg.errFound, s.reg.outLen)) =
    some (0x00000A04#32, 0x0E01028C#32, 0x0E01028B#32, 0#32) := by decide
/-- G1, G7, G8 (`FLG` 0). -/
theorem test_gzip_header :
    [(0x8B#8, 8#8), (0x8C#8, 8#8), (0x8B#8, 7#8)].map (fun p =>
      after (step (mid .inflateGzip .raw .gzipHeader [0x1F#8, p.1, p.2, 0#8, 0#8, 0#8, 0#8, 0#8, 0#8, 0xFF#8] 16))
        (fun s => (s.seq, s.reg.errCode))) =
    [some (.busy .readBlock, 0#8), some (.idle, 1#8), some (.idle, 2#8)] := by decide

/-- A core at the optional field that these flags select, its reader at the start of the input. -/
def field (flags : Byte) (input : List Byte) : State :=
  let s := mid .inflateGzip .raw .gzipOptional input 16
  { s with dec := { s.dec with gzFlags := flags } }

/-- G5: `XLEN = 2`, data "AB". -/
theorem test_gzip_fextra : after (step (field 4#8 [2#8, 0#8, 0x41#8, 0x42#8])) (fun s => (s.seq, s.dec.inBit)) =
    some (.busy .readBlock, 32) := by decide
/-- R633: `61 00` moves the position by 2. -/
theorem test_gzip_fname : after (step (field 0x0A#8 [0x61#8, 0#8])) (fun s => (s.seq, s.dec.inBit, s.dec.gzFlags)) =
    some (.busy .gzipOptional, 16, 2#8) := by decide
/-- G6: never terminated. -/
theorem test_gzip_fcomment : after (step (field 16#8 [0x61#8, 0x62#8, 0x63#8])) State.statusWord =
    some 0x00000604#32 := by decide
/-- G2, G3: the header CRC16 `90 C9`. -/
theorem test_gzip_fhcrc :
    [(0x90#8, 0xC9#8), (0#8, 0#8)].map (fun p => after (step
      ((field 2#8 [0x1F#8, 0x8B#8, 8#8, 2#8, 0#8, 0#8, 0#8, 0#8, 0#8, 0xFF#8, p.1, p.2]).setInBit 80))
      (fun s => (s.seq, s.reg.errCode))) = [some (.busy .readBlock, 0#8), some (.idle, 5#8)] := by decide
/-- G11, and G12, G13 in strict mode. -/
theorem test_gzip_trailers :
    let s := mid .inflateGzip .raw .gzipTrailerIn [] 16
    let u := { s with sum := Sums.fresh.addAll (List.replicate 10 0x41#8), outPos := 10 }
    after (exec (.gzipTrailer 0#32 10#32) u) (fun s => (s.statusWord, s.reg.checksum)) =
      some (2#32, 0x478ED0CF#32) ∧
    after (exec (.gzipTrailerStrict 0#32 10#32) u) (fun s => (s.reg.errExpected, s.reg.errFound)) =
      some (0#32, 0x478ED0CF#32) ∧
    after (exec (.gzipTrailerStrict 0x478ED0CF#32 11#32) u) (fun s => (s.reg.errExpected, s.reg.errFound)) =
      some (11#32, 10#32) := by decide

/-! ## The encoder's own phases -/

/-- R376 and E1's tables: the empty chunk's one symbol has width 1, and 256 zeros before it are `CL 18 +127`,
`CL 18 +107` (R371's example). -/
theorem test_build_tables_of_an_empty_chunk :
    let w := mid .deflate .dynamic .buildTables [] 16
    after (step { w with enc := { w.enc with syms := [.endOfBlock] } })
      (fun s => (s.enc.litFreq.getD 256 0, s.enc.hlit, s.enc.hdist, s.enc.clSeq)) =
    some (1, 257, 1, [(18, 127), (18, 107), (1, 0), (0, 0)]) := by decide +kernel

/-- R355's byte count and R655: a `Raw` chunk is read whole, with no symbols. -/
theorem test_load_a_raw_chunk :
    after (step (mid .deflateZlib .raw .loadChunk [0x68#8, 0x69#8] 16))
      (fun s => (s.seq, s.enc.chunk, s.enc.syms, adlerValue (s.sum.s1, s.sum.s2))) =
    some (.busy .writeBlock, [0x68#8, 0x69#8], [], 0x013B00D2#32) := by decide +kernel

/-! ## The writer and the host's moves -/

/-- B3: 16 bits leave at once, the flush drains one byte. -/
theorem test_write_and_flush :
    after ((writeBits 16 0x1234 (writing .raw .writeBlock)).andThen fun _ s =>
      (writeBits 1 1 s).andThen fun _ s => flush s).outcome (fun s => (s.outPos, outBytes 3 s)) =
    some (3, [0x34#8, 0x12#8, 0x01#8]) := by decide

/-- C2 to C4: what `WINDOW` and `CMD` store. -/
theorem test_register_writes :
    windowOf 0x00012345#32 = 0x2345#32 ∧ windowOf 0xFFFF#32 = 0x8000#32 ∧ cmdOf 0xFFFFFFFF#32 = 0x1FF#32 := by decide

/-- C13: clearing `ERR` keeps `ERRCODE`; C14: `irq` rises when `IRQ_EN` is set with `DONE` pending. -/
theorem test_status_and_irq :
    (writeRegister 0x20 4#32 ({ State.reset with reg := { Regs.reset with err := true, errCode := 10#8 } })).statusWord =
      0x00000A00#32 ∧
    (writeRegister 0x04 2#32 ({ State.reset with reg := { Regs.reset with done := true } })).irq = true := by decide

/-! ## Witnesses: a state and operands that meet the hypotheses of each obligation -/

/-- A core with one host move pending. -/
def asks (s : State) (m : HostMove) : State := { s with host := { s.host with moves := [m] } }

/-- A core that runs `INFLATE` (`CMD` 2) on `03 00`. -/
def running : State :=
  let s := mid .inflate .raw .readBlock [3#8, 0#8] 16
  { s with reg := { s.reg with cmd := 2#32 } }

theorem witness_running_meets_the_invariant : running.Inv where
  memory := by decide
  oneOutcome := by decide
  busyClear := by decide
  errCode := by decide
  checksums := by decide
  cmd := by decide
  window := by decide
  adler := by decide
  running := by
    intro p h _
    cases h
    exact
      { op := by decide, config := by decide, hasOutput := by decide, buffers := by decide, direction := by decide,
        outPos := by decide, inBit := by decide, writer := by unfold State.writerOk; decide,
        length := by decide, widths := by decide }

theorem witness_ResetInputAnyTime :
    (asks running .reset).host.moves = [.reset] ∧ (asks running .reset).busy = true ∧
    (asks running .reset).inOut 0x1FF = false ∧ (asks running .reset).inOut 0x200 = true ∧
    (asks State.reset .reset).busy = false := by decide

theorem witness_StepKeepsTheInvariant : running.Inv ∧ ∃ t, step running = .next t :=
  ⟨witness_running_meets_the_invariant, _, rfl⟩

theorem witness_StepRunsTheFetchedInstruction :
    (running.atPhase .readBlock ∧ Phase.readBlock.internal = false ∧
      ∃ t, (nextWord .readBlock running).2 = .ok 1 t ∧ decode (nextWord .readBlock running).1 1 = .ok .btype1) ∧
    ((reading .readBlock []).atPhase .readBlock ∧
      ∃ t, (nextWord .readBlock (reading .readBlock [])).2 = .raised .unexpectedEndOfInput t) ∧
    State.reset.host.moves = [] ∧ State.reset.seq = .idle :=
  ⟨⟨⟨rfl, rfl⟩, rfl, _, rfl, rfl⟩, ⟨⟨rfl, rfl⟩, _, rfl⟩, rfl, rfl⟩

theorem witness_CommandEndsWithOneOutcome :
    running.Inv ∧ running.host.moves = [] ∧ running.busy = true ∧ ∃ t, step running = .next t :=
  ⟨witness_running_meets_the_invariant, rfl, rfl, _, rfl⟩

theorem witness_InstructionsLeaveTheConfiguration : ∃ t, exec .eob running = .next t := ⟨_, rfl⟩

theorem witness_NothingOutsideOutIsWritten :
    running.outPos ≤ running.reg.dstCap.toNat ∧ running.host.moves = [] ∧ (∃ t, step running = .next t) ∧
    running.inDst 0x1FF = false ∧ running.inDst 0x210 = false :=
  ⟨by decide, rfl, ⟨_, rfl⟩, by decide, by decide⟩

theorem witness_DecoderNeverStops :
    running.atPhase .readBlock ∧ Phase.readBlock.encodes = false ∧ running.run.op.encodes = false ∧
    (started 0x60#32 [] 16).atPhase .dispatch ∧ Phase.dispatch.encodes = false :=
  ⟨⟨rfl, rfl⟩, rfl, rfl, ⟨rfl, rfl⟩, rfl⟩

/-- A compression that is about to write `EndOfBlock`, the one symbol its literal/length table codes. -/
def ending : State :=
  let w := mid .deflate .fixed .writeSym [] 8
  { w with enc := { w.enc with
    syms := [.endOfBlock], litTable := List.replicate 256 none ++ [some (HuffCode.mk 0 7)] } }

theorem witness_EncoderNeverStops :
    ending.atPhase .writeSym ∧ Phase.writeSym.encodes = true ∧ ending.EncoderOk .writeSym ∧
    State.reset.reg.window.toNat ≤ 32768 := by
  refine ⟨⟨rfl, rfl⟩, rfl, ?_, by decide⟩
  have hsyms : ending.enc.syms = [.endOfBlock] := rfl
  have hcode : hasCode ending.enc.litTable 256 := ⟨⟨0, 7⟩, by decide, by unfold HuffCode.ok; decide⟩
  exact
    { op := rfl
      window := by intro _ h; cases h
      scan := by intro h; cases h
      stored := by intro h; cases h
      tables := by intro h; cases h
      static := by intro h; cases h
      dynamic := by intro h; cases h
      codeLen := by intro h; cases h
      sym := fun _ => ⟨⟨[], hsyms, by simp⟩, by
        intro x hx
        rw [hsyms, List.mem_singleton] at hx
        subst hx
        exact ⟨hcode, by intro _ h; cases h⟩⟩
      dist := by intro h; cases h }

/-- The invariant does not look at the host's queue. -/
theorem witness_running_asked_meets_the_invariant (m : HostMove) : (asks running m).Inv :=
  have h := witness_running_meets_the_invariant
  { memory := h.memory, oneOutcome := h.oneOutcome, busyClear := h.busyClear, errCode := h.errCode,
    checksums := h.checksums, cmd := h.cmd, window := h.window, adler := h.adler,
    running := fun p hs hp =>
      have r := h.running p hs hp
      { op := r.op, config := r.config, hasOutput := r.hasOutput, buffers := r.buffers, direction := r.direction,
        outPos := r.outPos, inBit := r.inBit, writer := r.writer, length := r.length, widths := r.widths } }

theorem witness_HostReadsRegisters :
    (asks State.reset (.regRead 0x00 4)).busy = false ∧
    (asks State.reset (.regRead 0x00 4)).host.moves = [.regRead (State.reset.plat.base + 0x00) 4] ∧
    (asks State.reset (.regRead 0x3C 4)).host.moves = [.regRead (State.reset.plat.base + 0x3C) 4] ∧
    (asks running (.regRead 0x24 4)).Inv ∧ (asks running (.regRead 0x24 4)).busy = true ∧
    (asks running (.regRead 0x24 4)).host.moves = [.regRead (running.plat.base + 0x24) 4] ∧
    (asks running (.regRead 0x30 4)).host.moves = [.regRead (running.plat.base + 0x30) 4] :=
  ⟨by decide, by decide, by decide, witness_running_asked_meets_the_invariant _, by decide, by decide, by decide⟩

theorem witness_HostWritesRegisters :
    (asks running (.regWrite 0x08 4 2#32)).host.moves = [.regWrite (running.plat.base + 0x08) 4 2#32] ∧
    (asks running (.regWrite 0x3C 4 2#32)).host.moves = [.regWrite (running.plat.base + 0x3C) 4 2#32] ∧
    (asks running (.regWrite 0x04 4 3#32)).busy = true ∧
    (asks running (.regWrite 0x04 4 3#32)).host.moves = [.regWrite (running.plat.base + 0x04) 4 3#32] ∧
    (asks running (.regWrite 0x20 4 6#32)).host.moves = [.regWrite (running.plat.base + 0x20) 4 6#32] := by decide

theorem witness_StartWriteBeginsACommand :
    (asks State.reset (.regWrite 0x04 4 3#32)).busy = false ∧
    (asks State.reset (.regWrite 0x04 4 3#32)).host.moves = [.regWrite (State.reset.plat.base + 0x04) 4 3#32] ∧
    (3#32).getLsbD 0 = true ∧ (2#32).getLsbD 0 = false := by decide

theorem witness_IrqLevelFollowsTheOutcome :
    (asks State.reset (.regWrite 0x04 4 2#32)).busy = false ∧
    (∃ t, step (asks State.reset (.regWrite 0x04 4 2#32)) = .next t) ∧
    (∃ t, step (asks State.reset (.regWrite 0x20 4 6#32)) = .next t) ∧
    (6#32).getLsbD 1 = true ∧ (6#32).getLsbD 2 = true :=
  ⟨by decide, ⟨_, rfl⟩, ⟨_, rfl⟩, by decide, by decide⟩

/-- Width 2 at offset 0, width 4 at offset 63, and the addresses just outside the block. -/
theorem witness_RegisterAccessRefused :
    (asks State.reset (.regRead 0 2)).host.moves = [.regRead 0 2] ∧ State.reset.plat.base ≤ 0 ∧ 2 ≠ 4 ∧
    (asks State.reset (.regWrite 63 4 0#32)).host.moves = [.regWrite 63 4 0#32] ∧ 63 < State.reset.plat.base + 64 ∧
    (63 - State.reset.plat.base) % 4 ≠ 0 ∧
    (asks State.reset (.regRead 64 4)).host.moves = [.regRead 64 4] ∧ State.reset.plat.base + 64 ≤ 64 ∧
    (let s := { State.reset with plat := { State.reset.plat with base := 0x1000 } };
      0xFFF < s.plat.base) := by decide

/-- Beside `OUT` at 0x200 to 0x20F, across its first byte, and at its first and last byte while busy. -/
theorem witness_HostMemoryMoves :
    (asks State.reset (.memStore 0x1FF [1#8, 2#8])).host.moves = [.memStore 0x1FF [1#8, 2#8]] ∧
    State.reset.busy = false ∧ State.reset.plat.busOk 0x1FF = true ∧ State.reset.plat.busOk 0x200 = true ∧
    (∀ k, k < 2 → running.inSrc (0x1FE + k) = false ∧ running.inOut (0x1FE + k) = false) ∧
    running.busy = true ∧ running.inOut (0x1FF + 1) = true ∧ running.inSrc 0x101 = true ∧
    running.inOut 0x20F = true ∧ running.inOut 0x210 = false := by decide

theorem witness_RaiseRecordsTheError : running.inDst 0x1FF = false ∧ running.inDst 0x210 = false := by decide

/-- `IN` ends where `OUT` begins, and `OUT` ends at the top of the address space. -/
theorem witness_CommandsBegin :
    (let s := mid .deflate .raw .dispatch [] 16;
      { s with reg := { s.reg with srcLen := 0x100#32 } }).regionsOk true ∧
    (let s := mid .deflate .raw .dispatch [1#8] 16;
      { s with reg := { s.reg with dstAddr := 0xFFFFFFF0#32 } }).regionsOk true ∧
    (2#2 : BitVec 2) ≠ 3#2 := by unfold State.regionsOk; decide

/-- One byte past the top, and one byte of overlap. -/
theorem witness_ValidateRaisesBeforeAnyAccess :
    ¬(let s := mid .deflate .raw .dispatch [] 16;
      { s with reg := { s.reg with srcLen := 0x101#32 } }).regionsOk true ∧
    ¬(let s := mid .deflate .raw .dispatch [1#8] 17;
      { s with reg := { s.reg with dstAddr := 0xFFFFFFF0#32 } }).regionsOk true ∧
    (Instr.deflate ⟨2#2, true, false, false⟩).WellFormed ∧
    ¬(let s := mid .deflate .raw .dispatch [1#8, 2#8] 0;
      { s with reg := { s.reg with srcAddr := 0xFFFFFFFF#32 } }).regionsOk false := by
  unfold State.regionsOk Instr.WellFormed; decide

/-- A checksum input of two bytes, its second one backed or not. -/
def summing (unbacked : List (Nat × Nat)) : State :=
  let s := started 5#32 [0x61#8, 0x62#8] 0
  { s with plat := { s.plat with unbacked := unbacked } }

theorem witness_ChecksumCommands :
    (summing []).regionsOk false ∧ (summing []).bytesReady 0 (summing []).reg.srcLen.toNat ∧
    (summing [(0x101, 0x102)]).regionsOk false ∧
    ¬(summing [(0x101, 0x102)]).bytesReady 0 (summing [(0x101, 0x102)]).reg.srcLen.toNat := by
  unfold State.regionsOk State.bytesReady; decide

/-- Two cores that differ in what the last command left in the reader. -/
theorem witness_CommandForgetsThePast :
    (Instr.inflate ⟨0#2, false, false, false⟩).alphabet = .command ∧
    ((started 2#32 [3#8] 16).setInBit 7).reg = (started 2#32 [3#8] 16).reg ∧
    ((started 2#32 [3#8] 16).setInBit 7).mem = (started 2#32 [3#8] 16).mem ∧
    (started 2#32 [3#8] 16).setInBit 7 ≠ started 2#32 [3#8] 16 ∧
    ∃ t, exec (.inflate ⟨0#2, false, false, false⟩) (started 2#32 [3#8] 16) = .next t :=
  ⟨rfl, rfl, rfl, by decide, _, rfl⟩

theorem witness_BlockHeaderRead :
    (∀ b ∈ [0x01#8, 0x03#8, 0x05#8, 0x07#8], (reading .readBlock [b]).atPhase .readBlock ∧
      (reading .readBlock [b]).bitsReady 3 ∧
      (reading .readBlock [b]).streamBits ((reading .readBlock [b]).dec.inBit + 1) 2 = b.toNat / 2) ∧
    (reading .readBlock []).atPhase .readBlock ∧
    8 * (reading .readBlock []).reg.srcLen.toNat < (reading .readBlock []).dec.inBit + 1 ∧
    (∀ k ∈ [6, 7], ((reading .readBlock [0xFF#8]).setInBit k).bitsReady 1 ∧
      8 * ((reading .readBlock [0xFF#8]).setInBit k).reg.srcLen.toNat < k + 3) := by
  unfold State.atPhase State.bitsReady; decide

/-- A core past the header bits of a stored block (D2, D3, D4 cut after `LEN`'s first byte). -/
def stored (input : List Byte) : State := (reading .readBlock input).setInBit 3

theorem witness_StoredBlockRead :
    let short := stored [1#8, 2#8]
    let wrong := stored [1#8, 2#8, 0#8, 0xFD#8, 0xFE#8]
    let right := stored [1#8, 2#8, 0#8, 0xFD#8, 0xFF#8, 0x68#8, 0x69#8]
    short.run.op.encodes = false ∧ short.regionsOk true ∧ short.reg.srcLen.toNat < (short.dec.inBit + 7) / 8 + 2 ∧
    wrong.regionsOk true ∧ wrong.bytesReady ((wrong.dec.inBit + 7) / 8) 4 ∧
    wrong.streamBits 24 16 ≠ wrong.streamBits 8 16 ^^^ 0xFFFF ∧
    right.regionsOk true ∧ right.bytesReady ((right.dec.inBit + 7) / 8) 4 ∧
    right.streamBits 24 16 = right.streamBits 8 16 ^^^ 0xFFFF ∧
    right.bytesReady 5 (right.streamBits 8 16) ∧ right.outReady (right.streamBits 8 16) := by
  unfold State.regionsOk State.bytesReady State.outReady; decide

/-- No `NLEN`, data cut after its first byte, and data for which only one byte has room. -/
theorem witness_StoredBlockRead_errors :
    let half := stored [1#8, 2#8, 0#8, 0xFD#8]
    let cut := stored [1#8, 2#8, 0#8, 0xFD#8, 0xFF#8, 0x68#8]
    let full := (mid .inflate .raw .readBlock [1#8, 2#8, 0#8, 0xFD#8, 0xFF#8, 0x68#8, 0x69#8] 1).setInBit 3
    (half.bytesReady 1 2 ∧ half.reg.srcLen.toNat < 1 + 4) ∧
    (cut.regionsOk true ∧ 1 < cut.streamBits 8 16 ∧ cut.bytesReady 1 4 ∧
      cut.streamBits 24 16 = cut.streamBits 8 16 ^^^ 0xFFFF ∧ cut.bytesReady 5 1 ∧ cut.outReady 1 ∧
      cut.reg.srcLen.toNat = 1 + 4 + 1) ∧
    (full.regionsOk true ∧ full.bytesReady 1 4 ∧ full.outReady 1 ∧ full.bytesReady 5 (1 + 1) ∧
      full.outPos + 1 = full.reg.dstCap.toNat) := by
  unfold State.regionsOk State.bytesReady State.outReady; decide

theorem witness_StaticBlockRead : (reading .readBlock [3#8]).run.op.encodes = false := by decide

/-- E5's header, and one whose `HCLEN` field is 0. -/
theorem witness_DynamicHeaderRead :
    let s := (reading .readBlock
      [0x3D#8, 0xC0#8, 0x21#8, 0x01#8, 0x00#8, 0x00#8, 0x00#8, 0x80#8, 0xA0#8, 0x6D#8]).setInBit 3
    let u := (reading .readBlock [0x05#8, 0x00#8, 0x82#8, 0x00#8]).setInBit 3
    s.run.op.encodes = false ∧ 4 + s.streamBits (s.dec.inBit + 10) 4 = 18 ∧ s.bitsReady (14 + 3 * 18) ∧
    4 + u.streamBits (u.dec.inBit + 10) 4 = 4 ∧ u.bitsReady (14 + 3 * 4) ∧
    -- an input that ends in `HLIT`, in `HDIST`, in `HCLEN`, in the first width and in the last
    (∀ p ∈ [(4, 0, 5), (9, 5, 10), (13, 10, 14), (16, 14, 17), (25, 23, 26)],
      let cut := (reading .readBlock [0#8, 0#8, 0#8, 0#8]).setInBit (32 - p.1);
      cut.bitsReady p.2.1 ∧ 8 * cut.reg.srcLen.toNat < cut.dec.inBit + p.2.2) := by
  unfold State.bitsReady; decide

/-- The list stays short of `m = 2`, is complete, and passes it. -/
theorem witness_CodeLengthSymbolsRead :
    readingWidths.run.op.encodes = false ∧ Instr.cl15.alphabet = .codeLen ∧ Instr.cl15.number < 16 ∧
    (reading .readCodeLen []).dec.widths = [] ∧ readingWidths.dec.widths.getLast? = some 5 ∧
    readingWidths.bitsReady 2 ∧ readingWidths.bitsReady 3 ∧ readingWidths.bitsReady 7 ∧
    (let list := fun m : Nat => { readingWidths with dec := { readingWidths.dec with hlit := m, hdist := 0 } };
      ((list 3).dec.widths ++ [15]).length < (list 3).dec.hlit + (list 3).dec.hdist ∧
      ((list 2).dec.widths ++ [15]).length = (list 2).dec.hlit + (list 2).dec.hdist ∧
      (list 1).dec.hlit + (list 1).dec.hdist < ((list 1).dec.widths ++ [15]).length) ∧
    (∀ n ∈ [2, 3, 7], let cut := readingWidths.setInBit (8 * readingWidths.reg.srcLen.toNat + 1 - n);
      cut.dec.widths ≠ [] ∧ 8 * cut.reg.srcLen.toNat < cut.dec.inBit + n) := by
  unfold State.bitsReady; decide

theorem witness_LiteralsRead :
    let s := mid .inflate .raw .readSym [] 1
    let full := mid .inflate .raw .readSym [] 0
    let hole := { s with plat := { s.plat with unbacked := [(0x200, 0x201)] } }
    (Instr.lit192To255 63#6).alphabet = .litLen ∧ (Instr.lit192To255 63#6).number < 256 ∧
    s.run.op.encodes = false ∧ s.outReady 1 ∧ full.outPos = full.reg.dstCap.toNat ∧
    hole.outPos ≠ hole.reg.dstCap.toNat ∧ hole.plat.busOk (hole.dstByte hole.outPos) = false := by
  unfold State.outReady; decide

theorem witness_EndOfBlockRead :
    (∀ op ∈ [Op.inflate, .inflateZlib, .inflateGzip], (mid op .raw .readSym [] 0).run.op.encodes = false) ∧
    (reading .readSym []).dec.bfinal = false ∧
    (let s := reading .readSym [];
      { s with dec := { s.dec with bfinal := true } }).dec.bfinal = true := by decide

/-- Symbol 284 with its five extra bits, and with four bits left. -/
theorem witness_LengthSymbolsRead :
    (⟨.lensym284, 284, 5, 227⟩ : SymRow) ∈ lengthRows ∧ (reading .readSym [0xFF#8]).run.op.encodes = false ∧
    ((reading .readSym [0xFF#8]).setInBit 3).bitsReady 5 ∧
    8 * ((reading .readSym [0xFF#8]).setInBit 4).reg.srcLen.toNat < 4 + 5 := by
  unfold State.bitsReady; decide

/-- Symbol 4 with its extra bit 1, distance 6: after 6 bytes, after 5, and with no bit left. -/
theorem witness_DistanceSymbolsRead :
    let s := fun n => { mid .inflate .raw .readDist [0xFF#8] 9 with outPos := n }
    (⟨.dsym4, 4, 1, 5⟩ : SymRow) ∈ distanceRows ∧ (s 6).run.op.encodes = false ∧ (s 6).bitsReady 1 ∧
    5 + (s 6).streamBits (s 6).dec.inBit 1 = 6 ∧
    (let u := { s 6 with dec := { (s 6).dec with length := 3 } };
      u.outReady u.dec.length ∧ ∀ k, k < u.outPos → u.plat.busOk (u.dstByte k) = true) ∧
    (s 5).outPos < 6 ∧ 8 * ((s 6).setInBit 8).reg.srcLen.toNat < ((s 6).setInBit 8).dec.inBit + 1 := by
  unfold State.bitsReady State.outReady; decide

/-- H8: symbol 0 of the widths 2, 2, 1 has the code `10`. -/
theorem witness_HuffmanSelfConsistency :
    let s := reading .readSym [0b01#8]
    (∀ x ∈ [2, 2, 1], x ≤ 15) ∧ kraftSum 15 [2, 2, 1] ≤ 2 ^ 15 ∧
    (encodeTable [2, 2, 1])[0]? = some (some ⟨0b01, 2⟩) ∧ s.bitsReady 2 ∧
    ∀ k, k < 2 → s.streamBit (s.dec.inBit + k) = 0b01 / 2 ^ k % 2 := by
  unfold State.bitsReady; decide

theorem witness_CanonicalCodeForms :
    (∀ x ∈ [3, 3, 3, 3, 3, 2, 4, 4], x ≤ 15) ∧ (canonicalCodes [3, 3, 3, 3, 3, 2, 4, 4]).length = 8 ∧
    0 < [3, 3, 3, 3, 3, 2, 4, 4].getD 7 0 ∧ kraftSum 15 [3, 3, 3, 3, 3, 2, 4, 4] ≤ 2 ^ 15 := by decide

/-- One used symbol, and as many as a limit of 1 and of 2 leaves room for. -/
theorem witness_WidthAssignmentContract : 1 ≤ 7 ∧ 0 < [0, 5, 0].length ∧
    ([0, 5, 0].countP fun x => decide (0 < x)) = 1 ∧ ([3, 0, 5].countP fun x => decide (0 < x)) = 2 ∧ 2 ≤ 2 ^ 1 ∧
    ([1, 2, 4, 8].countP fun x => decide (0 < x)) = 2 ^ 2 := by decide

/-- B1's reader: 8 bits, of which 9 are too many, and 32 bits of 5 bytes. -/
theorem witness_ReaderRegistersRefineTheCursor :
    (Reader.start [0xB5#8]).wf = true ∧ (Reader.start [0xB5#8]).pending < 9 ∧
    (∃ r', (Reader.start [0xB5#8]).readBits 3 = some (5, r')) ∧
    (∃ v r', (Reader.start [1#8, 2#8, 3#8, 4#8, 5#8]).readBits 32 = some (v, r')) ∧
    (let s := reading .readBlock [0xB5#8];
      (Reader.start [0xB5#8]).StandsFor s ∧ s.dec.inBit ≤ 8 * s.reg.srcLen.toNat ∧ s.bitsReady 8 ∧
      8 * s.reg.srcLen.toNat < s.dec.inBit + 9) :=
  ⟨by decide, by decide, ⟨_, rfl⟩, ⟨_, _, rfl⟩, ⟨by decide, by decide, by decide⟩, by decide,
    by unfold State.bitsReady; decide, by decide⟩

/-- The headers of K5, K6, K7, K8 and K1. -/
theorem witness_ZlibHeaderChecks :
    (0x79#8).toNat % 16 ≠ 8 ∧ (0x88#8).toNat % 16 = 8 ∧ 7 < (0x88#8).toNat / 16 ∧ (0x78#8).toNat % 16 = 8 ∧
    (0x78#8).toNat / 16 ≤ 7 ∧ ((0x78#8).toNat * 256 + (0x02#8).toNat) % 31 ≠ 0 ∧
    ((0x78#8).toNat * 256 + (0xBB#8).toNat) % 31 = 0 ∧ (0xBB#8).toNat / 32 % 2 = 1 ∧
    ((0x78#8).toNat * 256 + (0x01#8).toNat) % 31 = 0 ∧ (0x01#8).toNat / 32 % 2 = 0 ∧
    (let s := mid .inflateZlib .raw .zlibHeaderIn [0x78#8, 0x01#8] 0;
      s.atPhase .zlibHeaderIn ∧ s.dec.inBit = 0 ∧ s.bytesReady 0 2) ∧
    (mid .inflateZlib .raw .zlibHeaderIn [] 0).reg.srcLen = 0#32 ∧
    (mid .inflateZlib .raw .zlibHeaderIn [0x78#8] 0).reg.srcLen = 1#32 ∧
    (mid .inflateZlib .raw .zlibHeaderIn [0x78#8] 0).bytesReady 0 1 := by
  unfold State.atPhase State.bytesReady; decide

/-- K4, K9 and K10. -/
theorem witness_ZlibTrailerRead :
    let s := fun input => mid .inflateZlib .raw .zlibTrailerIn input 16
    (s []).run.op = .inflateZlib ∧ (2#32 : Word) ≠ BitVec.ofNat 32 (65536 * (s []).sum.s2 + (s []).sum.s1) ∧
    (1#32 : Word) = BitVec.ofNat 32 (65536 * (s []).sum.s2 + (s []).sum.s1) ∧
    (s [1#8, 2#8, 3#8]).atPhase .zlibTrailerIn ∧
    (s [1#8, 2#8, 3#8]).reg.srcLen.toNat < (s [1#8, 2#8, 3#8]).dec.inBit / 8 + 4 ∧
    (s [1#8, 2#8, 3#8, 4#8]).atPhase .zlibTrailerIn ∧ (s [1#8, 2#8, 3#8, 4#8]).bytesReady 0 4 := by
  unfold State.atPhase State.bytesReady; decide

theorem witness_GzipHeaderRead :
    let s := fun n => mid .inflateGzip .raw .gzipHeader (List.replicate n 0x1F#8) 16
    (0x8C#8 : Byte) ≠ 0x8B#8 ∧ (7#8 : Byte) ≠ 8#8 ∧ (0xE1#8 : Byte) &&& 0x1E#8 = 0#8 ∧
    (0x10#8 : Byte) &&& 0x1E#8 ≠ 0#8 ∧ (s 9).atPhase .gzipHeader ∧ (s 9).dec.inBit = 0 ∧
    (s 9).reg.srcLen.toNat < 10 ∧ (s 10).atPhase .gzipHeader ∧ (s 10).bytesReady 0 10 := by
  unfold State.atPhase State.bytesReady; decide

/-- The fields of G5, G4 and G2, and inputs that end too early. -/
theorem witness_GzipOptionalFieldsRead :
    let extra := field 0x1E#8 [2#8, 0#8, 0x41#8, 0x42#8]
    let cut := field 4#8 [2#8, 0#8, 0x41#8]
    let name := field 0x1A#8 [0x61#8, 0#8]
    let open' := field 8#8 [0x61#8, 0x62#8]
    let crc := (field 2#8 [0x1F#8, 0x8B#8, 8#8, 2#8, 0#8, 0#8, 0#8, 0#8, 0#8, 0xFF#8, 0x90#8, 0xC9#8]).setInBit 80
    extra.atPhase .gzipOptional ∧ extra.dec.gzFlags.getLsbD 2 = true ∧ name.dec.gzFlags &&& 0x0C#8 = 8#8 ∧
    (field 0x12#8 []).dec.gzFlags &&& 0x1C#8 = 16#8 ∧ crc.dec.gzFlags &&& 0x1E#8 = 2#8 ∧
    (field 4#8 [2#8]).reg.srcLen.toNat < 0 + 2 ∧ extra.bytesReady 0 2 ∧ 0 + 2 + 2 ≤ extra.reg.srcLen.toNat ∧
    cut.bytesReady 0 2 ∧ cut.reg.srcLen.toNat < 0 + 2 + 2 ∧
    name.bytesReady 0 (1 + 1) ∧ name.mem.read (name.srcByte 0) ≠ 0#8 ∧ name.mem.read (name.srcByte 1) = 0#8 ∧
    open'.bytesReady 0 (open'.reg.srcLen.toNat - 0) ∧
    (∀ k, k < open'.reg.srcLen.toNat → open'.mem.read (open'.srcByte k) ≠ 0#8) ∧
    crc.bytesReady 0 (10 + 2) ∧ 0x90 + 256 * 0xC9 = (crc32Of (crc.inputBytes 0 10)).toNat % 65536 ∧
    0x91 + 256 * 0xC9 ≠ (crc32Of (crc.inputBytes 0 10)).toNat % 65536 := by
  unfold State.atPhase State.bytesReady; decide

theorem witness_GzipTrailersRead :
    let s := fun n => mid .inflateGzip .raw .gzipTrailerIn (List.replicate n 0#8) 16
    (s 8).run.op = .inflateGzip ∧ (1#32 : Word) ≠ (s 8).sum.crc ^^^ 0xFFFFFFFF#32 ∧
    (0#32 : Word) = (s 8).sum.crc ^^^ 0xFFFFFFFF#32 ∧ (1#32 : Word).toNat ≠ (s 8).outPos % 4294967296 ∧
    (0#32 : Word).toNat = (s 8).outPos % 4294967296 ∧ (s 7).atPhase .gzipTrailerIn ∧
    (s 7).reg.srcLen.toNat < (s 7).dec.inBit / 8 + 8 ∧ (s 8).atPhase .gzipTrailerIn ∧ (s 8).bytesReady 0 8 ∧
    (s 8).run.strict = false ∧
    (let u := { s 8 with run := { (s 8).run with strict := true } };
      u.bytesReady 0 8 ∧ u.run.strict = true) := by
  unfold State.atPhase State.bytesReady; decide

/-- A literal read that leaves the command running, at the start of its output. -/
theorem witness_ChecksumsFollowTheOutput :
    let s := reading .readSym []
    (Instr.lit0To127 65#7).alphabet ≠ .command ∧ (Instr.lit0To127 65#7).alphabet ≠ .zlibHeaderOut ∧
    s.run.op.encodes = false ∧ s.sum = Sums.fresh.addAll s.output ∧
    ∃ t, exec (.lit0To127 65#7) s = .next t ∧ t.busy = true :=
  ⟨by decide, by decide, rfl, by decide, _, rfl, rfl⟩

theorem witness_ZlibHeaderAndTrailerWritten :
    (mid .deflateZlib .raw .zlibHeaderOut [] 2).outReady 2 ∧ (mid .deflateZlib .raw .zlibTrailerOut [] 4).outReady 4 ∧
    (mid .deflateZlib .raw .zlibTrailerOut [] 4).run.op = .deflateZlib := by unfold State.outReady; decide

/-- A writer that holds these bits, with room for exactly `cap` bytes. -/
def writer (tag : Word) (n cap : Nat) : State := (mid .deflate .fixed .writeSym [] cap).setWriter tag n

/-- No bit at all, and 16 bits behind 15. -/
theorem witness_WriteBitsAppends :
    (writer 0#32 0 0).writerOk ∧ (writer 0#32 0 0).outReady ((writer 0#32 0 0).unitsFor 0) ∧
    (writer 0x7FFF#32 15 2).writerOk ∧ 16 ≤ 16 ∧ 0xFFFF < 2 ^ 16 ∧
    (writer 0x7FFF#32 15 2).outReady ((writer 0x7FFF#32 15 2).unitsFor 16) := by
  unfold State.writerOk State.outReady; decide

theorem witness_FlushPadsAndIsIdempotent :
    (writer 0#32 0 0).writerOk ∧ (writer 0#32 0 0).outReady 0 ∧ (writer 0x7FFF#32 15 2).writerOk ∧
    (writer 0x7FFF#32 15 2).outReady ((15 + 7) / 8) ∧
    (∀ op ∈ [Op.deflate, .deflateZlib], (mid op .raw .flush [] 0).atPhase .flush ∧
      (mid op .raw .flush [] 0).run.op = op) ∧
    (let s := (mid .deflate .raw .flush [] 0).setWriter 1#32 1;
      s.atPhase .flush ∧ 0 < s.enc.bitsWritten ∧ s.outPos = s.reg.dstCap.toNat) := by
  unfold State.writerOk State.outReady State.atPhase; decide

/-- E2's chunk, behind 15 bits. -/
theorem witness_StoredBlockWritten :
    let w := writer 0x7FFF#32 15 10
    let s := { w with run := { w.run with mode := .raw }, enc := { w.enc with chunk := [0x68#8, 0x69#8] } }
    s.run.op.encodes = true ∧ s.writerOk ∧ s.enc.chunk.length ≤ 65535 ∧
    s.outReady (s.unitsFor (3 + (8 - (s.enc.bitsWritten + 3) % 8) % 8 + 32 + 8 * 2)) ∧ s.lastBlock = true ∧
    (let u := { s with reg := { s.reg with srcLen := 65536#32 } };
      u.lastBlock = false) := by unfold State.writerOk State.outReady; decide +kernel

/-- E5's header counts, and the least ones. -/
theorem witness_StaticAndDynamicHeadersWritten :
    let s := writer 0x7FFF#32 15 10
    s.run.op.encodes = true ∧ s.writerOk ∧ s.outReady (s.unitsFor 3) ∧
    257 ≤ 264 ∧ 264 ≤ 288 ∧ 1 ≤ 1 ∧ 1 ≤ 32 ∧ 4 ≤ 18 ∧ 18 ≤ 19 ∧ (∀ w ∈ [0, 2, 2], w ≤ 7) ∧
    s.outReady (s.unitsFor (17 + 3 * 18)) ∧ s.outReady (s.unitsFor (17 + 3 * 4)) := by
  unfold State.writerOk State.outReady; decide

/-- A core that writes with the fixed tables: a 9-bit literal, and `EndOfBlock` in the last and in another block. -/
def writingFixed (syms : List Sym) : State :=
  let s := (writer 0x7FFF#32 15 8).withFixedEncodeTables
  { s with enc := { s.enc with syms := syms } }

theorem witness_LiteralsAndEndOfBlockWritten :
    let s := writingFixed [.literal 0xFF#8, .endOfBlock]
    (Instr.lit192To255 63#6).alphabet = .litLen ∧ (Instr.lit192To255 63#6).number = 255 ∧ s.run.op.encodes = true ∧
    s.writerOk ∧ s.enc.litTable[255]? = some (some ⟨0b111111111, 9⟩) ∧ HuffCode.ok ⟨0b111111111, 9⟩ ∧
    s.outReady (s.unitsFor 9) ∧ s.enc.litTable[256]? = some (some ⟨0, 7⟩) ∧ HuffCode.ok ⟨0, 7⟩ ∧
    s.outReady (s.unitsFor 7) ∧ s.lastBlock = true ∧
    (let u := { s with reg := { s.reg with srcLen := 1048577#32 } };
      u.lastBlock = false) := by
  unfold State.writerOk State.outReady HuffCode.ok; decide +kernel

/-- The longest pointer codes: 257 (`LENSYM 284 +30`) and 32768 (`DSYM 29 +8191`). -/
theorem witness_PointersWritten :
    let s := writingFixed [.pointer 257 32768]
    (⟨.lensym284, 284, 5, 227⟩ : SymRow) ∈ lengthRows ∧ (⟨.dsym29, 29, 13, 24577⟩ : SymRow) ∈ distanceRows ∧
    s.run.op.encodes = true ∧ s.writerOk ∧ s.enc.syms.head? = some (.pointer 257 32768) ∧
    227 ≤ 257 ∧ 257 - 227 < 2 ^ 5 ∧ s.enc.litTable[284]? = some (some ⟨0b00100011, 8⟩) ∧
    HuffCode.ok ⟨0b00100011, 8⟩ ∧ s.outReady (s.unitsFor (8 + 5)) ∧
    24577 ≤ 32768 ∧ 32768 - 24577 < 2 ^ 13 ∧ s.enc.distTable[29]? = some (some ⟨0b10111, 5⟩) ∧
    HuffCode.ok ⟨0b10111, 5⟩ ∧ s.outReady (s.unitsFor (5 + 13)) := by
  unfold State.writerOk State.outReady HuffCode.ok; decide +kernel

/-- E5's code-length code: `CL 18 +127`. -/
theorem witness_CodeLengthSymbolsWritten :
    let w := writer 0#32 0 2
    let s := { w with enc := { w.enc with
      clSeq := [(18, 127)], clTable := encodeTable [0, 2, 2, 0, 0, 0, 0, 0, 0, 0, 0, 0, 0, 0, 0, 0, 0, 2, 2] } }
    Instr.cl18.alphabet = .codeLen ∧ s.run.op.encodes = true ∧ s.writerOk ∧
    s.enc.clSeq = (Instr.cl18.number, 127) :: [] ∧ 127 < 2 ^ clExtraBits 18 ∧
    s.enc.clTable[18]? = some (some ⟨0b11, 2⟩) ∧ HuffCode.ok ⟨0b11, 2⟩ ∧ s.outReady (s.unitsFor (2 + 7)) := by
  unfold State.writerOk State.outReady HuffCode.ok; decide

/-- A chunk read in each mode, with a window and without, and one whose second byte is not backed. -/
theorem witness_ChunkRead :
    let s := fun (mode : Mode) (win : Option Nat) (unbacked : List (Nat × Nat)) =>
      let w := mid .deflate mode .loadChunk [0x68#8, 0x69#8] 16
      { w with run := { w.run with win := win }, plat := { w.plat with unbacked := unbacked } }
    (∀ mode ∈ [Mode.raw, .fixed, .dynamic], (s mode none []).atPhase .loadChunk ∧ (s mode none []).run.mode = mode) ∧
    (s .fixed none []).run.win = none ∧ (s .dynamic (some 0) []).run.win ≠ none ∧
    (∀ k, k < min 1048576 ((s .fixed none []).reg.srcLen.toNat - 0) →
      (s .fixed none []).plat.busOk ((s .fixed none []).srcByte (0 + k)) = true) ∧
    1 < min 1048576 ((s .fixed none []).reg.srcLen.toNat - 0) ∧
    (s .fixed none [(0x101, 0x102)]).plat.busOk ((s .fixed none [(0x101, 0x102)]).srcByte (0 + 1)) = false := by
  unfold State.atPhase; decide

theorem witness_DynamicTablesBuilt :
    let w := mid .deflate .dynamic .buildTables [0x41#8] 16
    ({ w with enc := { w.enc with syms := [.literal 0x41#8, .endOfBlock] } }).atPhase .buildTables := ⟨rfl, rfl⟩

theorem witness_LenSymAndDistSym : 3 ≤ 3 ∧ 258 ≤ 258 ∧ 1 ≤ 1 ∧ 32768 ≤ 32768 := by decide

theorem witness_RunLengthCodeExpands : (∀ x ∈ [5, 5, 5, 5, 0, 0, 0, 15], x ≤ 15) ∧
    (rle [5, 5, 5, 5, 0, 0, 0, 15]).length = 4 := by decide +kernel

/-- Z1. -/
theorem witness_Lz77LegalAndFaithful :
    lz77 32768 (List.replicate 10 0x41#8) = [.literal 0x41#8] ++ .pointer 9 1 :: [] := by decide +kernel

theorem witness_ScanStepsAddUpToLz77 :
    let w := mid .deflate .fixed .scanChunk [0x41#8] 8
    let s := { w with run := { w.run with win := some 32768 }, enc := { w.enc with chunk := [0x41#8] } }
    s.seq = .busy .scanChunk ∧ s.run.win = some 32768 ∧ s.run.mode ≠ .raw ∧ s.enc.scanPos = 0 ∧
    s.enc.prefixTable = [] ∧ s.enc.syms = [] := by decide

theorem witness_DecodeEncodeRoundTrip : (Instr.gzipHeader 0x1F#8 0x8B#8 8#8 0xFF#8 0xFFFFFFFF#32 0#8 3#8).WellFormed ∧
    (Instr.invalidMode3 true ⟨3#2, true, true, true⟩).WellFormed := by decide

end Sys2Proof.Tests
end

section
/-! PROOFS. What one engine step of a running command can do (spec/10_state.md R56 to R60): every operation inside it
keeps the registers, canonical memory and the reduced Adler pair; where it goes through, the cursors stay in bounds as
well; and the step ends with the command running, finished, or with an error raised. -/

namespace Sys2Proof.Machine

/-! ## What holds inside a step -/

/-- What every point inside a step keeps, beside a raised error too: the registers `r` the step began with, canonical
memory (R105) and a reduced Adler pair (R55). -/
structure State.Steady (r : Regs) (s : State) : Prop where
  reg : s.reg = r
  memory : s.mem.wf = true
  adler : s.sum.s1 < 65521 ∧ s.sum.s2 < 65521

/-- What holds between two operations of the command `c` in sequencer state `q`: as `State.Steady`, with the cursors in
bounds and the writer holding fewer than 16 bits (R58). -/
structure State.Live (r : Regs) (c : Run) (q : Seq) (s : State) : Prop extends State.Steady r s where
  run : s.run = c
  seq : s.seq = q
  outPos : s.outPos ≤ r.dstCap.toNat
  inBit : s.dec.inBit ≤ 8 * r.srcLen.toNat
  writer : s.writerOk

/-- The command is the one the registers name (R103), it has an output, and its regions passed the check (R107). -/
structure Run.NamedBy (c : Run) (r : Regs) : Prop where
  op : c.op.number = r.cmd.toNat % 16
  config : c = runOf c.op (cmdFields r.cmd.toNat) r.window
  hasOutput : c.op.hasOutput = true
  buffers : r.buffersOk c.op = true

/-- The parts of the state that `State.Live` speaks of, but for the sequencer. -/
def State.vitals (s : State) : Regs × Run × Memory × Sums × Nat × Nat × Word × Nat :=
  (s.reg, s.run, s.mem, s.sum, s.outPos, s.dec.inBit, s.enc.tag, s.enc.bitsWritten)

/-- An update of the queues, the tables or the sequencer keeps `State.Live`. -/
theorem State.Live.of_vitals {r : Regs} {c : Run} {q q' : Seq} {s t : State} (h : s.Live r c q)
    (e : t.vitals = s.vitals) (hq : t.seq = q') : t.Live r c q' := by
  simp only [State.vitals, Prod.mk.injEq] at e
  obtain ⟨hreg, hrun, hmem, hsum, hout, hin, htag, hbits⟩ := e
  exact
    { reg := hreg.trans h.reg
      memory := hmem ▸ h.memory
      adler := hsum ▸ h.adler
      run := hrun.trans h.run
      seq := hq
      outPos := hout ▸ h.outPos
      inBit := hin ▸ h.inBit
      writer := by unfold State.writerOk; rw [htag, hbits]; exact h.writer }

/-- How an engine step of a command with registers `r` can end: the command runs on, is finished (R681), or has raised an
error (R682). -/
inductive EngineEnd (r : Regs) : State → Prop where
  | runs {t : State} (p : Phase) (seq : t.seq = .busy p) (steady : t.Steady r) (ok : t.RunOk p) : EngineEnd r t
  | finishes {u : State} (steady : u.Steady r) : EngineEnd r u.finish
  | raises {u : State} (e : CodecError) (steady : u.Steady r) : EngineEnd r (u.raise e)

/-- A live state in a phase of the command's direction is one in which the command runs on; the two phases with a
condition of their own ask for it. -/
theorem State.Live.runs {r : Regs} {c : Run} {p : Phase} {t : State} (h : t.Live r c (.busy p)) (hc : c.NamedBy r)
    (hd : p.encodes = c.op.encodes) (hl : p = .readDist → 3 ≤ t.dec.length ∧ t.dec.length ≤ 258 := by nofun)
    (hw : p = .readCodeLen → t.dec.widths.length < t.dec.hlit + t.dec.hdist := by nofun) : EngineEnd r t := by
  obtain ⟨steady, rfl, hseq, hout, hin, hwr⟩ := h
  obtain ⟨rfl, _, _⟩ := id steady
  exact .runs p hseq steady ⟨hc.op, hc.config, hc.hasOutput, hc.buffers, hd, hout, hin, hwr, hl, hw⟩

/-- The command runs on in phase `p` after an update of the queues, the tables and the sequencer. -/
theorem State.Live.goesTo {r : Regs} {c : Run} {q : Seq} {s t : State} (h : s.Live r c q) (hc : c.NamedBy r)
    (p : Phase) (e : t.vitals = s.vitals) (hseq : t.seq = .busy p) (hd : p.encodes = c.op.encodes)
    (hl : p = .readDist → 3 ≤ t.dec.length ∧ t.dec.length ≤ 258 := by nofun)
    (hw : p = .readCodeLen → t.dec.widths.length < t.dec.hlit + t.dec.hdist := by nofun) : EngineEnd r t :=
  (h.of_vitals e hseq).runs hc hd hl hw

/-- An answer's state has the property `P`; beside a raised error it is steady. -/
inductive Res.Ends {α : Type} (r : Regs) (P : State → Prop) : Res α → Prop where
  | ok {v : α} {t : State} (h : P t) : Res.Ends r P (.ok v t)
  | raised {e : CodecError} {t : State} (h : t.Steady r) : Res.Ends r P (.raised e t)
  | fault (f : Fault) : Res.Ends r P (.fault f)
  | refused (f : Refusal) : Res.Ends r P (.refused f)

theorem Res.Ends.andThen {α β : Type} {r : Regs} {P Q : State → Prop} {a : Res α} {k : α → State → Res β}
    (h : a.Ends r P) (hk : ∀ v t, a = .ok v t → P t → (k v t).Ends r Q) : (a.andThen k).Ends r Q := by
  cases h with
  | ok h => exact hk _ _ rfl h
  | raised h => exact .raised h
  | fault f => exact .fault f
  | refused f => exact .refused f

theorem Res.Ends.imp {α : Type} {r : Regs} {P Q : State → Prop} {a : Res α} (h : a.Ends r P)
    (hPQ : ∀ t, P t → Q t) : a.Ends r Q := by
  cases h with
  | ok h => exact .ok (hPQ _ h)
  | raised h => exact .raised h
  | fault f => exact .fault f
  | refused f => exact .refused f

/-- Every next state an outcome can be is an end of the step. -/
def OutcomeEnds (r : Regs) (o : Host.Outcome State Fault Refusal) : Prop := ∀ t, o = .next t → EngineEnd r t

theorem EngineEnd.next {r : Regs} {t : State} (h : EngineEnd r t) : OutcomeEnds r (.next t) := by
  rintro _ ⟨⟩
  exact h

theorem Res.Ends.outcome {r : Regs} {a : Res Unit} (h : a.Ends r (EngineEnd r)) : OutcomeEnds r a.outcome := by
  intro t ht
  rcases Res.outcome_eq_next.1 ht with rfl | ⟨e, u, rfl, rfl⟩
  · cases h with
    | ok h => exact h
  · cases h with
    | raised h => exact .raises e h

/-! ## The checksum registers stay reduced (R652) -/

theorem Sums.addByte_reduced (u : Sums) (b : Byte) : (u.addByte b).s1 < 65521 ∧ (u.addByte b).s2 < 65521 :=
  ⟨Nat.mod_lt _ (by decide), Nat.mod_lt _ (by decide)⟩

theorem Sums.addAll_reduced {u : Sums} (bs : List Byte) (h : u.s1 < 65521 ∧ u.s2 < 65521) :
    (u.addAll bs).s1 < 65521 ∧ (u.addAll bs).s2 < 65521 := by
  induction bs generalizing u with
  | nil => exact h
  | cons b rest ih => exact ih (u.addByte_reduced b)

theorem Sums.chained_reduced (chain : Bool) (v : Word) :
    (Sums.chained chain v).s1 < 65521 ∧ (Sums.chained chain v).s2 < 65521 := by
  cases chain with
  | false => exact (by decide : Sums.fresh.s1 < 65521 ∧ Sums.fresh.s2 < 65521)
  | true => exact ⟨Nat.mod_lt _ (by decide), Nat.mod_lt _ (by decide)⟩

/-! ## The writer stays in its bounds (R202) -/

/-- Bits joined to the tag above its valid ones stay below the new count. -/
theorem tag_append_lt {tag : Word} {n w bits : Nat} (ht : tag.toNat < 2 ^ n) (hb : bits < 2 ^ w) :
    (tag ||| (BitVec.ofNat 32 bits <<< n)).toNat < 2 ^ (n + w) := by
  have hshift : (BitVec.ofNat 32 bits <<< n).toNat ≤ bits * 2 ^ n := by
    rw [BitVec.toNat_shiftLeft, BitVec.toNat_ofNat, Nat.shiftLeft_eq]
    exact (Nat.mod_le _ _).trans (Nat.mul_le_mul_right _ (Nat.mod_le _ _))
  rw [BitVec.toNat_or]
  refine Nat.or_lt_two_pow (ht.trans_le (Nat.pow_le_pow_right (by decide) (Nat.le_add_right n w))) ?_
  calc (BitVec.ofNat 32 bits <<< n).toNat ≤ bits * 2 ^ n := hshift
    _ < 2 ^ w * 2 ^ n := Nat.mul_lt_mul_of_pos_right hb (Nat.two_pow_pos n)
    _ = 2 ^ (n + w) := by rw [← pow_add, Nat.add_comm]

theorem writeBits_writerOk {w bits : Nat} {s t : State} (hs : s.writerOk) (h : writeBits w bits s = .ok () t) :
    t.writerOk := by
  refine ⟨writeBits_bitsWritten hs.1 h, ?_⟩
  unfold writeBits at h
  split at h
  · cases h
  · rename_i hdom
    have htag := tag_append_lt (w := w) (bits := bits) hs.2 (by omega)
    dsimp only at h
    split at h
    · rename_i hfull
      rw [Res.andThen_eq_ok] at h
      obtain ⟨_, u, -, h⟩ := h
      rw [Res.andThen_eq_ok] at h
      obtain ⟨_, v, -, h⟩ := h
      cases h
      rw [State.setWriter_enc, BitVec.toNat_ushiftRight, Nat.shiftRight_eq_div_pow, Nat.div_lt_iff_lt_mul (by decide),
        ← pow_add, Nat.sub_add_cancel hfull]
      exact htag
    · cases h
      exact htag

theorem flush_writerOk {s t : State} (h : flush s = .ok () t) : t.writerOk := by
  rw [flush, Res.andThen_eq_ok] at h
  obtain ⟨_, u, -, h⟩ := h
  cases h
  exact ⟨by simp, by simp⟩

/-! ## The operations -/

section Operations
variable {r : Regs} {c : Run} {q : Seq} {s t : State} {α : Type} {a : Res α}

theorem State.Steady.written (h : s.Steady r) (w : Written s t) : t.Steady r :=
  ⟨w.reg.trans h.reg, w.wf h.memory, w.sum ▸ h.adler⟩

theorem State.Live.written (h : s.Live r c q) (w : Written s t) (ht : t.writerOk) : t.Live r c q where
  toSteady := h.toSteady.written w
  run := w.run.trans h.run
  seq := w.seq.trans h.seq
  outPos := by have := w.capacity; rw [h.reg] at this; exact this h.outPos
  inBit := w.dec ▸ h.inBit
  writer := ht

/-- A writing operation that leaves the writer in its bounds. -/
theorem State.Live.written_ends (h : s.Live r c q) (hw : a.All (Written s))
    (hok : ∀ v t, a = .ok v t → t.writerOk) : a.Ends r (State.Live r c q) := by
  cases a with
  | ok v t => exact .ok (h.written hw (hok v t rfl))
  | raised e t => exact .raised (h.toSteady.written hw)
  | fault f => exact .fault f
  | refused f => exact .refused f

/-- An operation all of whose answers are live. -/
theorem Res.All.ends {P : State → Prop} (ha : a.All P) (hP : ∀ t, P t → t.Live r c q) :
    a.Ends r (State.Live r c q) := by
  cases a with
  | ok v t => exact .ok (hP t ha)
  | raised e t => exact .raised (hP t ha).toSteady
  | fault f => exact .fault f
  | refused f => exact .refused f

theorem State.Live.setInBit (h : s.Live r c q) {n : Nat} (hn : n ≤ 8 * r.srcLen.toNat) :
    (s.setInBit n).Live r c q :=
  ⟨⟨h.reg, h.memory, h.adler⟩, h.run, h.seq, h.outPos, hn, h.writer⟩

theorem State.Live.alignIn (h : s.Live r c q) : (alignIn s).Live r c q :=
  h.setInBit (by have := h.inBit; omega)

/-! ### Writing -/

theorem writeBits_ends (h : s.Live r c q) (w bits : Nat) : (writeBits w bits s).Ends r (State.Live r c q) :=
  h.written_ends (writeBits_written w bits s) fun _ _ => writeBits_writerOk h.writer

theorem alignOut_ends (h : s.Live r c q) : (alignOut s).Ends r (State.Live r c q) := writeBits_ends h _ _

theorem flush_ends (h : s.Live r c q) : (flush s).Ends r (State.Live r c q) :=
  h.written_ends (flush_written s) fun _ _ => flush_writerOk

theorem emit_writer {b : Byte} {v : Unit} (he : emit b s = .ok v t) (hs : s.writerOk) : t.writerOk := by
  rcases emit_cases b s with ⟨_, _, k⟩ | ⟨_, k⟩ | ⟨_, _, k⟩ <;> rw [k] at he <;> cases he
  exact hs

theorem emit_ends (h : s.Live r c q) (b : Byte) : (emit b s).Ends r (State.Live r c q) :=
  h.written_ends (emit_written b s) fun _ _ he => emit_writer he h.writer

theorem writeBytes_ends (h : s.Live r c q) (bytes : List Byte) :
    (writeBytes bytes s).Ends r (State.Live r c q) := by
  induction bytes generalizing s with
  | nil => exact .ok h
  | cons b rest ih => exact (writeBits_ends h _ _).andThen fun _ _ _ ht => ih ht

theorem writeClWidths_ends (h : s.Live r c q) (ws : List Nat) :
    (writeClWidths ws s).Ends r (State.Live r c q) := by
  induction ws generalizing s with
  | nil => exact .ok h
  | cons w rest ih => exact (writeBits_ends h _ _).andThen fun _ _ _ ht => ih ht

theorem encodeSymbol_ends (h : s.Live r c q) (table : List (Option HuffCode)) (sym : Nat) :
    (encodeSymbol table sym s).Ends r (State.Live r c q) := by
  unfold encodeSymbol
  split
  · exact writeBits_ends h _ _
  · exact .fault _

theorem emitBE_ends (h : s.Live r c q) (w : Word) : (emitBE w s).Ends r (State.Live r c q) :=
  (emit_ends h _).andThen fun _ _ _ h => (emit_ends h _).andThen fun _ _ _ h =>
  (emit_ends h _).andThen fun _ _ _ h => emit_ends h _

/-! ### Reading -/

theorem memRead_ends (h : s.Live r c q) (k : Nat) : (memRead k s).Ends r (State.Live r c q) := by
  unfold memRead
  split
  · exact .ok h
  · exact .raised h.toSteady

theorem memReadAll_ends (h : s.Live r c q) (k n : Nat) : (memReadAll k n s).Ends r (State.Live r c q) :=
  memReadAll_all.ends fun _ e => e ▸ h

theorem needBytes_ends (h : s.Live r c q) (p n : Nat) : (needBytes p n s).Ends r (State.Live r c q) := by
  unfold needBytes
  split
  · exact .raised h.toSteady
  · exact .ok h

theorem readBits_ends (h : s.Live r c q) (n : Nat) : (readBits n s).Ends r (State.Live r c q) := by
  have hall := readBits_all n s
  cases hr : readBits n s with
  | ok v t =>
    obtain ⟨hn, -, rfl⟩ := readBits_ok hr
    exact .ok (h.setInBit (h.reg ▸ hn))
  | raised e t =>
    rw [hr] at hall
    obtain ⟨m, rfl⟩ := hall
    exact .raised ⟨h.reg, h.memory, h.adler⟩
  | fault f => exact .fault f
  | refused f => exact .refused f

theorem readBitsBase_ends (h : s.Live r c q) (n base : Nat) :
    (readBitsBase n base s).Ends r (State.Live r c q) :=
  (readBits_ends h n).andThen fun _ _ _ ht => .ok ht

theorem descend_ends (h : s.Live r c q) (translation counts : List Nat) (cur sum : Nat) :
    (descend translation counts cur sum s).Ends r (State.Live r c q) := by
  induction counts generalizing s cur sum with
  | nil => exact .raised h.toSteady
  | cons n counts ih =>
    refine (readBits_ends h 1).andThen fun bit t _ ht => ?_
    split
    · split
      · exact .ok ht
      · exact .raised ht.toSteady
    · exact ih ht _ _

theorem decodeSymbol_ends (h : s.Live r c q) (table : DecTable) :
    (decodeSymbol table s).Ends r (State.Live r c q) := descend_ends h _ _ _ _

theorem readClWidths_ends (h : s.Live r c q) (n : Nat) : (readClWidths n s).Ends r (State.Live r c q) := by
  induction n generalizing s with
  | zero => exact .ok h
  | succ n ih => exact (readBits_ends h 3).andThen fun _ _ _ ht => (ih ht).andThen fun _ _ _ hu => .ok hu

theorem recordBytes_ends (h : s.Live r c q) (n : Nat) : (recordBytes n s).Ends r (State.Live r c q) := by
  refine (needBytes_ends h _ n).andThen fun _ t hn _ => ?_
  obtain ⟨hlen, rfl⟩ := needBytes_ok _ _ hn
  rw [h.reg] at hlen
  refine (memReadAll_ends h _ _).andThen fun _ u hu _ => ?_
  obtain ⟨-, -, rfl⟩ := memReadAll_eq_ok.1 hu
  exact .ok (h.setInBit (by omega))

/-! ### Emitting decompressed bytes -/

theorem emitOut_ends (h : s.Live r c q) (b : Byte) : (emitOut b s).Ends r (State.Live r c q) :=
  (emit_ends h b).andThen fun _ t _ ht =>
    .ok ⟨⟨ht.reg, ht.memory, t.sum.addByte_reduced b⟩, ht.run, ht.seq, ht.outPos, ht.inBit, ht.writer⟩

theorem copyStored_ends (h : s.Live r c q) (n : Nat) : (copyStored n s).Ends r (State.Live r c q) := by
  induction n generalizing s with
  | zero => exact .ok h
  | succ n ih => exact (readBits_ends h 8).andThen fun _ _ _ ht => (emitOut_ends ht _).andThen fun _ _ _ hu => ih hu

theorem copyLoop_ends (h : s.Live r c q) (d n : Nat) : (copyLoop d n s).Ends r (State.Live r c q) := by
  induction n generalizing s with
  | zero => exact .ok h
  | succ n ih => exact (memRead_ends h _).andThen fun _ _ _ ht => (emitOut_ends ht _).andThen fun _ _ _ hu => ih hu

theorem copy_ends (h : s.Live r c q) (len d : Nat) : (copy len d s).Ends r (State.Live r c q) := by
  unfold copy
  split
  · exact .raised h.toSteady
  · exact copyLoop_ends h d len

/-! ### The next word -/

theorem nextWord_ends (h : s.Live r c q) (p : Phase) : (nextWord p s).2.Ends r (State.Live r c q) := by
  have record (n : Nat) (f : List Byte → Nat) :
      ((recordBytes n s).andThen fun bytes s => .ok (f bytes) s).Ends r (State.Live r c q) :=
    (recordBytes_ends h n).andThen fun _ _ _ ht => .ok ht
  cases p with
  | dispatch | zlibHeaderOut | writeBlock | writeDist | zlibTrailerOut | loadChunk | scanChunk | buildTables | flush
  | gzipOptional => exact .ok h
  | writeCodeLen =>
    show (nextCl s).Ends _ _
    unfold nextCl
    split
    · exact .ok h
    · exact .fault _
  | writeSym =>
    show (nextSym s).Ends _ _
    unfold nextSym
    split
    · exact .ok h
    · exact .ok h
    · exact .ok h
    · exact .fault _
  | zlibHeaderIn =>
    exact (readBits_ends h 8).andThen fun _ _ _ ht => (readBits_ends ht 8).andThen fun _ _ _ hu => .ok hu
  | readBlock =>
    exact (readBits_ends h 1).andThen fun b t _ ht =>
      readBits_ends (ht.of_vitals (t := t.latchFinal b) rfl ht.seq) 2
  | readCodeLen | readSym | readDist => exact decodeSymbol_ends h _
  | gzipHeader | zlibTrailerIn => exact record _ bigEndian
  | gzipTrailerIn => exact record _ littleEndian

end Operations

end Sys2Proof.Machine
end

section
/-! PROOFS. Which meanings the words of each alphabet have, and how each ends a step of a running command. -/

namespace Sys2Proof.Machine

/-! ## What a decoded word runs -/

/-- The length rows of R520 to R548 are the length instructions' meanings. -/
theorem exec_lengthRow {row : SymRow} (h : row ∈ lengthRows) (s : State) :
    exec row.instr s = (lengthSymbol row.sym row.extra row.base s).outcome := by
  fin_cases h <;> rfl

/-- The distance rows of R551 to R580 are the distance instructions' meanings. -/
theorem exec_distanceRow {row : SymRow} (h : row ∈ distanceRows) (s : State) :
    exec row.instr s = (distanceSymbol row.sym row.extra row.base s).outcome := by
  fin_cases h <;> rfl

/-- Every length a row can give is 3 to 258 (R308). -/
theorem lengthRows_bounds : ∀ row ∈ lengthRows, 3 ≤ row.base ∧ row.base + 2 ^ row.extra ≤ 259 := by decide

/-- What a literal/length word can decode to (R158): a literal, the end of the block, a length row or a symbol that is
never coded. -/
theorem decode_litLen_ok {w : Nat} {i : Instr} (h : decode .litLen w = .ok i) :
    (∃ b, ∀ s, exec i s = (literal b s).outcome) ∨ i = .eob ∨ (∃ row ∈ lengthRows, i = row.instr) ∨
      ∃ k, i = .lensym286To287 k := by
  simp only [decode, decodeLitLen] at h
  split at h
  · cases h; exact .inl ⟨_, fun _ => rfl⟩
  split at h
  · cases h; exact .inl ⟨_, fun _ => rfl⟩
  split at h
  · cases h; exact .inl ⟨_, fun _ => rfl⟩
  split at h
  · cases h; exact .inl ⟨_, fun _ => rfl⟩
  split at h
  · cases h; exact .inl ⟨_, fun _ => rfl⟩
  split at h
  · cases h; exact .inr (.inl rfl)
  split at h
  · next j hj =>
    cases h
    have hmem : i ∈ lengthRows.map SymRow.instr := List.mem_of_getElem? hj
    obtain ⟨row, hrow, rfl⟩ := List.mem_map.1 hmem
    exact .inr (.inr (.inl ⟨row, hrow, rfl⟩))
  · split at h
    · cases h; exact .inr (.inr (.inr ⟨_, rfl⟩))
    · cases h

/-- What a distance word can decode to (R163): a distance row or a symbol that is never coded. -/
theorem decode_dist_ok {w : Nat} {i : Instr} (h : decode .dist w = .ok i) :
    (∃ row ∈ distanceRows, i = row.instr) ∨ ∃ k, i = .dsym30To31 k := by
  simp only [decode, decodeDist] at h
  split at h
  · next j hj =>
    cases h
    have hmem : i ∈ distanceRows.map SymRow.instr := List.mem_of_getElem? hj
    obtain ⟨row, hrow, rfl⟩ := List.mem_map.1 hmem
    exact .inl ⟨row, hrow, rfl⟩
  · split at h
    · cases h; exact .inr ⟨_, rfl⟩
    · cases h

/-- What a code-length word can decode to (R162): a width or one of the three repeats. -/
theorem decode_codeLen_ok {w : Nat} {i : Instr} (h : decode .codeLen w = .ok i) :
    (∃ n, ∀ s, exec i s = (widthSymbol n s).outcome) ∨ i = .cl16 ∨ i = .cl17 ∨ i = .cl18 := by
  have hw : codeLenInstrs[w]? = some i := by
    simp only [decode, decodeCodeLen] at h
    split at h
    · next hj => cases h; exact hj
    · cases h
  have widths : ∀ i ∈ codeLenInstrs.take 16, ∃ n, ∀ s, exec i s = (widthSymbol n s).outcome := by
    intro i hi
    fin_cases hi <;> exact ⟨_, fun _ => rfl⟩
  have hmem : i ∈ codeLenInstrs.take 16 ++ [.cl16, .cl17, .cl18] := List.mem_of_getElem? hw
  rcases List.mem_append.1 hmem with hi | hi
  · exact .inl (widths i hi)
  · exact .inr (by simpa using hi)

/-- What a gzip flag word can decode to (R631). -/
theorem decode_gzipFlag_ok {w : Nat} {i : Instr} (h : decode .gzipFlag w = .ok i) :
    i = .gzipFextra ∨ i = .gzipFname ∨ i = .gzipFcomment ∨ i = .gzipFhcrc := by
  simp only [decode, decodeGzipFlag] at h
  split at h
  · cases h; exact .inl rfl
  split at h
  · cases h; exact .inr (.inl rfl)
  split at h
  · cases h; exact .inr (.inr (.inl rfl))
  split at h
  · cases h; exact .inr (.inr (.inr rfl))
  · cases h

/-- What a block-type word can decode to (R153). -/
theorem decode_blockType_ok {w : Nat} {i : Instr} (h : decode .blockType w = .ok i) :
    i = .btype0 ∨ i = .btype1 ∨ i = .btype2 ∨ i = .btype3 := by
  simp only [decode] at h
  split at h <;> cases h <;> simp

/-! ## Instructions of a running command -/

section Running
variable {r : Regs} {c : Run} {q : Seq} {s : State}

theorem State.Steady.raised (h : s.Steady r) (e : CodecError) : OutcomeEnds r (.next (s.raise e)) :=
  (EngineEnd.raises e h).next

theorem State.Live.finished (h : s.Live r c q) : EngineEnd r s.finish := .finishes h.toSteady

/-! ### Where a block ends -/

theorem endBlockWritten_ends (h : s.Live r c q) (hc : c.NamedBy r) (hd : true = c.op.encodes) :
    EngineEnd r s.endBlockWritten := by
  unfold State.endBlockWritten
  split
  · exact h.goesTo hc .flush rfl rfl hd
  · exact h.goesTo hc .loadChunk rfl rfl hd

theorem endBlockRead_ends (h : s.Live r c q) (hc : c.NamedBy r) (hd : false = c.op.encodes) :
    EngineEnd r s.endBlockRead := by
  unfold State.endBlockRead
  split
  · unfold State.endStream
    split
    · exact h.alignIn.goesTo hc .zlibTrailerIn rfl rfl hd
    · exact h.alignIn.goesTo hc .gzipTrailerIn rfl rfl hd
    · exact h.alignIn.finished
  · exact h.goesTo hc .readBlock rfl rfl hd

/-! ### Block types -/

theorem writeBlockHeader_ends (h : s.Live r c q) (type : Nat) :
    (writeBlockHeader type s).Ends r (State.Live r c q) :=
  (writeBits_ends h _ _).andThen fun _ _ _ ht => writeBits_ends ht _ _

theorem writeStored_ends (h : s.Live r c q) (hc : c.NamedBy r) (hd : true = c.op.encodes) :
    (writeStored s).Ends r (EngineEnd r) :=
  (writeBlockHeader_ends h 0).andThen fun _ _ _ h =>
  (alignOut_ends h).andThen fun _ _ _ h =>
  (writeBits_ends h _ _).andThen fun _ _ _ h =>
  (writeBits_ends h _ _).andThen fun _ _ _ h =>
  (writeBytes_ends h _).andThen fun _ _ _ h => .ok <| endBlockWritten_ends h hc hd

theorem readStored_ends (h : s.Live r c q) (hc : c.NamedBy r) (hd : false = c.op.encodes) :
    (readStored s).Ends r (EngineEnd r) :=
  (readBits_ends h.alignIn 16).andThen fun _ _ _ h =>
  (readBits_ends h 16).andThen fun _ t _ h => by
    split
    · exact .raised h.toSteady
    · exact (copyStored_ends h _).andThen fun _ _ _ h => .ok <| endBlockRead_ends h hc hd

theorem writeStatic_ends (h : s.Live r c q) (hc : c.NamedBy r) (hd : true = c.op.encodes) :
    (writeStatic s).Ends r (EngineEnd r) :=
  (writeBlockHeader_ends h 1).andThen fun _ t _ h => .ok <|
    h.goesTo hc .writeSym (by simp [State.vitals, State.withFixedEncodeTables]) rfl hd

theorem writeDynamic_ends (h : s.Live r c q) (hc : c.NamedBy r) (hd : true = c.op.encodes) :
    (writeDynamic s).Ends r (EngineEnd r) :=
  (writeBlockHeader_ends h 2).andThen fun _ _ _ h =>
  (writeBits_ends h _ _).andThen fun _ _ _ h =>
  (writeBits_ends h _ _).andThen fun _ _ _ h =>
  (writeBits_ends h _ _).andThen fun _ _ _ h =>
  (writeClWidths_ends h _).andThen fun _ _ _ h => .ok <| h.goesTo hc .writeCodeLen rfl rfl hd

theorem readDynamic_ends (h : s.Live r c q) (hc : c.NamedBy r) (hd : false = c.op.encodes) :
    (readDynamic s).Ends r (EngineEnd r) :=
  (readBitsBase_ends h 5 257).andThen fun _ _ hlit h =>
  (readBitsBase_ends h 5 1).andThen fun _ _ _ h =>
  (readBitsBase_ends h 4 4).andThen fun _ _ _ h =>
  (readClWidths_ends h _).andThen fun _ _ _ h =>
    .ok <| h.goesTo hc .readCodeLen rfl rfl hd (hw := fun _ => by
      have := (readBitsBase_ok hlit).2.1
      simp only [State.beginWidths, List.length_nil]
      omega)

theorem exec_blockType_ends (h : s.Live r c q) (hc : c.NamedBy r) {w : Nat} {i : Instr}
    (hi : decode .blockType w = .ok i) : OutcomeEnds r (exec i s) := by
  rcases decode_blockType_ok hi with rfl | rfl | rfl | rfl
  · refine Res.Ends.outcome (a := if s.run.op.encodes then writeStored s else readStored s) ?_
    rw [h.run]
    cases hd : c.op.encodes with
    | true => exact writeStored_ends h hc hd.symm
    | false => exact readStored_ends h hc hd.symm
  · refine Res.Ends.outcome (a := if s.run.op.encodes then writeStatic s else .ok () (readStatic s)) ?_
    rw [h.run]
    cases hd : c.op.encodes with
    | true => exact writeStatic_ends h hc hd.symm
    | false => exact .ok <| h.goesTo hc .readSym rfl rfl hd.symm
  · refine Res.Ends.outcome (a := if s.run.op.encodes then writeDynamic s else readDynamic s) ?_
    rw [h.run]
    cases hd : c.op.encodes with
    | true => exact writeDynamic_ends h hc hd.symm
    | false => exact readDynamic_ends h hc hd.symm
  · exact h.raised .invalidBlockType

/-! ### Literal/length symbols -/

theorem literal_ends {p : Phase} (h : s.Live r c (.busy p)) (hc : c.NamedBy r) (hd : p.encodes = c.op.encodes)
    (hp : p = .writeSym ∨ p = .readSym) (b : Byte) : (literal b s).Ends r (EngineEnd r) := by
  have stays {t : State} (ht : t.Live r c (.busy p)) : EngineEnd r t :=
    ht.runs hc hd (by rintro rfl; simp at hp) (by rintro rfl; simp at hp)
  unfold literal
  split
  · exact (encodeSymbol_ends h _ _).andThen fun _ t _ ht => Res.Ends.ok <| stays (ht.of_vitals (t := t.popSym) rfl ht.seq)
  · exact (emitOut_ends h b).imp fun _ => stays

theorem execEob_ends (h : s.Live r c q) (hc : c.NamedBy r) : OutcomeEnds r (execEob s) := by
  unfold execEob
  rw [h.run]
  cases hd : c.op.encodes with
  | true =>
    exact Res.Ends.outcome <| (encodeSymbol_ends h _ _).andThen fun _ t _ ht =>
      .ok <| endBlockWritten_ends (ht.of_vitals (t := t.popSym) rfl rfl) hc hd.symm
  | false => exact (endBlockRead_ends h hc hd.symm).next

theorem lengthSymbol_ends (h : s.Live r c q) (hc : c.NamedBy r) {extra base : Nat} (sym : Nat) (h3 : 3 ≤ base)
    (h258 : base + 2 ^ extra ≤ 259) : (lengthSymbol sym extra base s).Ends r (EngineEnd r) := by
  unfold lengthSymbol
  rw [h.run]
  cases hd : c.op.encodes with
  | true =>
    exact (encodeSymbol_ends h _ _).andThen fun _ _ _ h => (writeBits_ends h _ _).andThen fun _ _ _ h =>
      .ok <| h.goesTo hc .writeDist rfl rfl hd.symm
  | false =>
    refine (readBitsBase_ends h extra base).andThen fun len t hr h => ?_
    obtain ⟨-, hlo, hhi, -⟩ := readBitsBase_ok hr
    exact .ok <| h.goesTo hc .readDist rfl rfl hd.symm (hl := fun _ => by
      show 3 ≤ len ∧ len ≤ 258
      omega)

theorem exec_litLen_ends {p : Phase} (h : s.Live r c (.busy p)) (hc : c.NamedBy r) (hd : p.encodes = c.op.encodes)
    (hp : p = .writeSym ∨ p = .readSym) {w : Nat} {i : Instr} (hi : decode .litLen w = .ok i) :
    OutcomeEnds r (exec i s) := by
  rcases decode_litLen_ok hi with ⟨b, hb⟩ | rfl | ⟨row, hrow, rfl⟩ | ⟨k, rfl⟩
  · rw [hb]
    exact (literal_ends h hc hd hp b).outcome
  · exact execEob_ends h hc
  · obtain ⟨h3, h258⟩ := lengthRows_bounds row hrow
    rw [exec_lengthRow hrow]
    exact (lengthSymbol_ends h hc row.sym h3 h258).outcome
  · exact h.raised .huffmanTableIndexOutOfBounds

/-! ### Distance symbols -/

theorem distanceSymbol_ends (h : s.Live r c q) (hc : c.NamedBy r) (sym extra base : Nat) :
    (distanceSymbol sym extra base s).Ends r (EngineEnd r) := by
  unfold distanceSymbol
  rw [h.run]
  cases hd : c.op.encodes with
  | true =>
    exact (encodeSymbol_ends h _ _).andThen fun _ _ _ h => (writeBits_ends h _ _).andThen fun _ _ _ h =>
      .ok <| h.goesTo hc .writeSym rfl rfl hd.symm
  | false =>
    exact (readBitsBase_ends h extra base).andThen fun _ _ _ h => (copy_ends h _ _).andThen fun _ _ _ h =>
      .ok <| h.goesTo hc .readSym rfl rfl hd.symm

theorem exec_dist_ends (h : s.Live r c q) (hc : c.NamedBy r) {w : Nat} {i : Instr} (hi : decode .dist w = .ok i) :
    OutcomeEnds r (exec i s) := by
  rcases decode_dist_ok hi with ⟨row, hrow, rfl⟩ | ⟨k, rfl⟩
  · rw [exec_distanceRow hrow]
    exact (distanceSymbol_ends h hc _ _ _).outcome
  · exact h.raised .huffmanTableIndexOutOfBounds

/-! ### Code-length symbols -/

theorem popCl_ends (h : s.Live r c q) (hc : c.NamedBy r) (hd : true = c.op.encodes) : EngineEnd r s.popCl := by
  have hl := h.of_vitals (t := s.popCl) rfl rfl
  by_cases hlast : s.enc.clSeq.tail = []
  · rw [State.popCl, if_pos hlast] at hl ⊢
    exact hl.runs (p := .writeSym) hc hd
  · rw [State.popCl, if_neg hlast] at hl ⊢
    exact hl.runs (p := .writeCodeLen) hc hd

theorem writeCl_ends (h : s.Live r c q) (hc : c.NamedBy r) (hd : true = c.op.encodes) (n extra : Nat) :
    (writeCl n extra s).Ends r (EngineEnd r) :=
  (encodeSymbol_ends h _ _).andThen fun _ _ _ h => (writeBits_ends h _ _).andThen fun _ _ _ h => .ok <| popCl_ends h hc hd

/-- R463's tests after widths are appended: past `m` an error, at `m` the symbols begin, below it the list goes on. -/
theorem appendWidths_ends (h : s.Live r c (.busy .readCodeLen)) (hc : c.NamedBy r) (hd : false = c.op.encodes)
    (ws : List Nat) : (appendWidths ws s).Ends r (EngineEnd r) := by
  have hpush : (s.pushWidths ws).Live r c (.busy .readCodeLen) := h.of_vitals rfl h.seq
  unfold appendWidths
  dsimp only
  split
  · exact .raised hpush.toSteady
  · split
    · exact .ok <| hpush.goesTo hc .readSym rfl rfl hd
    · exact .ok <| hpush.runs hc hd (hw := fun _ => by omega)

theorem readClRepeat_ends (h : s.Live r c (.busy .readCodeLen)) (hc : c.NamedBy r) (hd : false = c.op.encodes) :
    (readClRepeat s).Ends r (EngineEnd r) := by
  unfold readClRepeat
  split
  · exact .raised h.toSteady
  · exact (readBitsBase_ends h _ _).andThen fun _ _ _ h => appendWidths_ends h hc hd _

theorem readClZeros_ends (h : s.Live r c (.busy .readCodeLen)) (hc : c.NamedBy r) (hd : false = c.op.encodes)
    (extra base : Nat) : (readClZeros extra base s).Ends r (EngineEnd r) :=
  (readBitsBase_ends h _ _).andThen fun _ _ _ h => appendWidths_ends h hc hd _

theorem widthSymbol_encodes_ends (h : s.Live r c q) (hc : c.NamedBy r) (hd : true = c.op.encodes) (w : Nat) :
    (widthSymbol w s).Ends r (EngineEnd r) := by
  rw [widthSymbol, if_pos (by rw [h.run, ← hd])]
  exact (encodeSymbol_ends h _ _).andThen fun _ _ _ h => .ok <| popCl_ends h hc hd

theorem exec_codeLen_encodes_ends (h : s.Live r c q) (hc : c.NamedBy r) (hd : true = c.op.encodes) {w : Nat}
    {i : Instr} (hi : decode .codeLen w = .ok i) : OutcomeEnds r (exec i s) := by
  have hs : s.run.op.encodes = true := by rw [h.run, ← hd]
  rcases decode_codeLen_ok hi with ⟨n, hn⟩ | rfl | rfl | rfl
  · rw [hn]
    exact (widthSymbol_encodes_ends h hc hd n).outcome
  all_goals
    simp only [exec, execCl16, execCl17, execCl18, hs, if_true]
    exact (writeCl_ends h hc hd _ _).outcome

theorem exec_codeLen_decodes_ends (h : s.Live r c (.busy .readCodeLen)) (hc : c.NamedBy r)
    (hd : false = c.op.encodes) {w : Nat} {i : Instr} (hi : decode .codeLen w = .ok i) :
    OutcomeEnds r (exec i s) := by
  have hs : s.run.op.encodes = false := by rw [h.run, ← hd]
  rcases decode_codeLen_ok hi with ⟨n, hn⟩ | rfl | rfl | rfl
  · rw [hn, widthSymbol, hs]
    exact (appendWidths_ends h hc hd [n]).outcome
  · simp only [exec, execCl16, hs]
    exact (readClRepeat_ends h hc hd).outcome
  · simp only [exec, execCl17, hs]
    exact (readClZeros_ends h hc hd 3 3).outcome
  · simp only [exec, execCl18, hs]
    exact (readClZeros_ends h hc hd 7 11).outcome

/-! ### Container records -/

theorem execZlibHeaderWrite_ends (h : s.Live r c q) (hc : c.NamedBy r) (hd : true = c.op.encodes) :
    OutcomeEnds r (execZlibHeaderWrite s) :=
  Res.Ends.outcome <| (emit_ends h _).andThen fun _ _ _ h => (emit_ends h _).andThen fun _ _ _ h =>
    .ok <| h.goesTo hc .loadChunk rfl rfl hd

theorem execZlibTrailerWrite_ends (h : s.Live r c q) : OutcomeEnds r (execZlibTrailerWrite s) :=
  Res.Ends.outcome <| (emitBE_ends h _).andThen fun _ _ _ h => .ok <| h.finished

theorem execZlibHeaderRead_ends (h : s.Live r c q) (hc : c.NamedBy r) (hd : false = c.op.encodes) (cmf flg : Byte) :
    OutcomeEnds r (execZlibHeaderRead cmf flg s) := by
  unfold execZlibHeaderRead
  split
  · exact h.raised _
  · exact EngineEnd.next (h.goesTo hc .readBlock rfl rfl hd)

theorem execZlibTrailerRead_ends (h : s.Live r c q) (adler : Word) :
    OutcomeEnds r (execZlibTrailerRead adler s) := by
  unfold execZlibTrailerRead
  split
  · exact h.raised _
  · exact h.finished.next

theorem gzNext_ends (h : s.Live r c q) (hc : c.NamedBy r) (hd : false = c.op.encodes) (left : Byte) :
    EngineEnd r (s.gzNext left) := by
  have hl := h.of_vitals (t := s.gzNext left) rfl rfl
  by_cases hlast : left = 0#8
  · rw [State.gzNext, if_pos hlast] at hl ⊢
    exact hl.runs (p := .readBlock) hc hd
  · rw [State.gzNext, if_neg hlast] at hl ⊢
    exact hl.runs (p := .gzipOptional) hc hd

theorem exec_gzipHeader_ends (h : s.Live r c q) (hc : c.NamedBy r) (hd : false = c.op.encodes)
    (id1 id2 cm flg : Byte) (mtime : Word) (xfl os : Byte) :
    OutcomeEnds r (exec (.gzipHeader id1 id2 cm flg mtime xfl os) s) := by
  simp only [exec, execGzipHeader]
  split
  · exact h.raised _
  · split
    · exact h.raised _
    · exact (gzNext_ends h hc hd _).next

/-! #### Optional gzip fields -/

theorem inHalf_ends (h : s.Live r c q) (p : Nat) : (inHalf p s).Ends r (State.Live r c q) :=
  (memRead_ends h _).andThen fun _ _ _ h => (memRead_ends h _).andThen fun _ _ _ h => .ok h

theorem inHalf_ok {p v : Nat} {t : State} (h : inHalf p s = .ok v t) : t = s := by
  rw [inHalf, Res.andThen_eq_ok] at h
  obtain ⟨_, u, hu, h⟩ := h
  obtain ⟨-, -, rfl⟩ := memRead_eq_ok.1 hu
  rw [Res.andThen_eq_ok] at h
  obtain ⟨_, v, hv, h⟩ := h
  obtain ⟨-, -, rfl⟩ := memRead_eq_ok.1 hv
  cases h
  rfl

theorem gzipExtra_ends (h : s.Live r c q) (p : Nat) : (gzipExtra p s).Ends r (State.Live r c q) :=
  (needBytes_ends h _ _).andThen fun _ _ _ h => (inHalf_ends h _).andThen fun _ _ _ h =>
    (needBytes_ends h _ _).andThen fun _ _ _ h => .ok h

/-- The extra field ends inside the input (R632). -/
theorem gzipExtra_le {p n : Nat} {t : State} (h : gzipExtra p s = .ok n t) : n ≤ s.reg.srcLen.toNat := by
  rw [gzipExtra, Res.andThen_eq_ok] at h
  obtain ⟨_, u, hu, h⟩ := h
  obtain ⟨-, rfl⟩ := needBytes_ok _ _ hu
  rw [Res.andThen_eq_ok] at h
  obtain ⟨xlen, v, hv, h⟩ := h
  obtain rfl := inHalf_ok hv
  rw [Res.andThen_eq_ok] at h
  obtain ⟨_, w, hw, h⟩ := h
  obtain ⟨hlen, rfl⟩ := needBytes_ok _ _ hw
  cases h
  exact hlen

theorem skipString_ends (h : s.Live r c q) (left p : Nat) : (skipString left p s).Ends r (State.Live r c q) := by
  induction left generalizing s p with
  | zero => exact .raised h.toSteady
  | succ left ih =>
    refine (memRead_ends h _).andThen fun b t _ ht => ?_
    split
    · exact .ok ht
    · exact ih ht _

/-- A string that ends has ended within the bytes left, of which there was one at least (R633). -/
theorem skipString_le {left p n : Nat} {t : State} (h : skipString left p s = .ok n t) : 0 < left ∧ n ≤ p + left := by
  induction left generalizing s p with
  | zero => cases h
  | succ left ih =>
    rw [skipString, Res.andThen_eq_ok] at h
    obtain ⟨b, u, -, h⟩ := h
    split at h
    · cases h
      omega
    · have := ih h
      omega

theorem gzipHeaderCrc_ends (h : s.Live r c q) (p : Nat) : (gzipHeaderCrc p s).Ends r (State.Live r c q) :=
  (needBytes_ends h _ _).andThen fun _ _ _ h => (inHalf_ends h _).andThen fun _ _ _ h =>
    (memReadAll_ends h _ _).andThen fun _ _ _ h => by
      split
      · exact .raised h.toSteady
      · exact .ok h

/-- The header CRC ends inside the input (R635). -/
theorem gzipHeaderCrc_le {p n : Nat} {t : State} (h : gzipHeaderCrc p s = .ok n t) : n ≤ s.reg.srcLen.toNat := by
  rw [gzipHeaderCrc, Res.andThen_eq_ok] at h
  obtain ⟨_, u, hu, h⟩ := h
  obtain ⟨hlen, rfl⟩ := needBytes_ok _ _ hu
  rw [Res.andThen_eq_ok] at h
  obtain ⟨_, v, -, h⟩ := h
  rw [Res.andThen_eq_ok] at h
  obtain ⟨header, w, -, h⟩ := h
  split at h
  · cases h
  · cases h
    exact hlen

/-- A field whose reader goes through inside the input leaves the reader there (R630). -/
theorem gzipField_ends (h : s.Live r c q) (hc : c.NamedBy r) (hd : false = c.op.encodes)
    {read : Nat → State → Res Nat} (bit : Byte) (hread : (read s.inPos s).Ends r (State.Live r c q))
    (hle : ∀ n t, read s.inPos s = .ok n t → n ≤ s.reg.srcLen.toNat) :
    (gzipField read bit s).Ends r (EngineEnd r) := by
  refine hread.andThen fun n t hr ht => ?_
  have hn := hle n t hr
  rw [h.reg] at hn
  exact .ok <| gzNext_ends (ht.setInBit (n := 8 * n) (by omega)) hc hd _

theorem exec_gzipFlag_ends (h : s.Live r c q) (hc : c.NamedBy r) (hd : false = c.op.encodes) {w : Nat} {i : Instr}
    (hi : decode .gzipFlag w = .ok i) : OutcomeEnds r (exec i s) := by
  have string (bit : Byte) : (gzipField gzipString bit s).Ends r (EngineEnd r) :=
    gzipField_ends h hc hd bit (skipString_ends h _ _) fun n t hr => by
      have := skipString_le hr
      omega
  rcases decode_gzipFlag_ok hi with rfl | rfl | rfl | rfl
  · exact (gzipField_ends h hc hd _ (gzipExtra_ends h _) fun _ _ => gzipExtra_le).outcome
  · exact (string _).outcome
  · exact (string _).outcome
  · exact (gzipField_ends h hc hd _ (gzipHeaderCrc_ends h _) fun _ _ => gzipHeaderCrc_le).outcome

theorem execGzipTrailerStrict_ends (h : s.Live r c q) (crc isize : Word) :
    OutcomeEnds r (execGzipTrailerStrict crc isize s) := by
  unfold execGzipTrailerStrict
  split
  · exact h.raised _
  · split
    · exact h.raised _
    · exact h.finished.next

end Running

end Sys2Proof.Machine
end

section
/-! PROOFS. How a `CMD` word and an engine step end (R680 to R684, R56, R694). -/

namespace Sys2Proof.Machine

/-! ## Commands -/

section Commands
variable {r : Regs} {s : State}

/-- A fresh datapath is live at the start of a command (R782). -/
theorem State.Steady.begun (h : s.Steady r) (c : Run) (p : Phase) : (s.begun c p).Live r c (.busy p) :=
  ⟨⟨h.reg, h.memory, show 1 < 65521 ∧ 0 < 65521 by decide⟩, rfl, rfl, Nat.zero_le _, Nat.zero_le _,
    show Encoder.fresh.bitsWritten ≤ 15 ∧ Encoder.fresh.tag.toNat < 2 ^ Encoder.fresh.bitsWritten by decide⟩

/-- A command with an output begins, or its regions fail the check (R683). -/
theorem beginCommand_ends (h : s.Steady r) (op : Op) (p : Phase) (hop : op.number = r.cmd.toNat % 16)
    (hout : op.hasOutput = true) (hd : p.encodes = op.encodes) (hl : p ≠ .readDist) (hw : p ≠ .readCodeLen) :
    (beginCommand (runOf op (cmdFields r.cmd.toNat) s.reg.window) p s).Ends r (EngineEnd r) := by
  rw [h.reg]
  cases hb : s.reg.buffersOk op with
  | true =>
    rw [beginCommand_ok hb]
    rw [h.reg] at hb
    exact .ok <| (h.begun _ p).runs ⟨hop, rfl, hout, hb⟩ hd (fun e => (hl e).elim) (fun e => (hw e).elim)
  | false =>
    rw [beginCommand_bad hb]
    exact .raised ⟨h.reg, h.memory, h.adler⟩

/-- A checksum command is over after its one step (R691, R692). -/
theorem checksumCommand_ends (h : s.Steady r) (op : Op) (f : CmdFields) :
    (checksumCommand op f s).Ends r (EngineEnd r) := by
  unfold checksumCommand
  cases hb : s.reg.buffersOk op with
  | true =>
    rw [beginCommand_ok hb]
    exact (memReadAll_ends (h.begun _ _) _ _).andThen fun bytes t _ ht => .ok <| .finishes
      ⟨ht.reg, ht.memory, Sums.addAll_reduced bytes (Sums.chained_reduced _ _)⟩
  | false =>
    rw [beginCommand_bad hb]
    exact .raised ⟨h.reg, h.memory, h.adler⟩

theorem exec_command_ends (h : s.Steady r) : OutcomeEnds r (exec (decodeCommand r.cmd.toNat) s) := by
  have raised (e : CodecError) : OutcomeEnds r (.next (s.raise e)) := h.raised e
  unfold decodeCommand
  dsimp only
  split
  next hop =>
    split
    · exact raised _
    · exact (beginCommand_ends h .deflate .loadChunk hop.symm rfl rfl nofun nofun).outcome
  next hop =>
    split
    · exact raised _
    · exact (beginCommand_ends h .deflateZlib .zlibHeaderOut hop.symm rfl rfl nofun nofun).outcome
  next hop => exact (beginCommand_ends h .inflate .readBlock hop.symm rfl rfl nofun nofun).outcome
  next hop => exact (beginCommand_ends h .inflateZlib .zlibHeaderIn hop.symm rfl rfl nofun nofun).outcome
  next hop => exact (beginCommand_ends h .inflateGzip .gzipHeader hop.symm rfl rfl nofun nofun).outcome
  next => exact (checksumCommand_ends h .crc32 _).outcome
  next => exact (checksumCommand_ends h .adler32 _).outcome
  next => exact raised _
  next => exact raised _

end Commands

/-! ## The engine's own phases -/

section Internal
variable {r : Regs} {c : Run} {q : Seq} {s : State}

theorem loadChunk_ends (h : s.Live r c q) (hc : c.NamedBy r) (hd : true = c.op.encodes) :
    (loadChunk s).Ends r (EngineEnd r) := by
  refine (memReadAll_ends h _ _).andThen fun chunk t _ ht => .ok ?_
  have hl {q' : Seq} (e : (t.takeChunk chunk).seq = q') : (t.takeChunk chunk).Live r c q' :=
    ⟨⟨ht.reg, ht.memory, Sums.addAll_reduced chunk ht.adler⟩, ht.run, e, ht.outPos, ht.inBit, ht.writer⟩
  cases hscan : t.run.mode != .raw && t.run.win.isSome with
  | true => exact (hl (q' := .busy .scanChunk) (by simp [State.takeChunk, hscan])).runs hc hd
  | false =>
    have e : (t.takeChunk chunk).seq = .busy t.run.mode.afterSyms := by simp [State.takeChunk, hscan]
    cases hm : t.run.mode with
    | raw | fixed => rw [hm] at e; exact (hl e).runs (p := .writeBlock) hc hd
    | dynamic => rw [hm] at e; exact (hl e).runs (p := .buildTables) hc hd

theorem scanChunk_ends (h : s.Live r c (.busy .scanChunk)) (hc : c.NamedBy r) (hd : true = c.op.encodes) :
    EngineEnd r (scanChunk s) := by
  unfold scanChunk
  split
  · exact h.goesTo hc .scanChunk rfl h.seq hd
  · cases s.run.mode with
    | raw | fixed => exact h.goesTo hc .writeBlock rfl rfl hd
    | dynamic => exact h.goesTo hc .buildTables rfl rfl hd

theorem flushStream_ends (h : s.Live r c q) (hc : c.NamedBy r) (hd : true = c.op.encodes) :
    (flushStream s).Ends r (EngineEnd r) :=
  (flush_ends h).andThen fun _ _ _ ht => by
    split
    · exact .ok <| ht.goesTo hc .zlibTrailerOut rfl rfl hd
    · exact .ok ht.finished

end Internal

/-! ## The fetched instruction -/

/-- In a phase past the `CMD` word, whatever the phase's word decodes to ends the step as it should. -/
theorem exec_ends {r : Regs} {c : Run} {p : Phase} {s u : State} (h : s.Live r c (.busy p)) (hc : c.NamedBy r)
    (hd : p.encodes = c.op.encodes) (hp : p ≠ .dispatch) (hint : p.internal = false) {w : Nat} {i : Instr}
    (hi : decode (nextWord p u).1 w = .ok i) : OutcomeEnds r (exec i s) := by
  cases p with
  | dispatch => exact absurd rfl hp
  | loadChunk | scanChunk | buildTables | flush => cases hint
  | writeBlock | readBlock => exact exec_blockType_ends h hc hi
  | writeSym => exact exec_litLen_ends h hc hd (.inl rfl) hi
  | readSym => exact exec_litLen_ends h hc hd (.inr rfl) hi
  | writeDist | readDist => exact exec_dist_ends h hc hi
  | writeCodeLen => exact exec_codeLen_encodes_ends h hc hd hi
  | readCodeLen => exact exec_codeLen_decodes_ends h hc hd hi
  | gzipOptional => exact exec_gzipFlag_ends h hc hd hi
  | zlibHeaderOut =>
    simp only [nextWord, decode] at hi
    split at hi <;> cases hi
    exact execZlibHeaderWrite_ends h hc hd
  | zlibTrailerOut =>
    simp only [nextWord, decode] at hi
    split at hi <;> cases hi
    exact execZlibTrailerWrite_ends h
  | zlibHeaderIn =>
    simp only [nextWord, decode] at hi
    split at hi <;> cases hi
    exact execZlibHeaderRead_ends h hc hd _ _
  | zlibTrailerIn =>
    simp only [nextWord, decode] at hi
    split at hi <;> cases hi
    exact execZlibTrailerRead_ends h _
  | gzipHeader =>
    simp only [nextWord, decode] at hi
    split at hi <;> cases hi
    exact exec_gzipHeader_ends h hc hd _ _ _ _ _ _ _
  | gzipTrailerIn =>
    simp only [nextWord] at hi
    split at hi
    · simp only [decode] at hi
      split at hi <;> cases hi
      exact execGzipTrailerStrict_ends h _ _
    · simp only [decode] at hi
      split at hi <;> cases hi
      exact h.finished.next

/-! ## The engine -/

/-- Reading the word leaves the alphabet it is read in as it was: only a gzip trailer's depends on the state, by
`GZ_STRICT`, which is the command's. -/
theorem nextWord_alphabet {p : Phase} {s t : State} {w : Nat} (h : (nextWord p s).2 = .ok w t) :
    (nextWord p t).1 = (nextWord p s).1 := by
  cases p with
  | gzipTrailerIn =>
    have hm := recordBytes_moved s 8
    obtain ⟨bytes, u, hb, hu⟩ := Res.andThen_eq_ok.1 h
    rw [hb] at hm
    obtain ⟨m, rfl⟩ := hm
    cases hu
    rfl
  | _ => rfl

/-- Fetching is reading the phase's word and decoding it. -/
theorem fetch_eq_ok {p : Phase} {s t : State} {i : Instr} :
    fetch p s = .ok i t ↔ ∃ w, (nextWord p s).2 = .ok w t ∧ decode (nextWord p s).1 w = .ok i := by
  rw [fetch, Res.andThen_eq_ok]
  constructor
  · rintro ⟨w, u, hw, h⟩
    split at h
    · next hi => cases h; exact ⟨w, hw, nextWord_alphabet hw ▸ hi⟩
    · cases h
  · rintro ⟨w, hw, hi⟩
    rw [← nextWord_alphabet hw] at hi
    exact ⟨w, t, hw, by rw [hi]⟩

theorem fetch_of_raised {p : Phase} {s t : State} {e : CodecError} (h : (nextWord p s).2 = .raised e t) :
    fetch p s = .raised e t := by
  rw [fetch, h, Res.andThen_raised]

/-- A step that fetches ends as the fetched instruction does, or with an error met while fetching. -/
theorem runNext_ends {r : Regs} {p : Phase} {s : State} {P : State → Prop} (hw : (nextWord p s).2.Ends r P)
    (hP : ∀ t, P t → t.Steady r)
    (hi : ∀ t w i, P t → (nextWord p s).2 = .ok w t → decode (nextWord p s).1 w = .ok i → OutcomeEnds r (exec i t)) :
    OutcomeEnds r (runNext p s) := by
  have hf : (fetch p s).Ends r P := hw.andThen fun w t _ ht => by
    split
    · exact .ok ht
    · exact .raised (hP t ht)
  unfold runNext
  cases hr : fetch p s with
  | ok i t =>
    obtain ⟨w, hword, hdec⟩ := fetch_eq_ok.1 hr
    rw [hr] at hf
    cases hf with
    | ok ht => exact hi t w i ht hword hdec
  | raised e t =>
    rw [hr] at hf
    cases hf with
    | raised ht => exact ht.raised e
  | fault f => rintro _ ⟨⟩
  | refused f => rintro _ ⟨⟩

theorem engine_idle {s : State} (h : s.seq = .idle) : engine s = .next s := by rw [engine, h]

/-- In a phase that is not the engine's own, a step runs the next instruction. -/
theorem engine_eq_runNext {p : Phase} {s : State} (h : s.seq = .busy p) (hp : p.internal = false) :
    engine s = runNext p s := by
  rw [engine, h]
  cases p with
  | loadChunk | scanChunk | buildTables | flush => cases hp
  | _ => rfl

/-- What an engine step of a running command can do, past its `CMD` word. -/
theorem engine_running_ends {r : Regs} {c : Run} {p : Phase} {s : State} (h : s.Live r c (.busy p))
    (hc : c.NamedBy r) (hd : p.encodes = c.op.encodes) (hp : p ≠ .dispatch) : OutcomeEnds r (engine s) := by
  cases hint : p.internal with
  | false =>
    rw [engine_eq_runNext h.seq hint]
    exact runNext_ends (nextWord_ends h p) (fun _ ht => ht.toSteady) fun _ _ _ ht _ hi => exec_ends ht hc hd hp hint hi
  | true =>
    rw [engine, h.seq]
    cases p with
    | loadChunk => exact (loadChunk_ends h hc hd).outcome
    | scanChunk => exact (scanChunk_ends h hc hd).next
    | buildTables => exact EngineEnd.next (h.goesTo hc .writeBlock rfl rfl hd)
    | flush => exact (flushStream_ends h hc hd).outcome
    | _ => cases hint

/-- What the engine step that decodes the `CMD` word can do (R680). -/
theorem engine_dispatch_ends {r : Regs} {s : State} (h : s.Steady r) (hs : s.seq = .busy .dispatch) :
    OutcomeEnds r (engine s) := by
  rw [engine_eq_runNext hs rfl]
  refine runNext_ends (P := (·.Steady r)) (.ok h) (fun _ ht => ht) fun t w i ht hw hi => ?_
  cases hw
  have hcmd : decode .command s.reg.cmd.toNat = .ok (decodeCommand s.reg.cmd.toNat) := if_pos s.reg.cmd.isLt
  cases hcmd.symm.trans hi
  rw [ht.reg]
  exact exec_command_ends ht

/-- What an engine step of a busy core can do: the command runs on with its registers untouched, is finished, or has
raised an error. -/
theorem engine_ends {s : State} (h : s.Inv) (hb : s.busy = true) : OutcomeEnds s.reg (engine s) := by
  have steady : s.Steady s.reg := ⟨rfl, h.memory, h.adler⟩
  cases hs : s.seq with
  | idle => simp [State.busy, hs] at hb
  | busy p =>
    by_cases hp : p = .dispatch
    · subst hp
      exact engine_dispatch_ends steady hs
    · obtain ⟨hop, hconfig, hout, hbuf, hd, hpos, hbit, hwr, -, -⟩ := h.running p hs hp
      exact engine_running_ends (c := s.run) ⟨steady, rfl, hs, hpos, hbit, hwr⟩ ⟨hop, hconfig, hout, hbuf⟩ hd hp

end Sys2Proof.Machine
end

section
/-! PROOFS. The invariant at reset, kept by the engine's steps and by the host's moves, and what follows for the end of a
command (spec/10_state.md R58 to R74). -/

namespace Sys2Proof.Machine

/-! ## The engine keeps the invariant -/

theorem CodecError.code_le (e : CodecError) : e.code.toNat ≤ 15 := by
  cases e <;> simp only [CodecError.code] <;> decide

theorem CodecError.code_ne_zero (e : CodecError) : e.code ≠ 0#8 := by
  cases e <;> simp only [CodecError.code] <;> decide

/-- Only `TrailerChecksumMismatch` records checksums (R73, R74). -/
theorem CodecError.checksums_zero {e : CodecError} (h : e.code ≠ 10#8) : e.expected = 0#32 ∧ e.found = 0#32 := by
  cases e with
  | trailerChecksumMismatch => exact absurd rfl h
  | _ => exact ⟨rfl, rfl⟩

/-- Every end of an engine step of a busy core meets the invariant. -/
theorem EngineEnd.inv {s t : State} (h : s.Inv) (hb : s.busy = true) (he : EngineEnd s.reg t) : t.Inv := by
  obtain ⟨hdone, herr, hcode⟩ := h.busyClear hb
  cases he with
  | runs p hseq steady ok =>
    obtain ⟨hreg, hmem, hadler⟩ := steady
    refine ⟨hmem, ?_, ?_, ?_, ?_, ?_, ?_, hadler, ?_⟩
    · rw [hreg]; exact h.oneOutcome
    · rw [hreg]; exact fun _ => ⟨hdone, herr, hcode⟩
    · rw [hreg]; exact h.errCode
    · rw [hreg]; exact h.checksums
    · rw [hreg]; exact h.cmd
    · rw [hreg]; exact h.window
    · rintro q hq -
      cases hseq.symm.trans hq
      exact ok
  | @finishes u steady =>
    obtain ⟨hreg, hmem, hadler⟩ := steady
    refine ⟨hmem, ?_, nofun, ?_, ?_, ?_, ?_, hadler, nofun⟩
    · simp [hreg, herr]
    · simpa [hreg] using h.errCode
    · simpa [hreg] using h.checksums
    · simpa [hreg] using h.cmd
    · simpa [hreg] using h.window
  | @raises u e steady =>
    obtain ⟨hreg, hmem, hadler⟩ := steady
    refine ⟨u.raise_mem_wf e hmem, ?_, nofun, e.code_le, CodecError.checksums_zero, ?_, ?_, hadler, nofun⟩
    · simp [hreg, hdone]
    · simpa [hreg] using h.cmd
    · simpa [hreg] using h.window

theorem engine_inv {s t : State} (h : s.Inv) (ht : engine s = .next t) : t.Inv := by
  cases hs : s.seq with
  | idle =>
    rw [engine_idle hs] at ht
    cases ht
    exact h
  | busy p =>
    have hb : s.busy = true := by simp [State.busy, hs]
    exact (engine_ends h hb t ht).inv h hb

/-! ## The host's moves keep the invariant -/

section HostMoves
variable {s : State}

/-- The host's side and the free-value counter are outside the invariant, and so is memory but for its form. -/
theorem State.Inv.frame (h : s.Inv) {m : Memory} (hm : m.wf = true) (host : HostSide) (free : Nat) :
    { s with mem := m, host := host, free := free }.Inv where
  memory := hm
  oneOutcome := h.oneOutcome
  busyClear := h.busyClear
  errCode := h.errCode
  checksums := h.checksums
  cmd := h.cmd
  window := h.window
  adler := h.adler
  running p hp hd := { h.running p hp hd with }

theorem State.Inv.withReadData (h : s.Inv) (v : Word) : (s.withReadData v).Inv := h.frame h.memory _ _

theorem State.Inv.readAny (h : s.Inv) (f : Word → Word) : (s.readAny f).Inv := h.frame h.memory _ _

theorem State.Inv.withMoves (h : s.Inv) (moves : List HostMove) : (s.withMoves moves).Inv := h.frame h.memory _ _

/-- The flags the host writes at any time: `IRQ_EN`, and `DONE` and `ERR`, which it can only clear (R63, R70). -/
theorem State.Inv.flags (h : s.Inv) (irqEn : Bool) {done err : Bool} (hdone : done = true → s.reg.done = true)
    (herr : err = true → s.reg.err = true) :
    { s with reg := { s.reg with irqEn := irqEn, done := done, err := err } }.Inv where
  memory := h.memory
  oneOutcome := fun ⟨hd, he⟩ => h.oneOutcome ⟨hdone hd, herr he⟩
  busyClear hb := by
    obtain ⟨hd, he, hc⟩ := h.busyClear hb
    exact ⟨Bool.eq_false_iff.2 fun k => by simp [hdone k] at hd, Bool.eq_false_iff.2 fun k => by simp [herr k] at he, hc⟩
  errCode := h.errCode
  checksums := h.checksums
  cmd := h.cmd
  window := h.window
  adler := h.adler
  running p hp hd := { h.running p hp hd with }

/-- A configuration write keeps the invariant where it leaves the results alone and the two limits hold (R64, R65). -/
theorem State.Inv.configure (h : s.Inv) (f : Regs → Regs) (hdone : (f s.reg).done = s.reg.done)
    (herr : (f s.reg).err = s.reg.err) (hcode : (f s.reg).errCode = s.reg.errCode)
    (hexp : (f s.reg).errExpected = s.reg.errExpected) (hfound : (f s.reg).errFound = s.reg.errFound)
    (hcmd : (f s.reg).cmd.toNat < 512) (hwin : (f s.reg).window.toNat ≤ 32768) : (s.configure f).Inv := by
  unfold State.configure
  split
  · exact h
  · next hb =>
    refine ⟨h.memory, ?_, fun k => absurd k hb, ?_, ?_, hcmd, hwin, h.adler, fun p hp => ?_⟩
    · simpa only [hdone, herr] using h.oneOutcome
    · simpa only [hcode] using h.errCode
    · simpa only [hcode, hexp, hfound] using h.checksums
    · have hs : s.seq = .busy p := hp
      simp [State.busy, hs] at hb

/-- `START` (R680): the results are cleared and the `CMD` word comes next. -/
theorem State.Inv.start (h : s.Inv) : s.start.Inv where
  memory := h.memory
  oneOutcome := nofun
  busyClear _ := ⟨rfl, rfl, rfl⟩
  errCode := Nat.zero_le _
  checksums _ := ⟨rfl, rfl⟩
  cmd := h.cmd
  window := h.window
  adler := h.adler
  running p hp hd := by cases hp; exact absurd rfl hd

theorem writeCtrl_inv (h : s.Inv) (v : Word) : (writeCtrl v s).Inv := by
  have hirq := h.flags (v.getLsbD 1) (done := s.reg.done) (err := s.reg.err) id id
  unfold writeCtrl
  dsimp only
  split
  · exact hirq.start
  · exact hirq

theorem cmdOf_lt (v : Word) : (cmdOf v).toNat < 512 := by
  rw [cmdOf, BitVec.toNat_and]
  exact Nat.lt_succ_of_le Nat.and_le_right

theorem windowOf_le (v : Word) : (windowOf v).toNat ≤ 32768 := by
  rw [windowOf, BitVec.toNat_ofNat]
  exact (Nat.mod_le _ _).trans (Nat.min_le_right _ _)

theorem writeRegister_inv (h : s.Inv) (off : Nat) (v : Word) : (writeRegister off v s).Inv := by
  unfold writeRegister
  split
  · exact writeCtrl_inv h v
  · exact h.configure _ rfl rfl rfl rfl rfl (cmdOf_lt v) h.window
  · exact h.configure _ rfl rfl rfl rfl rfl h.cmd (windowOf_le v)
  · exact h.configure _ rfl rfl rfl rfl rfl h.cmd h.window
  · exact h.configure _ rfl rfl rfl rfl rfl h.cmd h.window
  · exact h.configure _ rfl rfl rfl rfl rfl h.cmd h.window
  · exact h.configure _ rfl rfl rfl rfl rfl h.cmd h.window
  · exact h.flags s.reg.irqEn (fun k => (Bool.and_eq_true_iff.1 k).1) fun k => (Bool.and_eq_true_iff.1 k).1
  · exact h.configure _ rfl rfl rfl rfl rfl h.cmd h.window
  · exact h

/-- A read leaves what the host read, a register's value or a free one. -/
theorem readRegister_eq (off : Nat) (s : State) :
    (∃ v, readRegister off s = s.withReadData v) ∨ readRegister off s = s.readAny id := by
  unfold readRegister
  split
  case h_10 | h_11 =>
    split
    · exact .inr rfl
    · exact .inl ⟨_, rfl⟩
  all_goals exact .inl ⟨_, rfl⟩

theorem readRegister_inv (h : s.Inv) (off : Nat) : (readRegister off s).Inv := by
  rcases readRegister_eq off s with ⟨v, e⟩ | e
  · rw [e]; exact h.withReadData v
  · rw [e]; exact h.readAny id

theorem registerAccess_eq_next {addr width : Nat} {k : Nat → State} {t : State}
    (h : registerAccess addr width k s = .next t) : ∃ off, t = k off := by
  unfold registerAccess at h
  split at h
  · cases h
  · split at h
    · cases h
    · cases h; exact ⟨_, rfl⟩

/-- A host store that goes on stays inside host memory (R105). -/
theorem hostStoreStop_none {l : List Nat} (h : hostStoreStop s l = none) : ∀ a ∈ l, a < Config.memorySize := by
  induction l with
  | nil => simp
  | cons a rest ih =>
    rw [hostStoreStop] at h
    split at h
    · cases h
    · next hstop =>
      split at h
      · cases h
      · refine List.forall_mem_cons.2 ⟨?_, ih h⟩
        by_contra hge
        simp [hostAddressStop, Nat.le_of_not_lt hge] at hstop

theorem hostAddressStop_ne_next (a : Nat) (t : State) : hostAddressStop s a ≠ some (.next t) := by
  unfold hostAddressStop
  split
  · nofun
  · split <;> nofun

theorem hostStoreStop_ne_next (l : List Nat) (t : State) : hostStoreStop s l ≠ some (.next t) := by
  induction l with
  | nil => nofun
  | cons a rest ih =>
    rw [hostStoreStop]
    split
    · next hstop => exact fun e => hostAddressStop_ne_next a t (hstop.trans e)
    · split
      · nofun
      · exact ih

theorem hostStore_inv (h : s.Inv) {a : Nat} {bytes : List Byte} {t : State} (ht : hostStore a bytes s = .next t) :
    t.Inv := by
  unfold hostStore at ht
  split at ht
  · next hstop => exact absurd (hstop.trans (congrArg some ht)) (hostStoreStop_ne_next _ t)
  · next hstop =>
    cases ht
    exact h.frame (Memory.wf_writeAll h.memory (hostStoreStop_none hstop)) _ _

theorem hostLoad_inv (h : s.Inv) {a : Nat} {t : State} (ht : hostLoad a s = .next t) : t.Inv := by
  unfold hostLoad at ht
  split at ht
  · next hstop => exact absurd (hstop.trans (congrArg some ht)) (hostAddressStop_ne_next a t)
  · split at ht
    · cases ht; exact h.readAny _
    · cases ht; exact h.withReadData _

/-- The registers of reset in an idle core (R780, R781). -/
theorem State.Inv.of_reset (hreg : s.reg = Regs.reset) (hseq : s.seq = .idle) (hmem : s.mem.wf = true)
    (hadler : s.sum.s1 < 65521 ∧ s.sum.s2 < 65521) : s.Inv := by
  have idle : ¬s.busy = true := by simp [State.busy, hseq]
  refine ⟨hmem, ?_, fun k => absurd k idle, ?_, ?_, ?_, ?_, hadler, fun p hp => ?_⟩
  · rw [hreg]; nofun
  · rw [hreg]; decide
  · rw [hreg]; exact fun _ => ⟨rfl, rfl⟩
  · rw [hreg]; decide
  · rw [hreg]; decide
  · cases hseq.symm.trans hp

theorem resetInput_inv (h : s.Inv) : (resetInput s).Inv := by
  refine .of_reset rfl rfl ?_ h.adler
  rw [resetInput_mem]
  split
  · exact Memory.wf_lose _ _ _ h.memory
  · exact h.memory

theorem hostMove_inv (h : s.Inv) {m : HostMove} {t : State} (ht : hostMove m s = .next t) : t.Inv := by
  cases m with
  | engine => exact engine_inv h ht
  | regWrite addr width v =>
    rw [hostMove] at ht
    obtain ⟨off, rfl⟩ := registerAccess_eq_next ht
    exact writeRegister_inv h off v
  | regRead addr width =>
    rw [hostMove] at ht
    obtain ⟨off, rfl⟩ := registerAccess_eq_next ht
    exact readRegister_inv h off
  | memStore addr bytes => exact hostStore_inv h ht
  | memLoad addr => exact hostLoad_inv h ht
  | reset => cases ht; exact resetInput_inv h

end HostMoves

/-! ## The step -/

theorem step_engine {s : State} (h : s.host.moves = []) : step s = engine s := by rw [step, h]

theorem step_move {s : State} {m : HostMove} {rest : List HostMove} (h : s.host.moves = m :: rest) :
    step s = hostMove m (s.withMoves rest) := by rw [step, h]

/-- Settles O3: reset's registers are the reset values, nothing is listed in memory, and the Adler pair is (1, 0). -/
theorem resetMeetsTheInvariant : Obligations.ResetMeetsTheInvariant :=
  .of_reset rfl rfl rfl (show 1 < 65521 ∧ 0 < 65521 by decide)

/-- Settles O4, by what an engine step can end with (`engine_ends`) and, move by move, what the host can do. -/
theorem stepKeepsTheInvariant : Obligations.StepKeepsTheInvariant := by
  intro s t h ht
  cases hm : s.host.moves with
  | nil => exact engine_inv h (step_engine hm ▸ ht)
  | cons m rest => exact hostMove_inv (h.withMoves rest) (step_move hm ▸ ht)

/-- Settles O6: the three ends of an engine step are the statement's three cases. -/
theorem commandEndsWithOneOutcome : Obligations.CommandEndsWithOneOutcome := by
  intro s t h hm hb ht
  obtain ⟨hdone, herr, hcode⟩ := h.busyClear hb
  rw [step_engine hm] at ht
  cases engine_ends h hb t ht with
  | runs p hseq steady _ => exact .inl ⟨by simp [State.busy, hseq], steady.reg⟩
  | finishes steady => exact .inr (.inl ⟨rfl, rfl, by simpa [steady.reg] using herr, by simpa [steady.reg] using hcode⟩)
  | raises e steady =>
    exact .inr (.inr ⟨rfl, by simpa [steady.reg] using hdone, rfl, e.code_ne_zero, rfl, by simp [steady.reg]⟩)

/-- Settles O5: the engine runs what it fetches, and a fetch is the phase's word decoded. -/
theorem stepRunsTheFetchedInstruction : Obligations.StepRunsTheFetchedInstruction := by
  refine ⟨?_, ?_, ?_⟩
  · rintro s t p w i ⟨hm, hs⟩ hp hw hi
    rw [step_engine hm, engine_eq_runNext hs hp, runNext, fetch_eq_ok.2 ⟨w, hw, hi⟩]
  · rintro s t p e ⟨hm, hs⟩ hp hw
    rw [step_engine hm, engine_eq_runNext hs hp, runNext, fetch_of_raised hw]
  · intro s hm hs
    rw [step_engine hm, engine_idle hs]

end Sys2Proof.Machine
end

section
/-! PROOFS. What the host reads from and writes to the register block (spec/10_state.md R61 to R74, spec/20_memory.md R100 to
R103). -/

namespace Sys2Proof.Machine

/-! ## Register accesses -/

section Access
variable {s : State} {rest : List HostMove} {off : Nat} {v : Word}

/-- A full access at an offset of the block goes through (R61, R100). -/
theorem registerAccess_offset (k : Nat → State) (hlt : off < 64) (h4 : off % 4 = 0) :
    registerAccess (s.plat.base + off) 4 k s = .next (k off) := by
  simp [registerAccess, hlt, h4]

theorem step_regRead (hm : s.host.moves = .regRead (s.plat.base + off) 4 :: rest) (hlt : off < 64)
    (h4 : off % 4 = 0) : step s = .next (readRegister off (s.withMoves rest)) := by
  rw [step_move hm, hostMove]
  exact registerAccess_offset (s := s.withMoves rest) _ hlt h4

theorem step_regWrite (hm : s.host.moves = .regWrite (s.plat.base + off) 4 v :: rest) (hlt : off < 64)
    (h4 : off % 4 = 0) : step s = .next (writeRegister off v (s.withMoves rest)) := by
  rw [step_move hm, hostMove]
  exact registerAccess_offset (s := s.withMoves rest) _ hlt h4

/-- Reads whose values are known, offset by offset, as steps. -/
theorem step_reads {values : List (Nat × Word)} (hoff : ∀ r ∈ values, r.1 < 64 ∧ r.1 % 4 = 0)
    (hread : ∀ r ∈ values, readRegister r.1 (s.withMoves rest) = (s.withMoves rest).withReadData r.2) :
    ∀ r ∈ values, s.host.moves = .regRead (s.plat.base + r.1) 4 :: rest →
      step s = .next { s with host := { moves := rest, readData := r.2 } } := by
  intro r hr hm
  obtain ⟨hlt, h4⟩ := hoff r hr
  rw [step_regRead hm hlt h4, hread r hr]
  rfl

@[simp] theorem State.withMoves_busy (s : State) (moves : List HostMove) : (s.withMoves moves).busy = s.busy := rfl

end Access

/-! ## Reads -/

section Reads
variable {s : State}

theorem statusWord_idle (h : s.busy = false) :
    s.statusWord = BitVec.ofNat 32 (2 * s.reg.done.toNat + 4 * s.reg.err.toNat + 256 * s.reg.errCode.toNat) := by
  simp [State.statusWord, h]

/-- `STATUS` of a busy core that meets the invariant is `BUSY` alone (R60, R70). -/
theorem statusWord_busy (h : s.Inv) (hb : s.busy = true) : s.statusWord = 1#32 := by
  obtain ⟨hdone, herr, hcode⟩ := h.busyClear hb
  simp [State.statusWord, hb, hdone, herr, hcode]

/-- `ERR_EXPECTED` and `ERR_FOUND` of a busy core that meets the invariant are 0 (R73, R74). -/
theorem checksums_busy (h : s.Inv) (hb : s.busy = true) : s.reg.errExpected = 0#32 ∧ s.reg.errFound = 0#32 := by
  obtain ⟨-, -, hcode⟩ := h.busyClear hb
  exact h.checksums (by rw [hcode]; decide)

/-- `OUT_LEN` and `CHECKSUM` read a free value while busy (R71, R72, R795). -/
theorem readRegister_results_busy (hb : s.busy = true) : ∀ off ∈ [0x24, 0x28], readRegister off s = s.readAny id := by
  intro off ho
  fin_cases ho <;> exact if_pos hb

end Reads

/-- Settles O10: each offset's row of `readRegister`, with what the invariant says of a busy core's results. -/
theorem hostReadsRegisters : Obligations.HostReadsRegisters := by
  constructor
  · intro s rest hb
    have hidle : ¬(s.withMoves rest).busy = true := by simp [hb]
    have outLen : readRegister 0x24 (s.withMoves rest) = (s.withMoves rest).withReadData s.reg.outLen := if_neg hidle
    have checksum : readRegister 0x28 (s.withMoves rest) = (s.withMoves rest).withReadData s.reg.checksum :=
      if_neg hidle
    refine step_reads (by simp) ?_
    rw [← statusWord_idle hb]
    simp only [List.forall_mem_cons]
    exact ⟨rfl, rfl, rfl, rfl, rfl, rfl, rfl, rfl, rfl, outLen, checksum, rfl, rfl, rfl, rfl, rfl, nofun⟩
  · intro s rest h hb
    obtain ⟨hexp, hfound⟩ := checksums_busy h hb
    constructor
    · refine step_reads (by simp) ?_
      have expected : readRegister 0x2C (s.withMoves rest) = (s.withMoves rest).withReadData 0#32 :=
        congrArg (State.withReadData _) hexp
      have found : readRegister 0x30 (s.withMoves rest) = (s.withMoves rest).withReadData 0#32 :=
        congrArg (State.withReadData _) hfound
      rw [← statusWord_busy h hb]
      simp only [List.forall_mem_cons]
      exact ⟨rfl, rfl, expected, found, rfl, rfl, rfl, rfl, rfl, rfl, rfl, rfl, rfl, rfl, nofun⟩
    · intro off ho hm
      have hoff : ∀ off ∈ [0x24, 0x28], off < 64 ∧ off % 4 = 0 := by decide
      obtain ⟨hlt, h4⟩ := hoff off ho
      rw [step_regRead hm hlt h4, readRegister_results_busy (s := s.withMoves rest) hb off ho]
      rfl

/-! ## Writes -/

/-- A configuration write as one update: it is stored in an idle core and ignored while busy (R103). -/
theorem configure_withMoves (s : State) (rest : List HostMove) (f : Regs → Regs) :
    (s.withMoves rest).configure f =
      { s with reg := if s.busy then s.reg else f s.reg, host := { s.host with moves := rest } } := by
  unfold State.configure
  rw [State.withMoves_busy]
  split <;> rfl

/-- A write of `CTRL` while busy stores `IRQ_EN` alone (R63, R103). -/
theorem writeCtrl_busy {s : State} (v : Word) (hb : s.busy = true) :
    writeCtrl v s = { s with reg := { s.reg with irqEn := v.getLsbD 1 } } := by
  simp [writeCtrl, hb]

/-- Settles O12: the offsets are in the block, and each one's row of `writeRegister` is the update named. -/
theorem hostWritesRegisters : Obligations.HostWritesRegisters := by
  intro s rest v
  refine ⟨?_, ?_, ?_, ?_⟩
  · intro r hr hm
    fin_cases hr
    all_goals
      rw [step_regWrite hm (by simp) (by simp)]
      simp only [writeRegister, configure_withMoves, cmdOf, windowOf, Config.maxWindow]
  · intro off ho hm
    fin_cases ho
    all_goals exact step_regWrite hm (by decide) (by decide)
  · intro hb hm
    rw [step_regWrite hm (by decide) (by decide)]
    exact congrArg _ (writeCtrl_busy v hb)
  · intro hm
    exact step_regWrite hm (by decide) (by decide)

end Sys2Proof.Machine
end

section
/-! PROOFS. A `CMD` word starts from a fresh datapath, so it forgets what an earlier command left (spec/10_state.md R77); and
the words the spec writes out. -/

namespace Sys2Proof.Machine

/-! ## What a command depends on -/

/-- Two states agree on everything but the running command and its datapath. -/
structure State.AgreesWith (s' s : State) : Prop where
  reg : s'.reg = s.reg
  seq : s'.seq = s.seq
  mem : s'.mem = s.mem
  plat : s'.plat = s.plat
  host : s'.host = s.host
  free : s'.free = s.free

/-- `o'` is a next state wherever `o` is, the two agree, and they are equal if the command goes on. -/
def OutcomesAgree (o' o : Host.Outcome State Fault Refusal) : Prop :=
  ∀ t, o = .next t → ∃ t', o' = .next t' ∧ t'.AgreesWith t ∧ (t.busy = true → t' = t)

theorem OutcomesAgree.of_eq {o' o : Host.Outcome State Fault Refusal} (h : o' = o) : OutcomesAgree o' o :=
  fun t ht => ⟨t, h.trans ht, ⟨rfl, rfl, rfl, rfl, rfl, rfl⟩, fun _ => rfl⟩

section Forgets
variable {s s' : State}

/-- An error of `Validate` loses no memory, whatever ran before (R683). -/
theorem State.AgreesWith.raise (h : s'.AgreesWith s) {e : CodecError} (he : e.beforeMemory = true) :
    OutcomesAgree (.next (s'.raise e)) (.next (s.raise e)) := by
  have keeps (u : State) : u.losesOut e = false := by simp [State.losesOut, he]
  rintro _ ⟨⟩
  refine ⟨_, rfl, ⟨?_, rfl, ?_, h.plat, h.host, ?_⟩, nofun⟩
  · simp [h.reg]
  · simp [keeps, h.mem]
  · simp [keeps, h.free]

theorem State.AgreesWith.begun (h : s'.AgreesWith s) (c : Run) (p : Phase) : s'.begun c p = s.begun c p := by
  simp only [State.begun, h.reg, h.mem, h.plat, h.host, h.free]

/-- After the region check a command's datapath is fresh, so whatever follows is the same. -/
theorem State.AgreesWith.beginCommand_andThen (h : s'.AgreesWith s) (c : Run) (p : Phase) (k : Unit → State → Res Unit) :
    OutcomesAgree ((beginCommand c p s').andThen k).outcome ((beginCommand c p s).andThen k).outcome := by
  cases hb : s.reg.buffersOk c.op with
  | true =>
    rw [beginCommand_ok hb, beginCommand_ok (h.reg ▸ hb), h.begun]
    exact .of_eq rfl
  | false =>
    rw [beginCommand_bad hb, beginCommand_bad (h.reg ▸ hb)]
    have hrun : { s' with run := c }.AgreesWith { s with run := c } := ⟨h.reg, h.seq, h.mem, h.plat, h.host, h.free⟩
    exact hrun.raise rfl

/-- Going on with the answer as it is changes nothing. -/
theorem Res.andThen_self {α : Type} (r : Res α) : r.andThen .ok = r := by
  cases r <;> rfl

theorem State.AgreesWith.beginCommand (h : s'.AgreesWith s) (op : Op) (f : CmdFields) (p : Phase) :
    OutcomesAgree (beginCommand (runOf op f s'.reg.window) p s').outcome
      (beginCommand (runOf op f s.reg.window) p s).outcome := by
  have agree := h.beginCommand_andThen (runOf op f s.reg.window) p .ok
  rw [Res.andThen_self, Res.andThen_self] at agree
  rw [h.reg]
  exact agree

theorem State.AgreesWith.checksumCommand (h : s'.AgreesWith s) (op : Op) (f : CmdFields) :
    OutcomesAgree (checksumCommand op f s').outcome (checksumCommand op f s).outcome := by
  rw [Machine.checksumCommand, Machine.checksumCommand, h.reg]
  exact h.beginCommand_andThen _ _ _

/-- Every row of the `CMD` alphabet begins a command, runs a checksum or is invalid. -/
theorem State.AgreesWith.exec (h : s'.AgreesWith s) {i : Instr} (hi : i.alphabet = .command) :
    OutcomesAgree (exec i s') (exec i s) := by
  cases i with
  | deflate f => exact h.beginCommand .deflate f .loadChunk
  | deflateZlib f => exact h.beginCommand .deflateZlib f .zlibHeaderOut
  | inflate f => exact h.beginCommand .inflate f .readBlock
  | inflateZlib f => exact h.beginCommand .inflateZlib f .zlibHeaderIn
  | inflateGzip f => exact h.beginCommand .inflateGzip f .gzipHeader
  | crc32 f => exact h.checksumCommand .crc32 f
  | adler32 f => exact h.checksumCommand .adler32 f
  | invalidOp7 f => exact h.raise rfl
  | invalidOp8To15 op f => exact h.raise rfl
  | invalidMode3 zlib f => exact h.raise rfl
  | _ => cases hi

end Forgets

/-- Settles O22: the datapath is fresh before it is first used. -/
theorem commandForgetsThePast : Obligations.CommandForgetsThePast := by
  intro s s' t i hi hreg hseq hmem hplat hhost hfree ht
  have agree : s'.AgreesWith s := ⟨hreg, hseq, hmem, hplat, hhost, hfree⟩
  obtain ⟨t', ht', h, heq⟩ := agree.exec hi t ht
  exact ⟨t', ht', h.reg, h.seq, h.mem, h.plat, h.host, h.free, heq⟩

/-- Settles O60: each word decodes by evaluation. -/
theorem tableWordsDecode : Obligations.TableWordsDecode :=
  ⟨rfl, rfl, rfl, rfl, rfl, rfl, rfl, rfl, rfl, rfl, rfl, rfl, rfl, rfl, rfl, rfl, rfl, rfl, rfl⟩

end Sys2Proof.Machine
end

section
/-! PROOFS. What no instruction and no engine step changes: the configuration registers, the platform and the host's
side (spec/20_memory.md R103, spec/46_host_commands.md R696), and memory outside `OUT` (R108, R112). And which register
accesses are refused (R100). -/

namespace Sys2Proof.Machine

/-! ## The frame of an engine step -/

/-- What is fixed while a command runs (R103): the configuration registers with `IRQ_EN`, the platform's parameters and
the host's side. -/
def State.config (s : State) : Bool × Word × Word × Word × Word × Word × Word × Platform × HostSide :=
  (s.reg.irqEn, s.reg.cmd, s.reg.window, s.reg.srcAddr, s.reg.srcLen, s.reg.dstAddr, s.reg.dstCap, s.plat, s.host)

/-- From `s` to `t` the configuration is unchanged and, if `outPos` was within `DST_CAP`, it still is and every byte
outside `OUT` reads as before. -/
structure Framed (s t : State) : Prop where
  config : t.config = s.config
  output : s.outPos ≤ s.reg.dstCap.toNat →
    t.outPos ≤ s.reg.dstCap.toNat ∧ ∀ a, s.inDst a = false → t.mem.read a = s.mem.read a

/-- Every state an outcome can go on with is framed. -/
def OutcomeFramed (s : State) (o : Host.Outcome State Fault Refusal) : Prop := ∀ t, o = .next t → Framed s t

/-- The parts of the state that `Framed` speaks of. -/
def State.framedParts (s : State) : Regs × Nat × Memory × Platform × HostSide :=
  (s.reg, s.outPos, s.mem, s.plat, s.host)

section Frame
variable {s t u : State} {α β : Type} {r : Res α}

theorem State.dst_of_config (h : t.config = s.config) :
    t.reg.dstAddr = s.reg.dstAddr ∧ t.reg.dstCap = s.reg.dstCap := by
  simp only [State.config, Prod.mk.injEq] at h
  obtain ⟨-, -, -, -, -, haddr, hcap, -, -⟩ := h
  exact ⟨haddr, hcap⟩

theorem Framed.refl (s : State) : Framed s s := ⟨rfl, fun h => ⟨h, fun _ _ => rfl⟩⟩

theorem Framed.trans (h : Framed s t) (k : Framed t u) : Framed s u := by
  refine ⟨k.config.trans h.config, fun hpos => ?_⟩
  obtain ⟨haddr, hcap⟩ := State.dst_of_config h.config
  obtain ⟨htpos, htmem⟩ := h.output hpos
  obtain ⟨hupos, humem⟩ := k.output (hcap ▸ htpos)
  refine ⟨hcap ▸ hupos, fun a ha => ?_⟩
  have hta : t.inDst a = false := by rw [State.inDst, haddr, hcap]; exact ha
  exact (humem a hta).trans (htmem a ha)

/-- An update of the sequencer, the running command's record or the datapath is framed. -/
theorem Framed.of_parts (h : t.framedParts = s.framedParts) : Framed s t := by
  simp only [State.framedParts, Prod.mk.injEq] at h
  obtain ⟨hreg, hpos, hmem, hplat, hhost⟩ := h
  exact ⟨by simp only [State.config, hreg, hplat, hhost], fun hs => ⟨hpos ▸ hs, fun _ _ => by rw [hmem]⟩⟩

/-- An address outside `OUT` is outside any stretch of the output within its capacity. -/
theorem State.outside_of_inDst {a lo hi : Nat} (ha : s.inDst a = false) (hhi : hi ≤ s.reg.dstCap.toNat) :
    s.outside lo hi a := by
  simp only [State.inDst, Bool.and_eq_false_iff, decide_eq_false_iff_not] at ha
  unfold State.outside State.dstByte
  omega

/-- Growing the output within its capacity, by the bytes between the two values of `outPos`, is framed (R112). -/
theorem Framed.of_output (hconfig : t.config = s.config)
    (hcap : s.outPos ≤ s.reg.dstCap.toNat → t.outPos ≤ s.reg.dstCap.toNat)
    (hmem : ∀ a, s.outside s.outPos t.outPos a → t.mem.read a = s.mem.read a) : Framed s t :=
  ⟨hconfig, fun hs => ⟨hcap hs, fun a ha => hmem a (State.outside_of_inDst ha (hcap hs))⟩⟩

theorem Written.framed (h : Written s t) : Framed s t :=
  .of_output (by simp only [State.config, h.reg, h.plat, h.host]) h.capacity h.mem

theorem Emitted.framed (h : Emitted s t) : Framed s t :=
  .of_output (by simp only [State.config, h.reg, h.plat, h.host]) h.capacity h.mem

theorem Moved.framed (h : Moved s t) : Framed s t := h.emitted.framed

/-- A raised error records itself and loses at most `OUT` (R750, R751). -/
theorem Framed.raise (s : State) (e : CodecError) : Framed s (s.raise e) :=
  ⟨rfl, fun h => ⟨h, fun _ ha => s.raise_mem_outside e ha⟩⟩

/-- The end of a command writes its results alone (R681). -/
theorem Framed.finish (s : State) : Framed s s.finish := ⟨rfl, fun h => ⟨h, fun _ _ => rfl⟩⟩

/-- A fresh datapath starts at output byte 0 (R782). -/
theorem Framed.begun (s : State) (c : Run) (p : Phase) : Framed s (s.begun c p) :=
  ⟨rfl, fun _ => ⟨Nat.zero_le _, fun _ _ => rfl⟩⟩

theorem Res.All.ite {P : State → Prop} {c : Prop} [Decidable c] {r' : Res α} (h : r.All P) (h' : r'.All P) :
    (if c then r else r').All P := by
  split <;> assumption

/-- One framed step after another. -/
theorem Framed.andThen {k : α → State → Res β} (h : r.All (Framed s)) (hk : ∀ a t, (k a t).All (Framed t)) :
    (r.andThen k).All (Framed s) :=
  Res.All.andThen h (fun _ ht => ht) fun a t _ ht => (hk a t).imp fun _ hu => ht.trans hu

theorem Written.all_framed (h : r.All (Written s)) : r.All (Framed s) := h.imp fun _ => Written.framed

theorem Emitted.all_framed (h : r.All (Emitted s)) : r.All (Framed s) := h.imp fun _ => Emitted.framed

theorem Moved.all_framed (h : r.All (Moved s)) : r.All (Framed s) := h.imp fun _ => Moved.framed

theorem Framed.next (h : Framed s t) : OutcomeFramed s (.next t) := by
  rintro _ ⟨⟩
  exact h

/-- A finished step is framed, whether the rules went through or raised an error. -/
theorem Framed.outcome {r : Res Unit} (h : r.All (Framed s)) : OutcomeFramed s r.outcome := by
  intro t ht
  rcases Res.outcome_eq_next.1 ht with rfl | ⟨e, u, rfl, rfl⟩
  · exact h
  · exact Framed.trans h (Framed.raise u e)

end Frame

/-! ## The operations -/

section Operations
variable (s : State)

theorem emit_framed (b : Byte) : (emit b s).All (Framed s) := Written.all_framed (emit_written b s)

theorem writeBits_framed (w bits : Nat) : (writeBits w bits s).All (Framed s) :=
  Written.all_framed (writeBits_written w bits s)

theorem encodeSymbol_framed (table : List (Option HuffCode)) (sym : Nat) : (encodeSymbol table sym s).All (Framed s) :=
  Written.all_framed (encodeSymbol_written table sym s)

theorem readBits_framed (n : Nat) : (readBits n s).All (Framed s) := Moved.all_framed (readBits_all n s)

theorem readBitsBase_framed (n base : Nat) : (readBitsBase n base s).All (Framed s) :=
  Moved.all_framed (readBitsBase_moved s n base)

theorem decodeSymbol_framed (table : DecTable) : (decodeSymbol table s).All (Framed s) :=
  Moved.all_framed (decodeSymbol_moved s table)

theorem recordBytes_framed (n : Nat) : (recordBytes n s).All (Framed s) := Moved.all_framed (recordBytes_moved s n)

theorem endBlockWritten_framed : Framed s s.endBlockWritten := by
  unfold State.endBlockWritten
  split <;> exact .of_parts rfl

theorem endBlockRead_framed : Framed s s.endBlockRead := by
  have aligned : Framed s (alignIn s) := .of_parts rfl
  unfold State.endBlockRead
  split
  · unfold State.endStream
    split
    · exact .of_parts rfl
    · exact .of_parts rfl
    · exact aligned.trans (.finish _)
  · exact .of_parts rfl

/-! ### Block types -/

theorem writeBlockHeader_framed (type : Nat) : (writeBlockHeader type s).All (Framed s) :=
  Framed.andThen (writeBits_framed s _ _) fun _ t => writeBits_framed t _ _

theorem writeStored_framed : (writeStored s).All (Framed s) :=
  Framed.andThen (writeBlockHeader_framed s 0) fun _ t =>
  Framed.andThen (Written.all_framed (alignOut_written t)) fun _ t =>
  Framed.andThen (writeBits_framed t _ _) fun _ t =>
  Framed.andThen (writeBits_framed t _ _) fun _ t =>
  Framed.andThen (Written.all_framed (writeBytes_written _ t)) fun _ t => endBlockWritten_framed t

theorem readStored_framed : (readStored s).All (Framed s) := by
  have aligned : Framed s (alignIn s) := .of_parts rfl
  refine Framed.andThen ((readBits_framed (alignIn s) 16).imp fun _ => aligned.trans) fun _ t =>
    Framed.andThen (readBits_framed t 16) fun _ t => Res.All.ite (Framed.refl t) ?_
  exact Framed.andThen (Emitted.all_framed (copyStored_emitted _ t)) fun _ t => endBlockRead_framed t

theorem writeStatic_framed : (writeStatic s).All (Framed s) :=
  Framed.andThen (writeBlockHeader_framed s 1) fun _ _ => Framed.of_parts rfl

theorem writeDynamic_framed : (writeDynamic s).All (Framed s) := by
  refine Framed.andThen (writeBlockHeader_framed s 2) fun _ t => ?_
  -- with `hlit - 257` in the goal, unification would evaluate the domain test of `WriteBits` on it
  generalize t.enc.hlit - 257 = count
  exact Framed.andThen (writeBits_framed t 5 count) fun _ t =>
    Framed.andThen (writeBits_framed t _ _) fun _ t =>
    Framed.andThen (writeBits_framed t _ _) fun _ t =>
    Framed.andThen (Written.all_framed (writeClWidths_written _ t)) fun _ _ => Framed.of_parts rfl

theorem readDynamic_framed : (readDynamic s).All (Framed s) :=
  Framed.andThen (readBitsBase_framed s 5 257) fun _ t =>
  Framed.andThen (readBitsBase_framed t 5 1) fun _ t =>
  Framed.andThen (readBitsBase_framed t 4 4) fun _ t =>
  Framed.andThen (Moved.all_framed (readClWidths_moved t _)) fun _ _ => Framed.of_parts rfl

/-! ### Symbols -/

theorem literal_framed (b : Byte) : (literal b s).All (Framed s) :=
  Res.All.ite (Framed.andThen (encodeSymbol_framed s _ _) fun _ _ => Framed.of_parts rfl)
    (Emitted.all_framed (emitOut_emitted b s))

theorem execEob_framed : OutcomeFramed s (execEob s) := by
  unfold execEob
  split
  · exact Framed.outcome <| Framed.andThen (encodeSymbol_framed s _ _) fun _ t =>
      (Framed.of_parts rfl : Framed t t.popSym).trans (endBlockWritten_framed _)
  · exact (endBlockRead_framed s).next

theorem lengthSymbol_framed (sym extra base : Nat) : (lengthSymbol sym extra base s).All (Framed s) :=
  Res.All.ite
    (Framed.andThen (encodeSymbol_framed s _ _) fun _ t =>
      Framed.andThen (writeBits_framed t _ _) fun _ _ => Framed.of_parts rfl)
    (Framed.andThen (readBitsBase_framed s _ _) fun _ _ => Framed.of_parts rfl)

theorem distanceSymbol_framed (sym extra base : Nat) : (distanceSymbol sym extra base s).All (Framed s) :=
  Res.All.ite
    (Framed.andThen (encodeSymbol_framed s _ _) fun _ t =>
      Framed.andThen (writeBits_framed t _ _) fun _ _ => Framed.of_parts rfl)
    (Framed.andThen (readBitsBase_framed s _ _) fun _ t =>
      Framed.andThen (Emitted.all_framed (copy_emitted _ _ t)) fun _ _ => Framed.of_parts rfl)

theorem appendWidths_framed (ws : List Nat) : (appendWidths ws s).All (Framed s) := by
  have pushed : Framed s (s.pushWidths ws) := .of_parts rfl
  exact Res.All.ite pushed (Res.All.ite (Framed.of_parts rfl) pushed)

theorem writeCl_framed (c extra : Nat) : (writeCl c extra s).All (Framed s) :=
  Framed.andThen (encodeSymbol_framed s _ _) fun _ t =>
  Framed.andThen (writeBits_framed t _ _) fun _ _ => Framed.of_parts rfl

theorem widthSymbol_framed (w : Nat) : (widthSymbol w s).All (Framed s) :=
  Res.All.ite (Framed.andThen (encodeSymbol_framed s _ _) fun _ _ => Framed.of_parts rfl) (appendWidths_framed s _)

theorem readClRepeat_framed : (readClRepeat s).All (Framed s) := by
  unfold readClRepeat
  split
  · exact Framed.refl s
  · exact Framed.andThen (readBitsBase_framed s _ _) fun _ t => appendWidths_framed t _

theorem readClZeros_framed (extra base : Nat) : (readClZeros extra base s).All (Framed s) :=
  Framed.andThen (readBitsBase_framed s _ _) fun _ t => appendWidths_framed t _

/-! ### Container records -/

theorem emitBE_framed (w : Word) : (emitBE w s).All (Framed s) :=
  Framed.andThen (emit_framed s _) fun _ t => Framed.andThen (emit_framed t _) fun _ t =>
  Framed.andThen (emit_framed t _) fun _ t => emit_framed t _

theorem execZlibHeaderWrite_framed : OutcomeFramed s (execZlibHeaderWrite s) :=
  Framed.outcome <| Framed.andThen (emit_framed s _) fun _ t =>
    Framed.andThen (emit_framed t _) fun _ _ => Framed.of_parts rfl

theorem execZlibTrailerWrite_framed : OutcomeFramed s (execZlibTrailerWrite s) :=
  Framed.outcome <| Framed.andThen (emitBE_framed s _) fun _ t => Framed.finish t

theorem execZlibHeaderRead_framed (cmf flg : Byte) : OutcomeFramed s (execZlibHeaderRead cmf flg s) := by
  unfold execZlibHeaderRead
  split
  · exact (Framed.raise s _).next
  · exact Framed.next (.of_parts rfl)

theorem execZlibTrailerRead_framed (adler : Word) : OutcomeFramed s (execZlibTrailerRead adler s) := by
  unfold execZlibTrailerRead
  split
  · exact (Framed.raise s _).next
  · exact (Framed.finish s).next

theorem execGzipHeader_framed (id1 id2 cm flg : Byte) (mtime : Word) (xfl os : Byte) :
    OutcomeFramed s (execGzipHeader id1 id2 cm flg mtime xfl os s) := by
  unfold execGzipHeader
  split
  · exact (Framed.raise s _).next
  · split
    · exact (Framed.raise s _).next
    · exact Framed.next (.of_parts rfl)

theorem execGzipTrailerStrict_framed (crc isize : Word) : OutcomeFramed s (execGzipTrailerStrict crc isize s) := by
  unfold execGzipTrailerStrict
  split
  · exact (Framed.raise s _).next
  · split
    · exact (Framed.raise s _).next
    · exact (Framed.finish s).next

theorem needBytes_moved (p n : Nat) : (needBytes p n s).All (Moved s) := Res.All.ite (Moved.refl s) (Moved.refl s)

theorem inHalf_moved (p : Nat) : (inHalf p s).All (Moved s) :=
  Moved.andThen (memRead_moved s _) fun _ t _ => Moved.andThen (memRead_moved t _) fun _ t _ => Moved.refl t

theorem gzipExtra_moved (p : Nat) : (gzipExtra p s).All (Moved s) :=
  Moved.andThen (needBytes_moved s _ _) fun _ t _ => Moved.andThen (inHalf_moved t _) fun _ t _ =>
  Moved.andThen (needBytes_moved t _ _) fun _ t _ => Moved.refl t

theorem skipString_moved (left p : Nat) : (skipString left p s).All (Moved s) := by
  induction left generalizing s p with
  | zero => exact Moved.refl s
  | succ left ih => exact Moved.andThen (memRead_moved s _) fun _ t _ => Res.All.ite (Moved.refl t) (ih t _)

theorem gzipHeaderCrc_moved (p : Nat) : (gzipHeaderCrc p s).All (Moved s) :=
  Moved.andThen (needBytes_moved s _ _) fun _ t _ => Moved.andThen (inHalf_moved t _) fun _ t _ =>
  Moved.andThen (memReadAll_moved t _ _) fun _ t _ => Res.All.ite (Moved.refl t) (Moved.refl t)

/-- An optional gzip field whose reader moves `inBit` alone is framed. -/
theorem gzipField_framed {read : Nat → State → Res Nat} (hread : ∀ p, (read p s).All (Moved s)) (bit : Byte) :
    OutcomeFramed s (gzipField read bit s).outcome :=
  Framed.outcome <| Framed.andThen (Moved.all_framed (hread _)) fun _ _ => Framed.of_parts rfl

/-! ### Commands -/

theorem beginCommand_framed (c : Run) (p : Phase) : (beginCommand c p s).All (Framed s) := by
  cases hb : s.reg.buffersOk c.op with
  | true => rw [beginCommand_ok hb]; exact Framed.begun s c p
  | false => rw [beginCommand_bad hb]; exact Framed.of_parts rfl

theorem checksumCommand_framed (op : Op) (f : CmdFields) : (checksumCommand op f s).All (Framed s) :=
  Framed.andThen (beginCommand_framed s _ _) fun _ t =>
  Framed.andThen (Moved.all_framed (memReadAll_moved t _ _)) fun _ t =>
    (Framed.of_parts rfl : Framed t (t.sumOver _ _)).trans (.finish _)

end Operations

/-! ## The instructions -/

/-- Every instruction is framed, whether it goes through or raises an error. -/
theorem exec_framed (i : Instr) (s : State) : OutcomeFramed s (exec i s) := by
  cases i with
  | deflate | deflateZlib | inflate | inflateZlib | inflateGzip => exact Framed.outcome (beginCommand_framed s _ _)
  | crc32 | adler32 => exact Framed.outcome (checksumCommand_framed s _ _)
  | invalidOp7 | invalidOp8To15 | invalidMode3 | btype3 | lensym286To287 | dsym30To31 => exact (Framed.raise s _).next
  | btype0 => exact Framed.outcome (Res.All.ite (writeStored_framed s) (readStored_framed s))
  | btype1 => exact Framed.outcome (Res.All.ite (writeStatic_framed s) (Framed.of_parts rfl))
  | btype2 => exact Framed.outcome (Res.All.ite (writeDynamic_framed s) (readDynamic_framed s))
  | lit0To127 | lit128To143 | lit144To159 | lit160To191 | lit192To255 => exact Framed.outcome (literal_framed s _)
  | eob => exact execEob_framed s
  | lensym257 | lensym258 | lensym259 | lensym260 | lensym261 | lensym262 | lensym263 | lensym264 | lensym265
  | lensym266 | lensym267 | lensym268 | lensym269 | lensym270 | lensym271 | lensym272 | lensym273 | lensym274
  | lensym275 | lensym276 | lensym277 | lensym278 | lensym279 | lensym280 | lensym281 | lensym282 | lensym283
  | lensym284 | lensym285 => exact Framed.outcome (lengthSymbol_framed s _ _ _)
  | dsym0 | dsym1 | dsym2 | dsym3 | dsym4 | dsym5 | dsym6 | dsym7 | dsym8 | dsym9 | dsym10 | dsym11 | dsym12 | dsym13
  | dsym14 | dsym15 | dsym16 | dsym17 | dsym18 | dsym19 | dsym20 | dsym21 | dsym22 | dsym23 | dsym24 | dsym25 | dsym26
  | dsym27 | dsym28 | dsym29 => exact Framed.outcome (distanceSymbol_framed s _ _ _)
  | cl0 | cl1 | cl2 | cl3 | cl4 | cl5 | cl6 | cl7 | cl8 | cl9 | cl10 | cl11 | cl12 | cl13 | cl14 | cl15 =>
    exact Framed.outcome (widthSymbol_framed s _)
  | cl16 => exact Framed.outcome (Res.All.ite (writeCl_framed s _ _) (readClRepeat_framed s))
  | cl17 | cl18 => exact Framed.outcome (Res.All.ite (writeCl_framed s _ _) (readClZeros_framed s _ _))
  | zlibHeaderWrite => exact execZlibHeaderWrite_framed s
  | zlibTrailerWrite => exact execZlibTrailerWrite_framed s
  | zlibHeaderRead => exact execZlibHeaderRead_framed s _ _
  | zlibTrailerRead => exact execZlibTrailerRead_framed s _
  | gzipHeader id1 id2 cm flg mtime xfl os => exact execGzipHeader_framed s id1 id2 cm flg mtime xfl os
  | gzipFextra => exact gzipField_framed s (gzipExtra_moved s) _
  | gzipFname | gzipFcomment => exact gzipField_framed s (fun _ => skipString_moved s _ _) _
  | gzipFhcrc => exact gzipField_framed s (gzipHeaderCrc_moved s) _
  | gzipTrailer => exact (Framed.finish s).next
  | gzipTrailerStrict => exact execGzipTrailerStrict_framed s _ _

/-- Settles O7: the configuration is a part of every instruction's frame. -/
theorem instructionsLeaveTheConfiguration : Obligations.InstructionsLeaveTheConfiguration := by
  intro i s t ht
  have h := (exec_framed i s t ht).config
  simpa only [State.config, Prod.mk.injEq] using h

/-! ## The engine -/

section Engine
variable (s : State)

theorem nextWord_framed (p : Phase) : (nextWord p s).2.All (Framed s) := by
  have record (n : Nat) (f : List Byte → Nat) :
      ((recordBytes n s).andThen fun bytes s => .ok (f bytes) s).All (Framed s) :=
    Framed.andThen (recordBytes_framed s n) fun _ t => Framed.refl t
  cases p with
  | dispatch | zlibHeaderOut | writeBlock | writeDist | zlibTrailerOut | loadChunk | scanChunk | buildTables | flush
  | gzipOptional => exact Framed.refl s
  | writeCodeLen =>
    show (nextCl s).All (Framed s)
    unfold nextCl
    split
    · exact Framed.refl s
    · trivial
  | writeSym =>
    show (nextSym s).All (Framed s)
    unfold nextSym
    split
    · exact Framed.refl s
    · exact Framed.refl s
    · exact Framed.refl s
    · trivial
  | zlibHeaderIn =>
    exact Framed.andThen (readBits_framed s 8) fun _ t => Framed.andThen (readBits_framed t 8) fun _ t => Framed.refl t
  | readBlock =>
    exact Framed.andThen (readBits_framed s 1) fun final t =>
      (readBits_framed (t.latchFinal final) 2).imp fun _ => (Framed.of_parts rfl : Framed t (t.latchFinal final)).trans
  | readCodeLen | readSym | readDist => exact decodeSymbol_framed s _
  | gzipHeader | zlibTrailerIn => exact record _ bigEndian
  | gzipTrailerIn => exact record _ littleEndian

theorem fetch_framed (p : Phase) : (fetch p s).All (Framed s) :=
  Framed.andThen (nextWord_framed s p) fun _ t => by
    split <;> exact Framed.refl t

/-- Fetching an instruction and running it is framed, and so is an error met while fetching. -/
theorem runNext_framed (p : Phase) : OutcomeFramed s (runNext p s) := by
  have fetched := fetch_framed s p
  unfold runNext
  cases hf : fetch p s with
  | ok i t =>
    rw [hf] at fetched
    exact fun u hu => Framed.trans fetched (exec_framed i t u hu)
  | raised e t =>
    rw [hf] at fetched
    exact (Framed.trans fetched (Framed.raise t e)).next
  | fault f => rintro _ ⟨⟩
  | refused q => rintro _ ⟨⟩

theorem scanChunk_framed : Framed s (scanChunk s) := by
  unfold scanChunk
  split <;> exact .of_parts rfl

theorem loadChunk_framed : (loadChunk s).All (Framed s) :=
  Framed.andThen (Moved.all_framed (memReadAll_moved s _ _)) fun _ _ => Framed.of_parts rfl

theorem flushStream_framed : (flushStream s).All (Framed s) :=
  Framed.andThen (Written.all_framed (flush_written s)) fun _ t => by
    split
    · exact Framed.of_parts rfl
    · exact Framed.finish t

theorem engine_framed : OutcomeFramed s (engine s) := by
  cases hs : s.seq with
  | idle => rw [engine_idle hs]; exact (Framed.refl s).next
  | busy p =>
    cases hp : p.internal with
    | false => rw [engine_eq_runNext hs hp]; exact runNext_framed s p
    | true =>
      rw [engine, hs]
      cases p with
      | loadChunk => exact Framed.outcome (loadChunk_framed s)
      | scanChunk => exact (scanChunk_framed s).next
      | buildTables => exact Framed.next (.of_parts rfl)
      | flush => exact Framed.outcome (flushStream_framed s)
      | _ => cases hp

end Engine

/-- Settles O8: with no host move pending a step is the engine's, which is framed. -/
theorem nothingOutsideOutIsWritten : Obligations.NothingOutsideOutIsWritten := by
  intro s t hpos hm ht
  rw [step_engine hm] at ht
  obtain ⟨-, hmem⟩ := (engine_framed s t ht).output hpos
  exact hmem

/-! ## Register accesses that are refused -/

theorem registerAccess_form {addr width : Nat} {s : State} (k : Nat → State) (hlo : s.plat.base ≤ addr)
    (hhi : addr < s.plat.base + 64) (h : width ≠ 4 ∨ (addr - s.plat.base) % 4 ≠ 0) :
    registerAccess addr width k s = .refused .registerAccessForm := by
  rw [registerAccess, if_neg (by omega), if_pos h]

theorem registerAccess_elsewhere {addr : Nat} {s : State} (width : Nat) (k : Nat → State)
    (h : addr < s.plat.base ∨ s.plat.base + 64 ≤ addr) :
    registerAccess addr width k s = .refused .notARegisterAddress := by
  rw [registerAccess, if_pos h]

/-- A pending register move's step is a register access. -/
theorem step_registerAccess {s : State} {rest : List HostMove} {addr width : Nat} {v : Word}
    (h : s.host.moves = .regWrite addr width v :: rest ∨ s.host.moves = .regRead addr width :: rest) :
    ∃ k, step s = registerAccess addr width k (s.withMoves rest) := by
  rcases h with hm | hm
  · exact ⟨fun off => writeRegister off v (s.withMoves rest), step_move hm⟩
  · exact ⟨fun off => readRegister off (s.withMoves rest), step_move hm⟩

/-- Settles O15: a read and a write are the same access, refused before its kind matters. -/
theorem registerAccessRefused : Obligations.RegisterAccessRefused := by
  intro s rest addr width v h
  obtain ⟨k, hstep⟩ := step_registerAccess h
  rw [hstep]
  exact ⟨registerAccess_form k, registerAccess_elsewhere width k⟩

end Sys2Proof.Machine
end

section
/-! PROOFS. The encodings (spec/30_encoding.md): every well-formed instruction's word fits its alphabet and decodes to
it (R151 to R171), and the fixed encode tables hold the codes of the tables of R156 and R157. -/

namespace Sys2Proof.Machine

/-! ## Bytes and words of a number -/

/-- A byte appended below a number is its byte 0. -/
theorem byteOf_append_zero (n : Nat) (b : Byte) : byteOf (256 * n + b.toNat) 0 = b := by
  apply BitVec.eq_of_toNat_eq
  rw [byteOf, BitVec.toNat_ofNat]
  omega

/-- A byte appended below a number moves the number's bytes up by one. -/
theorem byteOf_append_succ (n k : Nat) (b : Byte) : byteOf (256 * n + b.toNat) (k + 1) = byteOf n k := by
  have hshift : (256 * n + b.toNat) >>> 8 = n := by
    rw [Nat.shiftRight_eq_div_pow]
    omega
  rw [byteOf, byteOf, Nat.mul_succ, Nat.add_comm (8 * k), Nat.shiftRight_add, hshift]

theorem byteOf_byte (b : Byte) : byteOf b.toNat 0 = b := by
  simpa using byteOf_append_zero 0 b

/-- A little-endian word is made of its own four bytes (R115). -/
theorem wordLE_byteOf (w : Word) :
    wordLE (byteOf w.toNat 0) (byteOf w.toNat 1) (byteOf w.toNat 2) (byteOf w.toNat 3) = w := by
  apply BitVec.eq_of_toNat_eq
  simp only [wordLE, byteOf, BitVec.toNat_ofNat, Nat.shiftRight_eq_div_pow]
  omega

/-- The gzip header's number is its ten bytes appended one after the other, the first most significant (R630, R171). -/
theorem gzipHeader_number (id1 id2 cm flg : Byte) (mtime : Word) (xfl os : Byte) :
    (Instr.gzipHeader id1 id2 cm flg mtime xfl os).number =
      256 * (256 * (256 * (256 * (256 * (256 * (256 * (256 * (256 * id1.toNat + id2.toNat) + cm.toNat) + flg.toNat)
        + (byteOf mtime.toNat 0).toNat) + (byteOf mtime.toNat 1).toNat) + (byteOf mtime.toNat 2).toNat)
        + (byteOf mtime.toNat 3).toNat) + xfl.toNat) + os.toNat := by
  rw [Instr.number]
  omega

/-- Both values of a two-word trailer are read back (R640). -/
theorem trailer_words (crc isize : Word) :
    BitVec.ofNat 32 (crc.toNat + 4294967296 * isize.toNat) = crc ∧
    BitVec.ofNat 32 ((crc.toNat + 4294967296 * isize.toNat) >>> 32) = isize := by
  constructor <;> apply BitVec.eq_of_toNat_eq
  · rw [BitVec.toNat_ofNat]
    omega
  · rw [BitVec.toNat_ofNat, Nat.shiftRight_eq_div_pow]
    omega

/-! ## The `CMD` word (R64) -/

theorem testBit_of_toNat {w k : Nat} {b : Bool} (h : w / 2 ^ k % 2 = b.toNat) : w.testBit k = b := by
  simp [Nat.testBit_eq_decide_div_mod_eq, h]

section Command
variable {op : Nat} (hop : op < 16) (f : CmdFields)
include hop

theorem commandWord_mod : commandWord op f % 16 = op := by
  rw [commandWord]
  omega

theorem commandWord_lt : commandWord op f < 512 := by
  have hwin := f.winEn.toNat_lt
  have hstrict := f.gzStrict.toNat_lt
  have hchain := f.chain.toNat_lt
  rw [commandWord]
  omega

/-- Each field is read back from its own bits. -/
theorem cmdFields_commandWord : cmdFields (commandWord op f) = f := by
  have hwin := f.winEn.toNat_lt
  have hstrict := f.gzStrict.toNat_lt
  have hchain := f.chain.toNat_lt
  have mode : BitVec.ofNat 2 (commandWord op f >>> 4) = f.mode := by
    apply BitVec.eq_of_toNat_eq
    rw [BitVec.toNat_ofNat, Nat.shiftRight_eq_div_pow, commandWord]
    omega
  have winEn : (commandWord op f).testBit 6 = f.winEn := testBit_of_toNat (by rw [commandWord]; omega)
  have gzStrict : (commandWord op f).testBit 7 = f.gzStrict := testBit_of_toNat (by rw [commandWord]; omega)
  have chain : (commandWord op f).testBit 8 = f.chain := testBit_of_toNat (by rw [commandWord]; omega)
  rw [cmdFields, mode, winEn, gzStrict, chain]

/-- A `CMD` word is decoded by its `OP` and its fields. -/
theorem decode_commandWord {i : Instr} (h : decodeCommand (commandWord op f) = i) :
    decode .command (commandWord op f) = .ok i := by
  rw [decode, if_pos (Nat.lt_trans (commandWord_lt hop f) (by decide)), h]

end Command

/-- `OP` 8 to 15 is one row, whose three free bits are `OP`'s low ones (R684). -/
theorem decodeCommand_invalidOp8To15 (op : BitVec 3) (f : CmdFields) :
    decodeCommand (commandWord (8 + op.toNat) f) = .invalidOp8To15 op f := by
  have hop : 8 + op.toNat < 16 := by omega
  have hlow : BitVec.ofNat 3 (commandWord (8 + op.toNat) f) = op := by
    apply BitVec.eq_of_toNat_eq
    rw [BitVec.toNat_ofNat, commandWord]
    omega
  simp only [decodeCommand, commandWord_mod hop, cmdFields_commandWord hop, hlow]
  split
  case h_9 => rfl
  all_goals omega

/-! ## Literals (R158) -/

/-- A row's free low bits are read back whatever the fixed bits above them. -/
theorem ofNat_add_toNat {n base : Nat} (k : BitVec n) (h : base % 2 ^ n = 0) : BitVec.ofNat n (base + k.toNat) = k := by
  apply BitVec.eq_of_toNat_eq
  rw [BitVec.toNat_ofNat, Nat.add_mod, h, Nat.zero_add, Nat.mod_mod, Nat.mod_eq_of_lt k.isLt]

theorem decode_lit0To127 (k : BitVec 7) : decode .litLen k.toNat = .ok (.lit0To127 k) := by
  rw [decode, decodeLitLen, if_pos k.isLt, BitVec.ofNat_toNat, BitVec.setWidth_eq]

theorem decode_lit128To143 (k : BitVec 4) : decode .litLen (128 + k.toNat) = .ok (.lit128To143 k) := by
  rw [decode, decodeLitLen, if_neg (by omega), if_pos (by omega), ofNat_add_toNat k rfl]

theorem decode_lit144To159 (k : BitVec 4) : decode .litLen (144 + k.toNat) = .ok (.lit144To159 k) := by
  rw [decode, decodeLitLen, if_neg (by omega), if_neg (by omega), if_pos (by omega), ofNat_add_toNat k rfl]

theorem decode_lit160To191 (k : BitVec 5) : decode .litLen (160 + k.toNat) = .ok (.lit160To191 k) := by
  rw [decode, decodeLitLen, if_neg (by omega), if_neg (by omega), if_neg (by omega), if_pos (by omega),
    ofNat_add_toNat k rfl]

theorem decode_lit192To255 (k : BitVec 6) : decode .litLen (192 + k.toNat) = .ok (.lit192To255 k) := by
  rw [decode, decodeLitLen, if_neg (by omega), if_neg (by omega), if_neg (by omega), if_neg (by omega),
    if_pos (by omega), ofNat_add_toNat k rfl]

/-! ## Every instruction's word -/

/-- An instruction's number fits its alphabet's word (R150, R151, R165, R166). -/
theorem number_lt (i : Instr) : i.number < 2 ^ i.alphabet.width := by
  have command {op : Nat} (hop : op < 16) (f : CmdFields) : commandWord op f < 2 ^ 32 :=
    Nat.lt_trans (commandWord_lt hop f) (by decide)
  cases i with
  | deflate f | deflateZlib f | inflate f | inflateZlib f | inflateGzip f | crc32 f | adler32 f | invalidOp7 f =>
    exact command (by decide) f
  | invalidOp8To15 op f => exact command (by omega) f
  | invalidMode3 zlib f => exact command (Nat.lt_trans zlib.toNat_lt (by decide)) f
  | gzipHeader id1 id2 cm flg mtime xfl os =>
    rw [gzipHeader_number]
    simp only [Instr.alphabet, Alphabet.width]
    omega
  | lit0To127 k | lit128To143 k | lit144To159 k | lit160To191 k | lit192To255 k | lensym286To287 k | dsym30To31 k
  | zlibHeaderRead cmf flg | zlibTrailerRead adler | gzipTrailer crc isize | gzipTrailerStrict crc isize =>
    simp only [Instr.number, Instr.alphabet, Alphabet.width]
    omega
  | _ => decide

/-- An instruction's number decodes to it: a row without fields by its place in its alphabet's table, a row with fields
because each field is read back from its own bits. -/
theorem decode_number (i : Instr) (hi : i.WellFormed) : decode i.alphabet i.number = .ok i := by
  have hlt := number_lt i
  cases i with
  | deflate f | deflateZlib f =>
    have hmode : f.mode ≠ 3#2 := by simpa [Instr.WellFormed, Instr.wellFormed] using hi
    exact decode_commandWord (by decide) f (by
      simp [decodeCommand, commandWord_mod, cmdFields_commandWord, hmode])
  | invalidMode3 zlib f =>
    have hmode : f.mode = 3#2 := by simpa [Instr.WellFormed, Instr.wellFormed] using hi
    cases zlib <;> exact decode_commandWord (by decide) f (by
      simp [decodeCommand, commandWord_mod, cmdFields_commandWord, hmode])
  | inflate f | inflateZlib f | inflateGzip f | crc32 f | adler32 f | invalidOp7 f =>
    exact decode_commandWord (by decide) f (by simp [decodeCommand, commandWord_mod, cmdFields_commandWord])
  | invalidOp8To15 op f => exact decode_commandWord (by omega) f (decodeCommand_invalidOp8To15 op f)
  | lit0To127 k => exact decode_lit0To127 k
  | lit128To143 k => exact decode_lit128To143 k
  | lit144To159 k => exact decode_lit144To159 k
  | lit160To191 k => exact decode_lit160To191 k
  | lit192To255 k => exact decode_lit192To255 k
  | lensym286To287 k | dsym30To31 k => obtain rfl | rfl := BitVec.eq_zero_or_eq_one k <;> rfl
  | zlibHeaderRead cmf flg =>
    simp only [Instr.alphabet, decode]
    rw [if_pos (by exact hlt), Instr.number, byteOf_append_zero, byteOf_append_succ, byteOf_byte]
  | zlibTrailerRead adler =>
    simp only [Instr.alphabet, decode]
    rw [if_pos (by exact hlt), Instr.number, BitVec.ofNat_toNat, BitVec.setWidth_eq]
  | gzipHeader id1 id2 cm flg mtime xfl os =>
    simp only [Instr.alphabet, decode]
    rw [if_pos (by exact hlt), gzipHeader_number]
    simp only [byteOf_append_zero, byteOf_append_succ, byteOf_byte, wordLE_byteOf]
  | gzipTrailer crc isize | gzipTrailerStrict crc isize =>
    obtain ⟨hcrc, hisize⟩ := trailer_words crc isize
    simp only [Instr.alphabet, decode]
    rw [if_pos (by exact hlt), Instr.number, hcrc, hisize]
  | _ => rfl

/-- Settles O59: an instruction's number decodes to it and fits its alphabet's word. -/
theorem decodeEncodeRoundTrip : Obligations.DecodeEncodeRoundTrip :=
  fun i hi => ⟨decode_number i hi, number_lt i⟩

/-! ## The fixed codes (R156, R157) -/

theorem length_fixedLitLenWidths : fixedLitLenWidths.length = 288 := by
  simp [fixedLitLenWidths, -List.reduceReplicate]

/-- The fixed literal/length widths are the widths of R156's codes. -/
theorem getD_fixedLitLenWidths {n : Nat} (h : n < 288) : fixedLitLenWidths.getD n 0 = (fixedLitLenCode n).1 := by
  simp only [fixedLitLenWidths, List.getD_eq_getElem?_getD, List.append_assoc, List.getElem?_append,
    List.length_replicate, List.getElem?_replicate]
  rw [fixedLitLenCode]
  split_ifs
  any_goals rfl
  all_goals omega

/-- How many symbols before `n` have each fixed literal/length width. -/
theorem count_take_fixedLitLenWidths (n : Nat) : (fixedLitLenWidths.take n).count 7 = min (n - 256) 24 ∧
    (fixedLitLenWidths.take n).count 8 = min n 144 + min (n - 280) 8 ∧
    (fixedLitLenWidths.take n).count 9 = min (n - 144) 112 := by
  simp [fixedLitLenWidths, List.take_append, List.count_replicate, Nat.sub_sub, -List.reduceReplicate]

/-- The first code of each fixed literal/length width (R261). -/
theorem firstCode_fixedLitLenWidths : firstCode fixedLitLenWidths 7 = 0 ∧ firstCode fixedLitLenWidths 8 = 48 ∧
    firstCode fixedLitLenWidths 9 = 400 := by
  simp [firstCode, fixedLitLenWidths, List.count_replicate, -List.reduceReplicate]

/-- The canonical codes of the fixed literal/length widths are R156's: in each range the width's first code and the
symbols of that width before. -/
theorem canonicalCode_fixedLitLenWidths {n : Nat} (h : n < 288) :
    canonicalCode fixedLitLenWidths n = (fixedLitLenCode n).2 := by
  obtain ⟨first7, first8, first9⟩ := firstCode_fixedLitLenWidths
  obtain ⟨before7, before8, before9⟩ := count_take_fixedLitLenWidths n
  rw [canonicalCode, getD_fixedLitLenWidths h, fixedLitLenCode]
  split_ifs <;> dsimp only
  · rw [first8, before8]
    omega
  · rw [first9, before9]
    omega
  · rw [first7, before7]
    omega
  · rw [first8, before8]
    omega

theorem getD_fixedDistWidths {n : Nat} (h : n < 32) : fixedDistWidths.getD n 0 = 5 := List.getD_replicate _ h

/-- The canonical code of a symbol of the fixed distance widths is the symbol (R157). -/
theorem canonicalCode_fixedDistWidths {n : Nat} (h : n < 32) : canonicalCode fixedDistWidths n = n := by
  have first5 : firstCode fixedDistWidths 5 = 0 := rfl
  have before : (fixedDistWidths.take n).count 5 = n := by
    rw [fixedDistWidths, List.take_replicate, List.count_replicate_self]
    omega
  rw [canonicalCode, getD_fixedDistWidths h, first5, before, Nat.zero_add]

/-- Settles O38: the encode table holds a used symbol's canonical code reversed (R262), and the canonical codes of the
fixed widths are those of the tables. -/
theorem fixedCodesAreTheTables : Obligations.FixedCodesAreTheTables := by
  constructor <;> intro n hn
  · have hwidth := getD_fixedLitLenWidths hn
    have hused : fixedLitLenWidths.getD n 0 ≠ 0 := by
      rw [hwidth, fixedLitLenCode]
      split_ifs <;> simp
    rw [encodeTable_used (by rwa [length_fixedLitLenWidths]) hused, hwidth, canonicalCode_fixedLitLenWidths hn]
  · have hwidth := getD_fixedDistWidths hn
    rw [encodeTable_used (by rwa [fixedDistWidths, List.length_replicate]) (by rw [hwidth]; decide), hwidth,
      canonicalCode_fixedDistWidths hn]

end Sys2Proof.Machine
end

section
/-! PROOFS. The width assignment (spec/41_huffman.md R250 to R257): whatever choice the platform makes, exactly the used
symbols get a width, and none gets one above the limit. -/

namespace Sys2Proof.Machine

/-! ## Sorted items -/

/-- Items in rising order of weight. -/
abbrev ByWeight (l : List Package) : Prop := l.Pairwise fun p q => p.weight ≤ q.weight

theorem insertPackage_perm (p : Package) (l : List Package) : (insertPackage p l).Perm (p :: l) := by
  induction l with
  | nil => rfl
  | cons q rest ih =>
    rw [insertPackage]
    split
    · exact (ih.cons q).trans (List.Perm.swap p q rest)
    · rfl

theorem insertPackage_byWeight (p : Package) {l : List Package} (h : ByWeight l) : ByWeight (insertPackage p l) := by
  induction l with
  | nil => exact List.pairwise_singleton _ _
  | cons q rest ih =>
    obtain ⟨hq, hrest⟩ := List.pairwise_cons.1 h
    rw [insertPackage]
    split
    · next hle =>
      refine List.pairwise_cons.2 ⟨fun x hx => ?_, ih hrest⟩
      rcases List.mem_cons.1 ((insertPackage_perm p rest).mem_iff.1 hx) with rfl | hx
      · exact hle
      · exact hq x hx
    · next hlt =>
      refine List.pairwise_cons.2 ⟨fun x hx => ?_, h⟩
      rcases List.mem_cons.1 hx with rfl | hx
      · omega
      · have := hq x hx
        omega

/-- The used symbols of a frequency list, each with its frequency. -/
def usedSyms (f : List Nat) : List (Nat × Nat) := f.zipIdx.filter fun x => decide (0 < x.1)

theorem mem_usedSyms {f : List Nat} {x n : Nat} : (x, n) ∈ usedSyms f ↔ f[n]? = some x ∧ 0 < x := by
  simp [usedSyms, List.mem_zipIdx_iff_getElem?]

theorem usedSyms_snd_nodup (f : List Nat) : ((usedSyms f).map Prod.snd).Nodup := by
  have hsub : ((usedSyms f).map Prod.snd).Sublist (f.zipIdx.map Prod.snd) := List.filter_sublist.map _
  refine hsub.nodup ?_
  rw [List.zipIdx_map_snd]
  exact List.nodup_range'

/-- The leaves are the used symbols, sorted by weight (R253). -/
theorem leaves_sorted (f : List Nat) :
    ByWeight (leaves f) ∧ (leaves f).Perm ((usedSyms f).map fun x => ⟨x.1, [x.2]⟩) := by
  suffices h : ∀ (l : List (Nat × Nat)) (acc : List Package), ByWeight acc →
      ByWeight (l.foldl (fun l x => insertPackage ⟨x.1, [x.2]⟩ l) acc) ∧
      (l.foldl (fun l x => insertPackage ⟨x.1, [x.2]⟩ l) acc).Perm ((l.map fun x => ⟨x.1, [x.2]⟩) ++ acc) by
    have := h (usedSyms f) [] List.Pairwise.nil
    rwa [List.append_nil] at this
  intro l
  induction l with
  | nil => exact fun acc h => ⟨h, .rfl⟩
  | cons x rest ih =>
    intro acc h
    obtain ⟨hsorted, hperm⟩ := ih _ (insertPackage_byWeight ⟨x.1, [x.2]⟩ h)
    exact ⟨hsorted, hperm.trans (((insertPackage_perm _ _).append_left _).trans List.perm_middle)⟩

/-! ## Packages -/

theorem packPairs_length : ∀ l : List Package, (packPairs l).length = l.length / 2
  | [] | [_] => by simp [packPairs]
  | p :: q :: rest => by
    have := packPairs_length rest
    simp only [packPairs, List.length_cons]
    omega

/-- Pairing drops a last item at most and adds none: no symbol stands in the packages more often. -/
theorem packPairs_count_le (n : Nat) : ∀ l : List Package,
    ((packPairs l).flatMap Package.syms).count n ≤ (l.flatMap Package.syms).count n
  | [] | [_] => by simp [packPairs]
  | p :: q :: rest => by
    have := packPairs_count_le n rest
    simp only [packPairs, List.flatMap_cons, List.count_append]
    omega

/-- A package weighs at least twice what every item does. -/
theorem packPairs_weight_ge {a : Nat} : ∀ {l : List Package}, (∀ x ∈ l, a ≤ x.weight) →
    ∀ x ∈ packPairs l, 2 * a ≤ x.weight
  | [], _ | [_], _ => by simp [packPairs]
  | p :: q :: rest, h => by
    have hp := h p (by simp)
    have hq := h q (by simp)
    intro x hx
    rcases List.mem_cons.1 hx with rfl | hx
    · show 2 * a ≤ p.weight + q.weight
      omega
    · exact packPairs_weight_ge (fun y hy => h y (by simp [hy])) x hx

/-- Adjacent pairs of items in rising order are in rising order. -/
theorem packPairs_byWeight : ∀ {l : List Package}, ByWeight l → ByWeight (packPairs l)
  | [], _ | [_], _ => by simp [packPairs]
  | p :: q :: rest, h => by
    obtain ⟨hp, h⟩ := List.pairwise_cons.1 h
    obtain ⟨hq, h⟩ := List.pairwise_cons.1 h
    refine List.pairwise_cons.2 ⟨fun x hx => ?_, packPairs_byWeight h⟩
    have hpq := hp q (by simp)
    have := packPairs_weight_ge hq x hx
    show p.weight + q.weight ≤ x.weight
    omega

/-- An item that is paired is in a package at least as heavy. -/
theorem exists_packPairs_ge {x : Package} : ∀ {l : List Package}, x ∈ l.take (2 * (l.length / 2)) →
    ∃ p ∈ packPairs l, x.weight ≤ p.weight
  | [] => by simp
  | [_] => by simp
  | p :: q :: rest => by
    intro hx
    rw [show 2 * ((p :: q :: rest).length / 2) = 2 * (rest.length / 2) + 2 by simp only [List.length_cons]; omega] at hx
    have hhead : p.weight + q.weight = (⟨p.weight + q.weight, p.syms ++ q.syms⟩ : Package).weight := rfl
    rcases List.mem_cons.1 hx with rfl | hx
    · exact ⟨_, List.mem_cons_self .., by omega⟩
    rcases List.mem_cons.1 hx with rfl | hx
    · exact ⟨_, List.mem_cons_self .., by omega⟩
    obtain ⟨y, hy, hle⟩ := exists_packPairs_ge hx
    exact ⟨y, List.mem_cons_of_mem _ hy, hle⟩

/-! ## Merging (R254) -/

theorem mergeItems_perm {fuel : Nat} {ls ps : List Package} (h : ls.length + ps.length ≤ fuel) :
    (mergeItems fuel ls ps).Perm (ls ++ ps) := by
  induction fuel, ls, ps using mergeItems.induct with
  | case1 ls ps =>
    obtain ⟨rfl, rfl⟩ : ls = [] ∧ ps = [] := by simpa using h
    rfl
  | case2 => rfl
  | case3 => simp [mergeItems]
  | case4 fuel l ls p ps hle ih =>
    rw [mergeItems, if_pos hle]
    exact (ih (by simp only [List.length_cons] at h ⊢; omega)).cons l
  | case5 fuel l ls p ps hlt ih =>
    rw [mergeItems, if_neg hlt]
    exact ((ih (by simp only [List.length_cons] at h ⊢; omega)).cons p).trans List.perm_middle.symm

theorem mergeItems_byWeight {fuel : Nat} {ls ps : List Package} (h : ls.length + ps.length ≤ fuel)
    (hls : ByWeight ls) (hps : ByWeight ps) : ByWeight (mergeItems fuel ls ps) := by
  induction fuel, ls, ps using mergeItems.induct with
  | case1 => exact List.Pairwise.nil
  | case2 => exact hps
  | case3 => simpa [mergeItems] using hls
  | case4 fuel l ls p ps hle ih =>
    obtain ⟨hl, hls⟩ := List.pairwise_cons.1 hls
    have hf : ls.length + (p :: ps).length ≤ fuel := by simp only [List.length_cons] at h ⊢; omega
    rw [mergeItems, if_pos hle]
    refine List.pairwise_cons.2 ⟨fun x hx => ?_, ih hf hls hps⟩
    rcases List.mem_append.1 ((mergeItems_perm hf).mem_iff.1 hx) with hx | hx
    · exact hl x hx
    · rcases List.mem_cons.1 hx with rfl | hx
      · exact hle
      · exact hle.trans ((List.pairwise_cons.1 hps).1 x hx)
  | case5 fuel l ls p ps hlt ih =>
    obtain ⟨hp, hps⟩ := List.pairwise_cons.1 hps
    have hf : (l :: ls).length + ps.length ≤ fuel := by simp only [List.length_cons] at h ⊢; omega
    have hpl : p.weight ≤ l.weight := by omega
    rw [mergeItems, if_neg hlt]
    refine List.pairwise_cons.2 ⟨fun x hx => ?_, ih hf hls hps⟩
    rcases List.mem_append.1 ((mergeItems_perm hf).mem_iff.1 hx) with hx | hx
    · rcases List.mem_cons.1 hx with rfl | hx
      · exact hpl
      · exact hpl.trans ((List.pairwise_cons.1 hls).1 x hx)
    · exact hp x hx

theorem mergeItems_singleton {p : Package} {fuel : Nat} {ls : List Package} (h : ls.length ≤ fuel)
    (hp : ∀ l ∈ ls, l.weight ≤ p.weight) : mergeItems (fuel + 1) ls [p] = ls ++ [p] := by
  induction ls generalizing fuel with
  | nil => rfl
  | cons l ls ih =>
    obtain ⟨fuel, rfl⟩ : ∃ k, fuel = k + 1 := ⟨fuel - 1, by simp only [List.length_cons] at h; omega⟩
    rw [mergeItems, if_pos (hp l (by simp)), ih (by simpa using h) fun x hx => hp x (by simp [hx])]
    rfl

/-- A last package that no leaf outweighs comes last: on equal weight the leaf is first (R254). -/
theorem mergeItems_concat {p : Package} {fuel : Nat} {ls ps : List Package} (h : ls.length + ps.length ≤ fuel)
    (hp : ∀ l ∈ ls, l.weight ≤ p.weight) : mergeItems (fuel + 1) ls (ps ++ [p]) = mergeItems fuel ls ps ++ [p] := by
  induction fuel, ls, ps using mergeItems.induct with
  | case1 ls ps =>
    obtain ⟨rfl, rfl⟩ : ls = [] ∧ ps = [] := by simpa using h
    rfl
  | case2 => simp [mergeItems]
  | case3 fuel ls hne => simpa [mergeItems] using mergeItems_singleton (by simpa using h) hp
  | case4 fuel l ls q ps hle ih =>
    rw [List.cons_append, mergeItems, mergeItems, if_pos hle, if_pos hle, ← List.cons_append,
      ih (by simp only [List.length_cons] at h ⊢; omega) fun x hx => hp x (by simp [hx])]
    rfl
  | case5 fuel l ls q ps hlt ih =>
    rw [List.cons_append, mergeItems, mergeItems, if_neg hlt, if_neg hlt,
      ih (by simp only [List.length_cons] at h ⊢; omega) hp]
    rfl

/-! ## The rounds of package-merge (R253) -/

section Rounds
variable {ls : List Package}

theorem mergeRounds_succ_perm (k : Nat) : (mergeRounds ls (k + 1)).Perm (ls ++ packPairs (mergeRounds ls k)) :=
  mergeItems_perm (Nat.le_refl _)

theorem mergeRounds_byWeight (h : ByWeight ls) (k : Nat) : ByWeight (mergeRounds ls k) := by
  induction k with
  | zero => exact h
  | succ k ih => exact mergeItems_byWeight (Nat.le_refl _) h (packPairs_byWeight ih)

/-- Each round adds the leaves once more. -/
theorem mergeRounds_count_le (n k : Nat) :
    ((mergeRounds ls k).flatMap Package.syms).count n ≤ (k + 1) * (ls.flatMap Package.syms).count n := by
  induction k with
  | zero => rw [mergeRounds]; omega
  | succ k ih =>
    have := packPairs_count_le n (mergeRounds ls k)
    rw [((mergeRounds_succ_perm k).flatMap_right _).count_eq, List.flatMap_append, List.count_append, Nat.succ_mul]
    omega

theorem mergeRounds_length_lt (h : ls ≠ []) (k : Nat) : (mergeRounds ls k).length < 2 * ls.length := by
  have := List.length_pos_iff.2 h
  induction k with
  | zero => show ls.length < _; omega
  | succ k ih =>
    rw [(mergeRounds_succ_perm k).length_eq, List.length_append, packPairs_length]
    omega

/-- The items chosen (R253) hold every leaf: the one item that may be left over is the last package, which no leaf
outweighs. -/
theorem mem_take_mergeRounds (hsorted : ByWeight ls) (h2 : 2 ≤ ls.length) {l : Package} (hl : l ∈ ls) (k : Nat) :
    l ∈ (mergeRounds ls k).take (2 * ls.length - 2) := by
  induction k generalizing l with
  | zero => rwa [mergeRounds, List.take_of_length_le (by omega)]
  | succ k ih =>
    have hne : ls ≠ [] := List.ne_nil_of_mem hl
    have hprev := mergeRounds_length_lt hne k
    have hpairs := packPairs_length (mergeRounds ls k)
    have hmem : l ∈ mergeRounds ls (k + 1) := (mergeRounds_succ_perm k).mem_iff.2 (List.mem_append_left _ hl)
    have hlen := (mergeRounds_succ_perm (ls := ls) k).length_eq
    rw [List.length_append] at hlen
    rcases Nat.lt_or_ge (mergeRounds ls (k + 1)).length (2 * ls.length - 1) with hshort | hfull
    · rwa [List.take_of_length_le (by omega)]
    · obtain ⟨ps, p, hps⟩ := (packPairs (mergeRounds ls k)).eq_nil_or_concat.resolve_left fun h => by
        rw [h, List.length_nil] at hlen
        omega
      have heaviest : ∀ x ∈ ls, x.weight ≤ p.weight := by
        intro x hx
        have hpaired := ih hx
        rw [show 2 * ls.length - 2 = 2 * ((mergeRounds ls k).length / 2) by omega] at hpaired
        obtain ⟨q, hq, hle⟩ := exists_packPairs_ge hpaired
        have hrise := packPairs_byWeight (mergeRounds_byWeight hsorted k)
        rw [hps, List.concat_eq_append] at hq hrise
        rcases List.mem_append.1 hq with hq | hq
        · exact hle.trans ((List.pairwise_append.1 hrise).2.2 q hq p (by simp))
        · rwa [List.mem_singleton.1 hq] at hle
      have hcur : mergeRounds ls (k + 1) = mergeItems (ls.length + ps.length) ls ps ++ [p] := by
        rw [← mergeItems_concat (Nat.le_refl _) heaviest, mergeRounds, hps]
        simp [Nat.add_assoc]
      have hperm := mergeItems_perm (Nat.le_refl (ls.length + ps.length))
      have hpslen : ps.length + 1 = (mergeRounds ls k).length / 2 := by
        rw [← hpairs, hps]
        simp
      rw [hcur, List.take_append_of_le_length (by rw [hperm.length_eq, List.length_append]; omega),
        List.take_of_length_le (by rw [hperm.length_eq, List.length_append]; omega)]
      exact hperm.mem_iff.2 (List.mem_append_left _ hl)

end Rounds

/-! ## The contract (R257) -/

/-- The leaves hold a used symbol once and no other (R253). -/
theorem leaves_count (f : List Nat) (n : Nat) :
    ((leaves f).flatMap Package.syms).count n = if 0 < f.getD n 0 then 1 else 0 := by
  have hperm : ((leaves f).flatMap Package.syms).Perm ((usedSyms f).map Prod.snd) := by
    refine ((leaves_sorted f).2.flatMap_right _).trans (.of_eq ?_)
    rw [List.flatMap_map]
    exact List.flatMap_pure_eq_map ..
  have hmem : n ∈ (usedSyms f).map Prod.snd ↔ 0 < f.getD n 0 := by
    simp only [List.mem_map, Prod.exists, mem_usedSyms, exists_eq_right, List.getD_eq_getElem?_getD]
    cases f[n]? <;> simp
  rw [hperm.count_eq, (usedSyms_snd_nodup f).count]
  simp only [hmem]

/-- A used symbol's leaf. -/
theorem mem_leaves {f : List Nat} {n : Nat} (hn : n < f.length) (h : 0 < f.getD n 0) :
    ⟨f.getD n 0, [n]⟩ ∈ leaves f := by
  have hused : (f.getD n 0, n) ∈ usedSyms f := mem_usedSyms.2 ⟨by simp [hn], h⟩
  exact (leaves_sorted f).2.mem_iff.2 (List.mem_map.2 ⟨_, hused, rfl⟩)

/-- A width assignment obeys R257 (1) and (2): a width for each used symbol and for no other, none above the limit. -/
def WidthsFit (f : List Nat) (limit : Nat) (w : List Nat) : Prop :=
  w.length = f.length ∧ ∀ n, n < f.length → (w.getD n 0 = 0 ↔ f.getD n 0 = 0) ∧ w.getD n 0 ≤ limit

/-- The default assignment's widths are how often the chosen items of the last round hold each symbol (R253). -/
theorem chosenWidths_fit {f : List Nat} (h2 : 2 ≤ (leaves f).length) (k : Nat) :
    let chosen := ((mergeRounds (leaves f) k).take (2 * (leaves f).length - 2)).flatMap Package.syms
    WidthsFit f (k + 1) ((List.range f.length).map fun s => chosen.count s) := by
  intro chosen
  refine ⟨by simp, fun n hn => ?_⟩
  have hwidth : ((List.range f.length).map fun s => chosen.count s).getD n 0 = chosen.count n := by simp [hn]
  have hle : chosen.count n ≤ (k + 1) * (if 0 < f.getD n 0 then 1 else 0) := by
    rw [← leaves_count]
    exact (((List.take_sublist _ _).flatMap _).count_le n).trans (mergeRounds_count_le n k)
  rw [hwidth]
  by_cases hf : 0 < f.getD n 0
  · have hchosen := mem_take_mergeRounds (leaves_sorted f).1 h2 (mem_leaves hn hf) k
    have hpos : 0 < chosen.count n := List.count_pos_iff.2 (List.mem_flatMap.2 ⟨_, hchosen, by simp⟩)
    rw [if_pos hf] at hle
    omega
  · rw [if_neg hf] at hle
    omega

theorem defaultWidths_fit (f : List Nat) {limit : Nat} (h : 1 ≤ limit) : WidthsFit f limit (defaultWidths f limit) := by
  unfold defaultWidths
  dsimp only
  split
  · next hnone =>
    refine ⟨by simp, fun n hn => ?_⟩
    have hf : ¬ 0 < f.getD n 0 := fun hf => by simpa [hnone] using mem_leaves hn hf
    have hwidth : (f.map fun _ => 0).getD n 0 = 0 := by simp [hn]
    omega
  · refine ⟨by simp, fun n hn => ?_⟩
    have hwidth : (f.map fun x => if 0 < x then 1 else 0).getD n 0 = if 0 < f.getD n 0 then 1 else 0 := by simp [hn]
    rw [hwidth]
    split <;> omega
  · next hnone hone =>
    have h2 : 2 ≤ (leaves f).length := by
      match hl : leaves f with
      | [] => exact absurd hl hnone
      | [l] => exact absurd hl (hone l)
      | _ :: _ :: _ => simp
    have := chosenWidths_fit h2 (limit - 1)
    rwa [Nat.sub_add_cancel h] at this

/-- A legal choice fits (R257). -/
theorem widthsLegal_fit {f : List Nat} {limit : Nat} {w : List Nat} (h : widthsLegal f limit w = true) :
    WidthsFit f limit w := by
  simp only [widthsLegal, Bool.and_eq_true, decide_eq_true_eq, List.all_eq_true, beq_iff_eq, decide_eq_decide] at h
  obtain ⟨⟨hlen, hall⟩, -⟩ := h
  refine ⟨hlen, fun n hn => ?_⟩
  have hmem : (f.getD n 0, w.getD n 0) ∈ f.zip w := by
    refine List.mem_of_getElem? (i := n) ?_
    simp [hn, hlen]
  exact hall _ hmem

/-- R257 (1) and (2) for whatever choice the platform makes (R250). -/
theorem codeLengths_fit (p : Platform) (f : List Nat) {limit : Nat} (h : 1 ≤ limit) :
    WidthsFit f limit (p.codeLengths f limit) := by
  unfold Platform.codeLengths
  split
  · next c hc =>
    have hlegal := List.find?_some hc
    simp only [Bool.and_eq_true, decide_eq_true_eq] at hlegal
    obtain ⟨-, hlegal⟩ := hlegal
    exact widthsLegal_fit hlegal
  · exact defaultWidths_fit f h

end Sys2Proof.Machine
end

section
/-! PROOFS. What the encoder queues is in range and has a code (spec/43_deflate_encoder.md R352 to R357, R370 to R375):
the symbols of lengths and distances, the run-length code's symbols, and the tables that a dynamic block's counters give. -/

namespace Sys2Proof.Machine

/-! ## Lengths and distances as symbols (R352, R354) -/

/-- In a rising list the entries up to `v` come first, and `greatestBase` counts them. -/
theorem countUpTo_bounds {bases : List Nat} (h : bases.Pairwise (· < ·)) (v : Nat) :
    (∀ j, j < (bases.filter fun b => decide (b ≤ v)).length → bases.getD j 0 ≤ v) ∧
    ∀ j, (bases.filter fun b => decide (b ≤ v)).length ≤ j → j < bases.length → v < bases.getD j 0 := by
  induction bases with
  | nil => simp
  | cons b rest ih =>
    obtain ⟨hb, hrest⟩ := List.pairwise_cons.1 h
    obtain ⟨hlow, hhigh⟩ := ih hrest
    by_cases hv : b ≤ v
    · rw [List.filter_cons_of_pos (by simpa using hv), List.length_cons]
      refine ⟨fun j hj => ?_, fun j hj hlen => ?_⟩
      · cases j with
        | zero => exact hv
        | succ j => exact hlow j (by omega)
      · obtain ⟨j, rfl⟩ : ∃ k, j = k + 1 := ⟨j - 1, by omega⟩
        exact hhigh j (by omega) (by simpa using hlen)
    · have hnone : (b :: rest).filter (fun b => decide (b ≤ v)) = [] := by
        refine List.filter_eq_nil_iff.2 fun x hx => ?_
        rcases List.mem_cons.1 hx with rfl | hx
        · simpa using hv
        · have := hb x hx
          simp
          omega
      rw [hnone]
      refine ⟨by simp, fun j _ hlen => ?_⟩
      cases j with
      | zero => simpa using hv
      | succ j =>
        have hlen' : j < rest.length := by simpa using hlen
        have := hb _ (List.getElem_mem hlen')
        simp [hlen']
        omega

/-- The greatest base up to `v` is one of the list's, and `v` lies below the next one, or below what ends the last. -/
theorem greatestBase_bounds {bases : List Nat} (h : bases.Pairwise (· < ·)) {v stop : Nat}
    (hfirst : ∃ b ∈ bases, b ≤ v) (hstop : v < stop) :
    greatestBase bases v < bases.length ∧ bases.getD (greatestBase bases v) 0 ≤ v ∧
      v < (bases ++ [stop]).getD (greatestBase bases v + 1) 0 := by
  obtain ⟨hlow, hhigh⟩ := countUpTo_bounds h v
  have hpos : 0 < (bases.filter fun b => decide (b ≤ v)).length := by
    obtain ⟨b, hb, hle⟩ := hfirst
    exact List.length_pos_of_mem (List.mem_filter.2 ⟨hb, by simpa using hle⟩)
  have hlen := List.length_filter_le (fun b => decide (b ≤ v)) bases
  rw [greatestBase, Nat.sub_add_cancel hpos]
  refine ⟨by omega, hlow _ (by omega), ?_⟩
  rcases Nat.lt_or_ge (bases.filter fun b => decide (b ≤ v)).length bases.length with hlt | hge
  · rw [List.getD_append _ _ _ _ hlt]
    exact hhigh _ (Nat.le_refl _) hlt
  · rw [List.getD_append_right _ _ _ _ hge, Nat.sub_eq_zero_of_le hlen]
    exact hstop

/-- A length's symbol is a row's, and the row's extra bits hold what the length is above its base (R352). -/
theorem lenSym_row {len : Nat} (h3 : 3 ≤ len) (h258 : len ≤ 258) :
    ∃ row ∈ lengthRows, (lenSym len).1 = row.sym ∧ len - row.base < 2 ^ row.extra := by
  have rows : ∀ k < 28, ∃ row ∈ lengthRows, row.sym = 257 + k ∧ row.base = (lenBase.take 28).getD k 0 ∧
      row.base + 2 ^ row.extra = (lenBase.take 28 ++ [259]).getD (k + 1) 0 := by decide
  unfold lenSym
  split
  · next heq => exact ⟨⟨.lensym285, 285, 0, 258⟩, by decide, rfl, by simp [heq]⟩
  · obtain ⟨hlt, hle, hnext⟩ := greatestBase_bounds (bases := lenBase.take 28) (v := len) (stop := 259) (by decide)
      ⟨3, by decide, h3⟩ (by omega)
    obtain ⟨row, hrow, hsym, hbase, hend⟩ := rows _ hlt
    refine ⟨row, hrow, hsym.symm, ?_⟩
    omega

/-- A distance's symbol is a row's, and the row's extra bits hold what the distance is above its base (R354). -/
theorem distSym_row {d : Nat} (h1 : 1 ≤ d) (hmax : d ≤ 32768) :
    ∃ row ∈ distanceRows, (distSym d).1 = row.sym ∧ d - row.base < 2 ^ row.extra := by
  have rows : ∀ k < 30, ∃ row ∈ distanceRows, row.sym = k ∧ row.base = distBase.getD k 0 ∧
      row.base + 2 ^ row.extra = (distBase ++ [32769]).getD (k + 1) 0 := by decide
  obtain ⟨hlt, hle, hnext⟩ := greatestBase_bounds (bases := distBase) (v := d) (stop := 32769) (by decide)
    ⟨1, by decide, h1⟩ (by omega)
  obtain ⟨row, hrow, hsym, hbase, hend⟩ := rows _ hlt
  exact ⟨row, hrow, hsym.symm, by omega⟩

/-- The word of a length row, and how many extra bits it has. -/
theorem lengthRows_word : ∀ row ∈ lengthRows,
    row.instr.alphabet = .litLen ∧ row.instr.number = row.sym ∧ row.instr.wellFormed = true ∧ row.sym < 286 ∧
      row.extra ≤ 16 := by decide

theorem distanceRows_word : ∀ row ∈ distanceRows,
    row.instr.alphabet = .dist ∧ row.instr.number = row.sym ∧ row.instr.wellFormed = true ∧ row.sym < 30 ∧
      row.extra ≤ 16 := by decide

theorem decode_lengthRow {row : SymRow} (h : row ∈ lengthRows) : decode .litLen row.sym = .ok row.instr := by
  obtain ⟨ha, hn, hw, -, -⟩ := lengthRows_word row h
  have := decode_number row.instr hw
  rwa [ha, hn] at this

theorem decode_distanceRow {row : SymRow} (h : row ∈ distanceRows) : decode .dist row.sym = .ok row.instr := by
  obtain ⟨ha, hn, hw, -, -⟩ := distanceRows_word row h
  have := decode_number row.instr hw
  rwa [ha, hn] at this

/-- The symbols of a block are in their alphabets: literal/length symbols below 286, distance symbols below 30
(R370). -/
theorem blockSyms_inRange {syms : List Sym} (h : blockSyms syms) {x : Sym} (hx : x ∈ syms) :
    x.litLenSym < 286 ∧ ∀ t, x.distanceSym = some t → t < 30 := by
  obtain ⟨data, rfl, hdata⟩ := h
  cases x with
  | literal b => exact ⟨by show b.toNat < 286; omega, nofun⟩
  | endOfBlock => exact ⟨by decide, nofun⟩
  | pointer len d =>
    have hmem : Sym.pointer len d ∈ data := by simpa using hx
    obtain ⟨h3, h258, h1, hmax⟩ := hdata _ hmem
    obtain ⟨row, hrow, hsym, -⟩ := lenSym_row h3 h258
    obtain ⟨-, -, -, hlt, -⟩ := lengthRows_word row hrow
    refine ⟨by show (lenSym len).1 < 286; omega, ?_⟩
    rintro _ ⟨⟩
    obtain ⟨row, hrow, hsym, -⟩ := distSym_row h1 hmax
    obtain ⟨-, -, -, hlt, -⟩ := distanceRows_word row hrow
    omega

/-! ## Frequency counters (R370, R372) -/

/-- One list of counters after another: no counter is lost, none counts down. -/
structure CountsUp (f g : List Nat) : Prop where
  length : g.length = f.length
  counts : ∀ n, f.getD n 0 ≤ g.getD n 0

theorem CountsUp.refl (f : List Nat) : CountsUp f f := ⟨rfl, fun _ => Nat.le_refl _⟩

theorem CountsUp.trans {f g h : List Nat} (a : CountsUp f g) (b : CountsUp g h) : CountsUp f h :=
  ⟨b.length.trans a.length, fun n => (a.counts n).trans (b.counts n)⟩

theorem bump_getD (f : List Nat) {i : Nat} (hi : i < f.length) : (bump f i).getD i 0 = f.getD i 0 + 1 := by
  simp [bump, hi]

theorem bump_countsUp (f : List Nat) (i : Nat) : CountsUp f (bump f i) := by
  refine ⟨by simp [bump], fun n => ?_⟩
  by_cases h : n = i
  · subst h
    rcases Nat.lt_or_ge n f.length with hn | hn
    · rw [bump_getD f hn]
      omega
    · simp [bump, hn]
  · simp [bump, List.getD_eq_getElem?_getD, List.getElem?_set_ne (Ne.symm h)]

theorem countSym_countsUp (f : List Nat × List Nat) (x : Sym) :
    CountsUp f.1 (countSym f x).1 ∧ CountsUp f.2 (countSym f x).2 := by
  cases x with
  | literal b => exact ⟨bump_countsUp _ _, .refl _⟩
  | endOfBlock => exact ⟨bump_countsUp _ _, .refl _⟩
  | pointer len d => exact ⟨bump_countsUp _ _, bump_countsUp _ _⟩

theorem countSym_counts {f : List Nat × List Nat} {x : Sym} :
    (x.litLenSym < f.1.length → 0 < (countSym f x).1.getD x.litLenSym 0) ∧
    ∀ t, x.distanceSym = some t → t < f.2.length → 0 < (countSym f x).2.getD t 0 := by
  have counted {g : List Nat} {i : Nat} (hi : i < g.length) : 0 < (bump g i).getD i 0 := by
    rw [bump_getD g hi]
    omega
  cases x with
  | literal b => exact ⟨counted, nofun⟩
  | endOfBlock => exact ⟨counted, nofun⟩
  | pointer len d => exact ⟨counted, by rintro _ ⟨⟩; exact counted⟩

/-- Counting a symbol sequence counts every symbol of it. -/
theorem foldl_countSym (syms : List Sym) (f : List Nat × List Nat) :
    (CountsUp f.1 (syms.foldl countSym f).1 ∧ CountsUp f.2 (syms.foldl countSym f).2) ∧
    ∀ x ∈ syms, (x.litLenSym < f.1.length → 0 < (syms.foldl countSym f).1.getD x.litLenSym 0) ∧
      ∀ t, x.distanceSym = some t → t < f.2.length → 0 < (syms.foldl countSym f).2.getD t 0 := by
  induction syms generalizing f with
  | nil => exact ⟨⟨.refl _, .refl _⟩, by simp⟩
  | cons y rest ih =>
    obtain ⟨hlit, hdist⟩ := countSym_countsUp f y
    obtain ⟨⟨hlit', hdist'⟩, hrest⟩ := ih (countSym f y)
    refine ⟨⟨hlit.trans hlit', hdist.trans hdist'⟩, fun x hx => ?_⟩
    rcases List.mem_cons.1 hx with rfl | hx
    · obtain ⟨hl, hd⟩ := countSym_counts (f := f) (x := x)
      exact ⟨fun h => (hl h).trans_le (hlit'.counts _), fun t ht h => (hd t ht h).trans_le (hdist'.counts _)⟩
    · obtain ⟨hl, hd⟩ := hrest x hx
      rw [hlit.length] at hl
      rw [hdist.length] at hd
      exact ⟨hl, hd⟩

theorem freqs_length (syms : List Sym) : (freqs syms).1.length = 286 ∧ (freqs syms).2.length = 30 := by
  obtain ⟨⟨hlit, hdist⟩, -⟩ := foldl_countSym syms (List.replicate 286 0, List.replicate 30 0)
  exact ⟨hlit.length.trans (List.length_replicate ..), hdist.length.trans (List.length_replicate ..)⟩

/-- Every symbol of a block is counted (R370). -/
theorem freqs_counts {syms : List Sym} (h : blockSyms syms) {x : Sym} (hx : x ∈ syms) :
    0 < (freqs syms).1.getD x.litLenSym 0 ∧ ∀ t, x.distanceSym = some t → 0 < (freqs syms).2.getD t 0 := by
  obtain ⟨-, hcounts⟩ := foldl_countSym syms (List.replicate 286 0, List.replicate 30 0)
  obtain ⟨hlit, hdist⟩ := hcounts x hx
  obtain ⟨hlt, hlt'⟩ := blockSyms_inRange h hx
  exact ⟨hlit (by simpa only [List.length_replicate] using hlt),
    fun t ht => hdist t ht (by simpa only [List.length_replicate] using hlt' t ht)⟩

/-- Counting a code-length sequence counts every symbol of it (R372). -/
theorem foldl_bump (seq : List (Nat × Nat)) (f : List Nat) :
    CountsUp f (seq.foldl (fun f c => bump f c.1) f) ∧
    ∀ c ∈ seq, c.1 < f.length → 0 < (seq.foldl (fun f c => bump f c.1) f).getD c.1 0 := by
  induction seq generalizing f with
  | nil => exact ⟨.refl _, by simp⟩
  | cons y rest ih =>
    obtain ⟨hup, hrest⟩ := ih (bump f y.1)
    refine ⟨(bump_countsUp f y.1).trans hup, fun c hc hlt => ?_⟩
    rcases List.mem_cons.1 hc with rfl | hc
    · have hpos : 0 < (bump f c.1).getD c.1 0 := by
        rw [bump_getD f hlt]
        omega
      exact hpos.trans_le (hup.counts _)
    · exact hrest c hc (by rwa [(bump_countsUp f y.1).length])

theorem clFreqs_counts {seq : List (Nat × Nat)} {c : Nat × Nat} (hc : c ∈ seq) (h18 : c.1 ≤ 18) :
    0 < (clFreqs seq).getD c.1 0 :=
  (foldl_bump seq (List.replicate 19 0)).2 c hc (by rw [List.length_replicate]; omega)

theorem usedPrefix_le_length (l : List Nat) : usedPrefix l ≤ l.length := by
  induction l with
  | nil => exact Nat.le_refl _
  | cons x rest ih =>
    rw [usedPrefix, List.length_cons]
    split
    · split <;> omega
    · omega

/-! ## The run-length code (R371) -/

theorem repeatCount_le (most r : Nat) : repeatCount most r ≤ most := by
  unfold repeatCount
  dsimp only
  split <;> omega

/-- A code-length symbol of the alphabet with an extra value in its range (R162). -/
def ClSymOk (c : Nat × Nat) : Prop := c.1 ≤ 18 ∧ c.2 < 2 ^ clExtraBits c.1

theorem ClSymOk.width {x : Nat} (h : x ≤ 15) : ClSymOk (x, 0) := ⟨by show x ≤ 18; omega, Nat.two_pow_pos _⟩

theorem rleZeros_ok (fuel r : Nat) : ∀ c ∈ rleZeros fuel r, ClSymOk c := by
  induction fuel generalizing r with
  | zero => simp [rleZeros]
  | succ fuel ih =>
    rw [rleZeros]
    split
    · simp
    · have hle := repeatCount_le 138 r
      refine List.forall_mem_cons.2 ⟨?_, ih _⟩
      split
      · exact ⟨show 17 ≤ 18 by decide, show _ < 2 ^ 3 by omega⟩
      · exact ⟨show 18 ≤ 18 by decide, show _ < 2 ^ 7 by omega⟩

theorem rleRepeats_ok (fuel r : Nat) : ∀ c ∈ rleRepeats fuel r, ClSymOk c := by
  induction fuel generalizing r with
  | zero => simp [rleRepeats]
  | succ fuel ih =>
    rw [rleRepeats]
    split
    · simp
    · have hle := repeatCount_le 6 r
      exact List.forall_mem_cons.2 ⟨⟨show 16 ≤ 18 by decide, show _ < 2 ^ 2 by omega⟩, ih _⟩

theorem rleRun_ok {x : Nat} (h : x ≤ 15) (r : Nat) : ∀ c ∈ rleRun x r, ClSymOk c := by
  have widths (k : Nat) {y : Nat} (hy : y ≤ 15) : ∀ c ∈ List.replicate k (y, 0), ClSymOk c := fun c hc =>
    List.eq_of_mem_replicate hc ▸ .width hy
  unfold rleRun
  split
  · split
    · exact widths r (Nat.zero_le _)
    · exact rleZeros_ok r r
  · refine List.forall_mem_cons.2 ⟨.width h, ?_⟩
    split
    · exact widths _ h
    · exact rleRepeats_ok _ _

theorem rleRun_ne_nil {x r : Nat} (h : 1 ≤ r) : rleRun x r ≠ [] := by
  obtain ⟨r, rfl⟩ : ∃ k, r = k + 1 := ⟨r - 1, by omega⟩
  unfold rleRun
  split
  · split
    · simp [List.replicate_succ]
    · simp [rleZeros]
  · simp

/-- A run is of a value of the list, and not empty. -/
theorem mem_runsOf {v : List Nat} : ∀ run ∈ runsOf v, run.1 ∈ v ∧ 1 ≤ run.2 := by
  induction v with
  | nil => simp [runsOf]
  | cons x rest ih =>
    have later {run : Nat × Nat} (h : run.1 ∈ rest ∧ 1 ≤ run.2) : run.1 ∈ x :: rest ∧ 1 ≤ run.2 :=
      ⟨List.mem_cons_of_mem _ h.1, h.2⟩
    unfold runsOf
    split
    · next y n more hmore =>
      rw [hmore] at ih
      obtain ⟨hy, hrest⟩ := List.forall_mem_cons.1 ih
      split
      · exact List.forall_mem_cons.2
          ⟨⟨List.mem_cons_of_mem _ hy.1, Nat.le_add_left ..⟩, fun run hr => later (hrest run hr)⟩
      · exact List.forall_mem_cons.2 ⟨⟨List.mem_cons_self .., Nat.le_refl _⟩, fun run hr => later (ih run hr)⟩
    · simp

theorem rle_ok {v : List Nat} (h : ∀ x ∈ v, x ≤ 15) : ∀ c ∈ rle v, ClSymOk c := by
  intro c hc
  obtain ⟨run, hrun, hc⟩ := List.mem_flatMap.1 hc
  exact rleRun_ok (h _ (mem_runsOf run hrun).1) _ c hc

theorem rle_ne_nil {v : List Nat} (h : v ≠ []) : rle v ≠ [] := by
  obtain ⟨run, more, hruns⟩ : ∃ run more, runsOf v = run :: more := by
    cases v with
    | nil => exact absurd rfl h
    | cons x rest =>
      unfold runsOf
      split
      · split <;> exact ⟨_, _, rfl⟩
      · exact ⟨_, _, rfl⟩
  have hne := rleRun_ne_nil (x := run.1) (mem_runsOf run (by rw [hruns]; simp)).2
  simp [rle, hruns, hne]

/-! ## A dynamic block's tables (R357) -/

theorem WidthsFit.le {f w : List Nat} {limit : Nat} (h : WidthsFit f limit w) : ∀ x ∈ w, x ≤ limit := by
  intro x hx
  obtain ⟨n, hn, rfl⟩ := List.getElem_of_mem hx
  have := (h.2 n (h.1 ▸ hn)).2
  simpa [hn] using this

/-- A used symbol of widths that fit has a code (R263). -/
theorem WidthsFit.hasCode {f w : List Nat} {limit n : Nat} (h : WidthsFit f limit w) (h15 : limit ≤ 15)
    (hn : 0 < f.getD n 0) : hasCode (encodeTable w) n := by
  have hlen : n < f.length := by
    by_contra hge
    simp [Nat.le_of_not_lt hge] at hn
  obtain ⟨hzero, hle⟩ := h.2 n hlen
  exact encodeTable_hasCode (h.1 ▸ hlen) (fun k => by omega) (hle.trans h15)

theorem buildTables_symsCoded {s : State} (h : blockSyms s.enc.syms) : (buildTables s).enc.symsCoded := by
  intro x hx
  obtain ⟨hlit, hdist⟩ := freqs_counts h hx
  exact ⟨(codeLengths_fit s.plat _ (by decide)).hasCode (by decide) hlit,
    fun t ht => (codeLengths_fit s.plat _ (by decide)).hasCode (by decide) (hdist t ht)⟩

theorem buildTables_clSeqCoded (s : State) : (buildTables s).enc.clSeqCoded := by
  have hll := codeLengths_fit s.plat (freqs s.enc.syms).1 (limit := Config.maxBitWidth) (by decide)
  have hdl := codeLengths_fit s.plat (freqs s.enc.syms).2 (limit := Config.maxBitWidth) (by decide)
  refine ⟨rle_ne_nil fun hnil => ?_, fun c hc => ?_⟩
  · have := congrArg List.length hnil
    simp only [List.length_append, List.length_take, List.length_nil, hll.1, (freqs_length _).1, hlitOf] at this
    omega
  · have hseq : ClSymOk c := by
      refine rle_ok (fun x hx => ?_) c hc
      rcases List.mem_append.1 hx with hx | hx
      · exact hll.le x (List.mem_of_mem_take hx)
      · exact hdl.le x (List.mem_of_mem_take hx)
    have hcl := codeLengths_fit s.plat (buildTables s).enc.clFreq (limit := Config.maxClWidth) (by decide)
    exact ⟨hseq.1, hseq.2, hcl.hasCode (by decide) (clFreqs_counts hc hseq.1)⟩

theorem buildTables_headerFits (s : State) : (buildTables s).enc.headerFits := by
  have hll := (codeLengths_fit s.plat (freqs s.enc.syms).1 (limit := Config.maxBitWidth) (by decide)).1
  have hdl := (codeLengths_fit s.plat (freqs s.enc.syms).2 (limit := Config.maxBitWidth) (by decide)).1
  obtain ⟨hlit, hdist⟩ := freqs_length s.enc.syms
  have hcl := (codeLengths_fit s.plat (buildTables s).enc.clFreq (limit := Config.maxClWidth) (by decide)).le
  have used (l : List Nat) := usedPrefix_le_length l
  refine ⟨?_, ?_, ?_, ?_, ?_, ?_, hcl⟩
  · exact Nat.le_max_left _ _
  · have := used (s.plat.codeLengths (freqs s.enc.syms).1 Config.maxBitWidth)
    show max 257 _ ≤ 288
    omega
  · exact Nat.le_max_left _ _
  · have := used (s.plat.codeLengths (freqs s.enc.syms).2 Config.maxBitWidth)
    show max 1 _ ≤ 32
    omega
  · exact Nat.le_max_left _ _
  · have := used (headerWidths (buildTables s).enc.clWidths)
    have hlen : (headerWidths (buildTables s).enc.clWidths).length = 19 := by simp [headerWidths, clOrder]
    show max 4 (usedPrefix (headerWidths (buildTables s).enc.clWidths)) ≤ 19
    omega

end Sys2Proof.Machine
end

section
/-! PROOFS. A compression whose queues are in order goes on in every phase and keeps them in order (spec/40_bitstream.md
R201, spec/41_huffman.md R263, spec/43_deflate_encoder.md R350 to R377). -/

namespace Sys2Proof.Machine

/-! ## Answers that lead on -/

/-- The answer is a state with a property or a raised error, never a stop. -/
inductive Res.Leads {α : Type} (P : State → Prop) : Res α → Prop where
  | ok {v : α} {t : State} (h : P t) : Res.Leads P (.ok v t)
  | raised (e : CodecError) (t : State) : Res.Leads P (.raised e t)

section Leads
variable {α β : Type} {P Q : State → Prop} {r : Res α}

theorem Res.Goes.leads (h : r.Goes) (hP : r.All P) : r.Leads P := by
  cases r with
  | ok v t => exact .ok hP
  | raised e t => exact .raised e t
  | fault f => exact h.elim
  | refused q => exact h.elim

theorem Res.Leads.imp (h : r.Leads P) (hPQ : ∀ t, P t → Q t) : r.Leads Q := by
  cases h with
  | ok h => exact .ok (hPQ _ h)
  | raised e t => exact .raised e t

theorem Res.Leads.andThen {k : α → State → Res β} (h : r.Leads P) (hk : ∀ v t, P t → (k v t).Leads Q) :
    (r.andThen k).Leads Q := by
  cases h with
  | ok h => exact hk _ _ h
  | raised e t => exact .raised e t

end Leads

/-! ## States of a compression -/

/-- A compression with a legal window (R65). -/
structure Run.Compresses (c : Run) : Prop where
  op : c.op.encodes = true
  window : ∀ w, c.win = some w → w ≤ 32768

/-- As long as the command runs, it is in a phase of a compression whose queues are in order. -/
def State.InOrder (t : State) : Prop := ∀ q, t.seq = .busy q → q.encodes = true ∧ t.EncoderOk q

/-- The step answers a next state that is in order. -/
def OutcomeInOrder (o : Host.Outcome State Fault Refusal) : Prop := ∃ t, o = .next t ∧ t.InOrder

theorem State.InOrder.next {t : State} (h : t.InOrder) : OutcomeInOrder (.next t) := ⟨t, rfl, h⟩

theorem Res.Leads.outcome {r : Res Unit} (h : r.Leads State.InOrder) : OutcomeInOrder r.outcome := by
  cases h with
  | ok h => exact h.next
  | raised e t => exact State.InOrder.next nofun

theorem State.InOrder.finish (t : State) : t.finish.InOrder := nofun

theorem State.EncoderOk.compresses {s : State} {p : Phase} (h : s.EncoderOk p) : s.run.Compresses := ⟨h.op, h.window⟩

/-- A compression in phase `p` is in order when what that phase asks for holds. -/
theorem Run.Compresses.inOrder {t : State} (h : t.run.Compresses) (p : Phase) (hseq : t.seq = .busy p)
    (hp : p.encodes = true := by rfl)
    (scan : p = .scanChunk → t.run.mode ≠ .raw ∧ (∀ x ∈ t.enc.syms, x.isData) ∧
      ∀ e ∈ t.enc.prefixTable, e.2 < t.enc.scanPos := by nofun)
    (stored : p = .writeBlock → t.run.mode = .raw → t.enc.chunk.length ≤ 65535 := by nofun)
    (tables : p = .buildTables → t.run.mode = .dynamic ∧ blockSyms t.enc.syms := by nofun)
    (static : p = .writeBlock → t.run.mode = .fixed → blockSyms t.enc.syms := by nofun)
    (dynamic : p = .writeBlock → t.run.mode = .dynamic → blockSyms t.enc.syms ∧ t.enc.symsCoded ∧
      t.enc.clSeqCoded ∧ t.enc.headerFits := by nofun)
    (codeLen : p = .writeCodeLen → blockSyms t.enc.syms ∧ t.enc.symsCoded ∧ t.enc.clSeqCoded := by nofun)
    (sym : p = .writeSym → blockSyms t.enc.syms ∧ t.enc.symsCoded := by nofun)
    (dist : p = .writeDist → blockSyms t.enc.syms ∧ t.enc.symsCoded ∧
      ∃ len d rest, t.enc.syms = .pointer len d :: rest := by nofun) : t.InOrder := by
  intro q hq
  obtain rfl : p = q := by simpa using hseq.symm.trans hq
  exact ⟨hp, h.op, h.window, scan, stored, tables, static, dynamic, codeLen, sym, dist⟩

/-! ## Writing leaves the queues alone -/

section Writing
variable {s t : State}

theorem Written.compresses (w : Written s t) (h : s.run.Compresses) : t.run.Compresses := w.run ▸ h

theorem Written.syms (w : Written s t) : t.enc.syms = s.enc.syms := by rw [w.enc]

theorem Written.symsCoded (w : Written s t) (h : s.enc.symsCoded) : t.enc.symsCoded := by rw [w.enc]; exact h

theorem Written.clSeqCoded (w : Written s t) (h : s.enc.clSeqCoded) : t.enc.clSeqCoded := by rw [w.enc]; exact h

theorem Written.headerFits (w : Written s t) (h : s.enc.headerFits) : t.enc.headerFits := by rw [w.enc]; exact h

theorem Written.pointerWritten (w : Written s t) : t.pointerWritten = s.pointerWritten := by
  rw [State.pointerWritten, w.syms]
  rfl

theorem Written.clExtra (w : Written s t) : t.clExtra = s.clExtra := by rw [State.clExtra, w.enc]; rfl

/-- A writing operation behind others: all of them together write. -/
theorem Written.leads {α : Type} {r : Res α} (w : Written s t) (h : r.Leads (Written t)) : r.Leads (Written s) :=
  h.imp fun _ => w.trans

theorem emit_leads (b : Byte) (s : State) : (emit b s).Leads (Written s) := (emit_goes b s).leads (emit_written b s)

theorem writeBits_leads {width bits : Nat} (s : State) (hw : width ≤ 16) (hb : bits < 2 ^ width) :
    (writeBits width bits s).Leads (Written s) := (writeBits_goes s hw hb).leads (writeBits_written width bits s)

theorem encodeSymbol_leads {table : List (Option HuffCode)} {sym : Nat} (s : State) (h : hasCode table sym) :
    (encodeSymbol table sym s).Leads (Written s) := (encodeSymbol_goes s h).leads (encodeSymbol_written table sym s)

theorem writeBlockHeader_leads {type : Nat} (s : State) (h : type < 4) :
    (writeBlockHeader type s).Leads (Written s) :=
  (writeBits_leads s (by decide) s.finalChunk.toNat_lt).andThen fun _ t w =>
    w.leads (writeBits_leads t (by decide) h)

end Writing

/-! ## Between blocks -/

theorem endBlockWritten_inOrder {t : State} (h : t.run.Compresses) : t.endBlockWritten.InOrder := by
  unfold State.endBlockWritten
  split
  · exact Run.Compresses.inOrder h .flush rfl
  · exact Run.Compresses.inOrder h .loadChunk rfl

section Phases
variable {s : State}

/-! ## The chunk, its scan and its tables -/

/-- A chunk that is read is no longer than the mode's blocks (R350). -/
theorem chunk_length_le {s t : State} {chunk : List Byte} {k : Nat} (h : memReadAll k s.chunkLen s = .ok chunk t) :
    chunk.length ≤ s.run.mode.blockSize := by
  obtain ⟨-, rfl, -⟩ := memReadAll_eq_ok.1 h
  rw [List.length_map, List.length_range]
  exact Nat.min_le_left _ _

theorem takeChunk_inOrder (h : s.run.Compresses) {chunk : List Byte} (hlen : chunk.length ≤ s.run.mode.blockSize) :
    (s.takeChunk chunk).InOrder := by
  have hc : (s.takeChunk chunk).run.Compresses := h
  cases hscan : s.run.mode != .raw && s.run.win.isSome with
  | true =>
    have hmode : s.run.mode ≠ .raw := by
      rw [Bool.and_eq_true] at hscan
      simpa using hscan.1
    exact hc.inOrder .scanChunk (by simp [State.takeChunk, hscan]) (scan := fun _ =>
      ⟨hmode, by simp [State.takeChunk, hscan], by simp [State.takeChunk]⟩)
  | false =>
    have hseq : (s.takeChunk chunk).seq = .busy s.run.mode.afterSyms := by simp [State.takeChunk, hscan]
    have hsyms (hm : s.run.mode ≠ .raw) : blockSyms (s.takeChunk chunk).enc.syms := by
      have e : (s.takeChunk chunk).enc.syms = literalSyms chunk := by simp [State.takeChunk, hscan, hm]
      rw [e]
      exact blockSyms_literalSyms chunk
    cases hm : s.run.mode with
    | raw =>
      rw [hm] at hseq hlen
      exact hc.inOrder .writeBlock hseq (stored := fun _ _ => hlen)
        (static := fun _ k => by simp [hm] at k) (dynamic := fun _ k => by simp [hm] at k)
    | fixed =>
      rw [hm] at hseq
      exact hc.inOrder .writeBlock hseq (stored := fun _ k => by simp [hm] at k)
        (static := fun _ _ => hsyms (by simp [hm])) (dynamic := fun _ k => by simp [hm] at k)
    | dynamic =>
      rw [hm] at hseq
      exact hc.inOrder .buildTables hseq (tables := fun _ => ⟨hm, hsyms (by simp [hm])⟩)

theorem loadChunk_leads (h : s.EncoderOk .loadChunk) : (loadChunk s).Leads State.InOrder := by
  unfold loadChunk
  have hgoes := memReadAll_goes s s.chunkLen (s.srcByte s.chunkStart)
  cases hr : memReadAll (s.srcByte s.chunkStart) s.chunkLen s with
  | ok chunk t =>
    obtain ⟨-, -, rfl⟩ := memReadAll_eq_ok.1 hr
    exact .ok (takeChunk_inOrder h.compresses (chunk_length_le hr))
  | raised e t => exact .raised e t
  | fault f => exact (hr ▸ hgoes : Res.Goes (.fault f : Res (List Byte))).elim
  | refused q => exact (hr ▸ hgoes : Res.Goes (.refused q : Res (List Byte))).elim

theorem scanChunk_inOrder (h : s.EncoderOk .scanChunk) (hs : s.seq = .busy .scanChunk) : (scanChunk s).InOrder := by
  obtain ⟨hmode, hdata, htable⟩ := h.scan rfl
  have hc := h.compresses
  unfold scanChunk
  split
  · next hpos =>
    have hwin : s.run.window ≤ 32768 := by
      unfold Run.window
      cases hw : s.run.win with
      | none => exact Nat.zero_le _
      | some w => exact h.window w hw
    obtain ⟨⟨hdata', htable'⟩, -⟩ :=
      lzStep_legal (c := ⟨s.enc.scanPos, s.enc.prefixTable, s.enc.syms⟩) hwin ⟨hdata, htable⟩ hpos
    exact Run.Compresses.inOrder hc .scanChunk hs (scan := fun _ => ⟨hmode, hdata', htable'⟩)
  · have hsyms : blockSyms (s.enc.syms ++ [.endOfBlock]) := ⟨_, rfl, hdata⟩
    cases hm : s.run.mode with
    | raw => exact absurd hm hmode
    | fixed =>
      exact Run.Compresses.inOrder hc .writeBlock rfl (stored := fun _ k => by simp [hm] at k)
        (static := fun _ _ => hsyms) (dynamic := fun _ k => by simp [hm] at k)
    | dynamic => exact Run.Compresses.inOrder hc .buildTables rfl (tables := fun _ => ⟨hm, hsyms⟩)

theorem buildTables_inOrder (h : s.EncoderOk .buildTables) : (buildTables s).InOrder := by
  obtain ⟨hm, hsyms⟩ := h.tables rfl
  exact Run.Compresses.inOrder h.compresses .writeBlock rfl (stored := fun _ k => by simp [hm] at k)
    (static := fun _ k => by simp [hm] at k) (dynamic := fun _ _ =>
      ⟨hsyms, buildTables_symsCoded hsyms, buildTables_clSeqCoded s, buildTables_headerFits s⟩)

/-! ## Block headers -/

theorem writeBytes_leads (bytes : List Byte) (s : State) : (writeBytes bytes s).Leads (Written s) :=
  (writeBytes_goes bytes s).leads (writeBytes_written bytes s)

theorem writeStored_leads (h : s.run.Compresses) (hlen : s.enc.chunk.length ≤ 65535) :
    (writeStored s).Leads State.InOrder := by
  have small {t : State} (w : Written s t) : t.enc.chunk.length < 2 ^ 16 := by
    rw [w.enc]
    exact Nat.lt_succ_of_le hlen
  refine (writeBlockHeader_leads s (by decide)).andThen fun _ t w => ?_
  refine (w.leads ((alignOut_goes t).leads (alignOut_written t))).andThen fun _ t w => ?_
  refine (w.leads (writeBits_leads t (by decide) (small w))).andThen fun _ t w => ?_
  refine (w.leads (writeBits_leads t (by decide) (Nat.xor_lt_two_pow (small w) (by decide)))).andThen fun _ t w => ?_
  exact (w.leads (writeBytes_leads _ t)).andThen fun _ t w => .ok (endBlockWritten_inOrder (w.compresses h))

/-- Every symbol of a block has a fixed code (R353). -/
theorem fixedTables_code {x : Sym} (hlit : x.litLenSym < 286) (hdist : ∀ t, x.distanceSym = some t → t < 30) :
    hasCode (encodeTable fixedLitLenWidths) x.litLenSym ∧
    ∀ t, x.distanceSym = some t → hasCode (encodeTable fixedDistWidths) t := by
  have code {w : List Nat} {n : Nat} (hn : n < w.length) (hw : 1 ≤ w.getD n 0 ∧ w.getD n 0 ≤ 15) :
      hasCode (encodeTable w) n := encodeTable_hasCode hn (by omega) hw.2
  refine ⟨code (by rw [length_fixedLitLenWidths]; omega) ?_, fun t ht => code ?_ ?_⟩
  · rw [getD_fixedLitLenWidths (by omega), fixedLitLenCode]
    split_ifs <;> simp
  · have := hdist t ht
    rw [fixedDistWidths, List.length_replicate]
    omega
  · have := hdist t ht
    rw [getD_fixedDistWidths (by omega)]
    decide

/-- The encoder's datapath with these tables for the block's symbols. -/
def Encoder.withTables (e : Encoder) (lit dist : List (Option HuffCode)) : Encoder :=
  { e with litTable := lit, distTable := dist }

theorem Encoder.withTables_syms (e : Encoder) (lit dist : List (Option HuffCode)) :
    (e.withTables lit dist).syms = e.syms := rfl

theorem Encoder.withTables_symsCoded {e : Encoder} {lit dist : List (Option HuffCode)}
    (h : ∀ x ∈ e.syms, hasCode lit x.litLenSym ∧ ∀ t, x.distanceSym = some t → hasCode dist t) :
    (e.withTables lit dist).symsCoded := h

/-- The fixed tables are the only part of the encoder's datapath that a static block's header changes (R353, R356). -/
theorem withFixedEncodeTables_enc (s : State) : s.withFixedEncodeTables.enc =
    s.enc.withTables (encodeTable fixedLitLenWidths) (encodeTable fixedDistWidths) := by
  rw [State.withFixedEncodeTables, Encoder.withTables]

theorem writeStatic_leads (h : s.run.Compresses) (hsyms : blockSyms s.enc.syms) :
    (writeStatic s).Leads State.InOrder := by
  refine (writeBlockHeader_leads s (by decide)).andThen fun _ t w => .ok ?_
  have hc : t.withFixedEncodeTables.run.Compresses := by
    rw [State.withFixedEncodeTables_run]
    exact w.compresses h
  have hblock : blockSyms t.enc.syms := w.syms ▸ hsyms
  refine hc.inOrder .writeSym t.withFixedEncodeTables_seq (sym := fun _ => ?_)
  rw [withFixedEncodeTables_enc, Encoder.withTables_syms]
  refine ⟨hblock, Encoder.withTables_symsCoded fun x hx => ?_⟩
  obtain ⟨hlit, hdist⟩ := blockSyms_inRange hblock hx
  exact fixedTables_code hlit hdist

/-- The values that a dynamic header writes are in the domain of their `WriteBits` (R375, R201). -/
theorem Encoder.headerFits.values {e : Encoder} (h : e.headerFits) :
    (e.hlit - 257 < 2 ^ 5 ∧ e.hdist - 1 < 2 ^ 5 ∧ e.hclen - 4 < 2 ^ 4) ∧
      ∀ x ∈ (headerWidths e.clWidths).take e.hclen, x ≤ 7 := by
  obtain ⟨_, hlit, _, hdist, _, hclen, hwidths⟩ := h
  refine ⟨⟨by omega, by omega, by omega⟩, fun x hx => ?_⟩
  obtain ⟨c, -, rfl⟩ := List.mem_map.1 (List.mem_of_mem_take hx)
  rw [List.getD_eq_getElem?_getD]
  cases hc : e.clWidths[c]? with
  | none => exact Nat.zero_le _
  | some y => exact hwidths y (List.mem_of_getElem? hc)

theorem writeDynamic_leads (h : s.run.Compresses) (hsyms : blockSyms s.enc.syms) (hcoded : s.enc.symsCoded)
    (hcl : s.enc.clSeqCoded) (hfits : s.enc.headerFits) : (writeDynamic s).Leads State.InOrder := by
  have counts {t : State} (w : Written s t) :
      t.enc.hlit - 257 < 2 ^ 5 ∧ t.enc.hdist - 1 < 2 ^ 5 ∧ t.enc.hclen - 4 < 2 ^ 4 := (w.headerFits hfits).values.1
  refine (writeBlockHeader_leads s (by decide)).andThen fun _ t w => ?_
  obtain ⟨hlit, -, -⟩ := counts w
  refine (w.leads (writeBits_leads t (by decide) hlit)).andThen fun _ t w => ?_
  obtain ⟨-, hdist, -⟩ := counts w
  refine (w.leads (writeBits_leads t (by decide) hdist)).andThen fun _ t w => ?_
  obtain ⟨-, -, hclen⟩ := counts w
  refine (w.leads (writeBits_leads t (by decide) hclen)).andThen fun _ t w => ?_
  have widths := writeClWidths_goes (w.headerFits hfits).values.2 t
  refine (w.leads (widths.leads (writeClWidths_written _ t))).andThen fun _ t w => .ok ?_
  exact Run.Compresses.inOrder (t := t.goto .writeCodeLen) (w.compresses h) .writeCodeLen rfl
    (codeLen := fun _ => ⟨w.syms ▸ hsyms, w.symsCoded hcoded, w.clSeqCoded hcl⟩)

/-! ## Code-length symbols -/

/-- The last code-length symbol is followed by the block's symbols, any other by the next one (R375). -/
theorem popCl_inOrder (h : s.run.Compresses) (hsyms : blockSyms s.enc.syms) (hcoded : s.enc.symsCoded)
    (hcl : s.enc.clSeqCoded) : s.popCl.InOrder := by
  have hc : s.popCl.run.Compresses := h
  by_cases hlast : s.enc.clSeq.tail = []
  · exact hc.inOrder .writeSym (by rw [State.popCl, if_pos hlast]) (sym := fun _ => ⟨hsyms, hcoded⟩)
  · exact hc.inOrder .writeCodeLen (by rw [State.popCl, if_neg hlast]) (codeLen := fun _ =>
      ⟨hsyms, hcoded, hlast, fun c hmem => hcl.2 c (List.mem_of_mem_tail hmem)⟩)

/-- The word of a width (R465). -/
theorem width_word {c : Nat} (h : c < 16) :
    ∃ i, decode .codeLen c = .ok i ∧ ∀ s, exec i s = (widthSymbol c s).outcome := by
  interval_cases c <;> exact ⟨_, rfl, fun _ => rfl⟩

/-- The word of a repeat, when it is written (R466 to R468, R375). -/
theorem repeat_word {c : Nat} (h16 : 16 ≤ c) (h18 : c ≤ 18) : ∃ i, decode .codeLen c = .ok i ∧
    ∀ s : State, s.run.op.encodes = true → exec i s = (writeCl c (clExtraBits c) s).outcome := by
  interval_cases c <;> exact ⟨_, rfl, fun _ hs => congrArg Res.outcome (if_pos hs)⟩

theorem codeLen_inOrder {c : Nat × Nat} {rest : List (Nat × Nat)} (h : s.EncoderOk .writeCodeLen)
    (hseq : s.enc.clSeq = c :: rest) : ∃ i, decode .codeLen c.1 = .ok i ∧ OutcomeInOrder (exec i s) := by
  obtain ⟨hsyms, hcoded, hcl⟩ := h.codeLen rfl
  obtain ⟨h18, hextra, hcode⟩ := hcl.2 c (by rw [hseq]; simp)
  have pops {t : State} (w : Written s t) : t.popCl.InOrder :=
    popCl_inOrder (w.compresses h.compresses) (w.syms ▸ hsyms) (w.symsCoded hcoded) (w.clSeqCoded hcl)
  rcases Nat.lt_or_ge c.1 16 with h16 | h16
  · obtain ⟨i, hi, hexec⟩ := width_word h16
    refine ⟨i, hi, ?_⟩
    rw [hexec, widthSymbol, if_pos h.op]
    exact Res.Leads.outcome <| (encodeSymbol_leads s hcode).andThen fun _ t w => .ok (pops w)
  · obtain ⟨i, hi, hexec⟩ := repeat_word h16 h18
    refine ⟨i, hi, ?_⟩
    rw [hexec s h.op]
    refine Res.Leads.outcome <| (encodeSymbol_leads s hcode).andThen fun _ t w => ?_
    have hx : t.clExtra = c.2 := by rw [w.clExtra, State.clExtra, hseq]; rfl
    have hbits : clExtraBits c.1 ≤ 16 := by
      unfold clExtraBits
      split_ifs <;> decide
    exact (w.leads (writeBits_leads t hbits (hx ▸ hextra))).andThen fun _ t w => .ok (pops w)

/-! ## The block's symbols -/

/-- The word of a literal (R158). -/
theorem literal_word (b : Byte) :
    ∃ i, decode .litLen b.toNat = .ok i ∧ ∀ s, exec i s = (literal b s).outcome := by
  have hb := b.isLt
  have same {c : Byte} (h : c.toNat = b.toNat) (s : State) : (literal c s).outcome = (literal b s).outcome := by
    rw [BitVec.eq_of_toNat_eq h]
  simp only [decode, decodeLitLen]
  split
  · exact ⟨_, rfl, same (by simp; omega)⟩
  split
  · exact ⟨_, rfl, same (by simp; omega)⟩
  split
  · exact ⟨_, rfl, same (by simp; omega)⟩
  split
  · exact ⟨_, rfl, same (by simp; omega)⟩
  · exact ⟨_, rfl, same (by simp; omega)⟩

/-- The symbols behind the head are still in order when it is written. -/
theorem popSym_inOrder {x : Sym} {rest : List Sym} (h : s.run.Compresses) (hsyms : s.enc.syms = x :: rest)
    (hrest : blockSyms rest) (hcoded : s.enc.symsCoded) (hs : s.seq = .busy .writeSym) : s.popSym.InOrder := by
  have htail : s.popSym.enc.syms = rest := by rw [State.popSym_enc, hsyms]; rfl
  refine Run.Compresses.inOrder (t := s.popSym) h .writeSym hs (sym := fun _ => ⟨htail ▸ hrest, fun y hy => ?_⟩)
  exact hcoded y (by rw [htail] at hy; rw [hsyms]; exact List.mem_cons_of_mem _ hy)

theorem literal_inOrder {b : Byte} {rest : List Sym} (h : s.EncoderOk .writeSym) (hs : s.seq = .busy .writeSym)
    (hsyms : s.enc.syms = .literal b :: rest) : (literal b s).Leads State.InOrder := by
  obtain ⟨hblock, hcoded⟩ := h.sym rfl
  obtain ⟨hcode, -⟩ := hcoded (.literal b) (by rw [hsyms]; simp)
  have hrest : blockSyms rest := by
    rcases blockSyms_cons (hsyms ▸ hblock) with ⟨-, hrest⟩ | ⟨hx, -⟩
    · exact hrest
    · cases hx
  rw [literal, if_pos h.op]
  exact (encodeSymbol_leads s hcode).andThen fun _ t w => .ok <|
    popSym_inOrder (w.compresses h.compresses) (w.syms.trans hsyms) hrest (w.symsCoded hcoded) (w.seq.trans hs)

theorem execEob_inOrder {rest : List Sym} (h : s.EncoderOk .writeSym) (hsyms : s.enc.syms = .endOfBlock :: rest) :
    OutcomeInOrder (execEob s) := by
  obtain ⟨-, hcoded⟩ := h.sym rfl
  obtain ⟨hcode, -⟩ := hcoded .endOfBlock (by rw [hsyms]; simp)
  rw [execEob, if_pos h.op]
  exact Res.Leads.outcome <| (encodeSymbol_leads s hcode).andThen fun _ t w =>
    .ok <| endBlockWritten_inOrder (t := t.popSym) (w.compresses h.compresses)

theorem pointerWritten_cons {len d : Nat} {rest : List Sym} (h : s.enc.syms = .pointer len d :: rest) :
    s.pointerWritten = (len, d) := by
  rw [State.pointerWritten, h]
  rfl

/-- A pointer at the head is in the ranges of R308, and more symbols follow. -/
theorem blockSyms_pointer {len d : Nat} {rest : List Sym} (h : blockSyms (.pointer len d :: rest)) :
    (3 ≤ len ∧ len ≤ 258 ∧ 1 ≤ d ∧ d ≤ 32768) ∧ blockSyms rest := by
  rcases blockSyms_cons h with h | ⟨hx, -⟩
  · exact h
  · cases hx

/-- The length half of a pointer (R359): its code, its extra bits, and the distance half comes next. -/
theorem lengthSymbol_inOrder {len d : Nat} {rest : List Sym} {row : SymRow} (h : s.EncoderOk .writeSym)
    (hsyms : s.enc.syms = .pointer len d :: rest) (hrow : row ∈ lengthRows) (hsym : (lenSym len).1 = row.sym)
    (hextra : len - row.base < 2 ^ row.extra) :
    (lengthSymbol row.sym row.extra row.base s).Leads State.InOrder := by
  obtain ⟨hblock, hcoded⟩ := h.sym rfl
  obtain ⟨hcode, -⟩ := hcoded (.pointer len d) (by rw [hsyms]; simp)
  obtain ⟨-, -, -, -, h16⟩ := lengthRows_word row hrow
  rw [lengthSymbol, if_pos h.op]
  refine (encodeSymbol_leads s (hsym ▸ hcode)).andThen fun _ t w => ?_
  have hlen : t.pointerWritten.1 = len := by rw [w.pointerWritten, pointerWritten_cons hsyms]
  refine (w.leads (writeBits_leads t h16 (hlen ▸ hextra))).andThen fun _ t w => .ok ?_
  exact Run.Compresses.inOrder (t := t.goto .writeDist) (w.compresses h.compresses) .writeDist rfl
    (dist := fun _ => ⟨w.syms ▸ hblock, w.symsCoded hcoded, len, d, rest, w.syms.trans hsyms⟩)

/-- The distance half of a pointer (R359): its code, its extra bits, and the next symbol comes. -/
theorem distanceSymbol_inOrder {len d : Nat} {rest : List Sym} {row : SymRow} (h : s.EncoderOk .writeDist)
    (hsyms : s.enc.syms = .pointer len d :: rest) (hrow : row ∈ distanceRows) (hsym : (distSym d).1 = row.sym)
    (hextra : d - row.base < 2 ^ row.extra) :
    (distanceSymbol row.sym row.extra row.base s).Leads State.InOrder := by
  obtain ⟨hblock, hcoded, -⟩ := h.dist rfl
  obtain ⟨-, hcode⟩ := hcoded (.pointer len d) (by rw [hsyms]; simp)
  obtain ⟨-, hrest⟩ := blockSyms_pointer (hsyms ▸ hblock)
  obtain ⟨-, -, -, -, h16⟩ := distanceRows_word row hrow
  rw [distanceSymbol, if_pos h.op]
  refine (encodeSymbol_leads s (hsym ▸ hcode _ rfl)).andThen fun _ t w => ?_
  have hd : t.pointerWritten.2 = d := by rw [w.pointerWritten, pointerWritten_cons hsyms]
  refine (w.leads (writeBits_leads t h16 (hd ▸ hextra))).andThen fun _ t w => .ok ?_
  exact popSym_inOrder (s := t.goto .writeSym) (w.compresses h.compresses) (w.syms.trans hsyms) hrest
    (w.symsCoded hcoded) rfl

/-! ## The end of the stream -/

theorem flushStream_leads (h : s.run.Compresses) : (flushStream s).Leads State.InOrder := by
  refine ((flush_goes s).leads (flush_written s)).andThen fun _ t w => ?_
  split
  · exact .ok <| Run.Compresses.inOrder (t := t.goto .zlibTrailerOut) (w.compresses h) .zlibTrailerOut rfl
  · exact .ok (State.InOrder.finish t)

theorem execZlibHeaderWrite_inOrder (h : s.run.Compresses) : OutcomeInOrder (execZlibHeaderWrite s) :=
  Res.Leads.outcome <| (emit_leads _ s).andThen fun _ t w => (w.leads (emit_leads _ t)).andThen fun _ t w =>
    .ok <| Run.Compresses.inOrder (t := t.goto .loadChunk) (w.compresses h) .loadChunk rfl

theorem emitBE_leads (v : Word) (s : State) : (emitBE v s).Leads (Written s) :=
  (emit_leads _ s).andThen fun _ t w => (w.leads (emit_leads _ t)).andThen fun _ t w =>
    (w.leads (emit_leads _ t)).andThen fun _ t w => w.leads (emit_leads _ t)

theorem execZlibTrailerWrite_inOrder (s : State) : OutcomeInOrder (execZlibTrailerWrite s) :=
  Res.Leads.outcome <| (emitBE_leads _ s).andThen fun _ t _ => .ok (State.InOrder.finish t)

/-! ## The step -/

/-- In a phase that reads a word, the step runs what the word decodes to. -/
theorem step_eq_exec {p : Phase} {w : Nat} {i : Instr} (hp : s.atPhase p) (hint : p.internal = false)
    (hw : (nextWord p s).2 = .ok w s) (hi : decode (nextWord p s).1 w = .ok i) : step s = exec i s :=
  stepRunsTheFetchedInstruction.1 s s p w i hp hint hw hi

theorem step_writeBlock (h : s.EncoderOk .writeBlock) (hp : s.atPhase .writeBlock) : OutcomeInOrder (step s) := by
  have hc := h.compresses
  cases hm : s.run.mode with
  | raw =>
    rw [step_eq_exec (i := .btype0) hp rfl rfl (by rw [hm]; rfl), exec, execBtype0, if_pos h.op]
    exact (writeStored_leads hc (h.stored rfl hm)).outcome
  | fixed =>
    rw [step_eq_exec (i := .btype1) hp rfl rfl (by rw [hm]; rfl), exec, execBtype1, if_pos h.op]
    exact (writeStatic_leads hc (h.static rfl hm)).outcome
  | dynamic =>
    obtain ⟨hsyms, hcoded, hcl, hfits⟩ := h.dynamic rfl hm
    rw [step_eq_exec (i := .btype2) hp rfl rfl (by rw [hm]; rfl), exec, execBtype2, if_pos h.op]
    exact (writeDynamic_leads hc hsyms hcoded hcl hfits).outcome

theorem step_writeCodeLen (h : s.EncoderOk .writeCodeLen) (hp : s.atPhase .writeCodeLen) :
    OutcomeInOrder (step s) := by
  obtain ⟨-, -, hne, -⟩ := h.codeLen rfl
  obtain ⟨c, rest, hseq⟩ := List.exists_cons_of_ne_nil hne
  have hword : (nextWord .writeCodeLen s).2 = .ok c.1 s := by
    show nextCl s = _
    rw [nextCl, hseq]
  obtain ⟨i, hi, hexec⟩ := codeLen_inOrder h hseq
  rw [step_eq_exec hp rfl hword hi]
  exact hexec

theorem step_writeSym (h : s.EncoderOk .writeSym) (hp : s.atPhase .writeSym) : OutcomeInOrder (step s) := by
  obtain ⟨hblock, -⟩ := h.sym rfl
  obtain ⟨x, rest, hsyms⟩ := List.exists_cons_of_ne_nil (blockSyms_ne_nil hblock)
  have hword : (nextWord .writeSym s).2 = .ok x.litLenSym s := by
    show nextSym s = _
    rw [nextSym, hsyms]
    cases x <;> rfl
  cases x with
  | literal b =>
    obtain ⟨i, hi, hexec⟩ := literal_word b
    rw [step_eq_exec hp rfl hword hi, hexec]
    exact (literal_inOrder h hp.2 hsyms).outcome
  | endOfBlock =>
    rw [step_eq_exec (i := .eob) hp rfl hword rfl]
    exact execEob_inOrder h hsyms
  | pointer len d =>
    obtain ⟨⟨h3, h258, -, -⟩, -⟩ := blockSyms_pointer (hsyms ▸ hblock)
    obtain ⟨row, hrow, hsym, hextra⟩ := lenSym_row h3 h258
    have hi : decode .litLen (lenSym len).1 = .ok row.instr := hsym ▸ decode_lengthRow hrow
    rw [step_eq_exec hp rfl hword hi, exec_lengthRow hrow]
    exact (lengthSymbol_inOrder h hsyms hrow hsym hextra).outcome

theorem step_writeDist (h : s.EncoderOk .writeDist) (hp : s.atPhase .writeDist) : OutcomeInOrder (step s) := by
  obtain ⟨hblock, -, len, d, rest, hsyms⟩ := h.dist rfl
  obtain ⟨⟨-, -, h1, hmax⟩, -⟩ := blockSyms_pointer (hsyms ▸ hblock)
  obtain ⟨row, hrow, hsym, hextra⟩ := distSym_row h1 hmax
  have hword : (nextWord .writeDist s).2 = .ok row.sym s := by
    show nextDist s = _
    rw [nextDist, pointerWritten_cons hsyms, hsym]
  rw [step_eq_exec hp rfl hword (decode_distanceRow hrow), exec_distanceRow hrow]
  exact (distanceSymbol_inOrder h hsyms hrow hsym hextra).outcome

/-- A step of a compression in order. -/
theorem step_inOrder {p : Phase} (hp : s.atPhase p) (henc : p.encodes = true) (h : s.EncoderOk p) :
    OutcomeInOrder (step s) := by
  obtain ⟨hmoves, hseq⟩ := id hp
  have hengine : step s = engine s := step_engine hmoves
  rw [engine, hseq] at hengine
  cases p with
  | dispatch | zlibHeaderIn | gzipHeader | gzipOptional | readBlock | readCodeLen | readSym | readDist | zlibTrailerIn
  | gzipTrailerIn => cases henc
  | loadChunk => exact hengine ▸ (loadChunk_leads h).outcome
  | scanChunk => exact hengine ▸ (scanChunk_inOrder h hseq).next
  | buildTables => exact hengine ▸ (buildTables_inOrder h).next
  | flush => exact hengine ▸ (flushStream_leads h.compresses).outcome
  | zlibHeaderOut =>
    rw [step_eq_exec (i := .zlibHeaderWrite) hp rfl rfl rfl]
    exact execZlibHeaderWrite_inOrder h.compresses
  | zlibTrailerOut =>
    rw [step_eq_exec (i := .zlibTrailerWrite) hp rfl rfl rfl]
    exact execZlibTrailerWrite_inOrder s
  | writeBlock => exact step_writeBlock h hp
  | writeCodeLen => exact step_writeCodeLen h hp
  | writeSym => exact step_writeSym h hp
  | writeDist => exact step_writeDist h hp

end Phases

/-- `WIN_EN` takes the window of the `WINDOW` register (R685). -/
theorem runOf_compresses {op : Op} (f : CmdFields) {window : Word} (hop : op.encodes = true)
    (h : window.toNat ≤ 32768) : (runOf op f window).Compresses := by
  refine ⟨hop, fun w hw => ?_⟩
  have hwin : winOf f window = some w := hw
  unfold winOf at hwin
  split at hwin
  · cases hwin
    exact (Nat.mod_le _ _).trans h
  · cases hwin

/-- Settles O11: every phase of a compression keeps the queues in order, and the first phases ask nothing of them. -/
theorem encoderNeverStops : Obligations.EncoderNeverStops := by
  refine ⟨fun s p hp henc h => step_inOrder hp henc h, fun s f hw => ⟨?_, ?_⟩⟩
  · have hc : (s.begun (runOf .deflate f s.reg.window) .loadChunk).run.Compresses := runOf_compresses f rfl hw
    have inOrder : State.InOrder _ := hc.inOrder .loadChunk rfl
    exact (inOrder _ rfl).2
  · have hc : (s.begun (runOf .deflateZlib f s.reg.window) .zlibHeaderOut).run.Compresses := runOf_compresses f rfl hw
    have inOrder : State.InOrder _ := hc.inOrder .zlibHeaderOut rfl
    exact (inOrder _ rfl).2

end Sys2Proof.Machine
end

section
/-! PROOFS. The bit reader's registers refine the position that the machine keeps (spec/40_bitstream.md R210, R211,
R215, spec/10_state.md R52, R53). -/

namespace Sys2Proof.Machine

/-! ## Bytes as numbers (R16) -/

theorem bytesNum_append (a b : List Byte) : bytesNum (a ++ b) = bytesNum a + 2 ^ (8 * a.length) * bytesNum b := by
  induction a with
  | nil => simp [bytesNum]
  | cons x rest ih =>
    rw [List.cons_append, bytesNum, bytesNum, ih, List.length_cons, Nat.mul_succ, pow_add]
    ring

theorem bytesNum_lt (l : List Byte) : bytesNum l < 2 ^ (8 * l.length) := by
  induction l with
  | nil => exact Nat.one_pos
  | cons b rest ih =>
    have hb := b.isLt
    rw [bytesNum, List.length_cons, Nat.mul_succ, pow_add]
    omega

/-! ## The registers -/

namespace Reader

variable {r r' : Reader} {n : Nat}

theorem wf_iff : r.wf = true ↔
    r.bitsAvailable ≤ 32 ∧ r.reserveCount ≤ 32 ∧ r.tag < 2 ^ r.bitsAvailable ∧ r.reserve < 2 ^ r.reserveCount := by
  simp [Reader.wf, and_assoc]

/-- The registers of `r'` hold the bits of `r`, perhaps otherwise spread over them. -/
structure Holds (r r' : Reader) : Prop where
  wf : r'.wf = true
  bits : r'.bits = r.bits
  pending : r'.pending = r.pending

theorem Holds.trans {r'' : Reader} (h : r.Holds r') (k : r'.Holds r'') : r.Holds r'' :=
  ⟨k.wf, k.bits.trans h.bits, k.pending.trans h.pending⟩

/-- A refill fails only where neither the reserve nor the input has a bit left. -/
theorem pending_of_refill_none (h : r.refill = none) : r.pending = r.bitsAvailable := by
  unfold refill at h
  split at h
  · next hcount =>
    split at h
    · next hrem => simp [pending, hcount, hrem]
    · cases h
  · cases h

/-- A refill keeps the bits and the tag, and leaves bits in the reserve (R211). -/
theorem refill_holds (hwf : r.wf = true) (h : r.refill = some r') :
    r.Holds r' ∧ r'.bitsAvailable = r.bitsAvailable ∧ 0 < r'.reserveCount := by
  obtain ⟨hba, hrc, htag, hres⟩ := wf_iff.1 hwf
  unfold refill at h
  split at h
  · next hcount =>
    have hzero : r.reserve = 0 := by rw [hcount] at hres; omega
    split at h
    · cases h
    · next hne =>
      cases h
      have hpos : 0 < r.remaining.length := List.length_pos_iff.2 hne
      have htake : (r.remaining.take (min 4 r.remaining.length)).length = min 4 r.remaining.length := by
        rw [List.length_take]
        omega
      have hsplit := bytesNum_append (r.remaining.take (min 4 r.remaining.length))
        (r.remaining.drop (min 4 r.remaining.length))
      have hlt := bytesNum_lt (r.remaining.take (min 4 r.remaining.length))
      rw [List.take_append_drop, htake] at hsplit
      rw [htake] at hlt
      refine ⟨⟨wf_iff.2 ⟨hba, by dsimp only; omega, htag, hlt⟩, ?_, ?_⟩, rfl, by dsimp only; omega⟩
      · simp only [bits, hcount, hzero, hsplit, Nat.pow_zero, Nat.one_mul, Nat.zero_add]
      · simp only [pending, hcount, List.length_drop]
        omega
  · next hcount =>
    cases h
    exact ⟨⟨hwf, rfl, rfl⟩, rfl, by omega⟩

/-- The shift keeps the bits, and moves one at least where the tag has room and the reserve is not empty (R211). -/
theorem shift_holds (hwf : r.wf = true) : r.Holds r.shift ∧
    (r.bitsAvailable < 32 → 0 < r.reserveCount → r.bitsAvailable < r.shift.bitsAvailable) := by
  obtain ⟨hba, hrc, htag, hres⟩ := wf_iff.1 hwf
  obtain ⟨m, hm⟩ : ∃ m, m = min (32 - r.bitsAvailable) r.reserveCount := ⟨_, rfl⟩
  have hshift : r.shift = { r with
      tag := r.tag + 2 ^ r.bitsAvailable * (r.reserve % 2 ^ m), reserve := r.reserve / 2 ^ m,
      reserveCount := r.reserveCount - m, bitsAvailable := r.bitsAvailable + m } := by rw [hm]; rfl
  have hpow : 2 ^ r.reserveCount = 2 ^ m * 2 ^ (r.reserveCount - m) := by rw [← pow_add]; congr 1; omega
  have hmod := Nat.mod_lt r.reserve (Nat.two_pow_pos m)
  have hdiv := Nat.mod_add_div r.reserve (2 ^ m)
  rw [hshift]
  refine ⟨⟨wf_iff.2 ⟨by dsimp only; omega, by dsimp only; omega, ?_, ?_⟩, ?_, ?_⟩, by dsimp only; omega⟩
  · calc r.tag + 2 ^ r.bitsAvailable * (r.reserve % 2 ^ m)
        < 2 ^ r.bitsAvailable * (r.reserve % 2 ^ m + 1) := by rw [Nat.mul_succ]; omega
      _ ≤ 2 ^ r.bitsAvailable * 2 ^ m := Nat.mul_le_mul_left _ hmod
      _ = 2 ^ (r.bitsAvailable + m) := (pow_add ..).symm
  · exact Nat.div_lt_of_lt_mul (hpow ▸ hres)
  · calc r.tag + 2 ^ r.bitsAvailable * (r.reserve % 2 ^ m) + 2 ^ (r.bitsAvailable + m) *
          (r.reserve / 2 ^ m + 2 ^ (r.reserveCount - m) * bytesNum r.remaining)
        = r.tag + 2 ^ r.bitsAvailable * (r.reserve % 2 ^ m + 2 ^ m * (r.reserve / 2 ^ m) +
          2 ^ m * 2 ^ (r.reserveCount - m) * bytesNum r.remaining) := by rw [pow_add]; ring
      _ = r.bits := by rw [hdiv, ← hpow]; rfl
  · simp only [pending]
    omega

/-- R211's loop ends with `n` bits in the tag, or fails where there are not as many; every pass brings one at least. -/
theorem fill_spec (hn : n ≤ 32) {fuel : Nat} (hwf : r.wf = true) (hfuel : n ≤ r.bitsAvailable + fuel) :
    (r.pending < n → r.fill n fuel = none) ∧
    (n ≤ r.pending → ∃ r', r.fill n fuel = some r' ∧ r.Holds r' ∧ n ≤ r'.bitsAvailable) := by
  have enough : r.bitsAvailable ≤ r.pending := by unfold pending; omega
  induction fuel generalizing r with
  | zero => exact ⟨fun h => by omega, fun _ => ⟨r, rfl, ⟨hwf, rfl, rfl⟩, by omega⟩⟩
  | succ fuel ih =>
    rw [fill]
    by_cases hlt : r.bitsAvailable < n
    · rw [if_pos hlt]
      cases hr : r.refill with
      | none =>
        have := pending_of_refill_none hr
        exact ⟨fun _ => rfl, fun h => by omega⟩
      | some r₁ =>
        obtain ⟨hrefill, hba, hpos⟩ := refill_holds hwf hr
        obtain ⟨hshift, hmore⟩ := shift_holds hrefill.wf
        have h := hrefill.trans hshift
        have hgrows := hmore (by omega) hpos
        obtain ⟨hnone, hsome⟩ := ih (r := r₁.shift) h.wf (by omega) (by unfold pending; omega)
        rw [h.pending] at hnone hsome
        refine ⟨hnone, fun hle => ?_⟩
        obtain ⟨r', hfill, hholds, hr'⟩ := hsome hle
        exact ⟨r', hfill, h.trans hholds, hr'⟩
    · rw [if_neg hlt]
      exact ⟨fun h => by omega, fun _ => ⟨r, rfl, ⟨hwf, rfl, rfl⟩, by omega⟩⟩

theorem readBits_short (hwf : r.wf = true) (hn : n ≤ 32) (h : r.pending < n) : r.readBits n = none := by
  rw [Reader.readBits, (fill_spec hn hwf (Nat.le_add_left ..)).1 h]

/-- `ReadBits` on the registers takes the next `n` bits, and the registers hold the others (R211). -/
theorem readBits_ready (hwf : r.wf = true) (hn : n ≤ 32) (h : n ≤ r.pending) :
    ∃ r', r.readBits n = some (r.bits % 2 ^ n, r') ∧ r'.wf = true ∧ r'.bits = r.bits / 2 ^ n ∧
      r'.pending = r.pending - n := by
  obtain ⟨r₁, hfill, ⟨hwf₁, hbits, hpending⟩, hle⟩ := (fill_spec hn hwf (Nat.le_add_left ..)).2 h
  obtain ⟨hba, hrc, htag, hres⟩ := wf_iff.1 hwf₁
  obtain ⟨X, hX⟩ : ∃ X, X = r₁.reserve + 2 ^ r₁.reserveCount * bytesNum r₁.remaining := ⟨_, rfl⟩
  have hpow : 2 ^ r₁.bitsAvailable = 2 ^ n * 2 ^ (r₁.bitsAvailable - n) := by rw [← pow_add]; congr 1; omega
  have hsum : r.bits = r₁.tag + 2 ^ n * (2 ^ (r₁.bitsAvailable - n) * X) := by
    rw [← hbits, bits, ← hX, hpow, Nat.mul_assoc]
  refine ⟨{ r₁ with tag := r₁.tag / 2 ^ n, bitsAvailable := r₁.bitsAvailable - n }, ?_, ?_, ?_, ?_⟩
  · rw [Reader.readBits, hfill, hsum, Nat.add_mul_mod_self_left]
  · exact wf_iff.2 ⟨by dsimp only; omega, hrc, Nat.div_lt_of_lt_mul (hpow ▸ htag), hres⟩
  · rw [hsum, Nat.add_mul_div_left _ _ (Nat.two_pow_pos n), bits, ← hX]
  · rw [← hpending]
    simp only [pending]
    omega

/-- `AlignIn` on the registers discards the bits before the next byte boundary (R215). -/
theorem alignIn_spec (hwf : r.wf = true) : r.alignIn.wf = true ∧ r.alignIn.bits = r.bits / 2 ^ (r.pending % 8) ∧
    r.alignIn.pending = 8 * (r.pending / 8) := by
  have hcount : (r.bitsAvailable + r.reserveCount) % 8 = r.pending % 8 := by unfold pending; omega
  obtain ⟨r', hread, hwf', hbits, hpending⟩ := readBits_ready (n := r.pending % 8) hwf (by omega) (Nat.mod_le _ _)
  have halign : r.alignIn = r' := by rw [alignIn, hcount, hread]
  rw [halign]
  exact ⟨hwf', hbits, by omega⟩

end Reader

/-! ## The registers and the position -/

section Position
variable {s : State} {r : Reader}

theorem streamBits_append (s : State) (pos n m : Nat) :
    s.streamBits pos (n + m) = s.streamBits pos n + 2 ^ n * s.streamBits (pos + n) m := by
  induction n generalizing pos with
  | zero => simp
  | succ n ih =>
    rw [show n + 1 + m = n + m + 1 by omega, streamBits_succ, streamBits_succ, ih,
      show pos + 1 + n = pos + (n + 1) by omega, pow_succ]
    ring

/-- The next `n` of the bits from a position on, and the bits after them. -/
theorem streamBits_split (s : State) (pos : Nat) {n k : Nat} (h : n ≤ k) :
    s.streamBits pos k % 2 ^ n = s.streamBits pos n ∧ s.streamBits pos k / 2 ^ n = s.streamBits (pos + n) (k - n) := by
  obtain ⟨m, rfl⟩ := Nat.exists_eq_add_of_le h
  have hlt := streamBits_lt s pos n
  rw [streamBits_append, Nat.add_mul_mod_self_left, Nat.mod_eq_of_lt hlt, Nat.add_mul_div_left _ _ (Nat.two_pow_pos n),
    Nat.div_eq_of_lt hlt, Nat.zero_add, Nat.add_sub_cancel_left]
  exact ⟨rfl, rfl⟩

/-- Registers that hold the bits after the next `n` stand for the position `n` bits on. -/
theorem Reader.StandsFor.advance {r' : Reader} {n : Nat} (h : r.StandsFor s) (hn : n ≤ r.pending) (hwf : r'.wf = true)
    (hbits : r'.bits = r.bits / 2 ^ n) (hpending : r'.pending = r.pending - n) :
    r'.StandsFor (s.setInBit (s.dec.inBit + n)) := by
  have hp := h.pending
  refine ⟨hwf, ?_, ?_⟩
  · rw [State.setInBit_inBit, State.setInBit_reg]
    omega
  · rw [State.setInBit_inBit, State.setInBit_streamBits, hbits, h.bits, (streamBits_split s _ hn).2, hpending]

theorem Reader.StandsFor.readBits {n : Nat} (h : r.StandsFor s) (hn : n ≤ 32) (hready : s.bitsReady n) :
    ∃ v r', r.readBits n = some (v, r') ∧ Machine.readBits n s = .ok v (s.setInBit (s.dec.inBit + n)) ∧
      r'.StandsFor (s.setInBit (s.dec.inBit + n)) := by
  have hle : n ≤ r.pending := by
    have := hready.1
    have := h.pending
    omega
  obtain ⟨r', hread, hwf, hbits, hpending⟩ := Reader.readBits_ready h.wf hn hle
  refine ⟨_, r', hread, ?_, h.advance hle hwf hbits hpending⟩
  rw [Machine.readBits_ready hready, h.bits, (streamBits_split s _ hle).1]

theorem Reader.StandsFor.alignIn (h : r.StandsFor s) (hpos : s.dec.inBit ≤ 8 * s.reg.srcLen.toNat) :
    r.alignIn.StandsFor (Machine.alignIn s) := by
  have hp := h.pending
  obtain ⟨hwf, hbits, hpending⟩ := Reader.alignIn_spec h.wf
  have hnext : 8 * ((s.dec.inBit + 7) / 8) = s.dec.inBit + r.pending % 8 := by omega
  rw [Machine.alignIn, hnext]
  exact h.advance (Nat.mod_le _ _) hwf hbits (by omega)

/-- A byte of the input is its eight bits (R16, R113). -/
theorem streamBits_byte (s : State) (p : Nat) : s.streamBits (8 * p) 8 = (s.mem.read (s.srcByte p)).toNat := by
  have bit {k : Nat} (hk : k < 8) : s.streamBit (8 * p + k) = (s.mem.read (s.srcByte p)).toNat / 2 ^ k % 2 := by
    rw [State.streamBit, show (8 * p + k) / 8 = p by omega, show (8 * p + k) % 8 = k by omega]
  have hb := (s.mem.read (s.srcByte p)).isLt
  simp only [State.streamBits, List.range, List.range.loop, List.map_cons, List.map_nil, List.sum_cons, List.sum_nil]
  rw [bit, bit, bit, bit, bit, bit, bit, bit] <;> omega

theorem bytesNum_inputBytes (s : State) (p n : Nat) : bytesNum (s.inputBytes p n) = s.streamBits (8 * p) (8 * n) := by
  induction n generalizing p with
  | zero => rfl
  | succ n ih =>
    have hcons : s.inputBytes p (n + 1) = s.mem.read (s.srcByte p) :: s.inputBytes (p + 1) n := by
      simp [State.inputBytes, List.range_succ_eq_map, Function.comp_def, Nat.add_assoc, Nat.add_comm 1]
    rw [hcons, bytesNum, ih, show 8 * (n + 1) = 8 + 8 * n by omega, streamBits_append, streamBits_byte]
    rfl

/-- At the start of a command the registers stand for position 0 (R52). -/
theorem Reader.start_standsFor (s : State) :
    (Reader.start (s.inputBytes 0 s.reg.srcLen.toNat)).StandsFor (s.setInBit 0) := by
  have hpending : (Reader.start (s.inputBytes 0 s.reg.srcLen.toNat)).pending = 8 * s.reg.srcLen.toNat := by
    simp [Reader.pending, Reader.start, State.inputBytes]
  refine ⟨rfl, hpending, ?_⟩
  rw [hpending]
  simp only [Reader.bits, Reader.start, bytesNum_inputBytes]
  simp

end Position

/-- Settles O40: the registers' loop keeps the bits before the reader, and those are the stream's bits from the position
on. -/
theorem readerRegistersRefineTheCursor : Obligations.ReaderRegistersRefineTheCursor := by
  refine ⟨fun r n hwf hn => ⟨⟨fun h => ?_, Reader.readBits_short hwf hn⟩, fun v r' h => ?_, Reader.alignIn_spec hwf⟩,
    fun s r n h hpos hn => ⟨fun hshort => ?_, h.readBits hn, h.alignIn hpos⟩, Reader.start_standsFor⟩
  · by_contra hle
    obtain ⟨r', hread, -⟩ := Reader.readBits_ready hwf hn (Nat.le_of_not_lt hle)
    simp [h] at hread
  · rcases Nat.lt_or_ge r.pending n with hlt | hle
    · simp [Reader.readBits_short hwf hn hlt] at h
    · obtain ⟨r₁, hread, hspec⟩ := Reader.readBits_ready hwf hn hle
      obtain ⟨rfl, rfl⟩ : r.bits % 2 ^ n = v ∧ r₁ = r' := by simpa using hread.symm.trans h
      obtain ⟨hwf', hbits, hpending⟩ := hspec
      exact ⟨hwf', rfl, hbits, hpending⟩
  · have hlt : r.pending < n := by
      have := h.pending
      omega
    exact ⟨Reader.readBits_short h.wf hn hlt, readBits_short hshort⟩

end Sys2Proof.Machine
end

section
/-! PROOFS. Decompression and checksum commands never stop the model: every read answers a value or an error, and so
does every instruction they fetch (spec/40_bitstream.md R216, spec/41_huffman.md R266, spec/60_exceptions.md R746). -/

namespace Sys2Proof.Machine

/-- The outcome is a next state, not a stop. -/
def OutcomeGoes (o : Host.Outcome State Fault Refusal) : Prop := ∃ t, o = .next t

theorem OutcomeGoes.next (t : State) : OutcomeGoes (.next t) := ⟨t, rfl⟩

section Goes
variable (s : State)

/-! ## Block types -/

theorem readStored_goes : (readStored s).Goes :=
  (readBits_goes _ 16).andThen fun len t _ => (readBits_goes t 16).andThen fun nlen t _ => by
    split
    · trivial
    · exact (copyStored_goes _ t).andThen fun _ _ _ => trivial

theorem readDynamic_goes : (readDynamic s).Goes :=
  (readBitsBase_goes s 5 257).andThen fun _ t _ => (readBitsBase_goes t 5 1).andThen fun _ t _ =>
    (readBitsBase_goes t 4 4).andThen fun _ t _ => (readClWidths_goes t _).andThen fun _ _ _ => trivial

/-! ## Symbols that are read -/

variable {s}

theorem literal_read_goes (h : s.run.op.encodes = false) (b : Byte) : (literal b s).Goes := by
  rw [literal, h]
  exact emitOut_goes b s

theorem execEob_read (h : s.run.op.encodes = false) : execEob s = .next s.endBlockRead := by
  rw [execEob, h]
  rfl

theorem lengthSymbol_read_goes (h : s.run.op.encodes = false) (sym extra base : Nat) :
    (lengthSymbol sym extra base s).Goes := by
  rw [lengthSymbol, h]
  exact (readBitsBase_goes s extra base).andThen fun _ _ _ => trivial

theorem distanceSymbol_read_goes (h : s.run.op.encodes = false) (sym extra base : Nat) :
    (distanceSymbol sym extra base s).Goes := by
  rw [distanceSymbol, h]
  exact (readBitsBase_goes s extra base).andThen fun _ t _ => (copy_goes _ _ t).andThen fun _ _ _ => trivial

variable (s)

theorem appendWidths_goes (ws : List Nat) : (appendWidths ws s).Goes := by
  unfold appendWidths
  dsimp only
  split
  · trivial
  · split <;> trivial

theorem readClRepeat_goes : (readClRepeat s).Goes := by
  unfold readClRepeat
  split
  · trivial
  · exact (readBitsBase_goes s 2 3).andThen fun _ t _ => appendWidths_goes t _

theorem readClZeros_goes (extra base : Nat) : (readClZeros extra base s).Goes :=
  (readBitsBase_goes s extra base).andThen fun _ t _ => appendWidths_goes t _

/-! ## Container records -/

theorem emitBE_goes (w : Word) : (emitBE w s).Goes :=
  (emit_goes _ s).andThen fun _ t _ => (emit_goes _ t).andThen fun _ t _ =>
    (emit_goes _ t).andThen fun _ t _ => emit_goes _ t

theorem execZlibHeaderRead_goes (cmf flg : Byte) : OutcomeGoes (execZlibHeaderRead cmf flg s) := by
  unfold execZlibHeaderRead
  split <;> exact .next _

theorem execZlibTrailerRead_goes (adler : Word) : OutcomeGoes (execZlibTrailerRead adler s) := by
  unfold execZlibTrailerRead
  split <;> exact .next _

theorem execGzipHeader_goes (id1 id2 cm flg : Byte) (mtime : Word) (xfl os : Byte) :
    OutcomeGoes (execGzipHeader id1 id2 cm flg mtime xfl os s) := by
  unfold execGzipHeader
  split
  · exact .next _
  · split <;> exact .next _

theorem execGzipTrailerStrict_goes (crc isize : Word) : OutcomeGoes (execGzipTrailerStrict crc isize s) := by
  unfold execGzipTrailerStrict
  split
  · exact .next _
  · split <;> exact .next _

theorem inHalf_goes (p : Nat) : (inHalf p s).Goes :=
  (memRead_goes s _).andThen fun _ t _ => (memRead_goes t _).andThen fun _ _ _ => trivial

theorem gzipExtra_goes (p : Nat) : (gzipExtra p s).Goes :=
  (needBytes_goes s 2 p).andThen fun _ t _ => (inHalf_goes t p).andThen fun xlen t _ =>
    (needBytes_goes t xlen _).andThen fun _ _ _ => trivial

theorem skipString_goes (left p : Nat) : (skipString left p s).Goes := by
  induction left generalizing p s with
  | zero => trivial
  | succ left ih =>
    refine (memRead_goes s _).andThen fun b t _ => ?_
    split
    · trivial
    · exact ih t _

theorem gzipHeaderCrc_goes (p : Nat) : (gzipHeaderCrc p s).Goes :=
  (needBytes_goes s 2 p).andThen fun _ t _ => (inHalf_goes t p).andThen fun h t _ =>
    (memReadAll_goes t p _).andThen fun header t _ => by split <;> trivial

theorem gzipField_goes {read : Nat → State → Res Nat} (bit : Byte) (h : (read s.inPos s).Goes) :
    (gzipField read bit s).Goes := h.andThen fun _ _ _ => trivial

/-! ## Commands -/

theorem beginCommand_goes (c : Run) (p : Phase) : (beginCommand c p s).Goes := by
  unfold beginCommand
  split <;> trivial

theorem checksumCommand_goes (op : Op) (f : CmdFields) : (checksumCommand op f s).Goes :=
  (beginCommand_goes s _ _).andThen fun _ t _ => (memReadAll_goes t _ _).andThen fun _ _ _ => trivial

/-! ## The instructions -/

/-- A command's word, and every other instruction of a command that does not compress, goes on or raises an error. -/
theorem exec_goes (i : Instr) (h : i.alphabet = .command ∨ s.run.op.encodes = false) : OutcomeGoes (exec i s) := by
  have reads (hi : i.alphabet ≠ .command) : s.run.op.encodes = false := h.resolve_left hi
  have readSide {r r' : Res Unit} (hr : r'.Goes) (hi : i.alphabet ≠ .command) :
      OutcomeGoes (if s.run.op.encodes then r else r').outcome := by
    rw [reads hi]
    exact hr.outcome
  cases i with
  | deflate | deflateZlib | inflate | inflateZlib | inflateGzip => exact (beginCommand_goes s _ _).outcome
  | crc32 | adler32 => exact (checksumCommand_goes s _ _).outcome
  | invalidOp7 | invalidOp8To15 | invalidMode3 | btype3 | lensym286To287 | dsym30To31 | gzipTrailer => exact .next _
  | btype0 => exact readSide (readStored_goes s) nofun
  | btype1 => exact readSide trivial nofun
  | btype2 => exact readSide (readDynamic_goes s) nofun
  | lit0To127 | lit128To143 | lit144To159 | lit160To191 | lit192To255 =>
    exact (literal_read_goes (reads nofun) _).outcome
  | eob => exact ⟨_, execEob_read (reads nofun)⟩
  | lensym257 | lensym258 | lensym259 | lensym260 | lensym261 | lensym262 | lensym263 | lensym264 | lensym265
  | lensym266 | lensym267 | lensym268 | lensym269 | lensym270 | lensym271 | lensym272 | lensym273 | lensym274
  | lensym275 | lensym276 | lensym277 | lensym278 | lensym279 | lensym280 | lensym281 | lensym282 | lensym283
  | lensym284 | lensym285 => exact (lengthSymbol_read_goes (reads nofun) _ _ _).outcome
  | dsym0 | dsym1 | dsym2 | dsym3 | dsym4 | dsym5 | dsym6 | dsym7 | dsym8 | dsym9 | dsym10 | dsym11 | dsym12 | dsym13
  | dsym14 | dsym15 | dsym16 | dsym17 | dsym18 | dsym19 | dsym20 | dsym21 | dsym22 | dsym23 | dsym24 | dsym25 | dsym26
  | dsym27 | dsym28 | dsym29 => exact (distanceSymbol_read_goes (reads nofun) _ _ _).outcome
  | cl0 | cl1 | cl2 | cl3 | cl4 | cl5 | cl6 | cl7 | cl8 | cl9 | cl10 | cl11 | cl12 | cl13 | cl14 | cl15 =>
    exact readSide (appendWidths_goes s _) nofun
  | cl16 => exact readSide (readClRepeat_goes s) nofun
  | cl17 | cl18 => exact readSide (readClZeros_goes s _ _) nofun
  | zlibHeaderWrite =>
    exact Res.Goes.outcome <| (emit_goes _ s).andThen fun _ t _ => (emit_goes _ t).andThen fun _ _ _ => trivial
  | zlibTrailerWrite => exact Res.Goes.outcome <| (emitBE_goes s _).andThen fun _ _ _ => trivial
  | zlibHeaderRead => exact execZlibHeaderRead_goes s _ _
  | zlibTrailerRead => exact execZlibTrailerRead_goes s _
  | gzipHeader id1 id2 cm flg mtime xfl os => exact execGzipHeader_goes s id1 id2 cm flg mtime xfl os
  | gzipFextra => exact (gzipField_goes s _ (gzipExtra_goes s _)).outcome
  | gzipFname | gzipFcomment => exact (gzipField_goes s _ (skipString_goes s _ _)).outcome
  | gzipFhcrc => exact (gzipField_goes s _ (gzipHeaderCrc_goes s _)).outcome
  | gzipTrailerStrict => exact execGzipTrailerStrict_goes s _ _

theorem decodeCommand_alphabet (w : Nat) : (decodeCommand w).alphabet = .command := by
  unfold decodeCommand
  dsimp only
  split
  · split <;> rfl
  · split <;> rfl
  all_goals rfl

/-! ## Fetching -/

variable {s}

/-- A read that goes on or raises an error and moves `inBit` alone leaves the command as it was. -/
theorem Res.Goes.keepsRun {α : Type} {r : Res α} (h : r.Goes) (hm : r.All (Moved s)) :
    r.Leads fun t => t.run = s.run :=
  h.leads <| hm.imp fun _ => by
    rintro ⟨m, rfl⟩
    rfl

/-- In a phase of no compression the next word is there, or missing bits or bytes raise an error. -/
theorem nextWord_leads {p : Phase} (hp : p.encodes = false) : (nextWord p s).2.Leads fun t => t.run = s.run := by
  have bits (n : Nat) (t : State) : (readBits n t).Leads fun u => u.run = t.run :=
    (readBits_goes t n).keepsRun (readBits_all n t)
  have symbol (table : DecTable) : (decodeSymbol table s).Leads fun t => t.run = s.run :=
    (decodeSymbol_goes s table).keepsRun (decodeSymbol_moved s table)
  have record (n : Nat) (f : List Byte → Nat) :
      ((recordBytes n s).andThen fun bytes s => .ok (f bytes) s).Leads fun t => t.run = s.run :=
    ((recordBytes_goes s n).keepsRun (recordBytes_moved s n)).andThen fun _ _ ht => .ok ht
  cases p with
  | zlibHeaderOut | loadChunk | scanChunk | buildTables | writeBlock | writeCodeLen | writeSym | writeDist | flush
  | zlibTrailerOut => cases hp
  | dispatch | gzipOptional => exact .ok rfl
  | zlibHeaderIn =>
    exact (bits 8 s).andThen fun _ t ht => (bits 8 t).andThen fun _ u hu => .ok (hu.trans ht)
  | readBlock => exact (bits 1 s).andThen fun b t ht => (bits 2 (t.latchFinal b)).imp fun u hu => hu.trans ht
  | readCodeLen | readSym | readDist => exact symbol _
  | gzipHeader | zlibTrailerIn => exact record _ bigEndian
  | gzipTrailerIn => exact record _ littleEndian

/-- A step that fetches goes on when whatever it can fetch does. -/
theorem runNext_goes {p : Phase} {P : State → Prop} (hw : (nextWord p s).2.Leads P)
    (hi : ∀ i t, P t → fetch p s = .ok i t → OutcomeGoes (exec i t)) : OutcomeGoes (runNext p s) := by
  have hf : (fetch p s).Leads P := hw.andThen fun w t ht => by
    split
    · exact .ok ht
    · exact .raised _ t
  unfold runNext
  cases hr : fetch p s with
  | ok i t =>
    rw [hr] at hf
    cases hf with
    | ok ht => exact hi i t ht hr
  | raised e t => exact .next _
  | fault f => rw [hr] at hf; cases hf
  | refused q => rw [hr] at hf; cases hf

end Goes

/-- The engine's own phases are a compression's. -/
theorem Phase.encodes_of_internal (p : Phase) (h : p.internal = true) : p.encodes = true := by
  cases p with
  | loadChunk | scanChunk | buildTables | flush => rfl
  | _ => cases h

/-- Settles O9: the word is there or an error is raised, and what it decodes to goes on; at the `CMD` word it is a
command, elsewhere an instruction of a command that does not compress. -/
theorem decoderNeverStops : Obligations.DecoderNeverStops := by
  intro s p ⟨hmoves, hseq⟩ hp hop
  have hint : p.internal = false := Bool.eq_false_iff.2 fun k => by simp [p.encodes_of_internal k] at hp
  rw [step_engine hmoves, engine_eq_runNext hseq hint]
  refine runNext_goes (nextWord_leads hp) fun i t ht hf => exec_goes t i ?_
  rcases hop with rfl | hop
  · obtain ⟨w, -, hi⟩ := fetch_eq_ok.1 hf
    simp only [nextWord, decode] at hi
    split at hi <;> cases hi
    exact .inl (decodeCommand_alphabet w)
  · exact .inr (ht ▸ hop)

end Sys2Proof.Machine
end

section
/-! PROOFS. The bit writer as a sequence of bits (spec/40_bitstream.md R201 to R207, spec/10_state.md R51, R53):
`WriteBits` appends its bits, `Flush` pads them to whole bytes. -/

namespace Sys2Proof.Machine

/-! ## Bits of numbers and bytes -/

theorem bitList_congr {n u v : Nat} (h : ∀ i, i < n → u.testBit i = v.testBit i) : bitList n u = bitList n v :=
  List.map_congr_left fun i hi => h i (List.mem_range.1 hi)

theorem bitList_append (n m v : Nat) : bitList (n + m) v = bitList n v ++ bitList m (v >>> n) := by
  simp [bitList, List.range_add, Function.comp_def, Nat.testBit_shiftRight]

/-- Above the bits of a number stand zeros. -/
theorem bitList_pad {n v : Nat} (h : v < 2 ^ n) (m : Nat) :
    bitList (n + m) v = bitList n v ++ List.replicate m false := by
  rw [bitList_append, Nat.shiftRight_eq_div_pow, Nat.div_eq_of_lt h]
  simp [bitList, List.eq_replicate_iff]

/-- A byte of the tag holds eight of its bits. -/
theorem bitList_byte (tag : Word) (k : Nat) : bitList 8 (tag.extractLsb' k 8).toNat = bitList 8 (tag.toNat >>> k) :=
  bitList_congr fun i hi => by
    rw [BitVec.testBit_toNat, BitVec.getLsbD_extractLsb', Nat.testBit_shiftRight, BitVec.testBit_toNat]
    simp [hi]

/-- The bits of a tag that holds a 16-bit unit: the unit's low byte, its high byte, and the bits above (R202). -/
theorem bitList_unit (tag : Word) (m : Nat) : bitList (16 + m) tag.toNat = bitList 8 (tag.extractLsb' 0 8).toNat ++
    (bitList 8 (tag.extractLsb' 8 8).toNat ++ bitList m (tag >>> 16).toNat) := by
  rw [bitList_byte, bitList_byte, Nat.shiftRight_zero, BitVec.toNat_ushiftRight, show 16 + m = 8 + (8 + m) by omega,
    bitList_append, bitList_append, ← Nat.shiftRight_add]

/-- The tag after `WriteBits` has joined its bits above the valid ones (R202). -/
theorem bitList_tag_append {tag : Word} {n w bits : Nat} (ht : tag.toNat < 2 ^ n) (hn : n + w ≤ 32) :
    bitList (n + w) (tag ||| (BitVec.ofNat 32 bits <<< n)).toNat = bitList n tag.toNat ++ bitList w bits := by
  rw [bitList_append]
  congr 1
  · refine bitList_congr fun i hi => ?_
    rw [BitVec.testBit_toNat, BitVec.testBit_toNat, BitVec.getLsbD_or, BitVec.getLsbD_shiftLeft]
    simp [hi]
  · refine bitList_congr fun i hi => ?_
    have hhigh : tag.getLsbD (n + i) = false := by
      rw [← BitVec.testBit_toNat]
      exact Nat.testBit_lt_two_pow (ht.trans_le (Nat.pow_le_pow_right (by decide) (Nat.le_add_right n i)))
    have hin : n + i < 32 := by omega
    have hin' : i < 32 := by omega
    rw [Nat.testBit_shiftRight, BitVec.testBit_toNat, BitVec.getLsbD_or, BitVec.getLsbD_shiftLeft, hhigh,
      Nat.add_sub_cancel_left, BitVec.getLsbD_ofNat]
    simp [hin, hin']

theorem byteBits_concat (bytes : List Byte) (b : Byte) :
    byteBits (bytes ++ [b]) = byteBits bytes ++ bitList 8 b.toNat := by
  simp [byteBits]

/-! ## Bytes that are emitted -/

section Writer
variable {s t : State}

theorem State.output_setWriter (s : State) (tag : Word) (n : Nat) : (s.setWriter tag n).output = s.output := rfl

theorem State.outBits_setWriter (s : State) (tag : Word) (n : Nat) :
    (s.setWriter tag n).outBits = byteBits s.output ++ bitList n tag.toNat := rfl

/-- A byte is emitted behind those written before. -/
theorem State.output_emitted (s : State) (b : Byte) : (s.emitted b).output = s.output ++ [b] := by
  have earlier : ∀ k ∈ List.range s.outPos, (s.mem.write (s.dstByte s.outPos) b).read (s.dstByte k) =
      s.mem.read (s.dstByte k) := fun k hk => by
    refine Memory.read_write_other _ _ ?_
    have := List.mem_range.1 hk
    unfold State.dstByte
    omega
  have hout : (s.emitted b).output =
      (List.range (s.outPos + 1)).map fun k => (s.mem.write (s.dstByte s.outPos) b).read (s.dstByte k) := rfl
  rw [hout, List.range_succ, List.map_append, List.map_congr_left earlier, List.map_singleton, Memory.read_write_same,
    State.output]

/-- With room for a byte it is emitted, and the room is one less. -/
theorem emit_outReady {n : Nat} (b : Byte) (h : s.outReady (n + 1)) :
    emit b s = .ok () (s.emitted b) ∧ (s.emitted b).outReady n := by
  obtain ⟨hcap, hbacked⟩ := h
  refine ⟨emit_ready (by omega) (hbacked 0 (by omega)), ?_, fun k hk => ?_⟩
  · show s.outPos + 1 + n ≤ s.reg.dstCap.toNat
    omega
  · have := hbacked (k + 1) (by omega)
    rwa [show s.outPos + (k + 1) = s.outPos + 1 + k by omega] at this

theorem Written.writeFrame (w : Written s t) : s.WriteFrame t :=
  ⟨w.reg, w.run, w.dec, w.sum, w.plat, w.host, w.free, w.outPos, w.mem⟩

/-! ## `WriteBits` -/

/-- The tag with new bits above its valid ones (R202). -/
def State.joinedTag (s : State) (bits : Nat) : Word := s.enc.tag ||| (BitVec.ofNat 32 bits <<< s.enc.bitsWritten)

section WriteBits
variable {width bits : Nat} (hw : width ≤ 16) (hb : bits < 2 ^ width)
include hw hb

/-- With fewer than 16 bits nothing is emitted. -/
theorem writeBits_kept (h : s.enc.bitsWritten + width < 16) :
    writeBits width bits s = .ok () (s.setWriter (s.joinedTag bits) (s.enc.bitsWritten + width)) := by
  rw [writeBits, if_neg (by omega)]
  exact if_neg (by omega)

/-- From 16 bits on a unit is emitted, its low byte first (R202). -/
theorem writeBits_unit (h : 16 ≤ s.enc.bitsWritten + width) (hready : s.outReady 2) :
    let tag := s.joinedTag bits
    let n := s.enc.bitsWritten + width
    writeBits width bits s = .ok () ((((s.setWriter tag n).emitted (tag.extractLsb' 0 8)).emitted
      (tag.extractLsb' 8 8)).setWriter (tag >>> 16) (n - 16)) := by
  dsimp only
  have hset : (s.setWriter (s.joinedTag bits) (s.enc.bitsWritten + width)).outReady 2 := hready
  obtain ⟨hlow, hready⟩ := emit_outReady ((s.joinedTag bits).extractLsb' 0 8) hset
  obtain ⟨hhigh, -⟩ := emit_outReady ((s.joinedTag bits).extractLsb' 8 8) hready
  rw [writeBits, if_neg (by omega)]
  refine (if_pos h).trans ?_
  rw [← State.joinedTag, hlow, Res.andThen_ok, hhigh, Res.andThen_ok]

/-- `WriteBits` goes through with its bits appended and the whole units emitted. -/
theorem writeBits_appends (hs : s.writerOk) (hready : s.outReady (s.unitsFor width)) :
    ∃ t, writeBits width bits s = .ok () t ∧ t.outBits = s.outBits ++ bitList width bits ∧
      t.outPos = s.outPos + s.unitsFor width := by
  obtain ⟨hn, htag⟩ := hs
  have hjoin : bitList (s.enc.bitsWritten + width) (s.joinedTag bits).toNat =
      bitList s.enc.bitsWritten s.enc.tag.toNat ++ bitList width bits := bitList_tag_append htag (by omega)
  rcases Nat.lt_or_ge (s.enc.bitsWritten + width) 16 with hlt | hge
  · refine ⟨_, writeBits_kept hw hb hlt, ?_, by rw [State.unitsFor, Nat.div_eq_of_lt hlt]; rfl⟩
    rw [State.outBits_setWriter, hjoin, State.outBits, List.append_assoc]
  · have hunits : s.unitsFor width = 2 := by unfold State.unitsFor; omega
    refine ⟨_, writeBits_unit hw hb hge (hunits ▸ hready), ?_, by rw [hunits]; rfl⟩
    have hsplit := bitList_unit (s.joinedTag bits) (s.enc.bitsWritten + width - 16)
    rw [Nat.add_sub_of_le hge, hjoin] at hsplit
    rw [State.outBits_setWriter, State.output_emitted, State.output_emitted, State.output_setWriter, byteBits_concat,
      byteBits_concat, State.outBits, List.append_assoc (byteBits s.output) (bitList s.enc.bitsWritten _), hsplit]
    simp only [List.append_assoc]

end WriteBits

/-! ## `Flush` -/

/-- How many zeros pad the bits left to whole bytes (R204). -/
def padBits (n : Nat) : Nat := (8 - n % 8) % 8

/-- A byte of the tag is emitted: no bit is lost, and a last byte that is not full is padded with zeros. -/
theorem outBits_emitted_byte (htag : s.enc.tag.toNat < 2 ^ s.enc.bitsWritten) (hpos : 0 < s.enc.bitsWritten) :
    (((s.emitted (s.enc.tag.extractLsb' 0 8)).setWriter (s.enc.tag >>> 8) (s.enc.bitsWritten - 8)).outBits ++
      List.replicate (padBits (s.enc.bitsWritten - 8)) false) =
    s.outBits ++ List.replicate (padBits s.enc.bitsWritten) false := by
  rw [State.outBits_setWriter, State.output_emitted, byteBits_concat, bitList_byte, Nat.shiftRight_zero,
    BitVec.toNat_ushiftRight, State.outBits, List.append_assoc, List.append_assoc, List.append_assoc]
  congr 1
  rcases Nat.lt_or_ge s.enc.bitsWritten 8 with hlt | hge
  · have hbyte := bitList_pad htag (8 - s.enc.bitsWritten)
    rw [Nat.add_sub_of_le (by omega)] at hbyte
    have hpad : padBits s.enc.bitsWritten = 8 - s.enc.bitsWritten := by unfold padBits; omega
    rw [hbyte, hpad, Nat.sub_eq_zero_of_le hlt.le]
    simp [bitList, padBits]
  · have hsplit := bitList_append 8 (s.enc.bitsWritten - 8) s.enc.tag.toNat
    rw [Nat.add_sub_of_le hge] at hsplit
    have hpad : padBits (s.enc.bitsWritten - 8) = padBits s.enc.bitsWritten := by unfold padBits; omega
    rw [hsplit, hpad, List.append_assoc]

/-- With no bit left the bytes written are all there is. -/
theorem byteBits_output_of_empty (h : s.enc.bitsWritten = 0) :
    byteBits s.output = s.outBits ++ List.replicate (padBits s.enc.bitsWritten) false := by
  rw [State.outBits, h]
  simp [bitList, padBits]

/-- The loop of `Flush` emits the bits left as whole bytes, the last one padded (R204). -/
theorem flushLoop_pads {fuel : Nat} (htag : s.enc.tag.toNat < 2 ^ s.enc.bitsWritten)
    (hfuel : s.enc.bitsWritten ≤ 8 * fuel) (hready : s.outReady ((s.enc.bitsWritten + 7) / 8)) :
    ∃ t, flushLoop fuel s = .ok () t ∧ t.outPos = s.outPos + (s.enc.bitsWritten + 7) / 8 ∧
      byteBits t.output = s.outBits ++ List.replicate (padBits s.enc.bitsWritten) false := by
  induction fuel generalizing s with
  | zero => exact ⟨s, rfl, by omega, byteBits_output_of_empty (by omega)⟩
  | succ fuel ih =>
    rw [flushLoop]
    by_cases hpos : 0 < s.enc.bitsWritten
    · obtain ⟨hemit, hroom⟩ := emit_outReady (n := (s.enc.bitsWritten - 8 + 7) / 8) (s.enc.tag.extractLsb' 0 8)
        (by rwa [show (s.enc.bitsWritten - 8 + 7) / 8 + 1 = (s.enc.bitsWritten + 7) / 8 by omega])
      have hshift : (s.enc.tag >>> 8).toNat < 2 ^ (s.enc.bitsWritten - 8) := by
        rw [BitVec.toNat_ushiftRight, Nat.shiftRight_eq_div_pow]
        refine Nat.div_lt_of_lt_mul (htag.trans_le ?_)
        rw [← pow_add]
        exact Nat.pow_le_pow_right (by decide) (by omega)
      obtain ⟨t, hloop, hout, hbits⟩ := ih
        (s := (s.emitted (s.enc.tag.extractLsb' 0 8)).setWriter (s.enc.tag >>> 8) (s.enc.bitsWritten - 8)) hshift
        (by show s.enc.bitsWritten - 8 ≤ _; omega) hroom
      rw [if_pos hpos, hemit, Res.andThen_ok]
      refine ⟨t, hloop, hout.trans ?_, hbits.trans (outBits_emitted_byte htag hpos)⟩
      show s.outPos + 1 + (s.enc.bitsWritten - 8 + 7) / 8 = _
      omega
    · rw [if_neg hpos]
      exact ⟨s, rfl, by omega, byteBits_output_of_empty (by omega)⟩

/-- `Flush` emits the bits left as whole bytes, empties the writer's registers, and does nothing when called again. -/
theorem flush_pads (hs : s.writerOk) (hready : s.outReady ((s.enc.bitsWritten + 7) / 8)) :
    ∃ t, flush s = .ok () t ∧ t.enc = { s.enc with tag := 0#32, bitsWritten := 0 } ∧
      t.outPos = s.outPos + (s.enc.bitsWritten + 7) / 8 ∧
      byteBits t.output = s.outBits ++ List.replicate (padBits s.enc.bitsWritten) false ∧
      Written s t ∧ flush t = .ok () t := by
  obtain ⟨t, hloop, hout, hbits⟩ := flushLoop_pads (fuel := s.enc.bitsWritten) hs.2 (by omega) hready
  have hflush : flush s = .ok () (t.setWriter 0#32 0) := by rw [flush, hloop, Res.andThen_ok]
  have w : Written s (t.setWriter 0#32 0) := by
    have := flush_written s
    rwa [hflush] at this
  exact ⟨_, hflush, w.enc, hout, hbits, w, rfl⟩

/-- With bits left and no room `Flush` raises before it writes (R112, R204). -/
theorem flush_full (hpos : 0 < s.enc.bitsWritten) (hfull : s.outPos = s.reg.dstCap.toNat) :
    flush s = .raised .outputOverflow s := by
  obtain ⟨fuel, hfuel⟩ : ∃ k, s.enc.bitsWritten = k + 1 := ⟨s.enc.bitsWritten - 1, by omega⟩
  have hloop : flushLoop (fuel + 1) s = .raised .outputOverflow s := by
    rw [flushLoop, if_pos hpos, emit_full hfull, Res.andThen_raised]
  rw [flush, hfuel, hloop, Res.andThen_raised]

/-! ## The final flush (R377) -/

theorem step_flush (h : s.atPhase .flush) : step s = (flushStream s).outcome := by
  obtain ⟨hmoves, hseq⟩ := h
  rw [step_engine hmoves, engine, hseq]

theorem flushStream_deflateZlib (hf : flush s = .ok () t) (hop : t.run.op = .deflateZlib) :
    flushStream s = .ok () (t.goto .zlibTrailerOut) := by
  rw [flushStream, hf, Res.andThen_ok, hop]

theorem flushStream_deflate (hf : flush s = .ok () t) (hop : t.run.op = .deflate) :
    flushStream s = .ok () t.finish := by
  rw [flushStream, hf, Res.andThen_ok, hop]

/-- `DEFLATE` leaves `CHECKSUM` as it was (R72, R681). -/
theorem finish_deflate (hop : t.run.op = .deflate) : t.finish =
    { t with reg := { t.reg with outLen := BitVec.ofNat 32 t.outPos, done := true }, seq := .idle } := by
  simp only [State.finish, State.finalChecksum, hop, Op.hasOutput, if_true]

end Writer

/-- Settles O48: with fewer than 16 bits the registers hold them all; from 16 on the low unit is the two bytes
emitted. -/
theorem writeBitsAppends : Obligations.WriteBitsAppends := by
  intro s width bits hs hw hb hready
  obtain ⟨t, hwrite, hbits, hout⟩ := writeBits_appends hw hb hs hready
  have w : Written s t := by
    have := writeBits_written width bits s
    rwa [hwrite] at this
  exact ⟨t, hwrite, writeBits_writerOk hs hwrite, hbits, hout, w.writeFrame, w.seq, w.enc⟩

/-- Settles O49: the loop pads, the registers it leaves are empty, and the final flush's step is that `Flush`. -/
theorem flushPadsAndIsIdempotent : Obligations.FlushPadsAndIsIdempotent := by
  refine ⟨fun s hs hready => ?_, fun s hp hpos hfull => ?_⟩
  · obtain ⟨t, hflush, henc, hout, hbits, w, hagain⟩ := flush_pads hs hready
    refine ⟨t, hflush, henc, w.seq, hout, hbits, w.writeFrame, hagain, fun hp hop => ?_, fun hp hop => ?_⟩
    · rw [step_flush hp, flushStream_deflateZlib hflush (w.run ▸ hop)]
      rfl
    · have hop' : t.run.op = .deflate := w.run ▸ hop
      rw [step_flush hp, flushStream_deflate hflush hop', finish_deflate hop', w.reg]
      rfl
  · rw [step_flush hp, flushStream, flush_full hpos hfull]
    rfl

end Sys2Proof.Machine
end

section
/-! PROOFS. The canonical code (spec/41_huffman.md R261 to R267): the loop of R261 and its `first[b]` form are one code,
widths that are not over-subscribed leave room for it, and the descent of R266 inverts it. -/

namespace Sys2Proof.Machine

/-! ## The symbols of one width -/

/-- A used symbol's width stands in the list at the symbol. -/
theorem getElem?_of_getD_pos {w : List Nat} {n : Nat} (h : 0 < w.getD n 0) : w[n]? = some (w.getD n 0) := by
  rw [List.getD_eq_getElem?_getD] at h ⊢
  cases hn : w[n]? with
  | none => simp [hn] at h
  | some x => rfl

theorem lt_length_of_getD_pos {w : List Nat} {n : Nat} (h : 0 < w.getD n 0) : n < w.length :=
  (List.getElem?_eq_some_iff.1 (getElem?_of_getD_pos h)).1

theorem symsOfWidth_cons (x : Nat) (w : List Nat) (b : Nat) :
    symsOfWidth (x :: w) b = (if x = b then [0] else []) ++ (symsOfWidth w b).map (· + 1) := by
  have hshift : ((w.zipIdx 1).filter fun y => decide (y.1 = b)).map Prod.snd = (symsOfWidth w b).map (· + 1) := by
    rw [List.zipIdx_succ, List.filter_map, List.map_map, symsOfWidth, List.map_map]
    rfl
  rw [symsOfWidth, List.zipIdx_cons, List.filter_cons]
  by_cases hx : x = b
  · simp [hx, hshift]
  · simp [hx, hshift]

theorem length_symsOfWidth (w : List Nat) (b : Nat) : (symsOfWidth w b).length = w.count b := by
  induction w with
  | nil => rfl
  | cons x w ih =>
    rw [symsOfWidth_cons, List.length_append, List.length_map, ih, List.count_cons]
    by_cases hx : x = b <;> simp [hx, Nat.add_comm]

/-- The `j`-th symbol of width `b` is the symbol of width `b` with `j` of them before it. -/
theorem getElem?_symsOfWidth {w : List Nat} {b j n : Nat} :
    (symsOfWidth w b)[j]? = some n ↔ w[n]? = some b ∧ (w.take n).count b = j := by
  induction w generalizing j n with
  | nil => simp [symsOfWidth]
  | cons x w ih =>
    rw [symsOfWidth_cons]
    by_cases hx : x = b
    · cases j <;> cases n <;> simp [hx, ih]
    · cases n <;> simp [hx, ih]

/-- The used symbols in canonical order: those of smaller widths come first (R265). -/
theorem getElem?_canonicalOrder {w : List Nat} {b n : Nat} (hn : w[n]? = some (b + 1)) (hb : b < 15) :
    (canonicalOrder w)[((List.range' 1 b).map w.count).sum + (w.take n).count (b + 1)]? = some n := by
  have hsplit : List.range' 1 Config.maxBitWidth = List.range' 1 b ++ (b + 1) :: List.range' (b + 2) (14 - b) := by
    rw [show Config.maxBitWidth = b + (14 - b + 1) by rw [Config.maxBitWidth]; omega, ← List.range'_append_1,
      List.range'_succ, Nat.add_comm 1 b]
  have hlen : ((List.range' 1 b).flatMap (symsOfWidth w)).length = ((List.range' 1 b).map w.count).sum := by
    rw [List.length_flatMap]
    simp only [length_symsOfWidth]
  have hsym := getElem?_symsOfWidth.2 ⟨hn, rfl⟩
  obtain ⟨hlt, -⟩ := List.getElem?_eq_some_iff.1 hsym
  rw [canonicalOrder, hsplit, List.flatMap_append, List.flatMap_cons, ← hlen,
    List.getElem?_append_right (Nat.le_add_right _ _), Nat.add_sub_cancel_left, List.getElem?_append_left hlt, hsym]

/-! ## The codes of one width (R261) -/

/-- The number behind the last code of width `b`, `first[b] + count[b]` (R261); 0 for width 0, which has no codes. -/
def codesEnd (w : List Nat) : Nat → Nat
  | 0 => 0
  | b + 1 => firstCode w (b + 1) + w.count (b + 1)

theorem firstCode_succ (w : List Nat) (b : Nat) : firstCode w (b + 1) = 2 * codesEnd w b := by
  cases b with
  | zero => rfl
  | succ b => rfl

theorem codesEnd_succ (w : List Nat) (b : Nat) : codesEnd w (b + 1) = 2 * codesEnd w b + w.count (b + 1) := by
  rw [codesEnd, firstCode_succ]

/-- The codes of a width lie behind all numbers that begin with the code of a smaller width. -/
theorem codesEnd_mul_le_firstCode (w : List Nat) (b d : Nat) :
    codesEnd w b * 2 ^ (d + 1) ≤ firstCode w (b + d + 1) := by
  induction d with
  | zero => rw [firstCode_succ]; simp [Nat.mul_comm]
  | succ d ih =>
    rw [firstCode_succ, ← Nat.add_assoc, codesEnd, pow_succ, ← Nat.mul_assoc]
    omega

section Code
variable {w : List Nat} {n b : Nat}

/-- A used symbol's code (R261, second form). -/
theorem canonicalCode_eq (hn : w[n]? = some b) : canonicalCode w n = firstCode w b + (w.take n).count b := by
  simp [canonicalCode, List.getD_eq_getElem?_getD, hn]

/-- Fewer symbols of its width stand before a symbol than there are. -/
theorem count_take_lt_count (hn : w[n]? = some b) : (w.take n).count b < w.count b := by
  obtain ⟨hlt, -⟩ := List.getElem?_eq_some_iff.1 (getElem?_symsOfWidth.2 ⟨hn, rfl⟩)
  rwa [length_symsOfWidth] at hlt

/-- Dropping bits of a code from its end leaves a number behind the codes of the smaller width. -/
theorem codesEnd_le_canonicalCode_div {d : Nat} (hn : w[n]? = some (b + d + 1)) :
    codesEnd w b ≤ canonicalCode w n / 2 ^ (d + 1) := by
  rw [Nat.le_div_iff_mul_le (Nat.two_pow_pos _), canonicalCode_eq hn]
  have := codesEnd_mul_le_firstCode w b d
  omega

end Code

/-! ## Room for the codes -/

theorem kraftSum_cons (limit x : Nat) (w : List Nat) :
    kraftSum limit (x :: w) = (if 0 < x then 2 ^ (limit - x) else 0) + kraftSum limit w := by
  rw [kraftSum, List.filter_cons]
  by_cases hx : 0 < x <;> simp [hx, kraftSum]

theorem kraftSum_filter_le (limit : Nat) (p : Nat → Bool) (w : List Nat) :
    kraftSum limit (w.filter p) ≤ kraftSum limit w :=
  ((List.filter_sublist.filter _).map _).sum_le_sum (fun _ _ => Nat.zero_le _)

/-- The symbols of the next width take `2 ^ (limit - width)` each. -/
theorem kraftSum_filter_succ (limit b : Nat) (w : List Nat) :
    kraftSum limit (w.filter fun x => decide (x ≤ b + 1)) =
      kraftSum limit (w.filter fun x => decide (x ≤ b)) + w.count (b + 1) * 2 ^ (limit - (b + 1)) := by
  induction w with
  | nil => simp [kraftSum]
  | cons x w ih =>
    rw [List.filter_cons, List.filter_cons, List.count_cons]
    rcases lt_trichotomy x (b + 1) with hx | rfl | hx
    · have hle : x ≤ b := by omega
      simp [hle, hx.le, hx.ne, kraftSum_cons, ih, Nat.add_assoc]
    · simp [kraftSum_cons, ih, Nat.add_mul]
      omega
    · have h1 : ¬ x ≤ b + 1 := by omega
      have h2 : ¬ x ≤ b := by omega
      simp [h1, h2, hx.ne', ih]

/-- The codes up to width `b` take what lies before `codesEnd`. -/
theorem kraftSum_filter_eq (w : List Nat) {limit b : Nat} (hb : b ≤ limit) :
    kraftSum limit (w.filter fun x => decide (x ≤ b)) = codesEnd w b * 2 ^ (limit - b) := by
  induction b with
  | zero =>
    have hnone : ∀ x ∈ w, ¬ (decide (0 < x) && decide (x ≤ 0)) = true := fun x _ => by
      rw [Bool.and_eq_true, decide_eq_true_eq, decide_eq_true_eq]
      omega
    rw [codesEnd, Nat.zero_mul, kraftSum, List.filter_filter, List.filter_eq_nil_iff.2 hnone]
    rfl
  | succ b ih =>
    have hpow : 2 ^ (limit - b) = 2 * 2 ^ (limit - (b + 1)) := by
      rw [← pow_succ', show limit - (b + 1) + 1 = limit - b by omega]
    rw [kraftSum_filter_succ, ih (by omega), codesEnd_succ, hpow]
    ring

/-- Widths that are not over-subscribed leave room for the codes of every width. -/
theorem codesEnd_le {w : List Nat} {limit b : Nat} (hb : b ≤ limit) (hk : kraftSum limit w ≤ 2 ^ limit) :
    codesEnd w b ≤ 2 ^ b := by
  have hle := (kraftSum_filter_le limit (fun x => decide (x ≤ b)) w).trans hk
  rw [kraftSum_filter_eq w hb, ← Nat.add_sub_cancel' hb, pow_add, Nat.add_sub_cancel_left] at hle
  exact Nat.le_of_mul_le_mul_right hle (Nat.two_pow_pos _)

theorem canonicalCode_lt {w : List Nat} {n b limit : Nat} (hn : w[n]? = some (b + 1)) (hb : b < limit)
    (hk : kraftSum limit w ≤ 2 ^ limit) : canonicalCode w n < 2 ^ (b + 1) := by
  have hend := codesEnd_le (show b + 1 ≤ limit from hb) hk
  have hcount := count_take_lt_count hn
  rw [codesEnd] at hend
  rw [canonicalCode_eq hn]
  omega

/-! ## The loop of R261 -/

/-- The loop's next code, at width `b`. -/
def nextCode : Option (Nat × Nat) → Nat → Nat
  | none, _ => 0
  | some (code, width), b => (code + 1) * 2 ^ (b - width)

/-- The loop's last code has at most `b` bits. -/
def LastWithin (b : Nat) (prev : Option (Nat × Nat)) : Prop := ∀ p ∈ prev, p.2 ≤ b

theorem assignCodes_cons (w : List Nat) (prev : Option (Nat × Nat)) (n : Nat) (rest : List Nat) :
    assignCodes w prev (n :: rest) =
      (n, nextCode prev (w.getD n 0)) :: assignCodes w (some (nextCode prev (w.getD n 0), w.getD n 0)) rest := by
  cases prev with
  | none => rfl
  | some p => rfl

theorem nextCode_self (c b : Nat) : nextCode (some (c, b)) b = c + 1 := by simp [nextCode]

theorem nextCode_succ {prev : Option (Nat × Nat)} {b : Nat} (h : LastWithin b prev) :
    nextCode prev (b + 1) = 2 * nextCode prev b := by
  cases prev with
  | none => rfl
  | some p =>
    rw [nextCode, nextCode, Nat.succ_sub (h p rfl), pow_succ]
    ring

/-- Symbols of one width get successive codes. -/
theorem assignCodes_sameWidth {w : List Nat} {b : Nat} (syms rest : List Nat) (hsyms : ∀ n ∈ syms, w.getD n 0 = b)
    {prev : Option (Nat × Nat)} (hprev : LastWithin b prev) :
    ∃ prev', LastWithin b prev' ∧ nextCode prev' b = nextCode prev b + syms.length ∧
      assignCodes w prev (syms ++ rest) = syms.zipIdx (nextCode prev b) ++ assignCodes w prev' rest := by
  induction syms generalizing prev with
  | nil => exact ⟨prev, hprev, rfl, rfl⟩
  | cons n syms ih =>
    have hlast : LastWithin b (some (nextCode prev b, b)) := by simp [LastWithin]
    obtain ⟨prev', hwithin, hnext, hassign⟩ := ih (fun m hm => hsyms m (by simp [hm])) hlast
    rw [nextCode_self] at hnext hassign
    refine ⟨prev', hwithin, by rw [hnext, List.length_cons]; omega, ?_⟩
    rw [List.cons_append, assignCodes_cons, hsyms n (by simp), hassign, List.zipIdx_cons, List.cons_append]

/-- From a width on the loop gives each width's symbols the codes from `first[b]` on. -/
theorem assignCodes_widths (w : List Nat) (b k : Nat) {prev : Option (Nat × Nat)} (hprev : LastWithin b prev)
    (hnext : nextCode prev b = codesEnd w b) :
    assignCodes w prev ((List.range' (b + 1) k).flatMap (symsOfWidth w)) =
      (List.range' (b + 1) k).flatMap fun c => (symsOfWidth w c).zipIdx (firstCode w c) := by
  induction k generalizing b prev with
  | zero => cases prev <;> rfl
  | succ k ih =>
    have hwidth : ∀ n ∈ symsOfWidth w (b + 1), w.getD n 0 = b + 1 := by
      intro n hn
      obtain ⟨j, hj⟩ := List.mem_iff_getElem?.1 hn
      simp [List.getD_eq_getElem?_getD, (getElem?_symsOfWidth.1 hj).1]
    have hfirst : nextCode prev (b + 1) = firstCode w (b + 1) := by rw [nextCode_succ hprev, hnext, firstCode_succ]
    obtain ⟨prev', hwithin, hend, hassign⟩ := assignCodes_sameWidth (symsOfWidth w (b + 1))
      ((List.range' (b + 2) k).flatMap (symsOfWidth w)) hwidth fun p hp => Nat.le_succ_of_le (hprev p hp)
    rw [hfirst] at hend hassign
    rw [length_symsOfWidth] at hend
    rw [List.range'_succ, List.flatMap_cons, List.flatMap_cons, hassign, ih (b + 1) hwithin hend]

/-- `Canonical(w)` width by width. -/
theorem canonicalCodes_eq (w : List Nat) : canonicalCodes w =
    (List.range' 1 Config.maxBitWidth).flatMap fun b => (symsOfWidth w b).zipIdx (firstCode w b) :=
  assignCodes_widths w 0 Config.maxBitWidth (prev := none) (by simp [LastWithin]) rfl

/-- `Canonical(w)` codes the symbols of widths up to 15, each with its code of the second form. -/
theorem mem_canonicalCodes {w : List Nat} {p : Nat × Nat} : p ∈ canonicalCodes w ↔
    ∃ b, 1 ≤ b ∧ b ≤ 15 ∧ w[p.1]? = some b ∧ p.2 = canonicalCode w p.1 := by
  obtain ⟨n, c⟩ := p
  simp only [canonicalCodes_eq, List.mem_flatMap, List.mem_range'_1, List.mk_mem_zipIdx_iff_le_and_getElem?_sub,
    getElem?_symsOfWidth, Config.maxBitWidth]
  refine exists_congr fun b => ⟨?_, ?_⟩
  · rintro ⟨⟨h1, h15⟩, hfirst, hn, hcount⟩
    refine ⟨h1, by omega, hn, ?_⟩
    rw [canonicalCode_eq hn]
    omega
  · rintro ⟨h1, h15, hn, rfl⟩
    rw [canonicalCode_eq hn]
    exact ⟨⟨h1, by omega⟩, by omega, hn, by omega⟩

/-- Settles O37: both forms of R261 are one code, and it fits where the widths leave room. -/
theorem canonicalCodeForms : Obligations.CanonicalCodeForms := by
  intro w h15
  have width {n : Nat} (hn : 0 < w.getD n 0) : ∃ b, b < 15 ∧ w[n]? = some (b + 1) ∧ w.getD n 0 = b + 1 := by
    have hget := getElem?_of_getD_pos hn
    have hle := h15 _ (List.mem_of_getElem? hget)
    exact ⟨w.getD n 0 - 1, by omega, by rw [hget]; congr 1; omega, by omega⟩
  refine ⟨fun p hp => ?_, fun n _ hn => ?_, fun hk n hn => ?_⟩
  · obtain ⟨b, -, -, -, hcode⟩ := mem_canonicalCodes.1 hp
    exact hcode
  · obtain ⟨b, hb, hget, -⟩ := width hn
    exact List.mem_map.2 ⟨(n, canonicalCode w n), mem_canonicalCodes.2 ⟨b + 1, by omega, hb, hget, rfl⟩, rfl⟩
  · obtain ⟨b, hb, hget, hwidth⟩ := width hn
    rw [hwidth]
    exact canonicalCode_lt hget hb hk

/-! ## The descent (R266) -/

/-- Bit `k` of a reversed code is the code's bit `k` from its most significant one on (R14). -/
theorem revBits_bit {n k : Nat} (v : Nat) (hk : k < n) : revBits n v / 2 ^ k % 2 = v / 2 ^ (n - 1 - k) % 2 := by
  induction n generalizing v with
  | zero => omega
  | succ n ih =>
    have hlt := revBits_lt n (v / 2)
    rw [revBits]
    rcases Nat.lt_or_ge k n with h | h
    · have hsplit : v % 2 * 2 ^ n = 2 ^ k * (2 * (v % 2 * 2 ^ (n - 1 - k))) := by
        obtain ⟨r, rfl⟩ : ∃ r, n = k + r + 1 := ⟨n - 1 - k, by omega⟩
        rw [show k + r + 1 - 1 - k = r by omega]
        ring
      rw [hsplit, Nat.mul_add_div (Nat.two_pow_pos _), Nat.mul_add_mod, ih _ h, Nat.div_div_eq_div_mul, ← pow_succ',
        show n - 1 - k + 1 = n + 1 - 1 - k by omega]
    · obtain rfl : k = n := by omega
      rw [Nat.mul_comm, Nat.mul_add_div (Nat.two_pow_pos _), Nat.div_eq_of_lt hlt]
      simp

theorem State.bitsReady.head {s : State} {n : Nat} (h : s.bitsReady (n + 1)) : s.bitsReady 1 :=
  ⟨by have := h.1; omega, fun k hk => h.2 k (by omega)⟩

theorem State.bitsReady.tail {s : State} {n : Nat} (h : s.bitsReady (n + 1)) :
    (s.setInBit (s.dec.inBit + 1)).bitsReady n := by
  obtain ⟨hlen, hok⟩ := h
  refine ⟨by rw [State.setInBit_inBit, State.setInBit_reg]; omega, fun k hk => ?_⟩
  have := hok (k + 1) (by omega)
  rwa [State.setInBit_inBit, State.setInBit_plat, State.setInBit_srcByte,
    show s.dec.inBit + 1 + k = s.dec.inBit + (k + 1) by omega]

theorem readBits_one {s : State} (h : s.bitsReady 1) :
    readBits 1 s = .ok (s.streamBit s.dec.inBit) (s.setInBit (s.dec.inBit + 1)) := by
  rw [readBits_ready h, streamBits_succ, streamBits_zero, Nat.mul_zero, Nat.add_zero]

/-- The descent below width `b`, with `d + 1` bits of the code still to read: what it holds is how far the bits read so
far lie behind the codes of width `b` (R267). -/
theorem descend_code {w : List Nat} {n d b : Nat} (hn : w[n]? = some (b + d + 1)) (h15 : b + d < 15) {s : State}
    (hready : s.bitsReady (d + 1))
    (hbits : ∀ k, k < d + 1 → s.streamBit (s.dec.inBit + k) = canonicalCode w n / 2 ^ (d - k) % 2) :
    descend (canonicalOrder w) ((List.range' (b + 1) (15 - b)).map w.count)
      (canonicalCode w n / 2 ^ (d + 1) - codesEnd w b) ((List.range' 1 b).map w.count).sum s =
        .ok n (s.setInBit (s.dec.inBit + (d + 1))) := by
  have hbit : s.streamBit s.dec.inBit = canonicalCode w n / 2 ^ d % 2 := hbits 0 (by omega)
  have hcur : 2 * (canonicalCode w n / 2 ^ (d + 1) - codesEnd w b) + canonicalCode w n / 2 ^ d % 2 =
      canonicalCode w n / 2 ^ d - firstCode w (b + 1) := by
    have hle := codesEnd_le_canonicalCode_div hn
    rw [firstCode_succ]
    rw [pow_succ, ← Nat.div_div_eq_div_mul] at hle ⊢
    omega
  rw [show 15 - b = 15 - (b + 1) + 1 by omega, List.range'_succ, List.map_cons, descend, readBits_one hready.head,
    Res.andThen_ok, hbit, hcur]
  cases d with
  | zero =>
    have hcode : canonicalCode w n / 2 ^ 0 - firstCode w (b + 1) = (w.take n).count (b + 1) := by
      rw [canonicalCode_eq hn, pow_zero, Nat.div_one, Nat.add_sub_cancel_left]
    rw [hcode, if_pos (count_take_lt_count hn), getElem?_canonicalOrder hn (by omega)]
  | succ d =>
    have hn' : w[n]? = some (b + 1 + d + 1) := by rw [hn]; congr 1; omega
    have hend := codesEnd_le_canonicalCode_div hn'
    have hsum : ((List.range' 1 b).map w.count).sum + w.count (b + 1) = ((List.range' 1 (b + 1)).map w.count).sum := by
      rw [List.range'_1_concat, List.map_append, List.sum_append, Nat.add_comm 1 b]
      simp
    rw [codesEnd] at hend
    rw [if_neg (by omega), hsum, Nat.sub_sub, ← codesEnd, descend_code hn' (by omega) hready.tail ?_]
    · simp [Nat.add_assoc, Nat.add_comm 1]
    · intro k hk
      have := hbits (k + 1) (by omega)
      rwa [State.setInBit_streamBit, State.setInBit_inBit, show s.dec.inBit + 1 + k = s.dec.inBit + (k + 1) by omega,
        show d - k = d + 1 - (k + 1) by omega]

/-- An entry of the encode table is a used symbol's reversed code (R262). -/
theorem encodeTable_entry {w : List Nat} {n : Nat} {c : HuffCode} (h : (encodeTable w)[n]? = some (some c)) :
    w[n]? = some c.width ∧ 0 < c.width ∧ c.bits = revBits c.width (canonicalCode w n) := by
  have hlen : n < w.length := by
    obtain ⟨hn, -⟩ := List.getElem?_eq_some_iff.1 h
    simpa [encodeTable] using hn
  by_cases hused : w.getD n 0 = 0
  · rw [encodeTable, List.getElem?_map, List.getElem?_range hlen, Option.map_some, if_pos hused] at h
    cases h
  · rw [encodeTable_used hlen hused] at h
    cases h
    have hpos := Nat.pos_of_ne_zero hused
    exact ⟨getElem?_of_getD_pos hpos, hpos, rfl⟩

/-- Settles O36: the descent from width 0 on, where no bit is read and the code's bits above its width are 0. -/
theorem huffmanSelfConsistency : Obligations.HuffmanSelfConsistency := by
  intro w n c s h15 hk hentry hready hbits
  obtain ⟨hget, hpos, hrev⟩ := encodeTable_entry hentry
  have hle := h15 _ (List.mem_of_getElem? hget)
  obtain ⟨d, hd⟩ : ∃ d, c.width = d + 1 := ⟨c.width - 1, by omega⟩
  rw [hd] at hget hready hbits hrev hle ⊢
  have hstart : canonicalCode w n / 2 ^ (d + 1) = 0 := Nat.div_eq_of_lt (canonicalCode_lt hget (by omega) hk)
  have hdescent := descend_code (b := 0) (d := d) (by rw [hget, Nat.zero_add]) (by omega) hready fun k hk => by
    rw [hbits k hk, hrev, revBits_bit _ hk, Nat.add_sub_cancel]
  rwa [hstart] at hdescent

end Sys2Proof.Machine
end

section
/-! PROOFS. The width assignment's completeness (spec/41_huffman.md R253, R257 (3)): the first `m` items of a
package-merge list fix the Kraft sum of the widths that they give, and for the items chosen it is that of a complete
code. -/

namespace Sys2Proof.Machine

/-! ## The first items of a merge -/

/-- The first items of a merge are first leaves and first packages, and each of these packages weighs less than every
leaf left out (R254). -/
theorem take_mergeItems {fuel : Nat} {ls ps : List Package} (h : ls.length + ps.length ≤ fuel) (hls : ByWeight ls)
    {m : Nat} (hm : m ≤ ls.length + ps.length) : ∃ i j, i + j = m ∧ i ≤ ls.length ∧ j ≤ ps.length ∧
      ((mergeItems fuel ls ps).take m).Perm (ls.take i ++ ps.take j) ∧
      ∀ q ∈ ps.take j, ∀ l ∈ ls.drop i, q.weight < l.weight := by
  induction fuel, ls, ps using mergeItems.induct generalizing m with
  | case1 ls ps =>
    obtain ⟨rfl, rfl⟩ : ls = [] ∧ ps = [] := by simpa using h
    exact ⟨0, 0, by simpa [eq_comm] using hm, by simp [mergeItems]⟩
  | case2 fuel ps => exact ⟨0, m, by omega, by simp, by simpa using hm, by simp [mergeItems], by simp⟩
  | case3 fuel ls hne => exact ⟨m, 0, by omega, by simpa using hm, by simp, by simp [mergeItems], by simp⟩
  | case4 fuel l ls p ps hle ih =>
    rw [mergeItems, if_pos hle]
    cases m with
    | zero => exact ⟨0, 0, by simp⟩
    | succ m =>
      simp only [List.length_cons] at h hm
      obtain ⟨i, j, hij, hi, hj, hperm, hout⟩ := ih (by simp only [List.length_cons]; omega)
        (List.pairwise_cons.1 hls).2 (m := m) (by simp only [List.length_cons]; omega)
      exact ⟨i + 1, j, by omega, by simpa using hi, hj, hperm.cons l, hout⟩
  | case5 fuel l ls p ps hlt ih =>
    rw [mergeItems, if_neg hlt]
    cases m with
    | zero => exact ⟨0, 0, by simp⟩
    | succ m =>
      simp only [List.length_cons] at h hm
      obtain ⟨i, j, hij, hi, hj, hperm, hout⟩ := ih (by simp only [List.length_cons]; omega) hls (m := m)
        (by simp only [List.length_cons]; omega)
      refine ⟨i, j + 1, by omega, hi, by simpa using hj, (hperm.cons p).trans List.perm_middle.symm, ?_⟩
      intro q hq x hx
      rcases List.mem_cons.1 hq with rfl | hq
      · have hlx : l.weight ≤ x.weight := by
          rcases List.mem_cons.1 (List.mem_of_mem_drop hx) with rfl | hmem
          · exact Nat.le_refl _
          · exact (List.pairwise_cons.1 hls).1 x hmem
        omega
      · exact hout q hq x hx

/-- The first `j` packages hold the symbols of the first `2 * j` items. -/
theorem take_packPairs_syms : ∀ {l : List Package} {j : Nat}, 2 * j ≤ l.length →
    ((packPairs l).take j).flatMap Package.syms = (l.take (2 * j)).flatMap Package.syms
  | _, 0, _ => by simp
  | p :: q :: rest, j + 1, h => by
    have ih := take_packPairs_syms (l := rest) (j := j) (by simp only [List.length_cons] at h; omega)
    rw [packPairs, List.take_succ_cons, List.flatMap_cons, ih, show 2 * (j + 1) = 2 * j + 1 + 1 by omega]
    simp

/-! ## The first items of a round's list -/

/-- How often items hold a symbol. -/
def symCount (l : List Package) (n : Nat) : Nat := (l.flatMap Package.syms).count n

/-- The leaves of the symbols `syms` (R253). -/
def leavesOf (f : List Nat) (syms : List Nat) : List Package := syms.map fun n => ⟨f.getD n 0, [n]⟩

/-- An item weighs at least what each symbol in it does. -/
def CoversSyms (f : List Nat) (l : List Package) : Prop := ∀ p ∈ l, ∀ n ∈ p.syms, f.getD n 0 ≤ p.weight

section Rounds
variable {f syms : List Nat}

theorem leavesOf_syms (f syms : List Nat) : (leavesOf f syms).flatMap Package.syms = syms := by
  rw [leavesOf, List.flatMap_map]
  exact List.flatMap_singleton' _

theorem packPairs_coversSyms : ∀ {l : List Package}, CoversSyms f l → CoversSyms f (packPairs l)
  | [], _ | [_], _ => by simp [packPairs, CoversSyms]
  | p :: q :: rest, h => by
    intro x hx n hn
    rcases List.mem_cons.1 hx with rfl | hx
    · show f.getD n 0 ≤ p.weight + q.weight
      rcases List.mem_append.1 hn with hn | hn
      · have := h p (by simp) n hn
        omega
      · have := h q (by simp) n hn
        omega
    · exact packPairs_coversSyms (fun y hy => h y (by simp [hy])) x hx n hn

theorem mergeRounds_coversSyms (f syms : List Nat) (k : Nat) : CoversSyms f (mergeRounds (leavesOf f syms) k) := by
  have hleaves : CoversSyms f (leavesOf f syms) := by
    intro p hp n hn
    obtain ⟨m, -, rfl⟩ := List.mem_map.1 hp
    rw [List.mem_singleton.1 hn]
  induction k with
  | zero => exact hleaves
  | succ k ih =>
    intro p hp
    rcases List.mem_append.1 ((mergeRounds_succ_perm k).mem_iff.1 hp) with hp | hp
    · exact hleaves p hp
    · exact packPairs_coversSyms ih p hp

/-- What is taken of the next round's list holds the first `i` leaves and the symbols of the first `2 * j` items of the
round before; and those are symbols of the leaves it holds, since a package comes behind the leaves of its symbols. -/
theorem symCount_take_mergeRounds_succ (hsorted : ByWeight (leavesOf f syms)) {k m : Nat}
    (hm : m ≤ (mergeRounds (leavesOf f syms) (k + 1)).length) :
    ∃ i j, i + j = m ∧ i ≤ syms.length ∧ 2 * j ≤ (mergeRounds (leavesOf f syms) k).length ∧
      (∀ n, symCount ((mergeRounds (leavesOf f syms) (k + 1)).take m) n =
        (syms.take i).count n + symCount ((mergeRounds (leavesOf f syms) k).take (2 * j)) n) ∧
      ∀ n ∈ syms.drop i, symCount ((mergeRounds (leavesOf f syms) k).take (2 * j)) n = 0 := by
  rw [(mergeRounds_succ_perm k).length_eq, List.length_append] at hm
  obtain ⟨i, j, hij, hi, hj, hperm, hout⟩ := take_mergeItems (Nat.le_refl _) hsorted hm
  rw [packPairs_length] at hj
  have hpaired := take_packPairs_syms (l := mergeRounds (leavesOf f syms) k) (j := j) (by omega)
  refine ⟨i, j, hij, by simpa [leavesOf] using hi, by omega, fun n => ?_, fun n hn => ?_⟩
  · have hleaves : ((leavesOf f syms).take i).flatMap Package.syms = syms.take i := by
      rw [leavesOf, ← List.map_take]
      exact leavesOf_syms f _
    rw [symCount, symCount, mergeRounds, (hperm.flatMap_right _).count_eq, List.flatMap_append, List.count_append,
      hleaves, hpaired]
  · rw [symCount, ← hpaired, List.count_eq_zero]
    intro hmem
    obtain ⟨q, hq, hnq⟩ := List.mem_flatMap.1 hmem
    have hcover := packPairs_coversSyms (mergeRounds_coversSyms f syms k) q (List.mem_of_mem_take hq) n hnq
    have hleaf : ⟨f.getD n 0, [n]⟩ ∈ (leavesOf f syms).drop i := by
      rw [leavesOf, ← List.map_drop]
      exact List.mem_map.2 ⟨n, hn, rfl⟩
    have hlt := hout q hq _ hleaf
    exact absurd hcover (Nat.not_le.2 hlt)

/-- The Kraft sum's step from one limit to the next: the first `i` symbols, whose widths grow by 1, keep their summands,
and those of the others, whose widths are 0, double. -/
theorem sum_pow_count_take (hnodup : syms.Nodup) {i : Nat} (hi : i ≤ syms.length) (K : Nat) {c : Nat → Nat}
    (hc : ∀ n ∈ syms.drop i, c n = 0) :
    (syms.map fun n => 2 ^ (K + 1 - ((syms.take i).count n + c n))).sum + i * 2 ^ K =
      (syms.map fun n => 2 ^ (K - c n)).sum + syms.length * 2 ^ K := by
  have split (g : Nat → Nat) : (syms.map g).sum = ((syms.take i).map g).sum + ((syms.drop i).map g).sum := by
    rw [← List.sum_append, ← List.map_append, List.take_append_drop]
  have hdisjoint : ∀ n ∈ syms.drop i, (syms.take i).count n = 0 := fun n hn =>
    List.count_eq_zero.2 fun hmem => List.disjoint_take_drop hnodup (Nat.le_refl i) hmem hn
  have htake : (syms.take i).map (fun n => 2 ^ (K + 1 - ((syms.take i).count n + c n))) =
      (syms.take i).map fun n => 2 ^ (K - c n) := List.map_congr_left fun n hn => by
    rw [List.count_eq_one_of_mem (hnodup.sublist (List.take_sublist ..)) hn, Nat.add_comm 1, Nat.add_sub_add_right]
  have hdrop : (syms.drop i).map (fun n => 2 ^ (K + 1 - ((syms.take i).count n + c n))) =
      (syms.drop i).map fun _ => 2 ^ (K + 1) := List.map_congr_left fun n hn => by rw [hdisjoint n hn, hc n hn]; rfl
  have hdrop' : (syms.drop i).map (fun n => 2 ^ (K - c n)) = (syms.drop i).map fun _ => 2 ^ K :=
    List.map_congr_left fun n hn => by rw [hc n hn]; rfl
  obtain ⟨r, hr⟩ := Nat.exists_eq_add_of_le hi
  rw [split, split fun n => 2 ^ (K - c n), htake, hdrop, hdrop']
  simp only [List.map_const', List.sum_replicate, List.length_drop, hr, Nat.add_sub_cancel_left, smul_eq_mul, pow_succ]
  ring

/-- The Kraft sum of the widths that the first `m` items of round `k` give: each item takes `2 ^ k` from it. -/
theorem sum_take_mergeRounds (hsorted : ByWeight (leavesOf f syms)) (hnodup : syms.Nodup) {k m : Nat}
    (hm : m ≤ (mergeRounds (leavesOf f syms) k).length) :
    (syms.map fun n => 2 ^ (k + 1 - symCount ((mergeRounds (leavesOf f syms) k).take m) n)).sum + m * 2 ^ k =
      syms.length * 2 ^ (k + 1) := by
  induction k generalizing m with
  | zero =>
    have hcount (n : Nat) : symCount ((leavesOf f syms).take m) n = (syms.take m).count n + 0 := by
      rw [symCount, leavesOf, ← List.map_take, ← leavesOf, leavesOf_syms, Nat.add_zero]
    have hstep := sum_pow_count_take hnodup (i := m) (by simpa [mergeRounds, leavesOf] using hm) 0 (c := fun _ => 0)
      fun _ _ => rfl
    simp only [mergeRounds, hcount]
    rw [hstep]
    simp [Nat.mul_two]
  | succ k ih =>
    obtain ⟨i, j, rfl, hi, hj, hcount, hout⟩ := symCount_take_mergeRounds_succ hsorted hm
    have hprev := ih hj
    have hstep := sum_pow_count_take hnodup hi (k + 1) hout
    simp only [hcount]
    rw [Nat.add_mul, ← Nat.add_assoc, hstep, show j * 2 ^ (k + 1) = 2 * j * 2 ^ k by ring, Nat.add_right_comm, hprev]
    ring

/-- Where the limit leaves room, the rounds leave `2 * n - 2` items to choose. -/
theorem le_length_mergeRounds {ls : List Package} {k g : Nat} (h : ls.length ≤ g * 2 ^ k) :
    2 * ls.length ≤ (mergeRounds ls k).length + g := by
  induction k generalizing g with
  | zero =>
    rw [pow_zero, Nat.mul_one] at h
    rw [mergeRounds]
    omega
  | succ k ih =>
    have := ih (g := 2 * g) (h.trans_eq (by ring))
    rw [(mergeRounds_succ_perm k).length_eq, List.length_append, packPairs_length]
    omega

end Rounds

/-! ## The default assignment is complete -/

/-- The used symbols in the order of the leaves. -/
def leafSyms (f : List Nat) : List Nat := (leaves f).flatMap Package.syms

theorem mem_leafSyms {f : List Nat} {n : Nat} : n ∈ leafSyms f ↔ 0 < f.getD n 0 := by
  rw [leafSyms, ← List.count_pos_iff, leaves_count]
  split <;> omega

theorem leafSyms_nodup (f : List Nat) : (leafSyms f).Nodup := by
  refine List.nodup_iff_count_le_one.2 fun n => ?_
  rw [leafSyms, leaves_count]
  split <;> omega

theorem leaves_eq (f : List Nat) : leaves f = leavesOf f (leafSyms f) := by
  have hleaf : ∀ p ∈ leaves f, p.syms.map (fun n => (⟨f.getD n 0, [n]⟩ : Package)) = [p] := by
    intro p hp
    obtain ⟨⟨x, n⟩, hx, rfl⟩ := List.mem_map.1 ((leaves_sorted f).2.mem_iff.1 hp)
    simp [List.getD_eq_getElem?_getD, (mem_usedSyms.1 hx).1]
  rw [leavesOf, leafSyms, List.map_flatMap, List.flatMap_congr hleaf]
  exact (List.flatMap_singleton' _).symm

/-- How many symbols are used. -/
def usedCount (f : List Nat) : Nat := f.countP fun x => decide (0 < x)

theorem usedCount_eq_length (f : List Nat) : usedCount f = (f.filter fun x => decide (0 < x)).length :=
  List.countP_eq_length_filter

theorem length_leaves (f : List Nat) : (leaves f).length = usedCount f := by
  rw [(leaves_sorted f).2.length_eq, List.length_map, usedSyms, ← List.countP_eq_length_filter, usedCount]
  conv_rhs => rw [← List.zipIdx_map_fst 0 f, List.countP_map]
  rfl

/-- The Kraft sum of the widths of a range of symbols, over the used ones. -/
theorem kraftSum_map_range (limit N : Nat) {g : Nat → Nat} {syms : List Nat} (hnodup : syms.Nodup)
    (hmem : ∀ n, n ∈ syms ↔ n < N ∧ 0 < g n) :
    kraftSum limit ((List.range N).map g) = (syms.map fun n => 2 ^ (limit - g n)).sum := by
  have hperm : ((List.range N).filter fun n => decide (0 < g n)).Perm syms := by
    refine (List.perm_ext_iff_of_nodup (List.nodup_range.filter _) hnodup).2 fun n => ?_
    rw [hmem, List.mem_filter, List.mem_range, decide_eq_true_eq]
  rw [kraftSum, List.filter_map, List.map_map]
  exact (hperm.map _).sum_eq

/-- The items chosen give complete widths (R257 (3)). -/
theorem chosenWidths_complete {f : List Nat} {k : Nat} (h2 : 2 ≤ usedCount f) (hroom : usedCount f ≤ 2 ^ (k + 1)) :
    let chosen := ((mergeRounds (leaves f) k).take (2 * (leaves f).length - 2)).flatMap Package.syms
    kraftSum (k + 1) ((List.range f.length).map fun s => chosen.count s) = 2 ^ (k + 1) := by
  intro chosen
  have hlen := length_leaves f
  obtain ⟨-, hfit⟩ := chosenWidths_fit (f := f) (by omega) k
  have hmem (n : Nat) : n ∈ leafSyms f ↔ n < f.length ∧ 0 < chosen.count n := by
    have hused (hn : n < f.length) : chosen.count n = 0 ↔ f.getD n 0 = 0 := by
      rw [← (hfit n hn).1]
      simp [hn, chosen]
    rw [mem_leafSyms]
    refine ⟨fun hpos => ?_, fun ⟨hn, hpos⟩ => Nat.pos_of_ne_zero ((hused hn).not.1 hpos.ne')⟩
    have hn := lt_length_of_getD_pos hpos
    exact ⟨hn, Nat.pos_of_ne_zero ((hused hn).not.2 hpos.ne')⟩
  have hlength := le_length_mergeRounds (ls := leaves f) (k := k) (g := 2) (by rw [hlen, ← pow_succ']; exact hroom)
  have hsum := sum_take_mergeRounds (f := f) (syms := leafSyms f) (leaves_eq f ▸ (leaves_sorted f).1)
    (leafSyms_nodup f) (k := k) (m := 2 * (leaves f).length - 2) (by rw [← leaves_eq]; omega)
  have hsyms : (leafSyms f).length = (leaves f).length := by
    conv_rhs => rw [leaves_eq, leavesOf, List.length_map]
  rw [kraftSum_map_range _ _ (leafSyms_nodup f) hmem]
  have hshare : (leaves f).length * 2 ^ (k + 1) = 2 ^ (k + 1) + (2 * (leaves f).length - 2) * 2 ^ k := by
    obtain ⟨m, hm⟩ : ∃ m, (leaves f).length = m + 1 := ⟨(leaves f).length - 1, by omega⟩
    rw [hm, show 2 * (m + 1) - 2 = 2 * m by omega]
    ring
  rw [← leaves_eq, hsyms] at hsum
  exact Nat.add_right_cancel (hsum.trans hshare)

/-! ## The contract (R257) -/

/-- A width assignment obeys R257 (3): widths of two or more symbols are complete, and a single used symbol has
width 1. -/
def WidthsComplete (limit : Nat) (w : List Nat) : Prop :=
  (2 ≤ usedCount w → kraftSum limit w = 2 ^ limit) ∧ (usedCount w = 1 → ∀ x ∈ w, 0 < x → x = 1)

/-- The used symbols are those with a width. -/
theorem WidthsFit.usedCount_eq {f w : List Nat} {limit : Nat} (h : WidthsFit f limit w) :
    usedCount w = usedCount f := by
  obtain ⟨hlen, hfit⟩ := h
  have hused : (w.map fun x => decide (0 < x)) = f.map fun x => decide (0 < x) := by
    refine List.ext_getElem (by simp [hlen]) fun n hw hf => ?_
    rw [List.length_map] at hw hf
    have := (hfit n hf).1
    simp only [List.getD_eq_getElem?_getD, List.getElem?_eq_getElem hw, List.getElem?_eq_getElem hf,
      Option.getD_some] at this
    simp only [List.getElem_map, decide_eq_decide]
    omega
  have hcount (l : List Nat) : usedCount l = (l.map fun x => decide (0 < x)).count true := by
    rw [List.count_eq_countP, List.countP_map, usedCount]
    congr 1
    funext x
    simp
  rw [hcount, hused, ← hcount]

theorem defaultWidths_complete {f : List Nat} {limit : Nat} (h : 1 ≤ limit) (hroom : usedCount f ≤ 2 ^ limit) :
    WidthsComplete limit (defaultWidths f limit) := by
  have hlen := length_leaves f
  rw [WidthsComplete, (defaultWidths_fit f h).usedCount_eq]
  unfold defaultWidths
  dsimp only
  split
  · next hnone =>
    rw [hnone, List.length_nil] at hlen
    omega
  · next hone =>
    rw [hone, List.length_singleton] at hlen
    refine ⟨fun h2 => by omega, fun _ x hx hpos => ?_⟩
    obtain ⟨y, -, rfl⟩ := List.mem_map.1 hx
    split at hpos
    · next hy => rw [if_pos hy]
    · omega
  · next hnone hone =>
    have h2 : 2 ≤ usedCount f := by
      match hl : leaves f with
      | [] => exact absurd hl hnone
      | [l] => exact absurd hl (hone l)
      | _ :: _ :: _ => rw [← hlen, hl]; simp
    obtain ⟨k, rfl⟩ : ∃ k, limit = k + 1 := ⟨limit - 1, by omega⟩
    exact ⟨fun _ => chosenWidths_complete h2 hroom, fun h1 => by omega⟩

/-- A legal choice is complete (R257). -/
theorem widthsLegal_complete {f : List Nat} {limit : Nat} {w : List Nat} (h : widthsLegal f limit w = true) :
    WidthsComplete limit w := by
  rw [widthsLegal, Bool.and_eq_true] at h
  obtain ⟨-, hcomplete⟩ := h
  rw [WidthsComplete, usedCount_eq_length]
  split at hcomplete
  · next hnone => simp [hnone]
  · next x hone =>
    refine ⟨fun h2 => by simp [hone] at h2, fun _ y hy hpos => ?_⟩
    have hmem : y ∈ w.filter fun x => decide (0 < x) := List.mem_filter.2 ⟨hy, decide_eq_true hpos⟩
    rw [hone, List.mem_singleton] at hmem
    rw [hmem]
    exact of_decide_eq_true hcomplete
  · next hone =>
    refine ⟨fun _ => of_decide_eq_true hcomplete, fun h1 => ?_⟩
    obtain ⟨x, hx⟩ := List.length_eq_one_iff.1 h1
    exact absurd hx (hone x)

/-- The platform's assignment is a legal choice or the default (R250). -/
theorem codeLengths_legal_or_default (p : Platform) (f : List Nat) (limit : Nat) :
    widthsLegal f limit (p.codeLengths f limit) = true ∨ p.codeLengths f limit = defaultWidths f limit := by
  unfold Platform.codeLengths
  split
  · next c hc =>
    have hlegal := List.find?_some hc
    simp only [Bool.and_eq_true] at hlegal
    exact .inl hlegal.2
  · exact .inr rfl

/-- R257 (3) for whatever choice the platform makes (R250). -/
theorem codeLengths_complete (p : Platform) {f : List Nat} {limit : Nat} (h : 1 ≤ limit)
    (hroom : usedCount f ≤ 2 ^ limit) : WidthsComplete limit (p.codeLengths f limit) := by
  rcases codeLengths_legal_or_default p f limit with hlegal | hdefault
  · exact widthsLegal_complete hlegal
  · rw [hdefault]
    exact defaultWidths_complete h hroom

/-- A Kraft sum for a larger limit, of widths that a smaller one allows. -/
theorem kraftSum_mul_pow {limit d : Nat} {w : List Nat} (h : ∀ x ∈ w, x ≤ limit) :
    kraftSum (limit + d) w = kraftSum limit w * 2 ^ d := by
  rw [kraftSum, kraftSum, ← List.sum_map_mul_right]
  refine congrArg List.sum (List.map_congr_left fun x hx => ?_)
  rw [← pow_add, Nat.sub_add_comm (h x (List.mem_of_mem_filter hx))]

/-- Complete widths are not over-subscribed, for the limit or a larger one. -/
theorem WidthsComplete.kraftSum_le {limit d : Nat} {w : List Nat} (h : WidthsComplete limit w)
    (hle : ∀ x ∈ w, x ≤ limit) : kraftSum (limit + d) w ≤ 2 ^ (limit + d) := by
  obtain ⟨htwo, -⟩ := h
  have hcount : usedCount w = (w.filter fun x => decide (0 < x)).length := usedCount_eq_length w
  rcases Nat.lt_or_ge (usedCount w) 2 with hfew | hmany
  · rw [kraftSum]
    match hused : w.filter fun x => decide (0 < x) with
    | [] => simp
    | [x] => simpa using Nat.pow_le_pow_right (by omega) (Nat.sub_le ..)
    | _ :: _ :: _ =>
      rw [hused, List.length_cons, List.length_cons] at hcount
      omega
  · rw [kraftSum_mul_pow hle, htwo hmany, pow_add]

/-- Settles O39: whatever choice the platform makes, its widths fit and, where the limit leaves room, are complete. -/
theorem widthAssignmentContract : Obligations.WidthAssignmentContract := by
  intro p f limit hlimit w used
  have hfit := codeLengths_fit p f hlimit
  have hused : usedCount w = used := hfit.usedCount_eq
  have hcomplete : used ≤ 2 ^ limit → WidthsComplete limit w := codeLengths_complete p hlimit
  refine ⟨hfit, fun h2 hroom => (hcomplete hroom).1 (hused ▸ h2), fun h1 n hn => ?_, fun hroom h15 => ?_⟩
  · obtain ⟨-, hone⟩ := hcomplete (h1 ▸ Nat.one_le_two_pow)
    have hpos : 0 < w.getD n 0 := Nat.pos_of_ne_zero ((hfit.2 n (lt_length_of_getD_pos hn)).1.not.2 hn.ne')
    exact hone (hused.trans h1) _ (List.mem_of_getElem? (getElem?_of_getD_pos hpos)) hpos
  · have := (hcomplete hroom).kraftSum_le (d := 15 - limit) hfit.le
    rwa [Nat.add_sub_cancel' h15] at this

end Sys2Proof.Machine
end

section
/-! PROOFS. The LZ77 scan (spec/42_lz77.md R300 to R308): what the table names are positions already scanned, whose
three bytes are their key; so every match copies the bytes that stand at the scan position, and the symbols of each pass
spell the chunk as far as the pass went. -/

namespace Sys2Proof.Machine

/-! ## Matches -/

/-- Equal keys mean equal bytes (R301). -/
theorem getD_eq_of_keyAt_eq {buf : List Byte} {i j : Nat} (h : keyAt buf i = keyAt buf j) {k : Nat} (hk : k < 3) :
    buf.getD (i + k) 0#8 = buf.getD (j + k) 0#8 := by
  have hlt (p : Nat) : (buf.getD p 0#8).toNat < 256 := BitVec.isLt _
  have hi := And.intro (hlt i) (And.intro (hlt (i + 1)) (hlt (i + 2)))
  have hj := And.intro (hlt j) (And.intro (hlt (j + 1)) (hlt (j + 2)))
  simp only [keyAt] at h
  apply BitVec.eq_of_toNat_eq
  match k, hk with
  | 0, _ => simp only [Nat.add_zero]; omega
  | 1, _ => omega
  | 2, _ => omega

/-- The bytes that `agreeing` counts are there and agree. -/
theorem agreeing_spec (cap : Nat) (xs ys : List Byte) :
    agreeing cap xs ys ≤ xs.length ∧ ∀ k < agreeing cap xs ys, xs.getD k 0#8 = ys.getD k 0#8 := by
  induction cap, xs, ys using agreeing.induct with
  | case1 cap x xs ys ih =>
    obtain ⟨hle, heq⟩ := ih
    simp only [agreeing, if_true, List.length_cons]
    refine ⟨by omega, fun k hk => ?_⟩
    cases k with
    | zero => rfl
    | succ k => exact heq k (by omega)
  | case2 cap x xs y ys hne => simp [agreeing, hne]
  | case3 cap xs ys hnil => simp [agreeing]

/-- A match ends within the chunk (R306). -/
theorem add_matchLength_le {buf : List Byte} {i : Nat} (j : Nat) (h : i + 3 ≤ buf.length) :
    i + matchLength buf i j ≤ buf.length := by
  have := (agreeing_spec 255 (buf.drop (i + 3)) (buf.drop (j + 3))).1
  rw [List.length_drop] at this
  rw [matchLength]
  omega

/-- Two positions with one key agree for the whole length of their match (R306). -/
theorem matchLength_agrees {buf : List Byte} {i j : Nat} (h : keyAt buf i = keyAt buf j) {k : Nat}
    (hk : k < matchLength buf i j) : buf.getD (i + k) 0#8 = buf.getD (j + k) 0#8 := by
  rcases Nat.lt_or_ge k 3 with h3 | h3
  · exact getD_eq_of_keyAt_eq h h3
  · obtain ⟨k, rfl⟩ := Nat.exists_eq_add_of_le h3
    have := (agreeing_spec 255 (buf.drop (i + 3)) (buf.drop (j + 3))).2 k (by rw [matchLength] at hk; omega)
    simpa [List.getD_eq_getElem?_getD, Nat.add_assoc] using this

/-! ## The prefix table -/

/-- Every entry of the table names a position before `bound`, under that position's key (R300). -/
def TableNames (buf : List Byte) (bound : Nat) (table : List (Nat × Nat)) : Prop :=
  ∀ e ∈ table, e.2 < bound ∧ e.1 = keyAt buf e.2

section Table
variable {buf : List Byte} {bound : Nat} {table : List (Nat × Nat)}

theorem TableNames.mono (h : TableNames buf bound table) {bound' : Nat} (hle : bound ≤ bound') :
    TableNames buf bound' table :=
  fun e he => ⟨Nat.lt_of_lt_of_le (h e he).1 hle, (h e he).2⟩

theorem TableNames.set (h : TableNames buf bound table) {p : Nat} (hp : p < bound) :
    TableNames buf bound (assocSet table (keyAt buf p) p) := by
  intro e he
  rcases assocSet_mem he with rfl | he
  · exact ⟨hp, rfl⟩
  · exact h e he

theorem TableNames.insertKeys {count p : Nat} (h : TableNames buf bound table) (hp : p + count ≤ bound) :
    TableNames buf bound (insertKeys buf count p table) := by
  induction count generalizing p table with
  | zero => exact h
  | succ count ih =>
    refine ih ?_ (by omega)
    split
    · exact h.set (by omega)
    · exact h

theorem TableNames.get (h : TableNames buf bound table) {key j : Nat} (hj : assocGet table key = some j) :
    j < bound ∧ key = keyAt buf j := h _ (assocGet_mem hj)

end Table

/-! ## Symbols that spell the chunk -/

/-- Every pointer of `syms` is legal where it stands (R308). -/
def PointersLegal (window : Nat) (syms : List Sym) : Prop :=
  ∀ (before after : List Sym) (len d : Nat), syms = before ++ .pointer len d :: after →
    3 ≤ len ∧ len ≤ 258 ∧ 1 ≤ d ∧ d ≤ window ∧ d ≤ (expand before).length

/-- A further symbol keeps the pointers legal if it is a literal or a pointer that is legal at the end. -/
theorem PointersLegal.snoc {window : Nat} {syms : List Sym} {x : Sym} (h : PointersLegal window syms)
    (hx : ∀ len d, x = .pointer len d →
      3 ≤ len ∧ len ≤ 258 ∧ 1 ≤ d ∧ d ≤ window ∧ d ≤ (expand syms).length) :
    PointersLegal window (syms ++ [x]) := by
  intro before after len d heq
  rcases List.eq_nil_or_concat after with rfl | ⟨after, y, rfl⟩
  · obtain ⟨rfl, hptr⟩ := List.append_inj' heq rfl
    exact hx len d (by simpa using hptr)
  · rw [List.concat_eq_append, ← List.cons_append, ← List.append_assoc] at heq
    exact h before after len d (List.append_inj' heq rfl).1

/-- The symbols' pointers are legal, and they expand to the first `p` bytes of the chunk (R308). -/
structure Spells (window : Nat) (buf : List Byte) (p : Nat) (syms : List Sym) : Prop where
  le : p ≤ buf.length
  expands : expand syms = buf.take p
  legal : PointersLegal window syms

section Spells
variable {window : Nat} {buf : List Byte} {p : Nat} {syms : List Sym}

theorem expand_snoc (syms : List Sym) (x : Sym) : expand (syms ++ [x]) = expandSym (expand syms) x := by
  simp [expand]

theorem take_succ_getD (h : p < buf.length) : buf.take (p + 1) = buf.take p ++ [buf.getD p 0#8] := by
  rw [List.take_succ_eq_append_getElem h, List.getD_eq_getElem _ _ h]

/-- Copying from `d` back spells on where the chunk repeats itself `d` back, whether or not the copy overlaps its own
source (R308). -/
theorem copyBack_take {len d : Nat} (hd : 1 ≤ d) (hdp : d ≤ p) (hp : p + len ≤ buf.length)
    (heq : ∀ k < len, buf.getD (p + k) 0#8 = buf.getD (p - d + k) 0#8) :
    copyBack len d (buf.take p) = buf.take (p + len) := by
  induction len generalizing p with
  | zero => rfl
  | succ len ih =>
    have hbyte : (buf.take p).getD ((buf.take p).length - d) 0#8 = buf.getD p 0#8 := by
      have := heq 0 (by omega)
      rw [List.length_take_of_le (by omega), List.getD_eq_getElem?_getD, List.getElem?_take_of_lt (by omega)]
      simpa [List.getD_eq_getElem?_getD] using this.symm
    rw [copyBack, hbyte, ← take_succ_getD (by omega), ih (by omega) (by omega) fun k hk => ?_]
    · congr 1; omega
    · have := heq (k + 1) (by omega)
      rwa [show p + 1 + k = p + (k + 1) by omega, show p + 1 - d + k = p - d + (k + 1) by omega]

theorem Spells.literal (h : Spells window buf p syms) (hp : p < buf.length) :
    Spells window buf (p + 1) (syms ++ [.literal (buf.getD p 0#8)]) where
  le := hp
  expands := by rw [expand_snoc, h.expands, take_succ_getD hp]; rfl
  legal := h.legal.snoc fun _ _ hx => nomatch hx

/-- The tail (R304). -/
theorem Spells.literals (h : Spells window buf p syms) :
    Spells window buf buf.length (syms ++ (buf.drop p).map Sym.literal) := by
  induction hn : buf.length - p generalizing p syms with
  | zero =>
    obtain rfl : p = buf.length := by have := h.le; omega
    simpa using h
  | succ n ih =>
    have hp : p < buf.length := by omega
    rw [List.drop_eq_getElem_cons hp, List.map_cons, List.append_cons, ← List.getD_eq_getElem _ 0#8 hp]
    exact ih (h.literal hp) (by omega)

/-- A match with an earlier position of the same key, no further back than the window (R305, R306). -/
theorem Spells.pointer (h : Spells window buf p syms) (hp : p + 3 ≤ buf.length) {j : Nat} (hj : j < p)
    (hkey : keyAt buf p = keyAt buf j) (hw : p - j ≤ window) :
    Spells window buf (p + matchLength buf p j) (syms ++ [.pointer (matchLength buf p j) (p - j)]) where
  le := add_matchLength_le j hp
  expands := by
    rw [expand_snoc, h.expands]
    refine copyBack_take (by omega) (by omega) (add_matchLength_le j hp) fun k hk => ?_
    rw [show p - (p - j) = j by omega]
    exact matchLength_agrees hkey hk
  legal := h.legal.snoc fun len d hx => by
    obtain ⟨rfl, rfl⟩ := Sym.pointer.inj hx
    obtain ⟨h3, h258⟩ := matchLength_bounds buf p j
    rw [h.expands, List.length_take_of_le h.le]
    exact ⟨h3, h258, by omega, hw, by omega⟩

end Spells

/-! ## The scan -/

/-- What a pass of the scan can do (R303 to R305): spell the tail, miss, or hit within the window. -/
theorem lzStep_cases (window : Nat) (buf : List Byte) (c : Scan) :
    (buf.length < c.pos + 3 ∧
      lzStep window buf c = ⟨buf.length, c.table, c.out ++ (buf.drop c.pos).map Sym.literal⟩) ∨
    (c.pos + 3 ≤ buf.length ∧ lzStep window buf c =
      ⟨c.pos + 1, assocSet c.table (keyAt buf c.pos) c.pos, c.out ++ [.literal (buf.getD c.pos 0#8)]⟩) ∨
    ∃ j, c.pos + 3 ≤ buf.length ∧ assocGet c.table (keyAt buf c.pos) = some j ∧ c.pos - j ≤ window ∧
      lzStep window buf c =
        ⟨c.pos + matchLength buf c.pos j,
          insertKeys buf (matchLength buf c.pos j - 1) (c.pos + 1) (assocSet c.table (keyAt buf c.pos) c.pos),
          c.out ++ [.pointer (matchLength buf c.pos j) (c.pos - j)]⟩ := by
  unfold lzStep
  split
  · next htail => exact .inl ⟨htail, rfl⟩
  · next hlen =>
    have hlen := Nat.le_of_not_lt hlen
    dsimp only
    split
    · exact .inr (.inl ⟨hlen, rfl⟩)
    · next j hj =>
      split
      · exact .inr (.inl ⟨hlen, rfl⟩)
      · next hnear => exact .inr (.inr ⟨j, hlen, hj, Nat.le_of_not_lt hnear, rfl⟩)

/-- What the scan keeps (R300, R308): its symbols spell the chunk up to its position, and its table names positions
before that. -/
structure Scan.Faithful (window : Nat) (buf : List Byte) (c : Scan) : Prop where
  spells : Spells window buf c.pos c.out
  table : TableNames buf c.pos c.table

/-- A pass of the scan keeps it faithful and moves on. -/
theorem lzStep_faithful {window : Nat} {buf : List Byte} {c : Scan} (h : c.Faithful window buf)
    (hp : c.pos < buf.length) : (lzStep window buf c).Faithful window buf ∧ c.pos < (lzStep window buf c).pos := by
  obtain ⟨hspells, htable⟩ := h
  rcases lzStep_cases window buf c with ⟨-, heq⟩ | ⟨-, heq⟩ | ⟨j, hlen, hj, hw, heq⟩ <;> rw [heq]
  · exact ⟨⟨hspells.literals, htable.mono hp.le⟩, hp⟩
  · have hnext := Nat.lt_succ_self c.pos
    exact ⟨⟨hspells.literal hp, (htable.mono hnext.le).set hnext⟩, hnext⟩
  · obtain ⟨hjp, hkey⟩ := htable.get hj
    have hnext : c.pos < c.pos + matchLength buf c.pos j := by
      have := (matchLength_bounds buf c.pos j).1
      omega
    exact ⟨⟨hspells.pointer hlen hjp hkey hw, ((htable.mono hnext.le).set hnext).insertKeys (by omega)⟩, hnext⟩

/-- With fuel for the bytes left, the scan reaches the end of the chunk, faithful as it began. -/
theorem lzLoop_faithful {window : Nat} {buf : List Byte} {fuel : Nat} {c : Scan} (h : c.Faithful window buf)
    (hfuel : buf.length ≤ c.pos + fuel) :
    (lzLoop window buf fuel c).Faithful window buf ∧ (lzLoop window buf fuel c).pos = buf.length := by
  induction fuel generalizing c with
  | zero => exact ⟨h, Nat.le_antisymm h.spells.le hfuel⟩
  | succ fuel ih =>
    rw [lzLoop]
    split
    · next hp =>
      obtain ⟨hstep, hnext⟩ := lzStep_faithful h hp
      exact ih hstep (by omega)
    · next hend => exact ⟨h, Nat.le_antisymm h.spells.le (Nat.le_of_not_lt hend)⟩

/-- A scan begins with nothing spelt and an empty table (R54, R309). -/
theorem scanStart_faithful (window : Nat) (buf : List Byte) : Scan.Faithful window buf ⟨0, [], []⟩ where
  spells := ⟨Nat.zero_le _, rfl, fun _ _ _ _ h => by simp at h⟩
  table := fun _ he => nomatch he

theorem lz77_spells (window : Nat) (buf : List Byte) : Spells window buf buf.length (lz77 window buf) := by
  obtain ⟨hfaithful, hpos⟩ := lzLoop_faithful (scanStart_faithful window buf) (fuel := buf.length) (by simp)
  exact hpos ▸ hfaithful.spells

/-- Settles O57: the finished scan spells the whole chunk, with every pointer legal where it stands. -/
theorem lz77LegalAndFaithful : Obligations.Lz77LegalAndFaithful := by
  intro window buf
  obtain ⟨-, hexpands, hlegal⟩ := lz77_spells window buf
  exact ⟨hexpands.trans (List.take_length ..), hlegal⟩

end Sys2Proof.Machine
end

section
/-! PROOFS. What the encoder writes, bit by bit (spec/43_deflate_encoder.md R355 to R360, R375): each writing operation
appends its bits to those a phase has written so far, so a phase's bits are those of its operations in order. -/

namespace Sys2Proof.Machine

/-! ## Bits written from a state on -/

@[simp] theorem length_bitList (n v : Nat) : (bitList n v).length = n := by simp [bitList]

theorem length_byteBits (bytes : List Byte) : (byteBits bytes).length = 8 * bytes.length := by
  simp [byteBits, Nat.mul_comm]

theorem State.length_outBits (s : State) : s.outBits.length = 8 * s.outPos + s.enc.bitsWritten := by
  simp [State.outBits, length_byteBits, State.output]

/-- Room for some stream bits is room for fewer. -/
theorem State.outReady_unitsFor_le {s : State} {m n : Nat} (hmn : m ≤ n) (h : s.outReady (s.unitsFor n)) :
    s.outReady (s.unitsFor m) := by
  obtain ⟨hcap, hbacked⟩ := h
  have hle : s.unitsFor m ≤ s.unitsFor n := by unfold State.unitsFor; omega
  exact ⟨by omega, fun k hk => hbacked k (by omega)⟩

/-- From `s` to `t` exactly these stream bits were written (R202, R207). -/
structure State.Appended (s : State) (bits : List Bool) (t : State) : Prop where
  written : Written s t
  writerOk : t.writerOk
  outBits : t.outBits = s.outBits ++ bits
  outPos : t.outPos = s.outPos + s.unitsFor bits.length

section Appended
variable {s t : State} {done : List Bool}

theorem State.Appended.refl (hs : s.writerOk) : s.Appended [] s where
  written := .refl s
  writerOk := hs
  outBits := (List.append_nil _).symm
  outPos := by
    have hfew := hs.1
    show s.outPos = s.outPos + 2 * ((s.enc.bitsWritten + 0) / 16)
    omega

/-- The bits that are not whole units stay in the writer (R202). -/
theorem State.Appended.bitsWritten (h : s.Appended done t) :
    t.enc.bitsWritten = (s.enc.bitsWritten + done.length) % 16 := by
  have hlen := congrArg List.length h.outBits
  have hfew := h.writerOk.1
  have hpos := h.outPos
  rw [List.length_append, State.length_outBits, State.length_outBits] at hlen
  unfold State.unitsFor at hpos
  omega

/-- The units of more bits are those of the bits written and those of the rest. -/
theorem State.Appended.unitsFor (h : s.Appended done t) (n : Nat) :
    s.unitsFor (done.length + n) = s.unitsFor done.length + t.unitsFor n := by
  have := h.bitsWritten
  unfold State.unitsFor
  omega

/-- The room for more bits is still there after the first of them. -/
theorem State.Appended.outReady {n : Nat} (h : s.Appended done t) (hroom : s.outReady (s.unitsFor (done.length + n))) :
    t.outReady (t.unitsFor n) := by
  obtain ⟨hcap, hbacked⟩ := hroom
  have hunits := h.unitsFor n
  have hpos := h.outPos
  have hreg := h.written.reg
  refine ⟨by rw [hreg]; omega, fun k hk => ?_⟩
  have := hbacked (s.unitsFor done.length + k) (by omega)
  rwa [← Nat.add_assoc, ← hpos, ← h.written.plat, State.dstByte, ← hreg] at this

theorem State.Appended.trans {bits : List Bool} {u : State} (h : s.Appended done t) (k : t.Appended bits u) :
    s.Appended (done ++ bits) u where
  written := h.written.trans k.written
  writerOk := k.writerOk
  outBits := by rw [k.outBits, h.outBits, List.append_assoc]
  outPos := by rw [k.outPos, h.outPos, List.length_append, h.unitsFor, Nat.add_assoc]

end Appended

/-! ## Operations that go through -/

/-- The operation goes through, to a state with a property. -/
def Res.Yields (P : State → Prop) (r : Res Unit) : Prop := ∃ t, r = .ok () t ∧ P t

section Yields
variable {P Q : State → Prop} {r : Res Unit}

theorem Res.Yields.ok {t : State} (h : P t) : (Res.ok () t).Yields P := ⟨t, rfl, h⟩

theorem Res.Yields.andThen {k : Unit → State → Res Unit} (h : r.Yields P) (hk : ∀ t, P t → (k () t).Yields Q) :
    (r.andThen k).Yields Q := by
  obtain ⟨t, rfl, ht⟩ := h
  exact hk t ht

theorem Res.Yields.outcome (h : r.Yields P) : ∃ t, r.outcome = .next t ∧ P t := by
  obtain ⟨t, rfl, ht⟩ := h
  exact ⟨t, rfl, ht⟩

end Yields

/-! ## The writing operations, each behind others -/

section Operations
variable {s t : State} {done : List Bool} {room : Nat}

/-- `WriteBits` appends its bits (R201, R202). -/
theorem State.Appended.writeBits {width bits : Nat} (h : s.Appended done t) (hroom : s.outReady (s.unitsFor room))
    (hle : done.length + width ≤ room) (hw : width ≤ 16) (hb : bits < 2 ^ width) :
    (writeBits width bits t).Yields (s.Appended (done ++ bitList width bits)) := by
  have hready := h.outReady (State.outReady_unitsFor_le hle hroom)
  obtain ⟨u, hwrite, hbits, hout⟩ := writeBits_appends hw hb h.writerOk hready
  have w : Written t u := by
    have := writeBits_written width bits t
    rwa [hwrite] at this
  exact ⟨u, hwrite, h.trans ⟨w, writeBits_writerOk h.writerOk hwrite, hbits, by rw [hout, length_bitList]⟩⟩

/-- `EncodeSymbol` appends the symbol's code (R263). -/
theorem State.Appended.encodeSymbol {table : List (Option HuffCode)} {sym : Nat} {c : HuffCode}
    (h : s.Appended done t) (hroom : s.outReady (s.unitsFor room)) (hle : done.length + c.width ≤ room)
    (hcode : table[sym]? = some (some c)) (hc : c.ok) :
    (encodeSymbol table sym t).Yields (s.Appended (done ++ bitList c.width c.bits)) := by
  obtain ⟨hw, hb⟩ := hc
  rw [encodeSymbol_eq t hcode]
  exact h.writeBits hroom hle (by omega) hb

/-- Bytes are appended bit by bit, each its lowest bit first (R355, R16). -/
theorem State.Appended.writeBytes {bytes : List Byte} (h : s.Appended done t) (hroom : s.outReady (s.unitsFor room))
    (hle : done.length + 8 * bytes.length ≤ room) :
    (writeBytes bytes t).Yields (s.Appended (done ++ byteBits bytes)) := by
  induction bytes generalizing done t with
  | nil => exact .ok (by simpa [byteBits] using h)
  | cons b rest ih =>
    rw [List.length_cons] at hle
    refine (h.writeBits hroom (by omega) (by decide) b.isLt).andThen fun u hu => ?_
    have := ih hu (by rw [List.length_append, length_bitList]; omega)
    rwa [List.append_assoc] at this

/-- Code-length widths are appended three bits each (R375). -/
theorem State.Appended.writeClWidths {ws : List Nat} (h : s.Appended done t) (hroom : s.outReady (s.unitsFor room))
    (hle : done.length + 3 * ws.length ≤ room) (h7 : ∀ w ∈ ws, w ≤ 7) :
    (writeClWidths ws t).Yields (s.Appended (done ++ ws.flatMap (bitList 3))) := by
  induction ws generalizing done t with
  | nil => exact .ok (by simpa using h)
  | cons w rest ih =>
    obtain ⟨hw, hrest⟩ := List.forall_mem_cons.1 h7
    rw [List.length_cons] at hle
    refine (h.writeBits hroom (by omega) (by decide) (Nat.lt_succ_of_le hw)).andThen fun u hu => ?_
    have := ih hu (by rw [List.length_append, length_bitList]; omega) hrest
    rwa [List.append_assoc] at this

/-- `AlignOut` appends zeros up to the next whole byte (R206). -/
theorem State.Appended.alignOut (h : s.Appended done t) (hroom : s.outReady (s.unitsFor room))
    (hle : done.length + padBits (s.enc.bitsWritten + done.length) ≤ room) :
    (alignOut t).Yields
      (s.Appended (done ++ List.replicate (padBits (s.enc.bitsWritten + done.length)) false)) := by
  have hpad : (8 - t.enc.bitsWritten % 8) % 8 = padBits (s.enc.bitsWritten + done.length) := by
    rw [h.bitsWritten]
    unfold padBits
    omega
  have hzeros (n : Nat) : bitList n 0 = List.replicate n false := by simp [bitList, List.eq_replicate_iff]
  rw [Machine.alignOut, hpad, ← hzeros]
  exact h.writeBits hroom hle (by unfold padBits; omega) (Nat.two_pow_pos _)

/-- `BFINAL` of the block that is written is the rules' (R351). -/
theorem State.finalChunk_eq_lastBlock (s : State) : s.finalChunk = s.lastBlock := by
  unfold State.finalChunk State.lastBlock State.numChunks
  cases s.run.mode <;> rfl

/-- The three header bits of a block: `BFINAL`, then `BTYPE` lowest bit first (R355, R356, R375). -/
theorem writeBlockHeader_yields {type : Nat} (hs : s.writerOk) (hroom : s.outReady (s.unitsFor room))
    (h3 : 3 ≤ room) (h4 : type < 4) :
    (writeBlockHeader type s).Yields (s.Appended [s.lastBlock, type.testBit 0, type.testBit 1]) := by
  have hfinal : bitList 1 s.finalChunk.toNat = [s.lastBlock] := by
    rw [State.finalChunk_eq_lastBlock]
    cases s.lastBlock <;> rfl
  refine ((State.Appended.refl hs).writeBits hroom (by simp; omega) (by decide) s.finalChunk.toNat_lt).andThen
    fun t ht => ?_
  have := ht.writeBits (width := 2) (bits := type) hroom (by simp; omega) (by decide) h4
  rwa [hfinal] at this

end Operations

/-! ## What follows the writing -/

section After
variable {s t u : State} {bits : List Bool}

/-- Queues and the phase may change behind the bits: what was written stays. -/
theorem State.Appended.after (h : s.Appended bits t) (hu : u = { t with enc := u.enc, seq := u.seq } := by rfl)
    (htag : u.enc.tag = t.enc.tag := by rfl) (hn : u.enc.bitsWritten = t.enc.bitsWritten := by rfl) :
    u.writerOk ∧ s.WriteFrame u ∧ u.outBits = s.outBits ++ bits := by
  obtain ⟨w, hok, hbits, -⟩ := h
  refine ⟨?_, ?_, ?_⟩
  · unfold State.writerOk
    rwa [htag, hn]
  · rw [hu]
    exact ⟨w.reg, w.run, w.dec, w.sum, w.plat, w.host, w.free, w.outPos, w.mem⟩
  · have hout : u.output = t.output := by rw [hu]; rfl
    rw [← hbits, State.outBits, State.outBits, hout, htag, hn]

/-- After a block comes the final flush if it was the last, else the next chunk (R350). -/
theorem State.Appended.endBlock (h : s.Appended bits t) (hu : u = { t with enc := u.enc, seq := u.seq } := by rfl)
    (htag : u.enc.tag = t.enc.tag := by rfl) (hn : u.enc.bitsWritten = t.enc.bitsWritten := by rfl)
    (hc : u.enc.chunkIndex = s.enc.chunkIndex) :
    (u.endBlockWritten.writerOk ∧ s.WriteFrame u.endBlockWritten ∧ u.endBlockWritten.outBits = s.outBits ++ bits) ∧
      (s.lastBlock = true → u.endBlockWritten.seq = .busy .flush ∧
        u.endBlockWritten.enc.chunkIndex = s.enc.chunkIndex) ∧
      (s.lastBlock = false → u.endBlockWritten.seq = .busy .loadChunk ∧
        u.endBlockWritten.enc.chunkIndex = s.enc.chunkIndex + 1) ∧
      u.endBlockWritten.enc = { u.enc with chunkIndex := u.endBlockWritten.enc.chunkIndex } := by
  have hlast : u.finalChunk = s.lastBlock := by
    have hrun : u.run = s.run := by rw [hu]; exact h.written.run
    have hreg : u.reg = s.reg := by rw [hu]; exact h.written.reg
    rw [State.finalChunk_eq_lastBlock, State.lastBlock, State.lastBlock, hc, hrun, hreg]
  rw [State.endBlockWritten, hlast]
  cases s.lastBlock with
  | true => exact ⟨h.after (by rw [hu]; rfl) htag hn, fun _ => ⟨rfl, hc⟩, nofun, rfl⟩
  | false => exact ⟨h.after (by rw [hu]; rfl) htag hn, nofun, fun _ => ⟨rfl, congrArg (· + 1) hc⟩, rfl⟩

end After

end Sys2Proof.Machine
end

section
/-! PROOFS. The rows of the encoder's alphabets written: block headers, literals, pointers and code-length symbols
(spec/43_deflate_encoder.md R355 to R360, R375). -/

namespace Sys2Proof.Machine

/-! ## Stored blocks (R355) -/

theorem writeStored_yields {s : State} (hs : s.writerOk) (hlen : s.enc.chunk.length ≤ 65535)
    (hroom : s.outReady (s.unitsFor (3 + padBits (s.enc.bitsWritten + 3) + 32 + 8 * s.enc.chunk.length))) :
    (writeStored s).Yields fun u => ∃ t, u = t.endBlockWritten ∧
      s.Appended ([s.lastBlock, false, false] ++ List.replicate (padBits (s.enc.bitsWritten + 3)) false ++
        bitList 16 s.enc.chunk.length ++ bitList 16 (s.enc.chunk.length ^^^ 0xFFFF) ++ byteBits s.enc.chunk) t := by
  have chunk {t : State} {bits : List Bool} (h : s.Appended bits t) : t.enc.chunk = s.enc.chunk := by
    rw [h.written.enc]
  have h16 : s.enc.chunk.length < 2 ^ 16 := Nat.lt_succ_of_le hlen
  refine (writeBlockHeader_yields hs hroom (by omega) (by decide)).andThen fun t ht => ?_
  refine (ht.alignOut hroom (by simp; omega)).andThen fun t ht => ?_
  rw [chunk ht]
  refine (ht.writeBits hroom (by simp; omega) (by decide) h16).andThen fun t ht => ?_
  rw [chunk ht]
  refine (ht.writeBits hroom (by simp; omega) (by decide) (Nat.xor_lt_two_pow h16 (by decide))).andThen
    fun t ht => ?_
  rw [chunk ht]
  exact (ht.writeBytes hroom (by simp; omega)).andThen fun t ht => .ok ⟨t, rfl, ht⟩

/-- Settles O50: the operations of R355 append their bits one after the other, then the block ends. -/
theorem storedBlockWritten : Obligations.StoredBlockWritten := by
  intro s henc hs hlen len pad hroom
  obtain ⟨_, hexec, t, rfl, ht⟩ := (writeStored_yields hs hlen hroom).outcome
  obtain ⟨⟨hok, hframe, hbits⟩, hlast, hmore, he⟩ := ht.endBlock (u := t) (hc := by rw [ht.written.enc])
  refine ⟨_, by rw [exec, execBtype0, if_pos henc, hexec], hok, hframe, ?_, hlast, hmore, ?_⟩
  · rw [hbits]
    simp only [List.append_assoc]
    rfl
  · rw [he, ht.written.enc]

/-! ## Static and dynamic headers (R353, R356, R375) -/

theorem writeStatic_yields {s : State} (hs : s.writerOk) (hroom : s.outReady (s.unitsFor 3)) :
    (writeStatic s).Yields fun u => ∃ t, u = t.withFixedEncodeTables ∧
      s.Appended [s.lastBlock, true, false] t :=
  (writeBlockHeader_yields hs hroom (Nat.le_refl _) (by decide)).andThen fun t ht => .ok ⟨t, rfl, ht⟩

theorem writeDynamic_yields {s : State} (hs : s.writerOk) (hfits : s.enc.headerFits)
    (hroom : s.outReady (s.unitsFor (17 + 3 * s.enc.hclen))) :
    (writeDynamic s).Yields fun u => ∃ t, u = t.goto .writeCodeLen ∧
      s.Appended ([s.lastBlock, false, true] ++ bitList 5 (s.enc.hlit - 257) ++ bitList 5 (s.enc.hdist - 1) ++
        bitList 4 (s.enc.hclen - 4) ++
        ((headerWidths s.enc.clWidths).take s.enc.hclen).flatMap (bitList 3)) t := by
  obtain ⟨⟨hlit, hdist, hclen⟩, hwidths⟩ := hfits.values
  refine (writeBlockHeader_yields hs hroom (by omega) (by decide)).andThen fun t ht => ?_
  rw [show t.enc.hlit = s.enc.hlit by rw [ht.written.enc]]
  refine (ht.writeBits hroom (by simp; omega) (by decide) hlit).andThen fun t ht => ?_
  rw [show t.enc.hdist = s.enc.hdist by rw [ht.written.enc]]
  refine (ht.writeBits hroom (by simp; omega) (by decide) hdist).andThen fun t ht => ?_
  rw [show t.enc.hclen = s.enc.hclen by rw [ht.written.enc]]
  refine (ht.writeBits hroom (by simp) (by decide) hclen).andThen fun t ht => ?_
  rw [show t.enc.clWidths = s.enc.clWidths by rw [ht.written.enc],
    show t.enc.hclen = s.enc.hclen by rw [ht.written.enc]]
  exact (ht.writeClWidths hroom (by simp) hwidths).andThen fun t ht => .ok ⟨t, rfl, ht⟩

/-- A static block's header changes the encoder's datapath and the phase only. -/
theorem withFixedEncodeTables_frame (s : State) : s.withFixedEncodeTables =
    { s with enc := s.withFixedEncodeTables.enc, seq := s.withFixedEncodeTables.seq } := by
  rw [State.withFixedEncodeTables]

theorem Encoder.withTables_tag (e : Encoder) (lit dist : List (Option HuffCode)) :
    (e.withTables lit dist).tag = e.tag := rfl

theorem Encoder.withTables_bitsWritten (e : Encoder) (lit dist : List (Option HuffCode)) :
    (e.withTables lit dist).bitsWritten = e.bitsWritten := rfl

/-- Settles O51: both headers are the three bits and, for a dynamic block, its counts and widths in `CL_ORDER`. -/
theorem staticAndDynamicHeadersWritten : Obligations.StaticAndDynamicHeadersWritten := by
  intro s henc hs order
  refine ⟨fun hroom => ?_, fun hlit hlit' hdist hdist' hclen hclen' h7 hroom => ?_⟩
  · obtain ⟨_, hexec, t, rfl, ht⟩ := (writeStatic_yields hs hroom).outcome
    have henc' := withFixedEncodeTables_enc t
    obtain ⟨hok, hframe, hbits⟩ := ht.after (u := t.withFixedEncodeTables) (withFixedEncodeTables_frame t)
      (by rw [henc']; exact Encoder.withTables_tag ..) (by rw [henc']; exact Encoder.withTables_bitsWritten ..)
    refine ⟨_, by rw [exec, execBtype1, if_pos henc, hexec], hok, hframe, t.withFixedEncodeTables_seq, hbits, ?_⟩
    rw [henc', ht.written.enc, Encoder.withTables]
  · have hfits : s.enc.headerFits := ⟨hlit, hlit', hdist, hdist', hclen, hclen', h7⟩
    have horder : ((headerWidths s.enc.clWidths).take s.enc.hclen).flatMap (bitList 3) =
        (order.take s.enc.hclen).flatMap fun c => bitList 3 (s.enc.clWidths.getD c 0) := by
      rw [headerWidths, ← List.map_take, List.flatMap_map]
      rfl
    obtain ⟨_, hexec, t, rfl, ht⟩ := (writeDynamic_yields hs hfits hroom).outcome
    obtain ⟨hok, hframe, hbits⟩ := ht.after (u := t.goto .writeCodeLen)
    refine ⟨_, by rw [exec, execBtype2, if_pos henc, hexec], hok, hframe, rfl, ?_, ht.written.enc⟩
    rw [← horder]
    simpa only [List.append_assoc] using hbits

/-! ## Literals and the end of a block (R358, R360) -/

/-- Only `CMD` words can be ill formed (R684). -/
theorem wellFormed_of_alphabet {i : Instr} (h : i.alphabet ≠ .command) : i.WellFormed := by
  cases i with
  | deflate _ | deflateZlib _ | invalidMode3 _ _ => exact absurd rfl h
  | _ => rfl

/-- A word below 256 of the literal/length alphabet is the literal of that byte (R158). -/
theorem exec_literal {i : Instr} (ha : i.alphabet = .litLen) (hn : i.number < 256) :
    ∃ b : Byte, b.toNat = i.number ∧ ∀ s, exec i s = (literal b s).outcome := by
  have hb : (BitVec.ofNat 8 i.number).toNat = i.number := by rw [BitVec.toNat_ofNat]; omega
  obtain ⟨j, hj, hexec⟩ := literal_word (BitVec.ofNat 8 i.number)
  have hi := decode_number i (wellFormed_of_alphabet (by rw [ha]; decide))
  rw [ha, ← hb, hj] at hi
  cases hi
  exact ⟨_, hb, hexec⟩

/-- Settles O52: the code is appended, then the symbol leaves the queue, and `EOB` ends the block. -/
theorem literalsAndEndOfBlockWritten : Obligations.LiteralsAndEndOfBlockWritten := by
  refine ⟨fun i c s ha hn henc hs hcode hc hroom => ?_, fun c s henc hs hcode hc hroom => ?_⟩
  · obtain ⟨b, hb, hexec⟩ := exec_literal ha hn
    obtain ⟨t, hwrite, ht⟩ := (State.Appended.refl hs).encodeSymbol hroom (by simp) (hb ▸ hcode) hc
    obtain ⟨hok, hframe, hbits⟩ := ht.after (u := t.popSym)
    refine ⟨t.popSym, ?_, hok, hframe, ht.written.seq, hbits, by rw [State.popSym_enc, ht.written.enc]⟩
    rw [hexec, literal, if_pos henc, hwrite]
    rfl
  · obtain ⟨t, hwrite, ht⟩ := (State.Appended.refl hs).encodeSymbol hroom (by simp) hcode hc
    obtain ⟨⟨hok, hframe, hbits⟩, hlast, hmore, he⟩ :=
      ht.endBlock (u := t.popSym) (hc := by rw [State.popSym_enc, ht.written.enc])
    refine ⟨t.popSym.endBlockWritten, ?_, hok, hframe, hbits, hlast, hmore, ?_⟩
    · rw [exec, execEob, if_pos henc, hwrite]
      rfl
    · rw [he, State.popSym_enc, ht.written.enc]

/-! ## Symbols with an extra value (R359, R375) -/

/-- A symbol's code and then its extra value, which writing the code leaves as it was. -/
theorem codeAndExtra_yields {s : State} {table : List (Option HuffCode)} {sym extra x : Nat} {c : HuffCode}
    {value : State → Nat} {k : State → State} (hs : s.writerOk)
    (hroom : s.outReady (s.unitsFor (c.width + extra))) (hcode : table[sym]? = some (some c)) (hc : c.ok)
    (hvalue : ∀ t, Written s t → value t = x) (h16 : extra ≤ 16) (hx : x < 2 ^ extra) :
    ((encodeSymbol table sym s).andThen fun _ t =>
      (writeBits extra (value t) t).andThen fun _ t => .ok () (k t)).Yields fun u =>
      ∃ t, u = k t ∧ s.Appended (bitList c.width c.bits ++ bitList extra x) t := by
  refine ((State.Appended.refl hs).encodeSymbol hroom (by simp) hcode hc).andThen fun t ht => ?_
  rw [hvalue t ht.written]
  exact (ht.writeBits hroom (by simp) h16 hx).andThen fun t ht => .ok ⟨t, rfl, ht⟩

/-- Settles O53: both halves are a code and an extra value; the first goes on to the distance, the second takes the
pointer off the queue. -/
theorem pointersWritten : Obligations.PointersWritten := by
  refine ⟨fun r hr len d c s henc hs hhead _ hx hcode hc hroom => ?_,
    fun r hr len d c s henc hs hhead _ hx hcode hc hroom => ?_⟩
  · obtain ⟨_, hsyms⟩ := List.head?_eq_some_iff.1 hhead
    obtain ⟨-, -, -, -, h16⟩ := lengthRows_word r hr
    obtain ⟨_, hexec, t, rfl, ht⟩ := (codeAndExtra_yields (k := fun t => t.goto .writeDist)
      (value := fun t => t.pointerWritten.1 - r.base) hs hroom hcode hc
      (fun t w => by rw [w.pointerWritten, pointerWritten_cons hsyms]) h16 hx).outcome
    obtain ⟨hok, hframe, hbits⟩ := ht.after (u := t.goto .writeDist)
    refine ⟨_, by rw [exec_lengthRow hr, lengthSymbol, if_pos henc, hexec], hok, hframe, rfl, ?_, ht.written.enc⟩
    simpa only [List.append_assoc] using hbits
  · obtain ⟨_, hsyms⟩ := List.head?_eq_some_iff.1 hhead
    obtain ⟨-, -, -, -, h16⟩ := distanceRows_word r hr
    obtain ⟨_, hexec, t, rfl, ht⟩ := (codeAndExtra_yields (k := fun t => t.popSym.goto .writeSym)
      (value := fun t => t.pointerWritten.2 - r.base) hs hroom hcode hc
      (fun t w => by rw [w.pointerWritten, pointerWritten_cons hsyms]) h16 hx).outcome
    obtain ⟨hok, hframe, hbits⟩ := ht.after (u := t.popSym.goto .writeSym)
    refine ⟨_, by rw [exec_distanceRow hr, distanceSymbol, if_pos henc, hexec], hok, hframe, rfl, ?_,
      by rw [State.goto_enc, State.popSym_enc, ht.written.enc]⟩
    simpa only [List.append_assoc] using hbits

/-- A code-length word is at most 18 (R162). -/
theorem codeLen_number_le {i : Instr} (ha : i.alphabet = .codeLen) : i.number ≤ 18 := by
  have hi := decode_number i (wellFormed_of_alphabet (by rw [ha]; decide))
  rw [ha] at hi
  simp only [decode, decodeCodeLen] at hi
  split at hi
  · next hj => exact Nat.le_of_lt_succ (List.getElem?_eq_some_iff.1 hj).1
  · cases hi

/-- What a code-length word writes (R162, R375): its code, then its extra value, of which a width has none. -/
theorem exec_codeLen_yields {i : Instr} {c : HuffCode} {x : Nat} {rest : List (Nat × Nat)} {s : State}
    (ha : i.alphabet = .codeLen) (henc : s.run.op.encodes = true) (hs : s.writerOk)
    (hseq : s.enc.clSeq = (i.number, x) :: rest) (hx : x < 2 ^ clExtraBits i.number)
    (hcode : s.enc.clTable[i.number]? = some (some c)) (hc : c.ok)
    (hroom : s.outReady (s.unitsFor (c.width + clExtraBits i.number))) :
    ∃ t, exec i s = .next t.popCl ∧
      s.Appended (bitList c.width c.bits ++ bitList (clExtraBits i.number) x) t := by
  have h18 := codeLen_number_le ha
  have hi := decode_number i (wellFormed_of_alphabet (by rw [ha]; decide))
  rw [ha] at hi
  rcases Nat.lt_or_ge i.number 16 with h16 | h16
  · have hextra : clExtraBits i.number = 0 := if_pos h16
    obtain ⟨j, hj, hexec⟩ := width_word h16
    cases hj.symm.trans hi
    obtain ⟨t, hwrite, ht⟩ := (State.Appended.refl hs).encodeSymbol hroom (by simp) hcode hc
    refine ⟨t, ?_, by simpa [hextra, bitList] using ht⟩
    rw [hexec, widthSymbol, if_pos henc, hwrite]
    rfl
  · have hextra : clExtraBits i.number ≤ 16 := by unfold clExtraBits; split_ifs <;> decide
    obtain ⟨j, hj, hexec⟩ := repeat_word h16 h18
    cases hj.symm.trans hi
    obtain ⟨_, hwrite, t, rfl, ht⟩ := (codeAndExtra_yields (k := State.popCl) (value := State.clExtra) hs hroom hcode
      hc (fun t w => by rw [w.clExtra, State.clExtra, hseq]; rfl) hextra hx).outcome
    exact ⟨t, (hexec s henc).trans hwrite, ht⟩

/-- Settles O54: the code and the extra value are appended, then the symbol leaves the list. -/
theorem codeLengthSymbolsWritten : Obligations.CodeLengthSymbolsWritten := by
  intro i x rest c s ha henc hs hseq hx hcode hc hroom
  obtain ⟨t, hexec, ht⟩ := exec_codeLen_yields ha henc hs hseq hx hcode hc hroom
  obtain ⟨hok, hframe, hbits⟩ := ht.after (u := t.popCl)
  have hrest : t.enc.clSeq.tail = rest := by rw [ht.written.enc, hseq]; rfl
  refine ⟨t.popCl, hexec, hok, hframe, ?_, by rw [State.popCl, hrest], ?_⟩
  · simpa only [List.append_assoc] using hbits
  · rw [State.popCl_enc, hrest, ht.written.enc]

end Sys2Proof.Machine
end

section
/-! PROOFS. The encoder's choices (spec/43_deflate_encoder.md R352, R354, R371): the symbols of lengths and distances are
the greatest of their rows, and reading the run-length code back gives the width list. -/

namespace Sys2Proof.Machine

/-! ## The greatest base (R352, R354) -/

/-- No base at most the value lies behind the greatest one. -/
theorem le_greatestBase {bases : List Nat} (h : bases.Pairwise (· < ·)) {k v : Nat} (hk : k < bases.length)
    (hle : bases.getD k 0 ≤ v) : k ≤ greatestBase bases v := by
  have hcount := mt (fun hge => (countUpTo_bounds h v).2 k hge hk) (Nat.not_lt.2 hle)
  rw [greatestBase]
  omega

/-- A value from one base up to the next has the first as its greatest. -/
theorem greatestBase_eq {bases : List Nat} (h : bases.Pairwise (· < ·)) {stop k v : Nat} (hk : k < bases.length)
    (hle : bases.getD k 0 ≤ v) (hlt : v < (bases ++ [stop]).getD (k + 1) 0) : greatestBase bases v = k := by
  refine Nat.le_antisymm (Nat.le_of_not_lt fun hgt => ?_) (le_greatestBase h hk hle)
  have hnext : k + 1 < (bases.filter fun b => decide (b ≤ v)).length := by rw [greatestBase] at hgt; omega
  have hlen := List.length_filter_le (fun b => decide (b ≤ v)) bases
  rw [List.getD_append _ _ _ _ (by omega)] at hlt
  have := (countUpTo_bounds h v).1 (k + 1) hnext
  omega

/-! ## Lengths (R352) -/

/-- The rows of R159 below 285 are those of the first 28 bases, and 285 is for 258. -/
theorem lengthRows_bases : ∀ r ∈ lengthRows, (r.sym = 285 ∧ r.base = 258) ∨
    (257 ≤ r.sym ∧ r.sym - 257 < 28 ∧ r.base = (lenBase.take 28).getD (r.sym - 257) 0) := by decide

/-- The symbol and the extra value of a length below 258, by the greatest base. -/
theorem lenSym_of_ne {len : Nat} (h3 : 3 ≤ len) (h258 : len < 258) :
    let k := greatestBase (lenBase.take 28) len
    (lenSym len).1 = 257 + k ∧ k < 28 ∧ (lenBase.take 28).getD k 0 ≤ len ∧
      (lenSym len).2 = len - (lenBase.take 28).getD k 0 := by
  obtain ⟨hlt, hle, -⟩ := greatestBase_bounds (bases := lenBase.take 28) (v := len) (stop := 259) (by decide)
    ⟨3, by decide, h3⟩ (by omega)
  have hsame : ∀ k < 28, lenBase.getD k 0 = (lenBase.take 28).getD k 0 := by decide
  have hsym : lenSym len = (257 + greatestBase (lenBase.take 28) len,
      len - lenBase.getD (greatestBase (lenBase.take 28) len) 0) := if_neg (by omega)
  rw [hsym, hsame _ hlt]
  exact ⟨rfl, hlt, hle, rfl⟩

theorem lenSym_spec {len : Nat} (h3 : 3 ≤ len) (h258 : len ≤ 258) :
    (∃ r ∈ lengthRows, (lenSym len).1 = r.sym ∧ len = r.base + (lenSym len).2 ∧ (lenSym len).2 < 2 ^ r.extra ∧
      (len = 258 ↔ r.sym = 285)) ∧
    ∀ r ∈ lengthRows, r.base ≤ len → r.sym ≤ (lenSym len).1 := by
  rcases Nat.eq_or_lt_of_le h258 with rfl | hlt
  · exact ⟨⟨⟨.lensym285, 285, 0, 258⟩, by decide⟩, by decide⟩
  · obtain ⟨hsym, hk, hle, hextra⟩ := lenSym_of_ne h3 hlt
    refine ⟨?_, fun r hr hbase => ?_⟩
    · obtain ⟨r, hr, hrow, hfits⟩ := lenSym_row h3 h258
      rcases lengthRows_bases r hr with ⟨h285, -⟩ | ⟨-, -, hbase⟩
      · omega
      · rw [show r.sym - 257 = greatestBase (lenBase.take 28) len by omega] at hbase
        exact ⟨r, hr, hrow, by omega, by omega, by omega⟩
    · rcases lengthRows_bases r hr with ⟨-, h258'⟩ | ⟨-, hlt', heq⟩
      · omega
      · have := le_greatestBase (bases := lenBase.take 28) (by decide) hlt' (heq ▸ hbase)
        omega

/-! ## Distances (R354) -/

/-- The rows of R163 are those of the 30 bases, and each row's extra values reach up to the next base. -/
theorem distanceRows_bases : ∀ r ∈ distanceRows, r.sym < 30 ∧ r.base = distBase.getD r.sym 0 ∧
    r.base + 2 ^ r.extra = (distBase ++ [32769]).getD (r.sym + 1) 0 := by decide

/-- A row and an extra value in its range that give a distance are the distance's symbol and extra value. -/
theorem distSym_eq {d f : Nat} {r : SymRow} (hr : r ∈ distanceRows) (hd : d = r.base + f) (hf : f < 2 ^ r.extra) :
    distSym d = (r.sym, f) := by
  obtain ⟨hlt, hbase, hnext⟩ := distanceRows_bases r hr
  have hgreatest : greatestBase distBase d = r.sym :=
    greatestBase_eq (stop := 32769) (by decide) hlt (by omega) (by omega)
  rw [distSym, hgreatest, ← hbase, hd, Nat.add_sub_cancel_left]

theorem distSym_spec {d : Nat} (h1 : 1 ≤ d) (hmax : d ≤ 32768) :
    (∃ r ∈ distanceRows, (distSym d).1 = r.sym ∧ d = r.base + (distSym d).2 ∧ (distSym d).2 < 2 ^ r.extra) ∧
    ∀ r ∈ distanceRows, (r.base ≤ d → r.sym ≤ (distSym d).1) ∧
      ∀ f, d = r.base + f → f < 2 ^ r.extra → distSym d = (r.sym, f) := by
  refine ⟨?_, fun r hr => ⟨fun hle => ?_, fun f hd hf => distSym_eq hr hd hf⟩⟩
  · obtain ⟨-, hle, -⟩ := greatestBase_bounds (bases := distBase) (v := d) (stop := 32769) (by decide)
      ⟨1, by decide, h1⟩ (by omega)
    obtain ⟨r, hr, hrow, hfits⟩ := distSym_row h1 hmax
    obtain ⟨-, hbase, -⟩ := distanceRows_bases r hr
    have hd : d = r.base + (d - r.base) := by
      rw [hbase, ← hrow]
      exact (Nat.add_sub_of_le hle).symm
    rw [distSym_eq hr hd hfits]
    exact ⟨r, hr, rfl, hd, hfits⟩
  · obtain ⟨hlt, hbase, -⟩ := distanceRows_bases r hr
    exact le_greatestBase (by decide) hlt (hbase ▸ hle)

/-- Settles O55: both symbols are those of the greatest base, and the rows' ranges leave no other. -/
theorem lenSymAndDistSym : Obligations.LenSymAndDistSym :=
  ⟨fun _ h3 h258 => lenSym_spec h3 h258, fun _ h1 hmax => distSym_spec h1 hmax⟩

/-! ## The run-length code (R371) -/

/-- What is taken from a run of three or more is at least three, and never leaves one or two. -/
theorem repeatCount_spec {most r : Nat} (h6 : 6 ≤ most) (h3 : 3 ≤ r) :
    3 ≤ repeatCount most r ∧ repeatCount most r ≤ r ∧ (r - repeatCount most r = 0 ∨ 3 ≤ r - repeatCount most r) := by
  unfold repeatCount
  dsimp only
  split <;> omega

theorem replicate_append_tail {t r : Nat} (x : Nat) (h : t ≤ r) :
    List.replicate t x ++ List.replicate (r - t) x = List.replicate r x := by
  rw [List.replicate_append_replicate, Nat.add_sub_of_le h]

/-- Single widths expand to themselves (R465). -/
theorem expand_widths {x : Nat} (h : x < 16) (n : Nat) (v : List Nat) :
    (List.replicate n (x, 0)).foldl clExpandOne v = v ++ List.replicate n x := by
  induction n generalizing v with
  | zero => simp
  | succ n ih => rw [List.replicate_succ, List.foldl_cons, ih, clExpandOne, if_pos h, List.append_assoc]; rfl

/-- The symbols of a zero run expand to it (R467, R468). -/
theorem expand_rleZeros {fuel r : Nat} (hr : r = 0 ∨ 3 ≤ r) (hfuel : r ≤ fuel) (v : List Nat) :
    (rleZeros fuel r).foldl clExpandOne v = v ++ List.replicate r 0 := by
  induction fuel generalizing r v with
  | zero => simp [rleZeros, Nat.le_zero.1 hfuel]
  | succ fuel ih =>
    rw [rleZeros]
    split
    · next h0 => simp [h0]
    · obtain ⟨h3, hle, hrest⟩ := repeatCount_spec (most := 138) (by decide) (by omega : 3 ≤ r)
      have hone : clExpandOne v (if repeatCount 138 r ≤ 10 then (17, repeatCount 138 r - 3)
          else (18, repeatCount 138 r - 11)) = v ++ List.replicate (repeatCount 138 r) 0 := by
        split
        · exact congrArg (fun n => v ++ List.replicate n 0) (Nat.add_sub_of_le h3)
        · exact congrArg (fun n => v ++ List.replicate n 0) (Nat.add_sub_of_le (by omega))
      rw [List.foldl_cons, hone, ih hrest (by omega), List.append_assoc, replicate_append_tail 0 hle]

/-- The repeats behind a width expand to it (R466). -/
theorem expand_rleRepeats {fuel r x : Nat} (hr : r = 0 ∨ 3 ≤ r) (hfuel : r ≤ fuel) {v : List Nat}
    (hx : v.getLast? = some x) : (rleRepeats fuel r).foldl clExpandOne v = v ++ List.replicate r x := by
  induction fuel generalizing r v with
  | zero => simp [rleRepeats, Nat.le_zero.1 hfuel]
  | succ fuel ih =>
    rw [rleRepeats]
    split
    · next h0 => simp [h0]
    · obtain ⟨h3, hle, hrest⟩ := repeatCount_spec (most := 6) (by decide) (by omega : 3 ≤ r)
      have hone : clExpandOne v (16, repeatCount 6 r - 3) = v ++ List.replicate (repeatCount 6 r) x := by
        simp only [clExpandOne, hx, Option.getD_some, Nat.add_sub_of_le h3]
        rfl
      have hlast : (v ++ List.replicate (repeatCount 6 r) x).getLast? = some x := by
        rw [List.getLast?_append, List.getLast?_replicate, if_neg (by omega)]
        rfl
      dsimp only
      rw [List.foldl_cons, hone, ih hrest (by omega) hlast, List.append_assoc, replicate_append_tail x hle]

/-- The symbols of a run expand to it. -/
theorem expand_rleRun {x r : Nat} (hx : x ≤ 15) (hr : 1 ≤ r) (v : List Nat) :
    (rleRun x r).foldl clExpandOne v = v ++ List.replicate r x := by
  unfold rleRun
  split
  · next h0 =>
    subst h0
    split
    · exact expand_widths (by decide) r v
    · exact expand_rleZeros (by omega) (Nat.le_refl r) v
  · have hfirst : clExpandOne v (x, 0) = v ++ [x] := if_pos (Nat.lt_succ_of_le hx)
    have hrun : v ++ [x] ++ List.replicate (r - 1) x = v ++ List.replicate r x := by
      rw [List.append_assoc, ← replicate_append_tail x hr]
      rfl
    rw [List.foldl_cons, hfirst, ← hrun]
    split
    · exact expand_widths (Nat.lt_succ_of_le hx) _ _
    · exact expand_rleRepeats (by omega) (Nat.le_refl _) (by simp)

/-- The runs of a list spell it. -/
theorem flatMap_runsOf (v : List Nat) : (runsOf v).flatMap (fun run => List.replicate run.2 run.1) = v := by
  induction v with
  | nil => rfl
  | cons x rest ih =>
    unfold runsOf
    split
    · next y n more hmore =>
      rw [hmore] at ih
      split
      · next heq =>
        subst heq
        rw [← ih, List.flatMap_cons, List.flatMap_cons, List.replicate_succ]
        rfl
      · rw [List.flatMap_cons, ih]
        rfl
    · next hnil =>
      rw [hnil] at ih
      rw [← ih]
      rfl

/-- Runs one after the other expand to what they spell. -/
theorem expand_runs {runs : List (Nat × Nat)} (h : ∀ run ∈ runs, run.1 ≤ 15 ∧ 1 ≤ run.2) (v : List Nat) :
    (runs.flatMap fun run => rleRun run.1 run.2).foldl clExpandOne v =
      v ++ runs.flatMap fun run => List.replicate run.2 run.1 := by
  induction runs generalizing v with
  | nil => simp
  | cons run runs ih =>
    obtain ⟨⟨hx, hr⟩, hrest⟩ := List.forall_mem_cons.1 h
    rw [List.flatMap_cons, List.foldl_append, expand_rleRun hx hr, ih hrest, List.append_assoc, List.flatMap_cons]

/-- Settles O56: each run's symbols expand to the run, and the runs spell the list. -/
theorem runLengthCodeExpands : Obligations.RunLengthCodeExpands := by
  intro v hv
  have hruns : ∀ run ∈ runsOf v, run.1 ≤ 15 ∧ 1 ≤ run.2 := fun run hrun =>
    ⟨hv _ (mem_runsOf run hrun).1, (mem_runsOf run hrun).2⟩
  refine ⟨?_, rle_ok hv⟩
  rw [rle, expand_runs hruns, flatMap_runsOf, List.nil_append]

end Sys2Proof.Machine
end

section
/-! PROOFS. The encoder's own phases (spec/43_deflate_encoder.md R350, R356, R357, R370 to R374): a chunk's read, the scan
of a chunk pass by pass, and the tables of a dynamic block. -/

namespace Sys2Proof.Machine

/-! ## A chunk's read (R350) -/

/-- The chunk sizes of R350 (R11). -/
theorem Mode.blockSize_eq (m : Mode) : m.blockSize = if m = .raw then 65535 else 1048576 := by
  cases m <;> rfl

/-- A byte that is not backed ends the read before it changes anything (R110). -/
theorem memReadAll_unbacked {a n k : Nat} {s : State} (hk : k < n) (h : s.plat.busOk (a + k) = false) :
    memReadAll a n s = .raised .busError s := by
  induction n generalizing a k with
  | zero => omega
  | succ n ih =>
    rw [memReadAll]
    cases hb : s.plat.busOk a with
    | false => rw [memRead_unbacked hb, Res.andThen_raised]
    | true =>
      obtain ⟨k, rfl⟩ : ∃ j, k = j + 1 := by
        cases k with
        | zero => simp [hb] at h
        | succ k => exact ⟨k, rfl⟩
      rw [memRead_backed hb, Res.andThen_ok, ih (k := k) (by omega) (by rwa [Nat.add_assoc, Nat.add_comm 1]),
        Res.andThen_raised]

theorem step_loadChunk {s : State} (h : s.atPhase .loadChunk) : step s = (loadChunk s).outcome := by
  obtain ⟨hmoves, hseq⟩ := h
  rw [step_engine hmoves, engine, hseq]

/-- `Raw` has no symbols and no scan (R356). -/
theorem takeChunk_raw {s : State} (chunk : List Byte) (hm : s.run.mode = .raw) : s.takeChunk chunk = { s with
    sum := s.sum.addAll chunk
    enc := { s.enc with chunk := chunk, scanPos := 0, prefixTable := [], syms := [] }
    seq := .busy .writeBlock } := by
  simp [State.takeChunk, hm, Mode.afterSyms]

/-- With no window the chunk's symbols are its literals (R356). -/
theorem takeChunk_literals {s : State} (chunk : List Byte) (hm : s.run.mode ≠ .raw) (hw : s.run.win = none) :
    s.takeChunk chunk = { s with
      sum := s.sum.addAll chunk
      enc := { s.enc with chunk := chunk, scanPos := 0, prefixTable := [], syms := literalSyms chunk }
      seq := .busy s.run.mode.afterSyms } := by
  simp [State.takeChunk, hm, hw]

/-- With a window the scan follows (R356, R54). -/
theorem takeChunk_scan {s : State} (chunk : List Byte) (hm : s.run.mode ≠ .raw) (hw : s.run.win ≠ none) :
    s.takeChunk chunk = { s with
      sum := s.sum.addAll chunk
      enc := { s.enc with chunk := chunk, scanPos := 0, prefixTable := [], syms := [] }
      seq := .busy .scanChunk } := by
  have hscan : (s.run.mode != .raw && s.run.win.isSome) = true := by
    rw [Bool.and_eq_true]
    exact ⟨bne_iff_ne.2 hm, Option.isSome_iff_ne_none.2 hw⟩
  simp [State.takeChunk, hscan]

/-- Settles O21: the read answers the chunk's bytes or, at a byte that is not backed, an error; what follows is decided
by the mode and the window. -/
theorem chunkRead : Obligations.ChunkRead := by
  intro s hp size start len chunk next literals
  have hstart : s.chunkStart = start := by rw [State.chunkStart, Mode.blockSize_eq]
  have hlen : s.chunkLen = len := by rw [State.chunkLen, hstart, Mode.blockSize_eq]
  have haddr (k : Nat) : s.srcByte (start + k) = s.srcByte s.chunkStart + k := by
    rw [hstart, State.srcByte, State.srcByte, Nat.add_assoc]
  refine ⟨fun hbacked => ?_, fun ⟨k, hk, hunbacked⟩ => ?_⟩
  · have hbytes : (List.range s.chunkLen).map (fun k => s.mem.read (s.srcByte s.chunkStart + k)) = chunk := by
      rw [hlen]
      exact List.map_congr_left fun k _ => by rw [haddr]
    have hstep : step s = .next (s.takeChunk chunk) := by
      rw [step_loadChunk hp, loadChunk_backed fun k hk => haddr k ▸ hbacked k (hlen ▸ hk), hbytes, Res.outcome_ok]
    rw [hstep]
    refine ⟨fun hm => ?_, fun hm hw => ?_, fun hm hw => ?_, fun hm hw => ?_⟩
    · rw [takeChunk_raw chunk hm]
    · rw [takeChunk_literals chunk (by rw [hm]; decide) hw, hm]
      rfl
    · rw [takeChunk_literals chunk (by rw [hm]; decide) hw, hm]
      rfl
    · rw [takeChunk_scan chunk hm hw]
  · rw [step_loadChunk hp, loadChunk, memReadAll_unbacked (hlen.symm ▸ hk) (haddr k ▸ hunbacked), Res.andThen_raised,
      Res.outcome_raised]

/-! ## The scan of a chunk (R303, R356) -/

/-- The scan state that the machine holds (R54). -/
def State.scan (s : State) : Scan := ⟨s.enc.scanPos, s.enc.prefixTable, s.enc.syms⟩

/-- The machine holding a scan state. -/
def State.withScan (s : State) (c : Scan) : State :=
  { s with enc := { s.enc with scanPos := c.pos, prefixTable := c.table, syms := c.out } }

theorem scanChunk_pass {s : State} (h : s.scan.pos < s.enc.chunk.length) :
    scanChunk s = s.withScan (lzStep s.run.window s.enc.chunk s.scan) := if_pos h

theorem scanChunk_end {s : State} (h : s.enc.chunk.length ≤ s.scan.pos) :
    (scanChunk s).enc.syms = s.scan.out ++ [.endOfBlock] ∧ (scanChunk s).seq = .busy s.run.mode.afterSyms := by
  have hend : ¬ s.enc.scanPos < s.enc.chunk.length := Nat.not_lt.2 h
  rw [scanChunk, if_neg hend]
  exact ⟨rfl, rfl⟩

/-- A repetition's first pass may be taken first. -/
theorem repeat_succ_first {α : Type} (f : α → α) (n : Nat) (a : α) :
    Nat.repeat f (n + 1) a = Nat.repeat f n (f a) := by
  induction n with
  | zero => rfl
  | succ n ih => exact congrArg f ih

/-- Some number of the machine's passes is the loop of R303. -/
theorem scanChunk_loop (fuel : Nat) (s : State) :
    ∃ n, Nat.repeat scanChunk n s = s.withScan (lzLoop s.run.window s.enc.chunk fuel s.scan) := by
  induction fuel generalizing s with
  | zero => exact ⟨0, rfl⟩
  | succ fuel ih =>
    rw [lzLoop]
    split
    · next hpos =>
      obtain ⟨n, hn⟩ := ih (scanChunk s)
      refine ⟨n + 1, ?_⟩
      rw [repeat_succ_first, hn, scanChunk_pass hpos]
      rfl
    · exact ⟨0, rfl⟩

/-- Settles O58: the loop's passes bring the scan to the chunk's end, and one more step appends `EndOfBlock`. -/
theorem scanStepsAddUpToLz77 : Obligations.ScanStepsAddUpToLz77 := by
  intro s window _ hwin _ hpos htable hsyms
  have hscan : s.scan = ⟨0, [], []⟩ := by rw [State.scan, hpos, htable, hsyms]
  have hwindow : s.run.window = window := by rw [Run.window, hwin]; rfl
  obtain ⟨n, hn⟩ := scanChunk_loop s.enc.chunk.length s
  rw [hscan, hwindow] at hn
  have hend := (lzLoop_faithful (scanStart_faithful window s.enc.chunk) (fuel := s.enc.chunk.length) (by simp)).2
  obtain ⟨hout, hseq⟩ := scanChunk_end (s := Nat.repeat scanChunk n s) (by rw [hn]; exact hend.ge)
  refine ⟨n + 1, hout.trans (by rw [hn]; rfl), hseq.trans ?_⟩
  rw [hn]
  show Seq.busy s.run.mode.afterSyms = _
  cases s.run.mode <;> rfl

/-! ## Frequency counters (R370, R372) -/

/-- Counting indices counts each as often as it stands in the list. -/
theorem foldl_bump_getD {f : List Nat} {n : Nat} (hn : n < f.length) (l : List Nat) :
    (l.foldl bump f).getD n 0 = f.getD n 0 + l.count n := by
  induction l generalizing f with
  | nil => rfl
  | cons i l ih =>
    have hlen := (bump_countsUp f i).length
    rw [List.foldl_cons, ih (hlen ▸ hn), List.count_cons]
    by_cases h : i = n
    · subst h
      rw [bump_getD f hn, beq_self_eq_true, if_pos rfl]
      omega
    · have hother : (bump f i).getD n 0 = f.getD n 0 := by
        simp [bump, List.getD_eq_getElem?_getD, List.getElem?_set_ne h]
      rw [hother, if_neg (by simpa using h), Nat.add_zero]

/-- A block's counters count its literal/length symbols and its distance symbols. -/
theorem freqs_eq (syms : List Sym) : freqs syms =
    ((syms.map Sym.litLenSym).foldl bump (List.replicate 286 0),
      (syms.filterMap Sym.distanceSym).foldl bump (List.replicate 30 0)) := by
  suffices h : ∀ f : List Nat × List Nat, syms.foldl countSym f =
      ((syms.map Sym.litLenSym).foldl bump f.1, (syms.filterMap Sym.distanceSym).foldl bump f.2) from h _
  induction syms with
  | nil => exact fun f => rfl
  | cons x rest ih =>
    intro f
    rw [List.foldl_cons, ih]
    cases x <;> rfl

theorem freqs_fst_getD (syms : List Sym) {n : Nat} (hn : n < 286) :
    (freqs syms).1.getD n 0 = syms.countP fun x => x.litLenSym == n := by
  rw [freqs_eq, foldl_bump_getD (by rwa [List.length_replicate]), List.getD_replicate _ hn, Nat.zero_add, List.count,
    List.countP_map]
  rfl

theorem freqs_snd_getD (syms : List Sym) {n : Nat} (hn : n < 30) :
    (freqs syms).2.getD n 0 = syms.countP fun x => x.distanceSym == some n := by
  rw [freqs_eq, foldl_bump_getD (by rwa [List.length_replicate]), List.getD_replicate _ hn, Nat.zero_add, List.count,
    List.countP_filterMap]
  refine List.countP_congr fun x _ => ?_
  cases x.distanceSym <;> simp

theorem clFreqs_getD (seq : List (Nat × Nat)) {n : Nat} (hn : n < 19) :
    (clFreqs seq).getD n 0 = seq.countP fun c => c.1 == n := by
  have hmap : clFreqs seq = (seq.map Prod.fst).foldl bump (List.replicate 19 0) := List.foldl_map.symm
  rw [hmap, foldl_bump_getD (by rwa [List.length_replicate]), List.getD_replicate _ hn, Nat.zero_add, List.count,
    List.countP_map]
  rfl

theorem clFreqs_length (seq : List (Nat × Nat)) : (clFreqs seq).length = 19 :=
  (foldl_bump seq (List.replicate 19 0)).1.length.trans (List.length_replicate ..)

/-! ## Header counts (R374) -/

/-- Behind the used part of a list stand zeros, and its last entry is none. -/
theorem usedPrefix_spec (l : List Nat) :
    (∀ n, usedPrefix l ≤ n → l.getD n 0 = 0) ∧ (0 < usedPrefix l → 0 < l.getD (usedPrefix l - 1) 0) := by
  induction l with
  | nil => simp [usedPrefix]
  | cons x rest ih =>
    obtain ⟨hzero, hlast⟩ := ih
    rw [usedPrefix]
    split
    · next hrest =>
      rw [hrest] at hzero
      refine ⟨fun n hn => ?_, fun hpos => ?_⟩
      · cases n with
        | zero =>
          have hx : x = 0 := by by_contra hne; rw [if_neg hne] at hn; omega
          exact hx
        | succ n => exact hzero n (Nat.zero_le n)
      · by_cases hx : x = 0
        · rw [if_pos hx] at hpos
          omega
        · rw [if_neg hx]
          exact Nat.pos_of_ne_zero hx
    · next hrest =>
      obtain ⟨k, hk⟩ := Nat.exists_eq_succ_of_ne_zero hrest
      rw [hk] at hzero hlast ⊢
      refine ⟨fun n hn => ?_, fun _ => hlast (Nat.succ_pos k)⟩
      cases n with
      | zero => omega
      | succ n => exact hzero n (by omega)

/-- A header count is one more than the last used index, and at least the count's least value (R374). -/
theorem headerCount_spec (least : Nat) (l : List Nat) :
    let count := max least (usedPrefix l)
    least ≤ count ∧ count ≤ max least l.length ∧ (∀ n, count ≤ n → l.getD n 0 = 0) ∧
      (least < count → 0 < l.getD (count - 1) 0) := by
  obtain ⟨hzero, hlast⟩ := usedPrefix_spec l
  have hlen := usedPrefix_le_length l
  refine ⟨Nat.le_max_left .., by omega, fun n hn => hzero n (by omega), fun hlt => ?_⟩
  rw [show max least (usedPrefix l) = usedPrefix l by omega]
  exact hlast (by omega)

theorem headerWidths_length (cl : List Nat) : (headerWidths cl).length = 19 := List.length_map ..

theorem headerWidths_getD (cl : List Nat) {k : Nat} (hk : k < 19) :
    (headerWidths cl).getD k 0 = cl.getD (clOrder.getD k 0) 0 := by
  have hlen : k < clOrder.length := hk
  rw [headerWidths, List.getD_eq_getElem _ _ (by rwa [List.length_map]), List.getElem_map,
    List.getD_eq_getElem clOrder _ hlen]

/-- Settles O25: the counters count, the header counts end at the last used entry, and the rest is R357's as it
stands. -/
theorem dynamicTablesBuilt : Obligations.DynamicTablesBuilt := by
  intro s ⟨hmoves, hseq⟩
  refine ⟨(buildTables s).enc, ?_, ?_⟩
  · rw [step_engine hmoves, engine, hseq]
    rfl
  intro ll dl cl order
  obtain ⟨hlitLen, hdistLen⟩ := freqs_length s.enc.syms
  have hll : ll.length = 286 := (codeLengths_fit s.plat _ (by decide)).1.trans hlitLen
  have hdl : dl.length = 30 := (codeLengths_fit s.plat _ (by decide)).1.trans hdistLen
  obtain ⟨hlit, hlit', hlitZero, hlitLast⟩ := headerCount_spec 257 ll
  obtain ⟨hdist, hdist', hdistZero, hdistLast⟩ := headerCount_spec 1 dl
  obtain ⟨hclen, hclen', hclenZero, hclenLast⟩ := headerCount_spec 4 (headerWidths cl)
  rw [hll] at hlit'
  rw [hdl] at hdist'
  rw [headerWidths_length] at hclen'
  refine ⟨⟨hlitLen, fun n hn => freqs_fst_getD _ hn⟩, ⟨hdistLen, fun n hn => freqs_snd_getD _ hn⟩,
    ⟨clFreqs_length _, fun n hn => clFreqs_getD _ hn⟩, ⟨hlit, hlit', hlitZero, hlitLast⟩,
    ⟨hdist, hdist', hdistZero, hdistLast⟩, ⟨hclen, hclen', fun k hk hk19 => ?_, fun hlt => ?_⟩,
    rfl, rfl, rfl, rfl, rfl, rfl⟩
  · exact (headerWidths_getD cl hk19).symm.trans (hclenZero k hk)
  · exact (hclenLast hlt).trans_eq (headerWidths_getD cl (by omega))

end Sys2Proof.Machine
end

section
/-! PROOFS. What a decompression reads and emits, operation by operation: input bits and bytes that are there, bytes
that are emitted one after the other, stored data and overlapping copies (spec/40_bitstream.md R210,
spec/20_memory.md R112, spec/44_inflate_decoder.md R451, R472). -/

namespace Sys2Proof.Machine

/-! ## Input that is there -/

section Ready
variable {s : State} {m n p : Nat}

theorem State.bitsReady.le (h : s.bitsReady n) (hmn : m ≤ n) : s.bitsReady m :=
  ⟨Nat.le_trans (Nat.add_le_add_left hmn _) h.1, fun k hk => h.2 k (Nat.lt_of_lt_of_le hk hmn)⟩

theorem State.bitsReady.skip (h : s.bitsReady (m + n)) : (s.setInBit (s.dec.inBit + m)).bitsReady n := by
  obtain ⟨hlen, hok⟩ := h
  refine ⟨by rw [State.setInBit_inBit, State.setInBit_reg]; omega, fun k hk => ?_⟩
  have := hok (m + k) (by omega)
  rwa [← Nat.add_assoc] at this

theorem State.bytesReady.le (h : s.bytesReady p n) (hmn : m ≤ n) : s.bytesReady p m :=
  ⟨Nat.le_trans (Nat.add_le_add_left hmn _) h.1, fun k hk => h.2 k (Nat.lt_of_lt_of_le hk hmn)⟩

/-- Whole bytes are eight bits each (R113). -/
theorem State.bytesReady.bits (h : s.bytesReady p n) : (s.setInBit (8 * p)).bitsReady (8 * n) := by
  obtain ⟨hlen, hok⟩ := h
  refine ⟨by rw [State.setInBit_inBit, State.setInBit_reg]; omega, fun k hk => ?_⟩
  have := hok (k / 8) (by omega)
  rwa [State.setInBit_inBit, State.setInBit_plat, State.setInBit_srcByte,
    show (8 * p + k) / 8 = p + k / 8 by omega]

theorem State.inputBytes_length (s : State) (p n : Nat) : (s.inputBytes p n).length = n := by simp [State.inputBytes]

theorem State.inputBytes_getElem (s : State) {k : Nat} (h : k < (s.inputBytes p n).length) :
    (s.inputBytes p n)[k] = s.mem.read (s.srcByte (p + k)) := by simp [State.inputBytes]

theorem State.inputBytes_succ (s : State) (p n : Nat) :
    s.inputBytes p (n + 1) = s.inputBytes p n ++ [s.mem.read (s.srcByte (p + n))] := by
  simp [State.inputBytes, List.range_succ]

/-- A field that ends `k` bits on, when the bits before it were read (R213). -/
theorem readBitsBase_after {base k : Nat} (hk : m + n = k) (h : s.bitsReady k) :
    readBitsBase n base (s.setInBit (s.dec.inBit + m)) =
      .ok (base + s.streamBits (s.dec.inBit + m) n) (s.setInBit (s.dec.inBit + k)) := by
  subst hk
  rw [readBitsBase_ready h.skip, State.setInBit_inBit, Nat.add_assoc]
  rfl

theorem readBitsBase_short_after {base k : Nat} (hk : m + n = k) (h : 8 * s.reg.srcLen.toNat < s.dec.inBit + k) :
    readBitsBase n base (s.setInBit (s.dec.inBit + m)) =
      .raised .unexpectedEndOfInput (s.setInBit (s.dec.inBit + m)) := by
  subst hk
  rw [← Nat.add_assoc] at h
  exact readBitsBase_short h

end Ready

theorem Res.andThen_assoc {α β γ : Type} (r : Res α) (k : α → State → Res β) (l : β → State → Res γ) :
    (r.andThen k).andThen l = r.andThen fun a s => (k a s).andThen l := by
  cases r <;> rfl

/-! ## Bytes emitted one after the other (R112, R655) -/

section Emitting
variable {s : State} {bs : List Byte} {n a : Nat}

/-- Emitting bytes stores them from the output's end on and runs the checksums over them. -/
theorem State.emittedAll_eq (s : State) (bs : List Byte) : s.emittedAll bs =
    { s with
      mem := s.mem.writeAll (s.dstByte s.outPos) bs, outPos := s.outPos + bs.length, sum := s.sum.addAll bs } := by
  induction bs generalizing s with
  | nil => rfl
  | cons b rest ih =>
    have hlen : s.outPos + (b :: rest).length = s.outPos + 1 + rest.length := by rw [List.length_cons]; omega
    rw [hlen]
    exact ih (s.emittedOut b)

@[simp] theorem State.emittedAll_reg : (s.emittedAll bs).reg = s.reg := by rw [State.emittedAll_eq]
@[simp] theorem State.emittedAll_dec : (s.emittedAll bs).dec = s.dec := by rw [State.emittedAll_eq]
@[simp] theorem State.emittedAll_plat : (s.emittedAll bs).plat = s.plat := by rw [State.emittedAll_eq]
@[simp] theorem State.emittedAll_outPos : (s.emittedAll bs).outPos = s.outPos + bs.length := by
  rw [State.emittedAll_eq]
@[simp] theorem State.emittedAll_srcByte (k : Nat) : (s.emittedAll bs).srcByte k = s.srcByte k := by
  rw [State.emittedAll_eq]; rfl
@[simp] theorem State.emittedAll_dstByte (k : Nat) : (s.emittedAll bs).dstByte k = s.dstByte k := by
  rw [State.emittedAll_eq]; rfl

/-- The reader's position and the output do not see each other. -/
theorem State.emittedAll_setInBit (s : State) (bs : List Byte) (n : Nat) :
    (s.emittedAll bs).setInBit n = (s.setInBit n).emittedAll bs := by
  rw [State.emittedAll_eq, State.emittedAll_eq]
  rfl

theorem State.emittedAll_concat (s : State) (bs : List Byte) (b : Byte) :
    s.emittedAll (bs ++ [b]) = (s.emittedAll bs).emittedOut b := List.foldl_append

/-- Emitted bytes leave the rest of memory alone. -/
theorem State.emittedAll_read_outside (h : s.outside s.outPos (s.outPos + bs.length) a) :
    (s.emittedAll bs).mem.read a = s.mem.read a := by
  rw [State.emittedAll_eq]
  refine Memory.read_writeAll_outside _ _ _ ?_
  unfold State.outside State.dstByte at h
  unfold State.dstByte
  omega

/-- Emitted bytes stand where the output ended. -/
theorem State.emittedAll_read_inside {k : Nat} (h : k < bs.length) :
    (s.emittedAll bs).mem.read (s.dstByte (s.outPos + k)) = bs[k] := by
  rw [State.emittedAll_eq, show s.dstByte (s.outPos + k) = s.dstByte s.outPos + k from (Nat.add_assoc ..).symm]
  exact Memory.read_writeAll_inside _ _ _ h

theorem State.outReady.le {m : Nat} (h : s.outReady n) (hmn : m ≤ n) : s.outReady m :=
  ⟨Nat.le_trans (Nat.add_le_add_left hmn _) h.1, fun k hk => h.2 k (Nat.lt_of_lt_of_le hk hmn)⟩

theorem emitOut_full {b : Byte} (h : s.outPos = s.reg.dstCap.toNat) : emitOut b s = .raised .outputOverflow s := by
  rw [emitOut, emit_full h, Res.andThen_raised]

theorem emitOut_unbacked {b : Byte} (hcap : s.outPos ≠ s.reg.dstCap.toNat)
    (hb : s.plat.busOk (s.dstByte s.outPos) = false) : emitOut b s = .raised .busError s := by
  rw [emitOut, emit_unbacked hcap hb, Res.andThen_raised]

/-- With room for one byte more than those emitted, one more is emitted. -/
theorem emitOut_emittedAll (b : Byte) (h : s.outReady (bs.length + 1)) :
    emitOut b (s.emittedAll bs) = .ok () (s.emittedAll (bs ++ [b])) := by
  obtain ⟨hcap, hbacked⟩ := h
  rw [State.emittedAll_concat]
  refine emitOut_ready ?_ ?_
  · rw [State.emittedAll_outPos, State.emittedAll_reg]
    omega
  · rw [State.emittedAll_plat, State.emittedAll_dstByte, State.emittedAll_outPos]
    exact hbacked _ (Nat.lt_succ_self _)

end Emitting

/-! ## Stored data (R451) -/

section Stored
variable {s : State} {p m : Nat}

/-- A stored block's first `m` data bytes, which begin at input byte `p`, are read and emitted. -/
def State.copiedStored (s : State) (p m : Nat) : State := (s.setInBit (8 * (p + m))).emittedAll (s.inputBytes p m)

theorem State.copiedStored_read_inside {k : Nat} (hk : k < m) :
    (s.copiedStored p m).mem.read (s.dstByte (s.outPos + k)) = s.mem.read (s.srcByte (p + k)) := by
  have hlt : k < (s.inputBytes p m).length := by rwa [State.inputBytes_length]
  exact (State.emittedAll_read_inside (s := s.setInBit _) hlt).trans (s.inputBytes_getElem hlt)

theorem State.copiedStored_read_outside {a : Nat} (ha : s.outside s.outPos (s.outPos + m) a) :
    (s.copiedStored p m).mem.read a = s.mem.read a := by
  rw [← s.inputBytes_length p m] at ha
  exact State.emittedAll_read_outside (s := s.setInBit _) ha

/-- Output with room for it never covers input that is present (R107). -/
theorem State.outside_srcByte {j : Nat} (hregions : s.regionsOk true) (hin : j < s.reg.srcLen.toNat)
    (hout : s.outReady m) : s.outside s.outPos (s.outPos + m) (s.srcByte j) := by
  obtain ⟨-, hdst⟩ := hregions
  obtain ⟨-, hsrc | hcap | hbelow | habove⟩ := hdst rfl
  · simp [hsrc] at hin
  · have := hout.1
    simp only [hcap, BitVec.toNat_ofNat, Nat.zero_mod] at this
    unfold State.outside State.dstByte
    omega
  all_goals
    have := hout.1
    unfold State.outside State.dstByte State.srcByte
    omega

/-- A whole byte is read as its value (R113). -/
theorem readBits_byte (hpos : s.dec.inBit = 8 * p) (hin : s.bytesReady p 1) :
    readBits 8 s = .ok (s.mem.read (s.srcByte p)).toNat (s.setInBit (8 * (p + 1))) := by
  have hready : (s.setInBit (8 * p)).bitsReady 8 := hin.bits
  rw [← hpos, State.setInBit_self] at hready
  rw [readBits_ready hready, hpos, streamBits_byte]
  rfl

/-- The data byte after those copied is the input's, whatever was written (R107). -/
theorem readBits_copiedStored (hregions : s.regionsOk true) (hin : s.bytesReady p (m + 1)) (hout : s.outReady m) :
    readBits 8 (s.copiedStored p m) = .ok (s.mem.read (s.srcByte (p + m))).toNat
      ((s.setInBit (8 * (p + m + 1))).emittedAll (s.inputBytes p m)) := by
  obtain ⟨hlen, hok⟩ := hin
  have hread : (s.copiedStored p m).mem.read (s.srcByte (p + m)) = s.mem.read (s.srcByte (p + m)) :=
    State.copiedStored_read_outside (State.outside_srcByte hregions hlen hout)
  have hnext : (s.copiedStored p m).bytesReady (p + m) 1 := by
    refine ⟨by rwa [State.copiedStored, State.emittedAll_reg], fun k hk => ?_⟩
    rw [State.copiedStored, State.emittedAll_plat, State.emittedAll_srcByte, Nat.add_assoc]
    exact hok _ (by omega)
  rw [readBits_byte (by rw [State.copiedStored, State.emittedAll_dec]; rfl) hnext, State.copiedStored,
    State.emittedAll_setInBit, State.emittedAll_srcByte]
  exact congrArg (fun b : Byte => Res.ok b.toNat _) hread

/-- Data that is present, and for which there is room, is copied byte by byte (R451). -/
theorem copyStored_copies (hregions : s.regionsOk true) (hin : s.bytesReady p m) (hout : s.outReady m) (n : Nat) :
    copyStored (m + n) (s.setInBit (8 * p)) = copyStored n (s.copiedStored p m) := by
  induction m generalizing n with
  | zero => rw [Nat.zero_add]; rfl
  | succ m ih =>
    have hout' : (s.setInBit (8 * (p + m + 1))).outReady ((s.inputBytes p m).length + 1) := by
      rwa [State.inputBytes_length]
    rw [Nat.add_right_comm, Nat.add_assoc, ih (hin.le (Nat.le_succ m)) (hout.le (Nat.le_succ m)), copyStored,
      readBits_copiedStored hregions hin (hout.le (Nat.le_succ m)), Res.andThen_ok, BitVec.ofNat_toNat,
      BitVec.setWidth_eq, emitOut_emittedAll _ hout', Res.andThen_ok, ← State.inputBytes_succ]
    rfl

/-- Data whose bytes all are present, and for which there is room, is copied to its end. -/
theorem copyStored_all (hregions : s.regionsOk true) (hin : s.bytesReady p m) (hout : s.outReady m) :
    copyStored m (s.setInBit (8 * p)) = .ok () (s.copiedStored p m) := copyStored_copies hregions hin hout 0

/-- The input ends within the data (R451). -/
theorem copyStored_short {n : Nat} (hregions : s.regionsOk true) (hin : s.bytesReady p m) (hout : s.outReady m)
    (hmn : m < n) (hend : s.reg.srcLen.toNat = p + m) :
    copyStored n (s.setInBit (8 * p)) = .raised .unexpectedEndOfInput (s.copiedStored p m) := by
  obtain ⟨r, rfl⟩ : ∃ r, n = m + (r + 1) := ⟨n - m - 1, by omega⟩
  rw [copyStored_copies hregions hin hout, copyStored, readBits_short ?_, Res.andThen_raised]
  rw [State.copiedStored, State.emittedAll_reg, State.emittedAll_dec, State.setInBit_reg, State.setInBit_inBit, hend]
  exact Nat.lt_add_of_pos_right (by decide)

/-- The output is full within the data; the byte that does not fit has been read (R451, R112). -/
theorem copyStored_full {n : Nat} (hregions : s.regionsOk true) (hin : s.bytesReady p (m + 1)) (hout : s.outReady m)
    (hmn : m < n) (hend : s.outPos + m = s.reg.dstCap.toNat) :
    copyStored n (s.setInBit (8 * p)) = .raised .outputOverflow
      ((s.setInBit (8 * (p + m + 1))).emittedAll (s.inputBytes p m)) := by
  obtain ⟨r, rfl⟩ : ∃ r, n = m + (r + 1) := ⟨n - m - 1, by omega⟩
  rw [copyStored_copies hregions (hin.le (Nat.le_succ m)) hout, copyStored, readBits_copiedStored hregions hin hout,
    Res.andThen_ok, emitOut_full ?_, Res.andThen_raised]
  rw [State.emittedAll_outPos, State.inputBytes_length, State.emittedAll_reg]
  exact hend

end Stored

/-! ## Copies (R472) -/

section Copy
variable {s : State} {d m : Nat}

/-- The bytes an overlapping copy from `d` back yields: the last `d` output bytes, over and over (R472). -/
def State.backBytes (s : State) (d n : Nat) : List Byte :=
  (List.range n).map fun k => s.mem.read (s.dstByte (s.outPos - d + k % d))

theorem State.backBytes_length (s : State) (d n : Nat) : (s.backBytes d n).length = n := by simp [State.backBytes]

theorem State.backBytes_getElem? (s : State) (d : Nat) {k n : Nat} (h : k < n) :
    (s.backBytes d n)[k]? = some (s.mem.read (s.dstByte (s.outPos - d + k % d))) := by
  simp [State.backBytes, h]

/-- The first `d` bytes are the output's, and every later one is the byte `d` before it (R472). -/
theorem State.backBytes_repeats (s : State) {k n : Nat} (hd : 1 ≤ d) (h : k < n) : (s.backBytes d n)[k]? =
    if k < d then some (s.mem.read (s.dstByte (s.outPos - d + k))) else (s.backBytes d n)[k - d]? := by
  rw [State.backBytes_getElem? s d h]
  split
  · next hk => rw [Nat.mod_eq_of_lt hk]
  · next hk =>
    rw [State.backBytes_getElem? s d (by omega), Nat.mod_eq_sub_mod (Nat.le_of_not_lt hk)]

/-- What `d` back from the end reads after `m` bytes were copied: an output byte, or one of those copied (R472). -/
theorem State.read_backBytes (hd : 1 ≤ d) (hle : d ≤ s.outPos) (m : Nat) :
    (s.emittedAll (s.backBytes d m)).mem.read (s.dstByte (s.outPos + m - d)) =
      s.mem.read (s.dstByte (s.outPos - d + m % d)) := by
  rcases Nat.lt_or_ge m d with hm | hm
  · rw [Nat.mod_eq_of_lt hm, show s.outPos + m - d = s.outPos - d + m by omega]
    refine State.emittedAll_read_outside (.inl ?_)
    unfold State.dstByte
    omega
  · have hlt : m - d < (s.backBytes d m).length := by rw [State.backBytes_length]; omega
    rw [show s.outPos + m - d = s.outPos + (m - d) by omega, State.emittedAll_read_inside hlt, Nat.mod_eq_sub_mod hm]
    exact Option.some_inj.1 ((List.getElem?_eq_getElem hlt).symm.trans (s.backBytes_getElem? d (by omega)))

/-- A copy with room for it emits its bytes one after the other, each read after the one before it was written
(R472). -/
theorem copyLoop_copies (hd : 1 ≤ d) (hle : d ≤ s.outPos) (hout : s.outReady m)
    (hback : ∀ k, k < s.outPos → s.plat.busOk (s.dstByte k) = true) (n : Nat) :
    copyLoop d (m + n) s = copyLoop d n (s.emittedAll (s.backBytes d m)) := by
  induction m generalizing n with
  | zero => rw [Nat.zero_add]; rfl
  | succ m ih =>
    have hout' : s.outReady ((s.backBytes d m).length + 1) := by rwa [State.backBytes_length]
    have hbacked : s.plat.busOk (s.dstByte (s.outPos + m - d)) = true := by
      rcases Nat.lt_or_ge m d with hm | hm
      · exact hback _ (by omega)
      · rw [show s.outPos + m - d = s.outPos + (m - d) by omega]
        exact hout.2 _ (by omega)
    have hread : back d (s.emittedAll (s.backBytes d m)) = .ok (s.mem.read (s.dstByte (s.outPos - d + m % d)))
        (s.emittedAll (s.backBytes d m)) := by
      rw [back, State.emittedAll_outPos, State.emittedAll_dstByte, State.backBytes_length, memRead_backed,
        State.read_backBytes hd hle]
      rwa [State.emittedAll_plat]
    rw [Nat.add_right_comm, Nat.add_assoc, ih (hout.le (Nat.le_succ m)), copyLoop, hread, Res.andThen_ok,
      emitOut_emittedAll _ hout', Res.andThen_ok]
    congr 2
    simp [State.backBytes, List.range_succ]

theorem copy_all (hd : 1 ≤ d) (hle : d ≤ s.outPos) (hout : s.outReady m)
    (hback : ∀ k, k < s.outPos → s.plat.busOk (s.dstByte k) = true) :
    copy m d s = .ok () (s.emittedAll (s.backBytes d m)) := by
  rw [copy, if_neg (Nat.not_lt.2 hle)]
  exact copyLoop_copies hd hle hout hback 0

theorem copy_tooFar (h : s.outPos < d) : copy m d s = .raised .distanceTooFarBack s := if_pos h

end Copy

end Sys2Proof.Machine
end

section
/-! PROOFS. The symbols a decompression reads (spec/44_inflate_decoder.md R470 to R472, R500, R501, R520 to R581):
literals, the end of a block, lengths and distances. -/

namespace Sys2Proof.Machine

/-- The direction of a decompression: the instruction's reading half. -/
theorem ite_reads {α : Sort*} {s : State} (h : s.run.op.encodes = false) (x y : α) :
    (if s.run.op.encodes then x else y) = y := if_neg (by rw [h]; decide)

/-! ## Literals and the end of a block (R500, R501) -/

/-- Settles O31: the three answers of `Emit` are the statement's three clauses. -/
theorem literalsRead : Obligations.LiteralsRead := by
  intro i s ha hn hread b
  obtain ⟨c, hc, hexec⟩ := exec_literal ha hn
  obtain rfl : c = b := BitVec.eq_of_toNat_eq (by rw [hc, BitVec.toNat_ofNat, Nat.mod_eq_of_lt hn])
  rw [hexec, literal, ite_reads hread]
  refine ⟨fun ⟨hcap, hbacked⟩ => ⟨_, ?_, rfl, rfl, Memory.read_write_same .., fun a h => Memory.read_write_other _ _ h⟩,
    fun hfull => ?_, fun hcap hb => ?_⟩
  · rw [emitOut_ready (by omega) (hbacked 0 Nat.zero_lt_one), Res.outcome_ok]
  · rw [emitOut_full hfull, Res.outcome_raised]
  · rw [emitOut_unbacked hcap hb, Res.outcome_raised]

/-- Settles O32: `BFINAL` and the operation say what follows a block. -/
theorem endOfBlockRead : Obligations.EndOfBlockRead := by
  intro s hread u
  rw [exec, execEob_read hread]
  have last (h : s.dec.bfinal = true) : s.endBlockRead = s.endStream := if_pos h
  refine ⟨fun h => ?_, fun h hop => ?_, fun h hop => ?_, fun h hop => ?_⟩
  · rw [State.endBlockRead, h]
    rfl
  · rw [last h, State.endStream, hop]
    rfl
  · rw [last h, State.endStream, hop]
    rfl
  · have hout : (alignIn s).run.op.hasOutput = true := congrArg Op.hasOutput hop
    have hsum : (alignIn s).finalChecksum = s.reg.checksum := by
      rw [State.finalChecksum, show (alignIn s).run.op = .inflate from hop]
      rfl
    rw [last h, State.endStream, hop]
    dsimp only
    rw [State.finish, hsum, if_pos hout]
    rfl

/-! ## Lengths and distances (R470 to R472) -/

/-- Settles O33: a length symbol is its base and its extra bits. -/
theorem lengthSymbolsRead : Obligations.LengthSymbolsRead := by
  intro r hr s hread
  obtain ⟨-, hnumber, -⟩ := lengthRows_word r hr
  rw [exec_lengthRow hr, lengthSymbol, ite_reads hread]
  refine ⟨hnumber, fun hready => ?_, fun hshort => ?_⟩
  · rw [readBitsBase_ready hready]
    rfl
  · rw [readBitsBase_short hshort]
    rfl

theorem distanceRows_base : ∀ row ∈ distanceRows, 1 ≤ row.base := by decide

/-- Settles O34: a distance symbol is its base and its extra bits, and the copy yields the bytes from that far back. -/
theorem distanceSymbolsRead : Obligations.DistanceSymbolsRead := by
  intro r hr s hread
  obtain ⟨-, hnumber, -⟩ := distanceRows_word r hr
  rw [exec_distanceRow hr, distanceSymbol, ite_reads hread]
  refine ⟨hnumber, fun hshort => ?_, fun hready => ?_⟩
  · rw [readBitsBase_short hshort]
    rfl
  intro d u
  have hd : 1 ≤ d := Nat.le_add_right_of_le (distanceRows_base r hr)
  rw [readBitsBase_ready hready, Res.andThen_ok]
  refine ⟨fun hfar => ?_, fun hle hout hback => ?_⟩
  · rw [copy_tooFar (s := u) hfar]
    rfl
  have hlen := State.backBytes_length u d s.dec.length
  refine ⟨u.backBytes d s.dec.length, hlen, fun k hk => u.backBytes_repeats hd hk, ?_, fun k hk => ?_, fun a ha => ?_⟩
  · rw [show u.dec.length = s.dec.length from rfl, copy_all (s := u) hd hle hout hback]
    rfl
  · have hlt : k < (u.backBytes d s.dec.length).length := by rwa [hlen]
    exact (congrArg some (State.emittedAll_read_inside hlt)).trans (List.getElem?_eq_getElem hlt).symm
  · exact State.emittedAll_read_outside (s := u) (by rwa [hlen])

/-- Settles O35: these three instructions raise in every state. -/
theorem invalidSymbolsRaise : Obligations.InvalidSymbolsRaise := fun _ _ => ⟨rfl, rfl, rfl⟩

end Sys2Proof.Machine
end

section
/-! PROOFS. Blocks that are read (spec/44_inflate_decoder.md R450 to R469): the block header, the block types and
the code-width list of a dynamic header. -/

namespace Sys2Proof.Machine

/-! ## The block header (R450) -/

theorem readBlockHeader_ready {s : State} (h : s.bitsReady 3) : readBlockHeader s =
    .ok (s.streamBits (s.dec.inBit + 1) 2)
      ((s.setInBit (s.dec.inBit + 3)).latchFinal (s.streamBits s.dec.inBit 1)) := by
  have htype : ((s.setInBit (s.dec.inBit + 1)).latchFinal (s.streamBits s.dec.inBit 1)).bitsReady 2 :=
    State.bitsReady.skip (m := 1) h
  rw [readBlockHeader, readBits_ready (h.le (by decide)), Res.andThen_ok, readBits_ready htype]
  rfl

/-- Settles O26: the step reads the three bits, and the type's word is its instruction's. -/
theorem blockHeaderRead : Obligations.BlockHeaderRead := by
  intro s hphase
  obtain ⟨hruns, hraises, -⟩ := stepRunsTheFetchedInstruction
  refine ⟨fun hready => ?_, fun hshort => ?_, fun hone hshort => ?_⟩
  · intro u
    have hfetch (w : Nat) (i : Instr) (hw : s.streamBits (s.dec.inBit + 1) 2 = w)
        (hi : decode .blockType w = .ok i) : step s = exec i u :=
      hruns s u .readBlock w i hphase rfl (hw ▸ readBlockHeader_ready hready) hi
    exact ⟨fun hw => hfetch 0 _ hw rfl, fun hw => hfetch 1 _ hw rfl, fun hw => hfetch 2 _ hw rfl,
      fun hw => hfetch 3 _ hw rfl⟩
  · refine hraises s s .readBlock _ hphase rfl ?_
    rw [nextWord, readBlockHeader, readBits_short hshort, Res.andThen_raised]
  · intro u
    refine hraises s u .readBlock _ hphase rfl ?_
    rw [nextWord, readBlockHeader, readBits_ready hone, Res.andThen_ok]
    exact readBits_short hshort

/-! ## Stored blocks (R451) -/

/-- The two length fields of a stored block, and what becomes of its data (R451). -/
theorem readStored_lengths {s : State} {q : Nat} (hq : alignIn s = s.setInBit (8 * q)) (h : s.bytesReady q 4) :
    readStored s =
      if s.streamBits (8 * q + 16) 16 ≠ s.streamBits (8 * q) 16 ^^^ 0xFFFF then
        .raised .storedBlockLengthMismatch (s.setInBit (8 * (q + 4)))
      else (copyStored (s.streamBits (8 * q) 16) (s.setInBit (8 * (q + 4)))).andThen fun _ t =>
        .ok () t.endBlockRead := by
  have hbits : (s.setInBit (8 * q)).bitsReady (16 + 16) := h.bits
  rw [readStored, hq, readBits_ready (hbits.le (by decide)), Res.andThen_ok, readBits_ready hbits.skip, Res.andThen_ok]
  rfl

/-- Settles O27: the two length fields, then the data byte by byte to its end, or to the byte that is missing or does
not fit. -/
theorem storedBlockRead : Obligations.StoredBlockRead := by
  intro s hread hregions q len nlen
  have hq : alignIn s = s.setInBit (8 * q) := rfl
  have hlens (h : s.bytesReady q 4) (heq : nlen = len ^^^ 0xFFFF) : readStored s =
      (copyStored len (s.setInBit (8 * (q + 4)))).andThen fun _ t => .ok () t.endBlockRead := by
    rw [readStored_lengths hq h, if_neg (not_not.2 heq)]
  rw [exec, execBtype0, ite_reads hread]
  refine ⟨fun hshort => ?_, fun h hshort => ?_, fun h hne => ?_, fun h heq hin hout => ?_,
    fun m hm h heq hin hout => ⟨fun hend => ?_, fun hin' hend => ?_⟩⟩
  · have hlack : 8 * s.reg.srcLen.toNat < 8 * q + 16 := by omega
    rw [readStored, hq, readBits_short hlack]
    rfl
  · have hlack : 8 * s.reg.srcLen.toNat < 8 * q + 16 + 16 := by omega
    have hbits : (s.setInBit (8 * q)).bitsReady 16 := h.bits
    rw [readStored, hq, readBits_ready hbits, Res.andThen_ok, readBits_short hlack]
    rfl
  · rw [readStored_lengths hq h, if_pos hne]
    rfl
  · refine ⟨?_, fun k hk => State.copiedStored_read_inside hk, fun a ha => State.copiedStored_read_outside ha⟩
    rw [hlens h heq, copyStored_all hregions hin hout]
    rfl
  · rw [hlens h heq, copyStored_short hregions hin hout hm hend]
    rfl
  · rw [hlens h heq, copyStored_full hregions hin' hout hm hend]
    rfl

/-! ## Static blocks (R452, R455) -/

/-- Settles O28: the tables are those of the fixed widths, which are R156's in each of its ranges. -/
theorem staticBlockRead : Obligations.StaticBlockRead := by
  refine ⟨fun s hread => ?_, length_fixedLitLenWidths, rfl, fun n hn => ?_⟩
  · rw [exec, execBtype1, ite_reads hread]
    rfl
  · rw [getD_fixedLitLenWidths hn, fixedLitLenCode]
    split_ifs <;> rfl

/-! ## Dynamic blocks: the header up to its code-width list (R453, R460, R461) -/

section Dynamic
variable {s : State} {k n : Nat}

/-- The `n` three-bit widths from a stream position on (R461). -/
def State.streamWidths (s : State) (pos n : Nat) : List Nat :=
  (List.range n).map fun k => s.streamBits (pos + 3 * k) 3

/-- The first `k` code-length widths are read when their bits are there (R461). -/
theorem readClWidths_reads (h : s.bitsReady (3 * k)) (n : Nat) : readClWidths (k + n) s =
    (readClWidths n (s.setInBit (s.dec.inBit + 3 * k))).andThen fun ws t =>
      .ok (s.streamWidths s.dec.inBit k ++ ws) t := by
  induction k generalizing n with
  | zero =>
    rw [Nat.zero_add]
    show _ = (readClWidths n s).andThen fun ws t => .ok ws t
    cases readClWidths n s <;> rfl
  | succ k ih =>
    have hnext : (s.setInBit (s.dec.inBit + 3 * k)).bitsReady 3 := State.bitsReady.skip h
    rw [Nat.add_right_comm, Nat.add_assoc, ih (h.le (by omega)), readClWidths, readBits_ready hnext, Res.andThen_ok,
      Res.andThen_assoc]
    simp only [State.streamWidths, List.range_succ, List.map_append, List.append_assoc]
    rfl

theorem readClWidths_ready (h : s.bitsReady (3 * k)) :
    readClWidths k s = .ok (s.streamWidths s.dec.inBit k) (s.setInBit (s.dec.inBit + 3 * k)) := by
  have := readClWidths_reads h 0
  rwa [readClWidths, Res.andThen_ok, List.append_nil] at this

/-- The input ends within width `k` (R461). -/
theorem readClWidths_short (h : s.bitsReady (3 * k)) (hk : k < n)
    (hend : 8 * s.reg.srcLen.toNat < s.dec.inBit + 3 * (k + 1)) :
    readClWidths n s = .raised .unexpectedEndOfInput (s.setInBit (s.dec.inBit + 3 * k)) := by
  obtain ⟨r, rfl⟩ : ∃ r, n = k + (r + 1) := ⟨n - k - 1, by omega⟩
  rw [readClWidths_reads h, readClWidths, readBits_short ?_, Res.andThen_raised, Res.andThen_raised]
  exact hend

/-- The counts of a dynamic header, and then its widths (R460). -/
theorem readDynamic_counts (h : s.bitsReady 14) : readDynamic s =
    (readClWidths (4 + s.streamBits (s.dec.inBit + 10) 4) (s.setInBit (s.dec.inBit + 14))).andThen fun read t =>
      .ok () (t.beginWidths (257 + s.streamBits s.dec.inBit 5) (1 + s.streamBits (s.dec.inBit + 5) 5) read) := by
  rw [readDynamic, readBitsBase_ready (h.le (by decide)), Res.andThen_ok,
    readBitsBase_after (k := 10) rfl (h.le (by decide)), Res.andThen_ok, readBitsBase_after rfl h, Res.andThen_ok]

/-- `CL_ORDER` lists every code-length symbol once (R161). -/
theorem clOrder_lists : ∀ k < 19, clOrder.getD k 0 < 19 ∧ clOrder.idxOf (clOrder.getD k 0) = k := by decide

/-- The widths read go to the symbols in the order of `CL_ORDER` (R461). -/
theorem clWidthsOf_getD (read : List Nat) (hk : k < 19) :
    (clWidthsOf read).getD (clOrder.getD k 0) 0 = read.getD k 0 := by
  obtain ⟨hlt, hidx⟩ := clOrder_lists k hk
  have hlt' : clOrder.getD k 0 < (clWidthsOf read).length := by simpa [clWidthsOf, Config.clAlphabetSize] using hlt
  rw [List.getD_eq_getElem _ _ hlt']
  simp only [clWidthsOf, List.getElem_map, List.getElem_range, hidx]

end Dynamic

/-- Settles O29: the three counts, then the widths in `CL_ORDER`, each field whole or missing. -/
theorem dynamicHeaderRead : Obligations.DynamicHeaderRead := by
  intro s hread order hlit hdist hclen endsAfter
  have h19 : hclen ≤ 19 := by
    have := streamBits_lt s (s.dec.inBit + 10) 4
    show 4 + s.streamBits (s.dec.inBit + 10) 4 ≤ 19
    omega
  have hexec : exec .btype2 s = (readDynamic s).outcome := by rw [exec, execBtype2, ite_reads hread]
  have ends {n : Nat} (h : readDynamic s = .raised .unexpectedEndOfInput (s.setInBit (s.dec.inBit + n))) :
      endsAfter n := hexec.trans (by rw [h]; rfl)
  refine ⟨fun hready => ?_, fun hshort => ends ?_, fun h5 hshort => ends ?_, fun h10 hshort => ends ?_,
    fun k hk h hshort => ends ?_⟩
  · have hlen : (s.streamWidths (s.dec.inBit + 14) hclen).length = hclen := by simp [State.streamWidths]
    refine ⟨clWidthsOf (s.streamWidths (s.dec.inBit + 14) hclen), by simp [clWidthsOf, Config.clAlphabetSize],
      fun k hk => ?_, fun k hk hk19 => ?_, ?_⟩
    · refine (clWidthsOf_getD _ (by omega)).trans ?_
      rw [List.getD_eq_getElem _ _ (by rwa [hlen])]
      simp [State.streamWidths]
    · exact (clWidthsOf_getD _ hk19).trans (List.getD_eq_default _ _ (by rwa [hlen]))
    · have hwidths : (s.setInBit (s.dec.inBit + 14)).bitsReady (3 * hclen) := hready.skip
      rw [hexec, readDynamic_counts (hready.le (by omega)), readClWidths_ready hwidths, Res.andThen_ok, Res.outcome_ok,
        State.setInBit_inBit, State.setInBit_setInBit, Nat.add_assoc]
      rfl
  · rw [readDynamic, readBitsBase_short hshort, Res.andThen_raised]
    rfl
  · rw [readDynamic, readBitsBase_ready h5, Res.andThen_ok, readBitsBase_short_after rfl hshort, Res.andThen_raised]
  · rw [readDynamic, readBitsBase_ready (h10.le (by decide)), Res.andThen_ok, readBitsBase_after rfl h10,
      Res.andThen_ok, readBitsBase_short_after rfl hshort, Res.andThen_raised]
  · have hwidths : (s.setInBit (s.dec.inBit + 14)).bitsReady (3 * k) := h.skip
    rw [readDynamic_counts (h.le (by omega)), readClWidths_short hwidths hk hshort, Res.andThen_raised,
      State.setInBit_inBit, State.setInBit_setInBit, Nat.add_assoc]

/-! ## Dynamic blocks: the code-width list (R463 to R469) -/

/-- Appending to the width list is R463's three cases. -/
theorem appendWidths_appended (ws : List Nat) (s : State) : s.WidthsAppended ws (appendWidths ws s).outcome := by
  have hdec : (s.pushWidths ws).dec = { s.dec with widths := s.dec.widths ++ ws } := rfl
  simp only [appendWidths, hdec]
  refine ⟨fun hlt => ?_, fun heq => ?_, fun hgt => ?_⟩
  · rw [if_neg (by omega), if_neg (by omega)]
    rfl
  · have hdist : ((s.dec.widths ++ ws).drop s.dec.hlit).take s.dec.hdist = (s.dec.widths ++ ws).drop s.dec.hlit :=
      List.take_of_length_le (by rw [List.length_drop]; omega)
    rw [if_neg (by omega), if_pos heq.symm, Res.outcome_ok, State.endWidths, hdec, hdist]
    rfl
  · rw [if_pos hgt]
    rfl

theorem readClZeros_appended {s : State} {extra : Nat} (h : s.bitsReady extra) (base : Nat) :
    (s.setInBit (s.dec.inBit + extra)).WidthsAppended
      (List.replicate (base + s.streamBits s.dec.inBit extra) 0) (readClZeros extra base s).outcome := by
  rw [readClZeros, readBitsBase_ready h]
  exact appendWidths_appended ..

theorem readClZeros_short {s : State} {extra : Nat} (h : 8 * s.reg.srcLen.toNat < s.dec.inBit + extra) (base : Nat) :
    readClZeros extra base s = .raised .unexpectedEndOfInput s := by
  rw [readClZeros, readBitsBase_short h, Res.andThen_raised]

/-- A repeat with a previous width reads how often (R466). -/
theorem readClRepeat_previous {s : State} {w : Nat} (h : s.dec.widths.getLast? = some w) :
    readClRepeat s = (readBitsBase 2 3 s).andThen fun r t => appendWidths (List.replicate r w) t := by
  rw [readClRepeat, h]

/-- A word below 16 of the code-length alphabet is that width (R465). -/
theorem exec_width {i : Instr} (ha : i.alphabet = .codeLen) (hn : i.number < 16) (s : State) :
    exec i s = (widthSymbol i.number s).outcome := by
  obtain ⟨j, hj, hexec⟩ := width_word hn
  have hi := decode_number i (wellFormed_of_alphabet (by rw [ha]; decide))
  rw [ha, hj] at hi
  cases hi
  exact hexec s

/-- Settles O30: each symbol appends what it stands for once its extra bits are read. -/
theorem codeLengthSymbolsRead : Obligations.CodeLengthSymbolsRead := by
  intro s hread
  have h16 : exec .cl16 s = (readClRepeat s).outcome := by rw [exec, execCl16, ite_reads hread]
  have h17 : exec .cl17 s = (readClZeros 3 3 s).outcome := by rw [exec, execCl17, ite_reads hread]
  have h18 : exec .cl18 s = (readClZeros 7 11 s).outcome := by rw [exec, execCl18, ite_reads hread]
  rw [h16, h17, h18]
  refine ⟨fun i ha hn => ?_, fun hnone => ?_, fun w hw hready => ?_, fun h => readClZeros_appended h 3,
    fun h => readClZeros_appended h 11, fun hsome hshort => ?_, fun h => ?_, fun h => ?_⟩
  · rw [exec_width ha hn, widthSymbol, ite_reads hread]
    exact appendWidths_appended ..
  · rw [readClRepeat, hnone]
    rfl
  · rw [readClRepeat_previous hw, readBitsBase_ready hready]
    exact appendWidths_appended ..
  · rw [readClRepeat_previous (List.getLast?_eq_some_getLast hsome), readBitsBase_short hshort]
    rfl
  · rw [readClZeros_short h, Res.outcome_raised]
  · rw [readClZeros_short h, Res.outcome_raised]

end Sys2Proof.Machine
end

section
/-! PROOFS. The checksums (spec/45_containers_checksums.md R650 to R654): a computation goes on from what it has
reached, the nibble table is four bit steps, and reducing the Adler sums once is reducing them byte by byte. -/

namespace Sys2Proof.Machine

/-! ## Going on with a computation (R654) -/

theorem crc32From_append (c : Word) (a b : List Byte) :
    crc32From c (a ++ b) = crc32From (crc32From c a ^^^ 0xFFFFFFFF#32) b := by
  simp only [crc32From, List.foldl_append, BitVec.xor_assoc, BitVec.xor_self, BitVec.xor_zero]

theorem adler32From_append (p : Nat × Nat) (a b : List Byte) :
    adler32From p (a ++ b) = adler32From (a.foldl adlerByte p) b := by
  rw [adler32From, List.foldl_append, adler32From]

/-- The Adler pair starts reduced and stays so (R652). -/
theorem foldl_adlerByte_reduced {p : Nat × Nat} (bs : List Byte) (h : p.1 < 65521 ∧ p.2 < 65521) :
    (bs.foldl adlerByte p).1 < 65521 ∧ (bs.foldl adlerByte p).2 < 65521 := by
  induction bs generalizing p with
  | nil => exact h
  | cons b rest ih => exact ih ⟨Nat.mod_lt _ (by decide), Nat.mod_lt _ (by decide)⟩

theorem adlerValue_toNat {p : Nat × Nat} (h1 : p.1 < 65521) (h2 : p.2 < 65521) :
    (adlerValue p).toNat = 65536 * p.2 + p.1 := by
  rw [adlerValue, BitVec.toNat_ofNat, Nat.mod_eq_of_lt (by omega)]

/-- A reduced pair is read back from its halves (R652). -/
theorem adlerValue_halves {p : Nat × Nat} (h1 : p.1 < 65521) (h2 : p.2 < 65521) :
    ((adlerValue p).toNat % 65536, (adlerValue p).toNat / 65536) = p := by
  rw [adlerValue_toNat h1 h2]
  exact Prod.ext (by dsimp only; omega) (by dsimp only; omega)

/-- Settles O23: both registers after `a` are read back from its checksum. -/
theorem checksumChunkIndependence : Obligations.ChecksumChunkIndependence := by
  intro a b
  obtain ⟨h1, h2⟩ := foldl_adlerByte_reduced (p := (1, 0)) a (by decide)
  refine ⟨crc32From_append _ a b, ?_⟩
  rw [adler32Of, adler32From_append, adler32Of, adler32From.eq_def (1, 0), adlerValue_halves h1 h2]

/-! ## The CRC bit by bit (R650, R651) -/

/-- One bit through the reflected CRC of polynomial `0xEDB88320`. -/
def crcBit (c : Word) : Word := (c >>> 1) ^^^ (if c.getLsbD 0 then 0xEDB88320#32 else 0#32)

/-- The bit step is linear. -/
theorem crcBit_xor (x y : Word) : crcBit (x ^^^ y) = crcBit x ^^^ crcBit y := by
  have hfeedback (p q : Bool) (k : Word) : (if (p ^^ q) = true then k else 0#32) =
      (if p = true then k else 0#32) ^^^ (if q = true then k else 0#32) := by
    cases p <;> cases q <;> simp
  rw [crcBit, BitVec.getLsbD_xor, hfeedback, BitVec.ushiftRight_xor_distrib, crcBit, crcBit]
  ac_rfl

theorem crcBit_repeat_xor (n : Nat) (x y : Word) :
    Nat.repeat crcBit n (x ^^^ y) = Nat.repeat crcBit n x ^^^ Nat.repeat crcBit n y := by
  induction n with
  | zero => rfl
  | succ n ih => exact (congrArg crcBit ih).trans (crcBit_xor _ _)

/-- A register that ends in zeros is only shifted. -/
theorem crcBit_repeat_shift {n : Nat} {x : Word} (h : ∀ i < n, x.getLsbD i = false) :
    Nat.repeat crcBit n x = x >>> n := by
  induction n with
  | zero => rfl
  | succ n ih =>
    have hbit : (x >>> n).getLsbD 0 = false := by simpa using h n (Nat.lt_succ_self n)
    calc Nat.repeat crcBit (n + 1) x
      _ = crcBit (x >>> n) := congrArg crcBit (ih fun i hi => h i (Nat.lt_succ_of_lt hi))
      _ = x >>> n >>> 1 := by rw [crcBit, hbit, if_neg Bool.false_ne_true, BitVec.xor_zero]
      _ = x >>> (n + 1) := (BitVec.shiftRight_add x n 1).symm

/-- The nibble table is four bit steps of each nibble (R651). -/
theorem crcTable_eq : ∀ k < 16, crcTable.getD k 0#32 = Nat.repeat crcBit 4 (BitVec.ofNat 32 k) := by decide

/-- A nibble step is four bit steps: of the low nibble the table's, of the bits above it a shift (R650). -/
theorem crcNibble_eq (c : Word) : crcNibble c = Nat.repeat crcBit 4 c := by
  have hlow (i : Nat) : (BitVec.ofNat 32 (c.toNat % 16)).getLsbD i = (decide (i < 4) && c.getLsbD i) := by
    rw [BitVec.getLsbD_ofNat, show 16 = 2 ^ 4 from rfl, Nat.testBit_mod_two_pow, BitVec.testBit_toNat]
    by_cases hi : i < 4
    · simp [hi, show i < 32 by omega]
    · simp [hi]
  generalize hl : BitVec.ofNat 32 (c.toNat % 16) = low at hlow
  have hsplit : c = (c ^^^ low) ^^^ low := by rw [BitVec.xor_assoc, BitVec.xor_self, BitVec.xor_zero]
  have hhigh : ∀ i < 4, (c ^^^ low).getLsbD i = false := fun i hi => by
    rw [BitVec.getLsbD_xor, hlow, decide_eq_true hi, Bool.true_and, Bool.xor_self]
  have hshift : (c ^^^ low) >>> 4 = c >>> 4 := by
    ext i
    simp [hlow]
  calc crcNibble c
    _ = (c ^^^ low) >>> 4 ^^^ Nat.repeat crcBit 4 low := by
      rw [crcNibble, crcTable_eq _ (Nat.mod_lt _ (by decide)), hl, hshift]
    _ = Nat.repeat crcBit 4 (c ^^^ low) ^^^ Nat.repeat crcBit 4 low := by rw [crcBit_repeat_shift hhigh]
    _ = Nat.repeat crcBit 4 c := by rw [← crcBit_repeat_xor, ← hsplit]

/-! ## The Adler sums reduced once (R652, R653) -/

/-- One byte through the Adler sums without reduction. -/
def adlerSum (p : Nat × Nat) (b : Byte) : Nat × Nat := (p.1 + b.toNat, p.2 + (p.1 + b.toNat))

/-- Reduction before a byte and reduction behind it come to the same. -/
theorem adlerByte_mod (p : Nat × Nat) (b : Byte) :
    adlerByte (p.1 % 65521, p.2 % 65521) b = ((adlerSum p b).1 % 65521, (adlerSum p b).2 % 65521) := by
  simp [adlerByte, adlerSum, Config.adlerMod]

theorem foldl_adlerByte_mod (bs : List Byte) (p : Nat × Nat) : bs.foldl adlerByte (p.1 % 65521, p.2 % 65521) =
    ((bs.foldl adlerSum p).1 % 65521, (bs.foldl adlerSum p).2 % 65521) := by
  induction bs generalizing p with
  | nil => rfl
  | cons b rest ih => rw [List.foldl_cons, adlerByte_mod, ih, List.foldl_cons]

/-- Settles O24: a byte is two nibbles of four bit steps each, and the reduced pair is the exact sums' residues. -/
theorem checksumFormsAgree : Obligations.ChecksumFormsAgree := by
  refine ⟨fun crc b => ?_, fun bytes => ?_⟩
  · rw [crcByte, crcNibble_eq, crcNibble_eq]
    rfl
  · have hlt (n : Nat) : n % 65521 < 65521 := Nat.mod_lt n (by decide)
    have hfold : bytes.foldl adlerByte (1, 0) = _ := foldl_adlerByte_mod bytes (1, 0)
    rw [adler32Of, adler32From, hfold]
    exact adlerValue_toNat (hlt _) (hlt _)

end Sys2Proof.Machine
end

section
/-! PROOFS. Container records that are read (spec/45_containers_checksums.md R620 to R641): a record's bytes are
there or missing, the step runs the instruction they spell, and each record's checks end it as its rule says. -/

namespace Sys2Proof.Machine

/-! ## Bytes that are there, and bytes that are missing -/

section Record
variable {s t : State} {p n : Nat}

theorem needBytes_present (h : p + n ≤ s.reg.srcLen.toNat) : needBytes p n s = .ok () s := if_neg (Nat.not_lt.2 h)

theorem needBytes_short (h : s.reg.srcLen.toNat < p + n) : needBytes p n s = .raised .unexpectedEndOfInput s := if_pos h

theorem inBytes_ready (h : s.bytesReady p n) : inBytes p n s = .ok (s.inputBytes p n) s := by
  obtain ⟨-, hbacked⟩ := h
  rw [inBytes, memReadAll_backed fun k hk => by rw [State.srcByte, Nat.add_assoc]; exact hbacked k hk]
  simp only [State.inputBytes, State.srcByte, Nat.add_assoc]

theorem inByte_ready (h : s.bytesReady p n) {k : Nat} (hk : k < n) :
    inByte (p + k) s = .ok (s.mem.read (s.srcByte (p + k))) s := memRead_backed (h.2 k hk)

/-- Two bytes are one little-endian value (R115). -/
theorem inHalf_ready (h : s.bytesReady p 2) : inHalf p s =
    .ok ((s.mem.read (s.srcByte p)).toNat + 256 * (s.mem.read (s.srcByte (p + 1))).toNat) s := by
  have hfirst : inByte p s = _ := inByte_ready h (k := 0) Nat.zero_lt_two
  rw [inHalf, hfirst, Res.andThen_ok, inByte_ready h Nat.one_lt_two]
  rfl

theorem recordBytes_ready (h : s.bytesReady s.inPos n) :
    recordBytes n s = .ok (s.inputBytes s.inPos n) (s.setInBit (8 * (s.inPos + n))) := by
  rw [recordBytes, needBytes_present h.1, Res.andThen_ok, inBytes_ready h]
  rfl

theorem recordBytes_short (h : s.reg.srcLen.toNat < s.inPos + n) :
    recordBytes n s = .raised .unexpectedEndOfInput s := by
  rw [recordBytes, needBytes_short h, Res.andThen_raised]

/-! ## The step of a record -/

/-- The step runs the instruction whose number is the phase's next word. -/
theorem step_of_number {ph : Phase} {i : Instr} (hp : s.atPhase ph) (hint : ph.internal = false)
    (ha : (nextWord ph s).1 = i.alphabet) (hi : i.alphabet ≠ .command)
    (hw : (nextWord ph s).2 = .ok i.number t) : step s = exec i t :=
  stepRunsTheFetchedInstruction.1 s t ph i.number i hp hint hw (ha ▸ decode_number i (wellFormed_of_alphabet hi))

/-- The phase's next word is a record of `n` bytes, whose number `f` gives (R623, R630, R640). -/
def ReadsRecord (ph : Phase) (s : State) (n : Nat) (f : List Byte → Nat) : Prop :=
  ph.internal = false ∧ (nextWord ph s).2 = (recordBytes n s).andThen fun bytes s => .ok (f bytes) s

variable {ph : Phase} {f : List Byte → Nat}

theorem step_record_short (hp : s.atPhase ph) (hr : ReadsRecord ph s n f) (h : s.reg.srcLen.toNat < s.inPos + n) :
    step s = .next (s.raise .unexpectedEndOfInput) := by
  obtain ⟨hint, hword⟩ := hr
  refine stepRunsTheFetchedInstruction.2.1 s s ph _ hp hint ?_
  rw [hword, recordBytes_short h, Res.andThen_raised]

/-- A record that is there runs the instruction its bytes spell, the reader past them. -/
theorem step_record {i : Instr} (hp : s.atPhase ph) (hr : ReadsRecord ph s n f) (h : s.bytesReady s.inPos n)
    (ha : (nextWord ph s).1 = i.alphabet) (hi : i.alphabet ≠ .command) (hf : f (s.inputBytes s.inPos n) = i.number) :
    step s = exec i (s.setInBit (8 * (s.inPos + n))) := by
  obtain ⟨hint, hword⟩ := hr
  refine step_of_number hp hint ha hi ?_
  rw [hword, recordBytes_ready h, Res.andThen_ok, hf]

end Record

/-! ## zlib headers (R620 to R622) -/

/-- The checks of R621 in arithmetic, in the rule's order. -/
theorem zlibCheck_eq (cmf flg : Byte) : zlibCheck cmf flg =
    if cmf.toNat % 16 ≠ 8 then some .invalidMethod
    else if 7 < cmf.toNat / 16 then some .invalidWindowSize
    else if (cmf.toNat * 256 + flg.toNat) % 31 ≠ 0 then some .headerChecksumMismatch
    else if flg.toNat / 32 % 2 = 1 then some .presetDictionaryUnsupported
    else none := by
  have hmethod : cmf.extractLsb' 0 4 = 8#4 ↔ cmf.toNat % 16 = 8 := by
    rw [← BitVec.toNat_inj, BitVec.extractLsb'_toNat, Nat.shiftRight_zero]
    rfl
  have hwindow : (cmf.extractLsb' 4 4).toNat = cmf.toNat / 16 := by
    rw [BitVec.extractLsb'_toNat, Nat.shiftRight_eq_div_pow]
    omega
  have hdict : flg.getLsbD 5 = true ↔ flg.toNat / 32 % 2 = 1 := by
    rw [BitVec.getLsbD, Nat.testBit_eq_decide_div_mod_eq, decide_eq_true_eq]
  simp only [zlibCheck, ne_eq, hmethod, hwindow, hdict]

/-- Settles O41: the checks are the rule's, one after the other, on the two bytes read one after the other. -/
theorem zlibHeaderChecks : Obligations.ZlibHeaderChecks := by
  refine ⟨fun cmf flg s => ?_, fun s hp hstart => ⟨fun hready => ?_, fun hempty => ?_, fun hone hready => ?_⟩⟩
  · have raises {e : CodecError} (h : zlibCheck cmf flg = some e) :
        exec (.zlibHeaderRead cmf flg) s = .next (s.raise e) := by rw [exec, execZlibHeaderRead, h]
    have passes (h : zlibCheck cmf flg = none) :
        exec (.zlibHeaderRead cmf flg) s = .next (s.goto .readBlock) := by rw [exec, execZlibHeaderRead, h]
    rw [zlibCheck_eq] at raises passes
    refine ⟨fun hm => raises ?_, fun hm hw => raises ?_, fun hm hw hc => raises ?_, fun hm hw hc hd => raises ?_,
      fun hm hw hc hd => passes ?_⟩
    · rw [if_pos hm]
    · rw [if_neg (not_not.2 hm), if_pos hw]
    · rw [if_neg (not_not.2 hm), if_neg (by omega), if_pos hc]
    · rw [if_neg (not_not.2 hm), if_neg (by omega), if_neg (not_not.2 hc), if_pos hd]
    · rw [if_neg (not_not.2 hm), if_neg (by omega), if_neg (not_not.2 hc), if_neg (by omega)]
  · have hsecond : (s.setInBit 8).bytesReady 1 1 := by
      refine ⟨hready.1, fun k hk => ?_⟩
      obtain rfl : k = 0 := Nat.lt_one_iff.1 hk
      exact hready.2 1 Nat.one_lt_two
    refine step_of_number hp rfl rfl nofun ?_
    rw [nextWord, readZlibHeader, readBits_byte (p := 0) hstart (hready.le (by decide)), Res.andThen_ok,
      readBits_byte (p := 1) rfl hsecond]
    rfl
  · refine stepRunsTheFetchedInstruction.2.1 s s .zlibHeaderIn _ hp rfl ?_
    rw [nextWord, readZlibHeader, readBits_short (by rw [hempty, hstart]; decide), Res.andThen_raised]
  · refine stepRunsTheFetchedInstruction.2.1 s (s.setInBit 8) .zlibHeaderIn _ hp rfl ?_
    rw [nextWord, readZlibHeader, readBits_byte (p := 0) hstart hready, Res.andThen_ok,
      readBits_short (by rw [State.setInBit_reg, State.setInBit_inBit, hone]; decide), Res.andThen_raised]

/-! ## Numbers of bytes (R115) -/

/-- A byte appended below a bit vector is one below its number. -/
theorem toNat_append_byte {w : Nat} (x : BitVec w) (b : Byte) : (x ++ b).toNat = 256 * x.toNat + b.toNat := by
  rw [BitVec.toNat_append, ← Nat.shiftLeft_add_eq_or_of_lt b.isLt, Nat.shiftLeft_eq]
  omega

/-! ## zlib trailers (R623) -/

/-- Settles O42: the four bytes are the trailer's number, and the compared value is the Adler pair's. -/
theorem zlibTrailerRead : Obligations.ZlibTrailerRead := by
  have record (s : State) : ReadsRecord .zlibTrailerIn s 4 bigEndian := ⟨rfl, rfl⟩
  refine ⟨fun adler s hop => ?_, fun s hp => ⟨step_record_short hp (record s), fun hready =>
    step_record hp (record s) hready rfl nofun ?_⟩⟩
  · intro found
    have hfound : s.sum.adler = found := rfl
    rw [exec, execZlibTrailerRead, hfound]
    refine ⟨fun hne => if_pos hne, fun heq => ?_⟩
    rw [if_neg (not_not.2 heq), State.finish, State.finalChecksum, hop]
    rfl
  · have hbytes : s.inputBytes s.inPos 4 = [_, _, _, _] := rfl
    rw [hbytes, Instr.number]
    simp only [toNat_append_byte, bigEndian, List.foldl, Nat.mul_zero, Nat.zero_add]
    rfl

/-! ## gzip headers (R630, R631) -/

/-- Settles O43: the ten bytes are the header's number, whose time is little-endian; the checks are the rule's. -/
theorem gzipHeaderRead : Obligations.GzipHeaderRead := by
  have record (s : State) : ReadsRecord .gzipHeader s 10 bigEndian := ⟨rfl, rfl⟩
  refine ⟨fun id1 id2 cm flg xfl os mtime s => ?_, fun s hp hstart => ?_⟩
  · intro i
    rw [exec, execGzipHeader]
    refine ⟨fun hmagic => if_pos hmagic, fun h1 h2 hcm => ?_, fun h1 h2 hcm => ?_⟩
    · rw [if_neg (by simp [h1, h2]), if_pos hcm]
    · rw [if_neg (by simp [h1, h2]), if_neg (not_not.2 hcm)]
      rfl
  · have hpos : s.inPos = 0 := by rw [State.inPos, hstart]
    refine ⟨fun hshort => step_record_short hp (record s) (by omega), fun hready => ?_⟩
    intro b
    have hstep := step_record (i := .gzipHeader (b 0) (b 1) (b 2) (b 3) (b 7 ++ b 6 ++ b 5 ++ b 4) (b 8) (b 9)) hp
      (record s) (hpos ▸ hready) rfl nofun
    rw [hpos] at hstep
    refine hstep ?_
    have hbytes : s.inputBytes 0 10 = [b 0, b 1, b 2, b 3, b 4, b 5, b 6, b 7, b 8, b 9] := rfl
    rw [hbytes, gzipHeader_number]
    simp only [toNat_append_byte, byteOf_append_zero, byteOf_append_succ, byteOf_byte, bigEndian, List.foldl,
      Nat.mul_zero, Nat.zero_add]

/-! ## gzip trailers (R640, R641) -/

/-- The end of `INFLATE_GZIP`: `CHECKSUM` is the CRC register's value (R641, R681). -/
theorem finish_inflateGzip {s : State} (hop : s.run.op = .inflateGzip) : s.finish =
    { s with
      reg := { s.reg with
        outLen := BitVec.ofNat 32 s.outPos, checksum := s.sum.crc ^^^ 0xFFFFFFFF#32, done := true }
      seq := .idle } := by
  rw [State.finish, State.finalChecksum, hop]
  rfl

/-- Settles O45: the eight bytes are two little-endian values, compared in strict mode alone. -/
theorem gzipTrailersRead : Obligations.GzipTrailersRead := by
  have record (s : State) : ReadsRecord .gzipTrailerIn s 8 littleEndian := ⟨rfl, rfl⟩
  refine ⟨fun crc isize s hop => ?_, fun s hp => ?_⟩
  · intro found done
    have hdone : s.finish = done := finish_inflateGzip hop
    have hsize : isize = s.outSize ↔ isize.toNat = s.outPos % 4294967296 := by
      rw [← BitVec.toNat_inj, State.outSize, BitVec.toNat_ofNat]
    rw [exec, execGzipTrailer, exec, execGzipTrailerStrict, hdone, show s.sum.crcValue = found from rfl]
    refine ⟨rfl, fun hne => if_pos hne, fun heq hne => ?_, fun heq hlen => ?_⟩
    · rw [if_neg (not_not.2 heq), if_pos (mt hsize.1 hne)]
      rfl
    · rw [if_neg (not_not.2 heq), if_neg (not_not.2 (hsize.2 hlen))]
  · intro q b crc isize
    have hnumber : littleEndian (s.inputBytes s.inPos 8) = crc.toNat + 4294967296 * isize.toNat := by
      have hbytes : s.inputBytes s.inPos 8 = [b 0, b 1, b 2, b 3, b 4, b 5, b 6, b 7] := rfl
      rw [hbytes]
      simp only [crc, isize, toNat_append_byte, littleEndian]
      omega
    refine ⟨step_record_short hp (record s), fun hready hstrict => ?_, fun hready hstrict => ?_⟩
    · refine step_record hp (record s) hready ?_ nofun hnumber
      rw [nextWord, hstrict]
      rfl
    · refine step_record hp (record s) hready ?_ nofun hnumber
      rw [nextWord, hstrict]
      rfl

end Sys2Proof.Machine
end

section
/-! PROOFS. The optional fields of a gzip header (spec/45_containers_checksums.md R630 to R635): which one comes next,
where each ends, and what its missing bytes raise. -/

namespace Sys2Proof.Machine

/-! ## The field that comes next (R631) -/

/-- The fields left select the next one in the order extra, name, comment, header CRC. -/
theorem decode_gzipFlag_toNat (flags : Byte) : decode .gzipFlag flags.toNat =
    if flags.getLsbD 2 then .ok .gzipFextra
    else if flags.getLsbD 3 then .ok .gzipFname
    else if flags.getLsbD 4 then .ok .gzipFcomment
    else if flags.getLsbD 1 then .ok .gzipFhcrc
    else .error .noGzipField := rfl

/-- Under a mask a bit is the masked value's. -/
theorem getLsbD_of_and_eq {x mask v : Byte} (h : x &&& mask = v) (k : Nat) (hk : mask.getLsbD k = true) :
    x.getLsbD k = v.getLsbD k := by
  rw [← h, BitVec.getLsbD_and, hk, Bool.and_true]

theorem step_gzipOptional {s : State} {i : Instr} (hp : s.atPhase .gzipOptional)
    (hi : decode .gzipFlag s.dec.gzFlags.toNat = .ok i) : step s = exec i s :=
  step_eq_exec hp rfl rfl hi

/-! ## Where a field ends (R632 to R635) -/

section Field
variable {s : State} {p n : Nat}

/-- The data of `FEXTRA` is there or missing; it is skipped, not read (R632). -/
theorem gzipExtra_ready (h : s.bytesReady p 2) : gzipExtra p s =
    (needBytes (p + 2) ((s.mem.read (s.srcByte p)).toNat + 256 * (s.mem.read (s.srcByte (p + 1))).toNat) s).andThen
      fun _ t => .ok (p + 2 + ((s.mem.read (s.srcByte p)).toNat + 256 * (s.mem.read (s.srcByte (p + 1))).toNat)) t := by
  rw [gzipExtra, needBytes_present h.1, Res.andThen_ok, inHalf_ready h, Res.andThen_ok]

theorem gzipExtra_short (h : s.reg.srcLen.toNat < p + 2) : gzipExtra p s = .raised .unexpectedEndOfInput s := by
  rw [gzipExtra, needBytes_short h, Res.andThen_raised]

/-- Bytes other than 0 are skipped (R633). -/
theorem skipString_skips (h : s.bytesReady p n) (hne : ∀ k, k < n → s.mem.read (s.srcByte (p + k)) ≠ 0#8)
    (left : Nat) : skipString (n + left) p s = skipString left (p + n) s := by
  induction n generalizing left with
  | zero => rw [Nat.zero_add, Nat.add_zero]
  | succ n ih =>
    rw [Nat.add_right_comm, Nat.add_assoc, ih (h.le (Nat.le_succ n)) fun k hk => hne k (Nat.lt_succ_of_lt hk),
      skipString, inByte_ready h (Nat.lt_succ_self n), Res.andThen_ok, if_neg (hne n (Nat.lt_succ_self n))]
    rfl

/-- A string ends behind its first byte 0 (R633). -/
theorem gzipString_ends (h : s.bytesReady p (n + 1)) (hne : ∀ k, k < n → s.mem.read (s.srcByte (p + k)) ≠ 0#8)
    (hend : s.mem.read (s.srcByte (p + n)) = 0#8) : gzipString p s = .ok (p + n + 1) s := by
  obtain ⟨left, hleft⟩ : ∃ left, s.reg.srcLen.toNat - p = n + (left + 1) :=
    ⟨s.reg.srcLen.toNat - p - n - 1, by have := h.1; omega⟩
  rw [gzipString, hleft, skipString_skips (h.le (Nat.le_succ n)) hne, skipString, inByte_ready h (Nat.lt_succ_self n),
    Res.andThen_ok, if_pos hend]

/-- A string without a byte 0 runs into the end of the input (R633). -/
theorem gzipString_endless (h : s.bytesReady p (s.reg.srcLen.toNat - p))
    (hne : ∀ k, k < s.reg.srcLen.toNat - p → s.mem.read (s.srcByte (p + k)) ≠ 0#8) :
    gzipString p s = .raised .unexpectedEndOfInput s := skipString_skips h hne 0

/-- The two bytes of `FHCRC` are compared with the CRC-32 of every header byte before them (R635). -/
theorem gzipHeaderCrc_ready (h : s.bytesReady 0 (p + 2)) : gzipHeaderCrc p s =
    if (s.mem.read (s.srcByte p)).toNat + 256 * (s.mem.read (s.srcByte (p + 1))).toNat ≠
        (crc32Of (s.inputBytes 0 p)).toNat % 65536 then .raised .headerChecksumMismatch s
    else .ok (p + 2) s := by
  obtain ⟨hlen, hbacked⟩ := h
  rw [Nat.zero_add] at hlen
  have hfield : s.bytesReady p 2 :=
    ⟨hlen, fun k hk => by have := hbacked (p + k) (by omega); rwa [Nat.zero_add] at this⟩
  have hheader : memReadAll (s.srcByte 0) p s = .ok (s.inputBytes 0 p) s :=
    inBytes_ready ⟨by omega, fun k hk => hbacked k (by omega)⟩
  rw [gzipHeaderCrc, needBytes_present hlen, Res.andThen_ok, inHalf_ready hfield, Res.andThen_ok, hheader,
    Res.andThen_ok]

theorem gzipHeaderCrc_short (h : s.reg.srcLen.toNat < p + 2) :
    gzipHeaderCrc p s = .raised .unexpectedEndOfInput s := by
  rw [gzipHeaderCrc, needBytes_short h, Res.andThen_raised]

/-! ## The header goes on behind a field, or an error ends it (R630) -/

variable {read : Nat → State → Res Nat} {bit : Byte}

theorem gzipField_done {q : Nat} (h : read s.inPos s = .ok q s) :
    (gzipField read bit s).outcome = .next (s.gzFieldDone bit q) := by
  rw [gzipField, h, Res.andThen_ok, Res.outcome_ok]

theorem gzipField_raised {e : CodecError} (h : read s.inPos s = .raised e s) :
    (gzipField read bit s).outcome = .next (s.raise e) := by
  rw [gzipField, h, Res.andThen_raised, Res.outcome_raised]

end Field

/-- Settles O44: the flags left say which field the step runs, and each field ends where its rule says. -/
theorem gzipOptionalFieldsRead : Obligations.GzipOptionalFieldsRead := by
  intro s p b after
  refine ⟨fun hp => ⟨fun h2 => ?_, fun hm => ?_, fun hm => ?_, fun hm => ?_⟩,
    fun hshort => ⟨gzipField_raised (gzipExtra_short hshort), gzipField_raised (gzipHeaderCrc_short hshort)⟩,
    fun hready => ?_, fun n hready hne hend => ?_, fun hready hne => ?_, fun hready => ?_⟩
  · exact step_gzipOptional hp (by rw [decode_gzipFlag_toNat, if_pos h2])
  · have bit := getLsbD_of_and_eq hm
    refine step_gzipOptional hp ?_
    rw [decode_gzipFlag_toNat, bit 2 rfl, bit 3 rfl]
    rfl
  · have bit := getLsbD_of_and_eq hm
    refine step_gzipOptional hp ?_
    rw [decode_gzipFlag_toNat, bit 2 rfl, bit 3 rfl, bit 4 rfl]
    rfl
  · have bit := getLsbD_of_and_eq hm
    refine step_gzipOptional hp ?_
    rw [decode_gzipFlag_toNat, bit 2 rfl, bit 3 rfl, bit 4 rfl, bit 1 rfl]
    rfl
  · intro xlen
    have hextra : gzipExtra s.inPos s = (needBytes (p + 2) xlen s).andThen fun _ t => .ok (p + 2 + xlen) t :=
      gzipExtra_ready hready
    refine ⟨fun hshort => gzipField_raised ?_, fun hlen => gzipField_done ?_⟩
    · rw [hextra, needBytes_short hshort, Res.andThen_raised]
    · rw [hextra, needBytes_present hlen, Res.andThen_ok]
  · have hstring : gzipString s.inPos s = .ok (p + n + 1) s := gzipString_ends hready hne hend
    exact ⟨gzipField_done hstring, gzipField_done hstring⟩
  · have hstring : gzipString s.inPos s = .raised .unexpectedEndOfInput s :=
      gzipString_endless hready fun k hk => hne _ (Nat.le_add_right ..) (Nat.add_lt_of_lt_sub' hk)
    exact ⟨gzipField_raised hstring, gzipField_raised hstring⟩
  · intro h crc
    have hcrc : gzipHeaderCrc s.inPos s = if h ≠ crc then .raised .headerChecksumMismatch s else .ok (p + 2) s :=
      gzipHeaderCrc_ready hready
    exact ⟨fun hne => gzipField_raised (hcrc.trans (if_pos hne)),
      fun heq => gzipField_done (hcrc.trans (if_neg (not_not.2 heq)))⟩

end Sys2Proof.Machine
end

section
/-! PROOFS. The zlib header and trailer that are written (spec/45_containers_checksums.md R600, R601). -/

namespace Sys2Proof.Machine

section Writing
variable {s : State}

/-- Two bytes with room for them are emitted. -/
theorem execZlibHeaderWrite_ready (h : s.outReady 2) :
    execZlibHeaderWrite s = .next (((s.emitted 0x78#8).emitted 0x01#8).goto .loadChunk) := by
  obtain ⟨hfirst, h⟩ := emit_outReady 0x78#8 h
  obtain ⟨hsecond, -⟩ := emit_outReady 0x01#8 h
  rw [execZlibHeaderWrite, hfirst, Res.andThen_ok, hsecond, Res.andThen_ok, Res.outcome_ok]

/-- The four bytes of a word behind the output, most significant first (R601). -/
def State.emittedBE (s : State) (w : Word) : State :=
  (((s.emitted (w.extractLsb' 24 8)).emitted (w.extractLsb' 16 8)).emitted
    (w.extractLsb' 8 8)).emitted (w.extractLsb' 0 8)

theorem emitBE_ready (w : Word) (h : s.outReady 4) : emitBE w s = .ok () (s.emittedBE w) := by
  obtain ⟨h3, h⟩ := emit_outReady (w.extractLsb' 24 8) h
  obtain ⟨h2, h⟩ := emit_outReady (w.extractLsb' 16 8) h
  obtain ⟨h1, h⟩ := emit_outReady (w.extractLsb' 8 8) h
  obtain ⟨h0, -⟩ := emit_outReady (w.extractLsb' 0 8) h
  rw [emitBE, h3, Res.andThen_ok, h2, Res.andThen_ok, h1, Res.andThen_ok, h0, State.emittedBE]

end Writing

/-- Settles O47: the bytes are emitted one after the other, and the command ends with the Adler pair's value. -/
theorem zlibHeaderAndTrailerWritten : Obligations.ZlibHeaderAndTrailerWritten := by
  intro s
  refine ⟨execZlibHeaderWrite_ready, fun h hop => ?_⟩
  intro a u
  have hemit : emitBE s.sum.adler s = .ok () u := emitBE_ready a h
  have hwritten : Written s u := by
    have hleads := emitBE_leads s.sum.adler s
    rw [hemit] at hleads
    cases hleads
    assumption
  have hu : u.run.op = .deflateZlib := hop
  refine ⟨?_, hwritten.mem⟩
  rw [exec, execZlibTrailerWrite, hemit, Res.andThen_ok, Res.outcome_ok, State.finish, State.finalChecksum, hu]
  rfl

end Sys2Proof.Machine
end

section
/-! PROOFS. The checksum registers of a decompression are those of its output (spec/45_containers_checksums.md R655):
every emitted byte runs through them, and nothing else of a command that goes on touches the output or them. -/

namespace Sys2Proof.Machine

/-- The checksum registers are those of the output written so far (R655). -/
def State.SumsOutput (s : State) : Prop := s.sum = Sums.fresh.addAll s.output

/-- If the command still runs, its checksum registers are those of the output. -/
def OutcomeSumsOutput (o : Host.Outcome State Fault Refusal) : Prop := ∀ t, o = .next t → t.busy = true → t.SumsOutput

section Keeps
variable {s t : State} {α β : Type} {r : Res α}

/-- What the registers and the output are read from. -/
def State.sumParts (s : State) : Sums × Nat × Memory × Word := (s.sum, s.outPos, s.mem, s.reg.dstAddr)

/-- An update of anything else keeps them. -/
theorem State.SumsOutput.of_parts (h : s.SumsOutput) (ht : t.sumParts = s.sumParts) : t.SumsOutput := by
  simp only [State.sumParts, Prod.mk.injEq] at ht
  obtain ⟨hsum, hpos, hmem, haddr⟩ := ht
  simpa only [State.SumsOutput, State.output, State.dstByte, hsum, hpos, hmem, haddr] using h

theorem State.SumsOutput.moved (h : s.SumsOutput) (hr : r.All (Moved s)) : r.All State.SumsOutput :=
  hr.imp fun _ => by
    rintro ⟨m, rfl⟩
    exact h.of_parts rfl

/-- A byte behind the output runs through the registers. -/
theorem State.SumsOutput.emittedOut (h : s.SumsOutput) (b : Byte) : (s.emittedOut b).SumsOutput := by
  have hout : (s.emittedOut b).output = s.output ++ [b] := s.output_emitted b
  rw [State.SumsOutput, hout, Sums.addAll, List.foldl_append]
  exact congrArg (·.addByte b) h

/-- One step of the rules after another. -/
theorem Res.All.sums {k : α → State → Res β} (h : r.All State.SumsOutput)
    (hk : ∀ a t, t.SumsOutput → (k a t).All State.SumsOutput) : (r.andThen k).All State.SumsOutput :=
  Res.All.andThen h (fun _ ht => ht) fun a t _ ht => hk a t ht

theorem OutcomeSumsOutput.next (h : s.SumsOutput) : OutcomeSumsOutput (.next s) := by
  rintro _ ⟨⟩ -
  exact h

/-- An end of the command says nothing. -/
theorem OutcomeSumsOutput.ended (h : s.busy = false) : OutcomeSumsOutput (.next s) := by
  rintro _ ⟨⟩ hb
  exact absurd (hb.symm.trans h) (by decide)

/-- A raised error ends the command, so only the rules that went through count. -/
theorem OutcomeSumsOutput.outcome {r : Res Unit} (h : r.All State.SumsOutput) : OutcomeSumsOutput r.outcome := by
  intro t ht hb
  rcases Res.outcome_eq_next.1 ht with rfl | ⟨e, u, rfl, rfl⟩
  · exact h
  · cases hb

end Keeps

/-! ## The operations -/

section Operations
variable {s : State} (h : s.SumsOutput)
include h

theorem readBits_sums (n : Nat) : (readBits n s).All State.SumsOutput := h.moved (readBits_all n s)

theorem readBitsBase_sums (n base : Nat) : (readBitsBase n base s).All State.SumsOutput :=
  h.moved (readBitsBase_moved s n base)

theorem emitOut_sums (b : Byte) : (emitOut b s).All State.SumsOutput := by
  rcases emit_cases b s with ⟨_, _, k⟩ | ⟨_, k⟩ | ⟨_, _, k⟩ <;> rw [emitOut, k]
  · exact h.emittedOut b
  · exact h
  · exact h

theorem copyStored_sums (n : Nat) : (copyStored n s).All State.SumsOutput := by
  induction n generalizing s with
  | zero => exact h
  | succ n ih => exact (readBits_sums h 8).sums fun _ _ h => (emitOut_sums h _).sums fun _ _ h => ih h

theorem copyLoop_sums (d n : Nat) : (copyLoop d n s).All State.SumsOutput := by
  induction n generalizing s with
  | zero => exact h
  | succ n ih => exact (h.moved (memRead_moved s _)).sums fun _ _ h => (emitOut_sums h _).sums fun _ _ h => ih h

theorem copy_sums (len d : Nat) : (copy len d s).All State.SumsOutput := Res.All.ite h (copyLoop_sums h d len)

theorem endBlockRead_sums : s.endBlockRead.SumsOutput := by
  refine h.of_parts ?_
  unfold State.endBlockRead
  split
  · unfold State.endStream
    split <;> rfl
  · rfl

/-! ### Block types -/

theorem readStored_sums : (readStored s).All State.SumsOutput :=
  have aligned : (alignIn s).SumsOutput := h.of_parts rfl
  (readBits_sums aligned 16).sums fun _ _ h => (readBits_sums h 16).sums fun _ _ h =>
    Res.All.ite h <| (copyStored_sums h _).sums fun _ _ h => endBlockRead_sums h

theorem readDynamic_sums : (readDynamic s).All State.SumsOutput :=
  (readBitsBase_sums h 5 257).sums fun _ _ h => (readBitsBase_sums h 5 1).sums fun _ _ h =>
    (readBitsBase_sums h 4 4).sums fun _ _ h => (h.moved (readClWidths_moved _ _)).sums fun _ _ h => h.of_parts rfl

/-! ### Symbols -/

theorem appendWidths_sums (ws : List Nat) : (appendWidths ws s).All State.SumsOutput := by
  have pushed : (s.pushWidths ws).SumsOutput := h.of_parts rfl
  exact Res.All.ite pushed (Res.All.ite (h.of_parts rfl) pushed)

theorem readClRepeat_sums : (readClRepeat s).All State.SumsOutput := by
  unfold readClRepeat
  split
  · exact h
  · exact (readBitsBase_sums h 2 3).sums fun _ _ h => appendWidths_sums h _

theorem readClZeros_sums (extra base : Nat) : (readClZeros extra base s).All State.SumsOutput :=
  (readBitsBase_sums h extra base).sums fun _ _ h => appendWidths_sums h _

theorem lengthRead_sums (extra base : Nat) :
    ((readBitsBase extra base s).andThen fun len t => .ok () (t.withLength len)).All State.SumsOutput :=
  (readBitsBase_sums h extra base).sums fun _ _ h => h.of_parts rfl

theorem distanceRead_sums (extra base : Nat) : ((readBitsBase extra base s).andThen fun d t =>
    (copy t.dec.length d t).andThen fun _ t => .ok () (t.goto .readSym)).All State.SumsOutput :=
  (readBitsBase_sums h extra base).sums fun _ _ h => (copy_sums h _ _).sums fun _ _ h => h.of_parts rfl

/-! ### Container records -/

theorem gzipField_sums {read : Nat → State → Res Nat} (hread : ∀ p, (read p s).All (Moved s)) (bit : Byte) :
    OutcomeSumsOutput (gzipField read bit s).outcome :=
  .outcome <| (h.moved (hread _)).sums fun _ _ h => h.of_parts rfl

theorem execZlibHeaderRead_sums (cmf flg : Byte) : OutcomeSumsOutput (execZlibHeaderRead cmf flg s) := by
  unfold execZlibHeaderRead
  split
  · exact .ended rfl
  · exact .next (h.of_parts rfl)

theorem execGzipHeader_sums (id1 id2 cm flg : Byte) (mtime : Word) (xfl os : Byte) :
    OutcomeSumsOutput (execGzipHeader id1 id2 cm flg mtime xfl os s) := by
  unfold execGzipHeader
  split
  · exact .ended rfl
  · split
    · exact .ended rfl
    · exact .next (h.of_parts rfl)

end Operations

/-! ### Trailers, behind which no command runs -/

theorem execZlibTrailerWrite_sums (s : State) : OutcomeSumsOutput (execZlibTrailerWrite s) := by
  intro t ht hb
  rcases Res.outcome_eq_next.1 ht with hok | ⟨e, u, -, rfl⟩
  · obtain ⟨_, u, -, hu⟩ := Res.andThen_eq_ok.1 hok
    cases hu
    cases hb
  · cases hb

theorem execZlibTrailerRead_sums (adler : Word) (s : State) : OutcomeSumsOutput (execZlibTrailerRead adler s) := by
  unfold execZlibTrailerRead
  split <;> exact .ended rfl

theorem execGzipTrailerStrict_sums (crc isize : Word) (s : State) :
    OutcomeSumsOutput (execGzipTrailerStrict crc isize s) := by
  unfold execGzipTrailerStrict
  split
  · exact .ended rfl
  · split <;> exact .ended rfl

/-! ## The instructions -/

/-- Whatever a decompression's command runs keeps its checksum registers those of the output. -/
theorem exec_sums {s : State} (h : s.SumsOutput) (hread : s.run.op.encodes = false) {i : Instr}
    (hcmd : i.alphabet ≠ .command) (hheader : i.alphabet ≠ .zlibHeaderOut) : OutcomeSumsOutput (exec i s) := by
  have reads {r r' : Res Unit} (hr : r'.All State.SumsOutput) :
      OutcomeSumsOutput (if s.run.op.encodes then r else r').outcome := by
    rw [ite_reads hread]
    exact .outcome hr
  cases i with
  | deflate | deflateZlib | inflate | inflateZlib | inflateGzip | crc32 | adler32 | invalidOp7 | invalidOp8To15
  | invalidMode3 => exact absurd rfl hcmd
  | zlibHeaderWrite => exact absurd rfl hheader
  | btype3 | lensym286To287 | dsym30To31 | gzipTrailer => exact .ended rfl
  | btype0 => exact reads (readStored_sums h)
  | btype1 => exact reads (h.of_parts rfl)
  | btype2 => exact reads (readDynamic_sums h)
  | lit0To127 | lit128To143 | lit144To159 | lit160To191 | lit192To255 => exact reads (emitOut_sums h _)
  | eob =>
    rw [exec, execEob_read hread]
    exact .next (endBlockRead_sums h)
  | lensym257 | lensym258 | lensym259 | lensym260 | lensym261 | lensym262 | lensym263 | lensym264 | lensym265
  | lensym266 | lensym267 | lensym268 | lensym269 | lensym270 | lensym271 | lensym272 | lensym273 | lensym274
  | lensym275 | lensym276 | lensym277 | lensym278 | lensym279 | lensym280 | lensym281 | lensym282 | lensym283
  | lensym284 | lensym285 => exact reads (lengthRead_sums h _ _)
  | dsym0 | dsym1 | dsym2 | dsym3 | dsym4 | dsym5 | dsym6 | dsym7 | dsym8 | dsym9 | dsym10 | dsym11 | dsym12 | dsym13
  | dsym14 | dsym15 | dsym16 | dsym17 | dsym18 | dsym19 | dsym20 | dsym21 | dsym22 | dsym23 | dsym24 | dsym25 | dsym26
  | dsym27 | dsym28 | dsym29 => exact reads (distanceRead_sums h _ _)
  | cl0 | cl1 | cl2 | cl3 | cl4 | cl5 | cl6 | cl7 | cl8 | cl9 | cl10 | cl11 | cl12 | cl13 | cl14 | cl15 =>
    exact reads (appendWidths_sums h _)
  | cl16 => exact reads (readClRepeat_sums h)
  | cl17 | cl18 => exact reads (readClZeros_sums h _ _)
  | zlibTrailerWrite => exact execZlibTrailerWrite_sums s
  | zlibHeaderRead => exact execZlibHeaderRead_sums h _ _
  | zlibTrailerRead => exact execZlibTrailerRead_sums _ s
  | gzipHeader id1 id2 cm flg mtime xfl os => exact execGzipHeader_sums h id1 id2 cm flg mtime xfl os
  | gzipFextra => exact gzipField_sums h (gzipExtra_moved s) _
  | gzipFname | gzipFcomment => exact gzipField_sums h (fun _ => skipString_moved s _ _) _
  | gzipFhcrc => exact gzipField_sums h (gzipHeaderCrc_moved s) _
  | gzipTrailerStrict => exact execGzipTrailerStrict_sums _ _ s

/-- Settles O46: emitted bytes run through the registers, every other update leaves them and the output alone, and
trailers and errors end the command. -/
theorem checksumsFollowTheOutput : Obligations.ChecksumsFollowTheOutput := fun _ _ t hcmd hheader hread hsum ht hb =>
  exec_sums hsum hread hcmd hheader t ht hb

end Sys2Proof.Machine
end

section
/-! PROOFS. How the host starts a command and what its `CMD` word does (spec/46_host_commands.md R680 to R693): the write
of `CTRL.START`, the first phase, what `Validate` raises, and the two checksum commands. -/

namespace Sys2Proof.Machine

/-! ## `START` (R680) -/

section Start
variable {s : State}

theorem writeCtrl_start {v : Word} (hidle : s.busy = false) (hv : v.getLsbD 0 = true) :
    writeCtrl v s = { s with reg := { s.reg with irqEn := v.getLsbD 1 } }.start :=
  if_pos ⟨hv, Bool.eq_false_iff.1 hidle⟩

/-- With bit 0 clear a write of `CTRL` stores `IRQ_EN` alone (R63). -/
theorem writeCtrl_noStart {v : Word} (hv : v.getLsbD 0 = false) :
    writeCtrl v s = { s with reg := { s.reg with irqEn := v.getLsbD 1 } } :=
  if_neg fun ⟨hstart, _⟩ => Bool.eq_false_iff.1 hv hstart

end Start

/-- Settles O13: the step is the write of `CTRL`, which starts a command exactly when bit 0 is set. -/
theorem startWriteBeginsACommand : Obligations.StartWriteBeginsACommand := by
  intro s rest v hidle hm
  rw [step_regWrite hm (by decide) (by decide)]
  exact ⟨fun hv => congrArg _ (writeCtrl_start (s := s.withMoves rest) hidle hv),
    fun hv => congrArg _ (writeCtrl_noStart (s := s.withMoves rest) hv)⟩

/-! ## What a command runs with (R685, R693) -/

section Configuration
variable {f : CmdFields}

theorem modeOf_raw (h : f.mode = 0#2) : modeOf f = .raw := by simp [modeOf, h]

theorem modeOf_fixed (h : f.mode = 1#2) : modeOf f = .fixed := by simp [modeOf, h]

theorem modeOf_dynamic (h : f.mode = 2#2) : modeOf f = .dynamic := by simp [modeOf, h]

/-- Without a match finder there is no window (R685). -/
theorem winOf_raw (w : Word) (h : modeOf f = .raw) : winOf f w = none := by simp [winOf, h]

/-- A match finder's window is `WSIZE` where `WIN_EN` is set (R685). -/
theorem winOf_window (w : Word) (h : modeOf f ≠ .raw) :
    winOf f w = if f.winEn then some (w.toNat % 65536) else none := by simp [winOf, h]

end Configuration

/-! ## The region check (R683) -/

section Validate
variable {s : State} {run : Run} {p : Phase}

theorem beginCommand_of_regionsOk (h : s.regionsOk run.op.hasOutput) : beginCommand run p s = .ok () (s.begun run p) :=
  beginCommand_ok ((buffersOk_iff s run.op).2 h)

theorem beginCommand_of_not_regionsOk (h : ¬s.regionsOk run.op.hasOutput) :
    beginCommand run p s = .raised .invalidBuffer { s with run := run } :=
  beginCommand_bad (Bool.eq_false_iff.2 (mt (buffersOk_iff s run.op).1 h))

theorem beginCommand_begins (h : s.regionsOk run.op.hasOutput) :
    (beginCommand run p s).outcome = .next (s.begun run p) :=
  congrArg Res.outcome (beginCommand_of_regionsOk h)

/-- The outcome is the state that an error with this code leaves where memory keeps its contents (R682, R683). -/
def OutcomeFails (s : State) (code : Byte) (o : Host.Outcome State Fault Refusal) : Prop :=
  ∃ t, o = .next t ∧ t.reg = s.reg.afterError code 0#32 0#32 ∧ t.seq = .idle ∧ t.mem = s.mem ∧ t.plat = s.plat ∧
    t.host = s.host ∧ t.free = s.free

theorem OutcomeFails.raise {e : CodecError} (hkeeps : s.losesOut e = false) (hexp : e.expected = 0#32)
    (hfound : e.found = 0#32) : OutcomeFails s e.code (.next (s.raise e)) := by
  refine ⟨_, rfl, ?_, rfl, ?_, rfl, rfl, ?_⟩
  · rw [State.raise_reg, hexp, hfound, Regs.afterError]
  · rw [State.raise_mem, hkeeps, if_neg Bool.false_ne_true]
  · rw [State.raise_free, hkeeps, if_neg Bool.false_ne_true]

/-- `Validate` comes before any memory access, so whatever ran before, its errors lose nothing (R683, R684). -/
theorem OutcomeFails.invalidCommand (s : State) : OutcomeFails s 13#8 (.next (s.raise .invalidCommand)) :=
  .raise rfl rfl rfl

theorem beginCommand_fails (h : ¬s.regionsOk run.op.hasOutput) : OutcomeFails s 14#8 (beginCommand run p s).outcome := by
  rw [beginCommand_of_not_regionsOk h]
  exact OutcomeFails.raise (s := { s with run := run }) (e := .invalidBuffer) rfl rfl rfl

theorem checksumCommand_fails {op : Op} (f : CmdFields) (h : ¬s.regionsOk op.hasOutput) :
    OutcomeFails s 14#8 (checksumCommand op f s).outcome := by
  have hfails := beginCommand_fails (run := runOf op f s.reg.window) (p := .dispatch) h
  rw [beginCommand_of_not_regionsOk h] at hfails
  rw [checksumCommand, beginCommand_of_not_regionsOk h]
  exact hfails

end Validate

/-- Settles O18: past the region check `beginCommand` gives the fresh datapath, and the run record is the fields'. -/
theorem commandsBegin : Obligations.CommandsBegin := by
  refine ⟨fun s f h => ?_, fun op f w => ?_, rfl, rfl, rfl, rfl, rfl, rfl, rfl⟩
  · have begins (op : Op) (p : Phase) (hout : op.hasOutput = true) :
        (beginCommand (runOf op f s.reg.window) p s).outcome = .next (s.begun (runOf op f s.reg.window) p) :=
      beginCommand_begins (run := runOf op f s.reg.window) (hout ▸ h : s.regionsOk op.hasOutput)
    exact ⟨fun _ => begins .deflate .loadChunk rfl, fun _ => begins .deflateZlib .zlibHeaderOut rfl,
      begins .inflate .readBlock rfl, begins .inflateZlib .zlibHeaderIn rfl, begins .inflateGzip .gzipHeader rfl⟩
  · refine ⟨rfl, rfl, fun h => ⟨modeOf_raw h, winOf_raw w (modeOf_raw h)⟩, modeOf_fixed, modeOf_dynamic, fun h => ?_⟩
    refine winOf_window w ?_
    rcases h with h | h
    · rw [modeOf_fixed h]; decide
    · rw [modeOf_dynamic h]; decide

/-- Settles O19: an invalid row raises before the regions are looked at, every other row checks them first. -/
theorem validateRaisesBeforeAnyAccess : Obligations.ValidateRaisesBeforeAnyAccess := by
  intro s f
  refine ⟨fun op zlib => ?_, ?_, ?_⟩
  · have invalid := OutcomeFails.invalidCommand s
    simp only [List.forall_mem_cons]
    exact ⟨invalid, invalid, invalid, nofun⟩
  · have fails (op : Op) (p : Phase) (hout : op.hasOutput = true) (h : ¬s.regionsOk true) :
        OutcomeFails s 14#8 (beginCommand (runOf op f s.reg.window) p s).outcome :=
      beginCommand_fails (run := runOf op f s.reg.window) (hout ▸ h : ¬s.regionsOk op.hasOutput)
    simp only [List.forall_mem_cons]
    exact ⟨fun _ => fails .deflate .loadChunk rfl, fun _ => fails .deflateZlib .zlibHeaderOut rfl,
      fun _ => fails .inflate .readBlock rfl, fun _ => fails .inflateZlib .zlibHeaderIn rfl,
      fun _ => fails .inflateGzip .gzipHeader rfl, nofun⟩
  · simp only [List.forall_mem_cons]
    exact ⟨checksumCommand_fails (op := .crc32) f, checksumCommand_fails (op := .adler32) f, nofun⟩

/-! ## The checksum registers over `IN` (R650, R652, R690) -/

theorem Sums.addAll_eq (u : Sums) (bs : List Byte) : u.addAll bs =
    { crc := bs.foldl crcByte u.crc
      s1 := (bs.foldl adlerByte (u.s1, u.s2)).1
      s2 := (bs.foldl adlerByte (u.s1, u.s2)).2 } := by
  induction bs generalizing u with
  | nil => rfl
  | cons b rest ih => exact ih (u.addByte b)

/-- The CRC register runs `CRC32` from the start value of R690. -/
theorem crc_addAll_chained (chain : Bool) (v : Word) (bs : List Byte) :
    ((Sums.chained chain v).addAll bs).crc ^^^ 0xFFFFFFFF#32 =
      crc32From (if chain then v ^^^ 0xFFFFFFFF#32 else 0xFFFFFFFF#32) bs := by
  rw [Sums.addAll_eq]
  cases chain <;> rfl

/-- The Adler pair runs `Adler32` from the start value of R690. -/
theorem adler_addAll_chained (chain : Bool) (v : Word) (bs : List Byte) :
    adlerValue (((Sums.chained chain v).addAll bs).s1, ((Sums.chained chain v).addAll bs).s2) =
      adler32From (if chain then (v.toNat % 65536 % 65521, v.toNat / 65536 % 65521) else (1, 0)) bs := by
  rw [Sums.addAll_eq]
  cases chain <;> rfl

/-! ## The checksum commands (R691, R692) -/

section Checksum
variable {s : State} {op : Op}

/-- The whole `IN` is read, and the command ends with the checksums of it. -/
theorem checksumCommand_ready (f : CmdFields) (hregions : s.regionsOk op.hasOutput)
    (h : s.bytesReady 0 s.reg.srcLen.toNat) : checksumCommand op f s =
      .ok () ((s.begun (runOf op f s.reg.window) .dispatch).sumOver f.chain
        (s.inputBytes 0 s.reg.srcLen.toNat)).finish := by
  have hread : readInput (s.begun (runOf op f s.reg.window) .dispatch) =
      .ok (s.inputBytes 0 s.reg.srcLen.toNat) (s.begun (runOf op f s.reg.window) .dispatch) := inBytes_ready h
  rw [checksumCommand, beginCommand_of_regionsOk hregions, Res.andThen_ok, hread, Res.andThen_ok]

theorem exists_unbacked_of_not_bytesReady (h : ¬s.bytesReady 0 s.reg.srcLen.toNat) :
    ∃ k, k < s.reg.srcLen.toNat ∧ s.plat.busOk (s.srcByte 0 + k) = false := by
  by_contra hall
  refine h ⟨Nat.le_of_eq (Nat.zero_add _), fun k hk => ?_⟩
  rw [Nat.zero_add, ← Bool.not_eq_false]
  exact fun hb => hall ⟨k, hk, hb⟩

/-- A byte of `IN` that is not backed ends the command; it has no `OUT` to lose (R106, R110). -/
theorem checksumCommand_unbacked (f : CmdFields) (hout : op.hasOutput = false) (hregions : s.regionsOk op.hasOutput)
    (h : ¬s.bytesReady 0 s.reg.srcLen.toNat) : OutcomeFails s 15#8 (checksumCommand op f s).outcome := by
  obtain ⟨k, hk, hunbacked⟩ := exists_unbacked_of_not_bytesReady h
  have hread : readInput (s.begun (runOf op f s.reg.window) .dispatch) =
      .raised .busError (s.begun (runOf op f s.reg.window) .dispatch) := memReadAll_unbacked hk hunbacked
  rw [checksumCommand, beginCommand_of_regionsOk hregions, Res.andThen_ok, hread, Res.andThen_raised]
  exact OutcomeFails.raise (s := s.begun (runOf op f s.reg.window) .dispatch) (e := .busError) hout rfl rfl

end Checksum

/-- Settles O20: the command ends with the registers' run over `IN`, or at the first byte that is not backed. -/
theorem checksumCommands : Obligations.ChecksumCommands := by
  intro s f hregions
  refine ⟨fun h => ⟨?_, ?_⟩, fun h => ?_⟩
  · refine ⟨_, congrArg Res.outcome (checksumCommand_ready (op := .crc32) f hregions h), rfl, rfl, rfl, rfl, ?_⟩
    rw [← crc_addAll_chained]
    rfl
  · refine ⟨_, congrArg Res.outcome (checksumCommand_ready (op := .adler32) f hregions h), rfl, rfl, rfl, rfl, ?_⟩
    rw [← adler_addAll_chained]
    rfl
  · have fails (op : Op) (hout : op.hasOutput = false) : ∃ t, (checksumCommand op f s).outcome = .next t ∧
        t.seq = .idle ∧ t.mem = s.mem ∧ t.plat = s.plat ∧ t.host = s.host ∧
        t.reg = s.reg.afterError 15#8 0#32 0#32 := by
      obtain ⟨t, ht, hreg, hseq, hmem, hplat, hhost, -⟩ := checksumCommand_unbacked f hout (hout.symm ▸ hregions) h
      exact ⟨t, ht, hseq, hmem, hplat, hhost, hreg⟩
    simp only [List.forall_mem_cons]
    exact ⟨fails .crc32 rfl, fails .adler32 rfl, nofun⟩

end Sys2Proof.Machine
end

section
/-! PROOFS. The host's stores to and loads from memory (spec/70_reset_and_hazards.md R790, spec/60_exceptions.md R763), the
level of `irq` (R740, R741), and what a raised error records (R720, R750). -/

namespace Sys2Proof.Machine

/-! ## Host stores and loads (R763, R790) -/

/-- The host must not store to this address now: it lies in `IN ∪ OUT` of a running command (R790). -/
def State.hostStoreBarred (s : State) (a : Nat) : Bool := s.busy && (s.inSrc a || s.inOut a)

section HostMemory
variable {s : State} {a : Nat} {bytes : List Byte}

theorem State.hostStoreBarred_eq_true :
    s.hostStoreBarred a = true ↔ s.busy = true ∧ (s.inSrc a = true ∨ s.inOut a = true) := by
  simp only [State.hostStoreBarred, Bool.and_eq_true_iff, Bool.or_eq_true_iff]

theorem State.hostStoreBarred_eq_false :
    s.hostStoreBarred a = false ↔ s.busy = false ∨ (s.inSrc a = false ∧ s.inOut a = false) := by
  simp only [State.hostStoreBarred, Bool.and_eq_false_iff, Bool.or_eq_false_iff]

/-- A backed address lies in the address space, so neither stop of R105 and R109 applies. -/
theorem hostAddressStop_backed (h : s.plat.busOk a = true) : hostAddressStop s a = none := by
  rw [hostAddressStop, if_neg (Nat.not_le.2 (busOk_lt h)), if_pos h]

/-- Among backed addresses a store stops exactly at one that is barred (R790). -/
theorem hostStoreStop_backed {l : List Nat} (h : ∀ x ∈ l, s.plat.busOk x = true) :
    hostStoreStop s l = if l.any s.hostStoreBarred then some (.refused .hostStoreWhileBusy) else none := by
  induction l with
  | nil => rfl
  | cons x rest ih =>
    obtain ⟨hx, hrest⟩ := List.forall_mem_cons.1 h
    rw [hostStoreStop, hostAddressStop_backed hx, ih hrest, List.any_cons]
    change (if s.hostStoreBarred x = true then _ else _) = _
    cases s.hostStoreBarred x <;> rfl

/-- The stop of a whole store, its addresses counted from the first (R763). -/
theorem hostStoreStop_range' {n : Nat} (h : ∀ k, k < n → s.plat.busOk (a + k) = true) :
    hostStoreStop s (List.range' a n) =
      if (List.range n).any fun k => s.hostStoreBarred (a + k) then some (.refused .hostStoreWhileBusy) else none := by
  rw [List.range'_eq_map_range, hostStoreStop_backed, List.any_map]
  · rfl
  · simpa using h

theorem hostStore_allowed (hbacked : ∀ k, k < bytes.length → s.plat.busOk (a + k) = true)
    (h : ∀ k, k < bytes.length → s.hostStoreBarred (a + k) = false) :
    hostStore a bytes s = .next { s with mem := s.mem.writeAll a bytes } := by
  have hall : ((List.range bytes.length).any fun k => s.hostStoreBarred (a + k)) = false := by simpa using h
  rw [hostStore, hostStoreStop_range' hbacked, hall]
  rfl

theorem hostStore_barred (hbacked : ∀ k, k < bytes.length → s.plat.busOk (a + k) = true)
    (h : ∃ k, k < bytes.length ∧ s.hostStoreBarred (a + k) = true) :
    hostStore a bytes s = .refused .hostStoreWhileBusy := by
  have hany : ((List.range bytes.length).any fun k => s.hostStoreBarred (a + k)) = true := by simpa using h
  rw [hostStore, hostStoreStop_range' hbacked, hany]
  rfl

/-- A load of a backed byte reads it, or a free value in `OUT` of a running command (R790). -/
theorem hostLoad_backed (h : s.plat.busOk a = true) : hostLoad a s =
    if s.busy && s.inOut a then .next (s.readAny fun v => v &&& 0xFF#32)
    else .next (s.withReadData ((s.mem.read a).setWidth 32)) := by
  rw [hostLoad, hostAddressStop_backed h]

end HostMemory

/-- Settles O16: among backed addresses only the barred ones stop a store, and only `OUT` while busy hides a byte. -/
theorem hostMemoryMoves : Obligations.HostMemoryMoves := by
  intro s rest a
  refine ⟨fun bytes hm hbacked => ⟨fun hfree => ?_, fun hbarred => ?_⟩, fun hm hbacked => ?_⟩
  · have hstore := hostStore_allowed (s := s.withMoves rest) hbacked fun k hk =>
      State.hostStoreBarred_eq_false.2 (hfree k hk)
    refine ⟨_, (step_move hm).trans hstore, rfl, rfl, rfl, fun k hk => ?_, fun x hx => ?_⟩
    · rw [List.getElem?_eq_getElem hk]
      exact congrArg some (Memory.read_writeAll_inside _ _ _ hk)
    · exact Memory.read_writeAll_outside _ _ _ hx
  · obtain ⟨k, hk, hin⟩ := hbarred
    have hstop := hostStore_barred (s := s.withMoves rest) hbacked ⟨k, hk, State.hostStoreBarred_eq_true.2 hin⟩
    exact (step_move hm).trans hstop
  · have hload := (step_move hm).trans (hostLoad_backed (s := s.withMoves rest) hbacked)
    refine ⟨fun hreads => ?_, fun hb ho => ?_⟩
    · exact hload.trans (if_neg (Bool.eq_false_iff.1 (Bool.and_eq_false_iff.2 hreads)))
    · exact hload.trans (if_pos (Bool.and_eq_true_iff.2 ⟨hb, ho⟩))

/-! ## The level of `irq` (R740, R741) -/

@[simp] theorem State.finish_irq (s : State) : s.finish.irq = s.reg.irqEn := by simp [State.irq]

@[simp] theorem State.raise_irq (s : State) (e : CodecError) : (s.raise e).irq = s.reg.irqEn := by simp [State.irq]

/-- With neither outcome pending the level is low, whatever `IRQ_EN` is (R740). -/
theorem State.irq_of_no_outcome {s : State} (hdone : s.reg.done = false) (herr : s.reg.err = false) :
    s.irq = false := by
  simp [State.irq, hdone, herr]

/-- Settles O14: the two ends set an outcome; `START` and a write of 1 to both bits of `STATUS` leave none. -/
theorem irqLevelFollowsTheOutcome : Obligations.IrqLevelFollowsTheOutcome := by
  refine fun s t => ⟨s.finish_irq, s.raise_irq, fun rest v hidle ht => ⟨fun hm => ?_, fun hm hdone herr => ?_⟩⟩
  · obtain ⟨hstart, hstore⟩ := startWriteBeginsACommand s rest v hidle hm
    cases hv : v.getLsbD 0 with
    | true =>
      cases (hstart hv).symm.trans ht
      exact State.irq_of_no_outcome rfl rfl
    | false =>
      cases (hstore hv).symm.trans ht
      rfl
  · obtain ⟨-, -, -, hstatus⟩ := hostWritesRegisters s rest v
    cases (hstatus hm).symm.trans ht
    exact State.irq_of_no_outcome (by simp [hdone]) (by simp [herr])

/-! ## What a raised error records (R750) -/

theorem State.raise_reg_afterError (s : State) (e : CodecError) :
    (s.raise e).reg = s.reg.afterError e.code e.expected e.found := rfl

/-- Settles O17: `raise` records the error's code and checksums, and the table's rows give both. -/
theorem raiseRecordsTheError : Obligations.RaiseRecordsTheError := by
  refine ⟨fun p hp s => ?_, fun s expected found => s.raise_reg_afterError _,
    fun s e => ⟨s.raise_seq e, s.raise_plat e, s.raise_host e, fun _ ha => s.raise_mem_outside e ha⟩⟩
  have row : p.1.code = p.2 ∧ p.1.expected = 0#32 ∧ p.1.found = 0#32 := by
    revert p
    decide
  obtain ⟨hcode, hexp, hfound⟩ := row
  rw [s.raise_reg_afterError, hcode, hexp, hfound]

end Sys2Proof.Machine
end

section
/-! PROOFS. What reset leaves, and the reset input at any time (spec/70_reset_and_hazards.md R780, R781). -/

namespace Sys2Proof.Machine

/-! ## The reset input (R780) -/

section ResetInput
variable {s : State} {a : Nat}

/-- Only a running command with an output region is cut short, and then the bytes of its `OUT` are those of `inOut`. -/
theorem State.inOut_of_cutShort (h : s.cutShort = true) : s.busy = true ∧ s.inOut a = s.inDst a := by
  obtain ⟨hbusy, hout⟩ := Bool.and_eq_true_iff.1 h
  exact ⟨hbusy, by rw [State.inOut, hout, Bool.true_and]⟩

/-- With no command cut short the reset input leaves memory as it is. -/
theorem resetInput_mem_of_not_cutShort (h : ¬s.cutShort = true) : (resetInput s).mem = s.mem := if_neg h

/-- A byte outside the `OUT` of a running command reads as before the reset input (R780, R106). -/
theorem resetInput_mem_outside_running_out (h : s.busy = false ∨ s.inOut a = false) :
    (resetInput s).mem.read a = s.mem.read a := by
  by_cases hcut : s.cutShort = true
  · obtain ⟨hbusy, hout⟩ := State.inOut_of_cutShort (a := a) hcut
    have hin : s.inOut a = false := h.resolve_left (by simp [hbusy])
    exact resetInput_mem_outside s (hout ▸ hin)
  · rw [resetInput_mem_of_not_cutShort hcut]

@[simp] theorem resetInput_irq (s : State) : (resetInput s).irq = false := State.irq_of_no_outcome rfl rfl

end ResetInput

/-- Settles O2: the step is `resetInput` with the move taken, and memory is lost in the `OUT` of a cut-short command
alone. -/
theorem resetInputAnyTime : Obligations.ResetInputAnyTime := by
  intro s rest hm
  refine ⟨resetInput (s.withMoves rest), step_move hm, ?_, ?_, ?_, ?_, ?_, fun a ha => ?_⟩
  · rw [resetInput_host, State.withMoves_host]
  · exact resetInput_reg _
  · exact resetInput_seq _
  · exact resetInput_irq _
  · rw [resetInput_plat, State.withMoves_plat]
  · exact resetInput_mem_outside_running_out (s := s.withMoves rest) ha

/-! ## The state reset leaves (R781) -/

/-- Settles O1: the rows of `readRegister` at the reset values, and an idle core with no move pending waits. -/
theorem resetLeavesTheRulesValues : Obligations.ResetLeavesTheRulesValues := by
  obtain ⟨-, -, hwaits⟩ := stepRunsTheFetchedInstruction
  refine ⟨?_, rfl, State.irq_of_no_outcome rfl rfl, hwaits State.reset rfl rfl⟩
  simp only [List.forall_mem_cons]
  exact ⟨rfl, rfl, rfl, rfl, rfl, rfl, rfl, rfl, rfl, rfl, rfl, rfl, rfl, nofun⟩

end Sys2Proof.Machine
end
